-- ==== Sys2Proof/Word.lean ====
section
/-! DEFINITION. The word types of the Huffman Codec Core (HCC), rule R5 of spec/00_scope.md and rule R9 (all values unsigned). -/

namespace Sys2Proof

/-- A byte: a symbol, a byte of IN or OUT, BW_BUF, BR_BUF, LUT_LEN, ERRCODE (R5, R50, R54, R55, R56). -/
abbrev Byte := BitVec 8

/-- A register word and a command word: REG_W = 32, CNT_W = 32 (R5). -/
abbrev Word := BitVec 32

/-- A 64-bit unsigned value: a node weight, TOTAL, SYMCNT (R5 WEIGHT_W, R35, R36). -/
abbrev Weight := BitVec 64

/-- A 9-bit arena node index (R52, R99). -/
abbrev NodeIdx := BitVec 9

/-- The 256-bit code store of one symbol: code bit c(j) is bit j (R46, R54). -/
abbrev CodeBits := BitVec 256

end Sys2Proof
end

