-- ==== Sys2Proof/Syntax.lean ====
section
/-! DEFINITION. The command set HCC-1: one constructor for each row of spec/opcode_table.json (rule R102 of spec/30_encoding.md). -/

namespace Sys2Proof

/-- A command of HCC-1 with its operands (formats N, S, I, J, B of R97; operands R98 to R100). -/
inductive Instr
  /-- NOP, OPC 0x00 (R115). -/
  | nop
  /-- SOFT_RESET, OPC 0x01 (R116). -/
  | softReset
  /-- CLR_ERR, OPC 0x02 (R117). -/
  | clrErr
  /-- FREQ_CLEAR, OPC 0x10 (R125). -/
  | freqClear
  /-- FREQ_SCAN, OPC 0x11 (R126). -/
  | freqScan
  /-- FREQ_HDR_WR, OPC 0x12 (R127). -/
  | freqHdrWr
  /-- FREQ_HDR_RD, OPC 0x13 (R128). -/
  | freqHdrRd
  /-- ARENA_CLEAR, OPC 0x20 (R140). -/
  | arenaClear
  /-- NODE_LEAF sym, OPC 0x21 (R142). -/
  | nodeLeaf (sym : Byte)
  /-- NODE_JOIN idxa, idxb, OPC 0x22 (R144). -/
  | nodeJoin (idxa idxb : NodeIdx)
  /-- HEAP_CLEAR, OPC 0x24 (R145). -/
  | heapClear
  /-- HEAP_INSERT idx, OPC 0x25 (R147). -/
  | heapInsert (idx : NodeIdx)
  /-- HEAP_EXTRACT, OPC 0x26 (R150). -/
  | heapExtract
  /-- TREE_BUILD, OPC 0x30 (R160). -/
  | treeBuild
  /-- CODE_GEN, OPC 0x31 (R170). -/
  | codeGen
  /-- BW_RESET, OPC 0x40 (R180). -/
  | bwReset
  /-- BW_PUT n, val, OPC 0x41 (R183). -/
  | bwPut (n : BitVec 5) (val : BitVec 16)
  /-- BW_FINALIZE, OPC 0x42 (R184). -/
  | bwFinalize
  /-- BR_RESET, OPC 0x44 (R186). -/
  | brReset
  /-- BR_GET, OPC 0x45 (R188). -/
  | brGet
  /-- ENC_SYM sym, OPC 0x50 (R200). -/
  | encSym (sym : Byte)
  /-- ENC_NEXT, OPC 0x51 (R201). -/
  | encNext
  /-- DEC_SYM, OPC 0x52 (R202). -/
  | decSym
  /-- ENCODE, OPC 0x60 (R203). -/
  | encode
  /-- DECODE, OPC 0x61 (R204). -/
  | decode
  deriving DecidableEq, Repr

end Sys2Proof
end

