-- ==== Sys2Proof/WellFormed.lean ====
section
/-! DEFINITION. When a command's operands are legal. The operand types of `Instr` already have the widths of R97; the one
further condition of the spec is that of BW_PUT, rule R100 of spec/30_encoding.md. -/

namespace Sys2Proof

/-- The condition of R100 on BW_PUT: N is 1 to 16, and VAL[15:N] is 0 (no such bits when N = 16). -/
def bwPutLegal (n : BitVec 5) (val : BitVec 16) : Bool :=
  decide (1 ≤ n.toNat) && decide (n.toNat ≤ 16) && (val >>> n.toNat == 0#16)

/-- A command is well formed when its operands are legal (R100, R104); only BW_PUT has a condition beyond the widths. -/
def Instr.wellFormed : Instr → Bool
  | .nop => true
  | .softReset => true
  | .clrErr => true
  | .freqClear => true
  | .freqScan => true
  | .freqHdrWr => true
  | .freqHdrRd => true
  | .arenaClear => true
  | .nodeLeaf _ => true
  | .nodeJoin _ _ => true
  | .heapClear => true
  | .heapInsert _ => true
  | .heapExtract => true
  | .treeBuild => true
  | .codeGen => true
  | .bwReset => true
  | .bwPut n val => bwPutLegal n val
  | .bwFinalize => true
  | .brReset => true
  | .brGet => true
  | .encSym _ => true
  | .encNext => true
  | .decSym => true
  | .encode => true
  | .decode => true

end Sys2Proof
end

