-- ==== Sys2Proof/Decode.lean ====
section
/-! DEFINITION. Decoding and encoding of command words, rules R95 to R106 of spec/30_encoding.md. -/

namespace Sys2Proof

/-- OPC, bits [31:24] of every command word (R96). -/
def opcodeOf (w : Word) : BitVec 8 := w.extractLsb' 24 8

/-- Format N: bits [23:0] are reserved and must be 0 (R97, R106). -/
def decodeN (w : Word) (i : Instr) : Option Instr :=
  if w.extractLsb' 0 24 = 0#24 then some i else none

/-- Format S: bits [23:8] are reserved and must be 0, [7:0] is SYM (R97, R98, R106). -/
def decodeS (w : Word) (f : Byte → Instr) : Option Instr :=
  if w.extractLsb' 8 16 = 0#16 then some (f (w.extractLsb' 0 8)) else none

/-- Format I: bits [23:9] are reserved and must be 0, [8:0] is IDX (R97, R99, R106). -/
def decodeI (w : Word) (f : NodeIdx → Instr) : Option Instr :=
  if w.extractLsb' 9 15 = 0#15 then some (f (w.extractLsb' 0 9)) else none

/-- Format J: bits [23:18] are reserved and must be 0, [17:9] is IDXA, [8:0] is IDXB (R97, R99, R106). -/
def decodeJ (w : Word) (f : NodeIdx → NodeIdx → Instr) : Option Instr :=
  if w.extractLsb' 18 6 = 0#6 then some (f (w.extractLsb' 9 9) (w.extractLsb' 0 9)) else none

/-- Format B: bits [23:21] are reserved and must be 0, [20:16] is N, [15:0] is VAL, and N and VAL are legal (R97, R100, R106). -/
def decodeB (w : Word) (f : BitVec 5 → BitVec 16 → Instr) : Option Instr :=
  if w.extractLsb' 21 3 = 0#3 && bwPutLegal (w.extractLsb' 16 5) (w.extractLsb' 0 16) then
    some (f (w.extractLsb' 16 5) (w.extractLsb' 0 16))
  else none

/-- The decoder, total on all 2^32 words (R106): `none` is "illegal". The opcode alone selects the command and its format
(R96, R102); an opcode outside the map is reserved (R103). -/
def decode (w : Word) : Option Instr :=
  match opcodeOf w with
  | 0x00#8 => decodeN w .nop
  | 0x01#8 => decodeN w .softReset
  | 0x02#8 => decodeN w .clrErr
  | 0x10#8 => decodeN w .freqClear
  | 0x11#8 => decodeN w .freqScan
  | 0x12#8 => decodeN w .freqHdrWr
  | 0x13#8 => decodeN w .freqHdrRd
  | 0x20#8 => decodeN w .arenaClear
  | 0x21#8 => decodeS w .nodeLeaf
  | 0x22#8 => decodeJ w .nodeJoin
  | 0x24#8 => decodeN w .heapClear
  | 0x25#8 => decodeI w .heapInsert
  | 0x26#8 => decodeN w .heapExtract
  | 0x30#8 => decodeN w .treeBuild
  | 0x31#8 => decodeN w .codeGen
  | 0x40#8 => decodeN w .bwReset
  | 0x41#8 => decodeB w .bwPut
  | 0x42#8 => decodeN w .bwFinalize
  | 0x44#8 => decodeN w .brReset
  | 0x45#8 => decodeN w .brGet
  | 0x50#8 => decodeS w .encSym
  | 0x51#8 => decodeN w .encNext
  | 0x52#8 => decodeN w .decSym
  | 0x60#8 => decodeN w .encode
  | 0x61#8 => decodeN w .decode
  | _ => none

/-- Why the decoder refuses a word, by name. -/
inductive DecodeRefusal
  /-- A reserved opcode (R103). -/
  | reservedOpcode
  /-- A defined opcode with a nonzero reserved field, or an illegal BW_PUT count or value (R104). -/
  | reservedField
  deriving DecidableEq, Repr

/-- The opcodes of R102. -/
def opcodes : List (BitVec 8) :=
  [0x00#8, 0x01#8, 0x02#8, 0x10#8, 0x11#8, 0x12#8, 0x13#8, 0x20#8, 0x21#8, 0x22#8, 0x24#8, 0x25#8, 0x26#8] ++
  [0x30#8, 0x31#8, 0x40#8, 0x41#8, 0x42#8, 0x44#8, 0x45#8, 0x50#8, 0x51#8, 0x52#8, 0x60#8, 0x61#8]

/-- The decoder with its refusal named (R103, R104). Either name means the same to the machine: ERR_ILLEGAL_CMD. -/
def decodeNamed (w : Word) : Except DecodeRefusal Instr :=
  match decode w with
  | some i => .ok i
  | none => if opcodeOf w ∈ opcodes then .error .reservedField else .error .reservedOpcode

/-! ## The encoder -/

/-- A word of format N (R97). -/
def encodeN (opc : BitVec 8) : Word := opc ++ 0#24

/-- A word of format S (R97). -/
def encodeS (opc : BitVec 8) (sym : Byte) : Word := opc ++ 0#16 ++ sym

/-- A word of format I (R97). -/
def encodeI (opc : BitVec 8) (idx : NodeIdx) : Word := opc ++ 0#15 ++ idx

/-- A word of format J (R97). -/
def encodeJ (opc : BitVec 8) (idxa idxb : NodeIdx) : Word := opc ++ 0#6 ++ idxa ++ idxb

/-- A word of format B (R97). -/
def encodeB (opc : BitVec 8) (n : BitVec 5) (val : BitVec 16) : Word := opc ++ 0#3 ++ n ++ val

/-- OPC of a command (R102). -/
def Instr.opcode : Instr → BitVec 8
  | .nop => 0x00#8
  | .softReset => 0x01#8
  | .clrErr => 0x02#8
  | .freqClear => 0x10#8
  | .freqScan => 0x11#8
  | .freqHdrWr => 0x12#8
  | .freqHdrRd => 0x13#8
  | .arenaClear => 0x20#8
  | .nodeLeaf _ => 0x21#8
  | .nodeJoin _ _ => 0x22#8
  | .heapClear => 0x24#8
  | .heapInsert _ => 0x25#8
  | .heapExtract => 0x26#8
  | .treeBuild => 0x30#8
  | .codeGen => 0x31#8
  | .bwReset => 0x40#8
  | .bwPut _ _ => 0x41#8
  | .bwFinalize => 0x42#8
  | .brReset => 0x44#8
  | .brGet => 0x45#8
  | .encSym _ => 0x50#8
  | .encNext => 0x51#8
  | .decSym => 0x52#8
  | .encode => 0x60#8
  | .decode => 0x61#8

/-- The word of a command (R97, R102): `OPC, fields` as R107 writes it. -/
def encode : Instr → Word
  | .nop => encodeN 0x00#8
  | .softReset => encodeN 0x01#8
  | .clrErr => encodeN 0x02#8
  | .freqClear => encodeN 0x10#8
  | .freqScan => encodeN 0x11#8
  | .freqHdrWr => encodeN 0x12#8
  | .freqHdrRd => encodeN 0x13#8
  | .arenaClear => encodeN 0x20#8
  | .nodeLeaf sym => encodeS 0x21#8 sym
  | .nodeJoin idxa idxb => encodeJ 0x22#8 idxa idxb
  | .heapClear => encodeN 0x24#8
  | .heapInsert idx => encodeI 0x25#8 idx
  | .heapExtract => encodeN 0x26#8
  | .treeBuild => encodeN 0x30#8
  | .codeGen => encodeN 0x31#8
  | .bwReset => encodeN 0x40#8
  | .bwPut n val => encodeB 0x41#8 n val
  | .bwFinalize => encodeN 0x42#8
  | .brReset => encodeN 0x44#8
  | .brGet => encodeN 0x45#8
  | .encSym sym => encodeS 0x50#8 sym
  | .encNext => encodeN 0x51#8
  | .decSym => encodeN 0x52#8
  | .encode => encodeN 0x60#8
  | .decode => encodeN 0x61#8

/-! ## The table's numbering -/

/-- The word whose low `nbits` bits are those of `w` and whose other bits are 0. A command is one 32-bit word (R95), so the
table's numbering (bit 0 the least significant) is the word's own. -/
def tableWord (nbits w : Nat) : Word := BitVec.ofNat 32 (w % 2 ^ nbits)

/-- The command this decoder reads from a row of spec/opcode_table.json whose bits are `w`. -/
def decodeTableWord (nbits w : Nat) : Option Instr := decode (tableWord nbits w)

end Sys2Proof
end

