-- ==== Sys2Proof/Config.lean ====
section
/-! DEFINITION. What is fixed for the machine, and the free values the spec leaves open. -/

namespace Sys2Proof.Config

/-- HDR_BYTES: the header is 1024 bytes (R5, R72). -/
def hdrBytes : Nat := 1024

/-- HEAP_CAP: 256 heap slots (R5, R51). -/
def heapCap : Nat := 256

/-- ARENA_CAP: 511 node slots (R5, R52). -/
def arenaCap : Nat := 511

/-- The ID register's constant, "HCC" and version byte 0x01 (R2, R24). -/
def idWord : Word := 0x48434301#32

/-- The register space is 0x5000 bytes (R22). -/
def regSpaceBytes : Nat := 0x5000

/-- DESIGN CHOICE (log 5): the value of the open parameter IN_SIZE (R6) in `State.reset`. Every state carries its own
IN_SIZE, so statements over all states hold for every legal size. -/
def inSize : Word := 4096#32

/-- DESIGN CHOICE (log 5): the value of the open parameter OUT_CAP (R6) in `State.reset`. -/
def outCap : Word := 4096#32

/-- FREE VALUE (log 2): the unspecified contents of IN after reset number `epoch` (R58, R261), one byte for each address. -/
opaque inPowerOn (epoch addr : Nat) : Byte

/-- FREE VALUE (log 2): the unspecified contents of OUT after reset number `epoch` (R58, R261), one byte for each address. -/
opaque outPowerOn (epoch addr : Nat) : Byte

/-- FREE VALUE (log 3): what the `n`-th host read of an OUT byte at or above OUT_POS returns (R75). -/
opaque staleByte (n : Nat) : Byte

/-- FREE VALUE (log 4): what the `n`-th host register read that R266 leaves unspecified returns. -/
opaque busyRead (n : Nat) : Word

/-- PARAMETER (R78, I9; log 12): what the platform answers to a read of `width` bytes at an offset at or above 0x5000, outside the
HCC, when `n` free values have been taken before it. -/
opaque platformAnswer (n width off : Nat) : Word

end Sys2Proof.Config
end

