-- ==== Sys2Proof/Machine/State.lean ====
section
/-! DEFINITION. The machine's state as plain data: everything spec/10_state.md gives the HCC, and the coming accesses of the
other agents (R8, R83). -/

namespace Sys2Proof.Machine

/-- An error of the HCC, rule R230 of spec/60_exceptions.md. An HCC error is no stop: it completes the command. -/
inductive ErrKind
  /-- 0x01 ERR_ILLEGAL_CMD. -/
  | illegalCmd
  /-- 0x02 ERR_SINK_FULL. -/
  | sinkFull
  /-- 0x03 ERR_HDR_TRUNC. -/
  | hdrTrunc
  /-- 0x04 ERR_PAYLOAD_TRUNC. -/
  | payloadTrunc
  /-- 0x05 ERR_HEAP_UNDERFLOW. -/
  | heapUnderflow
  /-- 0x06 ERR_HEAP_FULL. -/
  | heapFull
  /-- 0x07 ERR_ARENA_FULL. -/
  | arenaFull
  /-- 0x08 ERR_BAD_NODE. -/
  | badNode
  /-- 0x09 ERR_WEIGHT_OVF. -/
  | weightOvf
  /-- 0x0A ERR_FREQ_OVF. -/
  | freqOvf
  /-- 0x0B ERR_NO_TREE. -/
  | noTree
  /-- 0x0C ERR_NO_LUT. -/
  | noLut
  /-- 0x0D ERR_NO_CODE. -/
  | noCode
  /-- 0x0E ERR_IN_EOS. -/
  | inEos
  deriving DecidableEq, Repr

/-- TREE (R53): NONE, EMPTY or VALID. -/
inductive TreeState
  /-- 0: no tree, or a stale one. -/
  | none
  /-- 1: built from an all-zero table, no root. -/
  | empty
  /-- 2: built, the root present. -/
  | valid
  deriving DecidableEq, Repr

/-- One node of the arena (R52). A leaf has `l = r = 0`, an internal node `sym = 0` (D43); `leaf` tells them apart. -/
structure Node where
  /-- W, 64 bits. -/
  weight : Weight
  /-- SYM, 8 bits. -/
  sym : Byte
  /-- LEAF, 1 bit. -/
  leaf : Bool
  /-- L, the left child's index. -/
  l : NodeIdx
  /-- R, the right child's index. -/
  r : NodeIdx
  deriving DecidableEq, Repr

/-- One access of the host (R8, R70, R76). -/
inductive HostAction
  /-- A register write of `width` bytes at byte offset `off` (R76, R77). -/
  | regWrite (width off : Nat) (v : Word)
  /-- A register read of `width` bytes at byte offset `off` (R76, R77). -/
  | regRead (width off : Nat)
  /-- A byte written into IN through the platform's port (R70, I24). -/
  | loadIn (addr : Nat) (b : Byte)
  /-- A byte read from OUT through the platform's port (R70, I24). -/
  | readOut (addr : Nat)
  deriving DecidableEq, Repr

/-- What takes effect next in the one total order of R83 (log 1). -/
inductive Event
  /-- An access of the host. -/
  | host (a : HostAction)
  /-- The reset input is asserted and released (R260). -/
  | reset
  /-- A turn of the sequencer (R236). -/
  | sequencer
  deriving DecidableEq, Repr

/-- The bytes of IN or OUT that have been written since the last reset, as (address, byte) pairs with strictly rising
addresses. An address that is not listed holds no written byte; what it then holds is unspecified (R58, R261; log 2). -/
abbrev Memory := List Host.Cell

/-- The state of the HCC (R20 to R61). HEAP_SIZE is the length of `heap` and ARENA_CNT the length of `arena`, since slots at
or above them hold no value (R51, R52; log 8). -/
structure State where
  /-- PENDING, the latched command word or none; BUSY = 1 exactly when it is a word (R57). -/
  pending : Option Word
  /-- STATUS.DONE (R26). -/
  done : Bool
  /-- STATUS.ERR (R26). -/
  err : Bool
  /-- STATUS.REJ (R26). -/
  rej : Bool
  /-- STATUS.OVR (R26). -/
  ovr : Bool
  /-- ERRCODE (R26, R230). -/
  errCode : Byte
  /-- ERRINFO (R30). -/
  errInfo : Word
  /-- CTRL.IE_DONE (R28). -/
  ieDone : Bool
  /-- CTRL.IE_ERR (R28). -/
  ieErr : Bool
  /-- RESULT (R29). -/
  result : Word
  /-- IN_LEN (R32). -/
  inLen : Word
  /-- IN_POS (R33). -/
  inPos : Word
  /-- OUT_POS (R34). -/
  outPos : Word
  /-- IN_SIZE, a parameter that nothing changes (R6, R31; log 5). -/
  inSize : Word
  /-- OUT_CAP, a parameter that nothing changes (R6, R31; log 5). -/
  outCap : Word
  /-- TOTAL (R35). -/
  total : Weight
  /-- SYMCNT (R36). -/
  symCnt : Weight
  /-- FREQ[0..255] (R50). -/
  freq : Vector Word 256
  /-- The occupied slots of HEAP, slot 0 first (R51). -/
  heap : List NodeIdx
  /-- The existing nodes of the arena, node 0 first (R52). -/
  arena : List Node
  /-- TREE (R53). -/
  tree : TreeState
  /-- ROOT (R39, R53). -/
  root : NodeIdx
  /-- NLEAF (R40, R53). -/
  nLeaf : BitVec 9
  /-- LUT_LEN[0..255] (R54). -/
  lutLen : Vector Byte 256
  /-- LUT_CODE[0..255] (R54). -/
  lutCode : Vector CodeBits 256
  /-- LUT_VALID (R54). -/
  lutValid : Bool
  /-- BW_BUF (R55). -/
  bwBuf : Byte
  /-- BW_CNT, 0 to 7 (R55). -/
  bwCnt : Nat
  /-- BR_BUF (R56). -/
  brBuf : Byte
  /-- BR_CNT, 0 to 8 (R56). -/
  brCnt : Nat
  /-- The written bytes of IN (R58, R71). -/
  inMem : Memory
  /-- The written bytes of OUT (R58, R75). -/
  outMem : Memory
  /-- The model's own: the accesses, resets and sequencer turns to come, the next first (log 1). -/
  events : List Event
  /-- The model's own: how many resets of R260 have happened; selects the contents of IN and OUT after a reset (log 2). -/
  epoch : Nat
  /-- The model's own: how many fresh free values have been taken (log 3, log 4, log 12). -/
  freeCnt : Nat
  /-- The model's own: the word the host's last read on the bus returned, from a register or from the platform (log 7, log 12). -/
  hostData : Word
  /-- The model's own: the byte the host's last read of OUT returned (log 7). -/
  hostByte : Byte
  deriving DecidableEq, Repr

/-- The faults: the machine stops. No sequencer step raises one from a state that meets the invariants of R60. -/
inductive Fault
  /-- A read of IN at or above IN_SIZE, or a host write there: no such address (R70). Raised by the IN read of FREQ_SCAN,
  FREQ_HDR_RD, ENC_NEXT, BR_GET, DEC_SYM, ENCODE, DECODE and by the host's port. Safe (log 11). -/
  | noSuchInAddress
  /-- A write of OUT at or above OUT_CAP, or a host read there: no such address (R70). Raised by the OUT write of FREQ_HDR_WR,
  BW_PUT, BW_FINALIZE, ENC_SYM, ENC_NEXT, DEC_SYM, ENCODE, DECODE and by the host's port. Safe (log 11). -/
  | noSuchOutAddress
  /-- A primitive called outside the condition its rule states: NewLeaf R141, NewJoin R143, HeapInsert R146, HeapExtract R149.
  Raised by TREE_BUILD and the commands of spec/42_heap.md, never in fact (R163). Safe (log 9). -/
  | primitiveMisused
  /-- CODE_GEN's Walk (R170) does not end, because the arena holds a cycle. Raised by CODE_GEN and ENCODE, never from a state
  in which children stand below their parent (R52). Safe (log 10). -/
  | walkDiverges
  deriving DecidableEq, Repr

/-- The refusals: no meaning. Apart from `notModelled` all are of accesses the host must not make. -/
inductive Refusal
  /-- An instruction that has no meaning yet, by its mnemonic. Raised by `exec`'s refused arms only. Safe. -/
  | notModelled (mnemonic : String)
  /-- A register access that is not 32 bits wide or not at an offset that is 0 mod 4 (R77). Raised by the host's access. Safe. -/
  | badBusAccess
  /-- A host access to IN or OUT through the platform's port while BUSY = 1 (R267). Raised by the host's access. Safe. -/
  | portWhileBusy
  deriving DecidableEq, Repr

/-- The outcome of a step of this machine. -/
abbrev Outcome := Host.Outcome State Fault Refusal

/-- Every piece of architectural state at its value of R61, for a machine of the given IN_SIZE and OUT_CAP; the model's own
fields at 0 (log 7). -/
def State.resetFor (inSize outCap : Word) : State where
  pending := none
  done := false
  err := false
  rej := false
  ovr := false
  errCode := 0#8
  errInfo := 0#32
  ieDone := false
  ieErr := false
  result := 0#32
  inLen := 0#32
  inPos := 0#32
  outPos := 0#32
  inSize := inSize
  outCap := outCap
  total := 0#64
  symCnt := 0#64
  freq := Vector.replicate 256 0#32
  heap := []
  arena := []
  tree := .none
  root := 0#9
  nLeaf := 0#9
  lutLen := Vector.replicate 256 0#8
  lutCode := Vector.replicate 256 0#256
  lutValid := false
  bwBuf := 0#8
  bwCnt := 0
  brBuf := 0#8
  brCnt := 0
  inMem := []
  outMem := []
  events := []
  epoch := 0
  freeCnt := 0
  hostData := 0#32
  hostByte := 0#8

/-- The machine right after reset (R61, R260), with the sizes of `Config` (log 5). -/
def State.reset : State := State.resetFor Config.inSize Config.outCap

end Sys2Proof.Machine
end

