-- ==== Sys2Proof/Machine/Ops.lean ====
section
/-! DEFINITION. The shared operations: memory, the tables indexed by a symbol, the run of a command, completion and error. -/

namespace Sys2Proof.Machine

/-! ## Memory -/

/-- The canonical form of a memory: addresses strictly rising. An unlisted address holds no written byte, so no entry can
equal what an unlisted address holds, and equal memories are equal lists. -/
abbrev Memory.wf (m : Memory) : Prop := m.Pairwise fun x y => x.1 < y.1

/-- The byte written last at address `a`, or none when nothing was written there since reset. -/
def Memory.read? (m : Memory) (a : Nat) : Option Byte := m.lookup a

/-- Bytes laid out at consecutive rising addresses from `a`. -/
def cellsFrom : Nat → List Byte → Memory
  | _, [] => []
  | a, b :: bs => (a, b) :: cellsFrom (a + 1) bs

/-- Write the bytes `bs` at the addresses `a`, `a + 1`, ... (R75, R127). -/
def Memory.writeBlock (m : Memory) (a : Nat) (bs : List Byte) : Memory :=
  m.filter (fun c => decide (c.1 < a)) ++ cellsFrom a bs ++ m.filter (fun c => decide (a + bs.length ≤ c.1))

/-- Write one byte (R11 MemWrite). -/
def Memory.write (m : Memory) (a : Nat) (b : Byte) : Memory := m.writeBlock a [b]

/-- What IN holds at address `a`: the byte the host wrote, or the unspecified content after reset (R58, R71; log 2). -/
def State.inByte (s : State) (a : Nat) : Byte := (s.inMem.read? a).getD (Config.inPowerOn s.epoch a)

/-- What OUT holds at address `a`: the byte a command wrote, or the unspecified content after reset (R58, R75; log 2). -/
def State.outByte (s : State) (a : Nat) : Byte := (s.outMem.read? a).getD (Config.outPowerOn s.epoch a)

/-! ## Tables indexed by a byte value (R50, R54) -/

/-- Entry `b` of a 256-entry table. -/
def tableGet {α : Type} (t : Vector α 256) (b : Byte) : α := t[b.toNat]'b.isLt

/-- The table with entry `b` set to `v`. -/
def tableSet {α : Type} (t : Vector α 256) (b : Byte) (v : α) : Vector α 256 := t.set b.toNat v b.isLt

/-- The byte values 0 to 255 in ascending order (the loops `for s in 0..255` of R11). -/
def allBytes : List Byte := (List.range 256).map fun n => BitVec.ofNat 8 n

/-! ## The run of a command -/

/-- What the run of a command, or of a part of it, comes to: a value and the state reached, or the error raised with its
information and the state the completed steps left (R12, R236), or a fault of the model. -/
inductive Run (α : Type)
  /-- The run succeeded. -/
  | ok (a : α) (s : State)
  /-- `raise ERR_<k>(info)` was reached (R11); `s` holds the writes of the steps completed before it. -/
  | err (k : ErrKind) (info : Word) (s : State)
  /-- The machine stops. -/
  | fault (f : Fault)

/-- Run one part after another: the first `raise` ends the command (R234). -/
def Run.andThen {α β : Type} (r : Run α) (f : α → State → Run β) : Run β :=
  match r with
  | .ok a s => f a s
  | .err k info s => .err k info s
  | .fault e => .fault e

/-! ## Completion and errors (R236) -/

/-- ERRCODE of an error (R230). -/
def ErrKind.code : ErrKind → Byte
  | .illegalCmd => 0x01#8
  | .sinkFull => 0x02#8
  | .hdrTrunc => 0x03#8
  | .payloadTrunc => 0x04#8
  | .heapUnderflow => 0x05#8
  | .heapFull => 0x06#8
  | .arenaFull => 0x07#8
  | .badNode => 0x08#8
  | .weightOvf => 0x09#8
  | .freqOvf => 0x0A#8
  | .noTree => 0x0B#8
  | .noLut => 0x0C#8
  | .noCode => 0x0D#8
  | .inEos => 0x0E#8

/-- The end of every command: PENDING <- none, DONE <- 1 (R236). -/
def State.finish (s : State) : State := { s with pending := none, done := true }

/-- TAKING AN ERROR, the HCC's only exception (R236, R237): ERR <- 1, ERRCODE <- code, ERRINFO <- info, then completion.
RESULT is not written (R29), nothing else is saved and no mode changes (R237). -/
def State.takeError (s : State) (k : ErrKind) (info : Word) : State :=
  { s with err := true, errCode := k.code, errInfo := info }.finish

/-- THE RETURN FROM AN ERROR, the effect of CLR_ERR (R117, R238): all error state cleared, all data state kept. -/
def State.clearError (s : State) : State :=
  { s with err := false, errCode := 0#8, errInfo := 0#32, rej := false, ovr := false }

/-- Completion of a command that names no result value: RESULT is unchanged (R29, R236). -/
def complete (r : Run Unit) : Host.Outcome State Fault Refusal :=
  match r with
  | .ok _ s => .next s.finish
  | .err k info s => .next (s.takeError k info)
  | .fault f => .fault f

/-- Completion of a command that names a result value, which RESULT takes on success only (R29, R236). -/
def completeWith (r : Run Word) : Host.Outcome State Fault Refusal :=
  match r with
  | .ok v s => .next { s with result := v }.finish
  | .err k info s => .next (s.takeError k info)
  | .fault f => .fault f

/-! ## Invalidation (R59) and reset (R116, R260) -/

/-- `InvalidateDerived()` (R59): TREE <- NONE, ROOT <- 0, LUT_VALID <- 0. Arena, heap, NLEAF, TOTAL and LUT are kept. -/
def State.invalidateDerived (s : State) : State := { s with tree := .none, root := 0#9, lutValid := false }

/-- Every write of a FREQ entry invalidates what was derived from the table (R43, R59). -/
def State.writeFreq (s : State) (b : Byte) (v : Word) : State :=
  { s with freq := tableSet s.freq b v }.invalidateDerived

/-- The reset input (R260, R261): every state element takes its value of R61, a pending command is abandoned, and the contents
of IN and OUT become unspecified (a new epoch). The model's other own fields are kept (log 13). -/
def State.hardReset (s : State) : State :=
  { State.resetFor s.inSize s.outCap with
    events := s.events, epoch := s.epoch + 1, freeCnt := s.freeCnt, hostData := s.hostData, hostByte := s.hostByte }

/-- The effect of SOFT_RESET (R116): every state element takes its value of R61, except the contents of IN and OUT. -/
def State.softReset (s : State) : State :=
  { State.resetFor s.inSize s.outCap with
    inMem := s.inMem, outMem := s.outMem,
    events := s.events, epoch := s.epoch, freeCnt := s.freeCnt, hostData := s.hostData, hostByte := s.hostByte }

/-! ## The cursors (R33, R34, R71, R75) -/

/-- The bytes of IN from IN_POS to IN_LEN, 0 when IN_POS is at or past IN_LEN (R128 `avail`). -/
def State.avail (s : State) : Nat := s.inLen.toNat - s.inPos.toNat

/-- The free bytes of OUT, OUT_CAP - OUT_POS (R75). -/
def State.room (s : State) : Nat := s.outCap.toNat - s.outPos.toNat

/-- `MemRead(IN, IN_POS, 1)` (R11, R71). It moves no cursor. -/
def memReadIn (s : State) : Run Byte :=
  if s.inPos.toNat < s.inSize.toNat then .ok (s.inByte s.inPos.toNat) s else .fault .noSuchInAddress

/-- `MemWrite(OUT, OUT_POS, 1, b)` followed by `OUT_POS <- OUT_POS + 1` (R11, R75). -/
def memWriteOut (b : Byte) (s : State) : Run Unit :=
  if s.outPos.toNat < s.outCap.toNat then
    .ok () { s with outMem := s.outMem.write s.outPos.toNat b, outPos := s.outPos + 1#32 }
  else .fault .noSuchOutAddress

/-- The check `if OUT_CAP - OUT_POS < k: raise ERR_SINK_FULL(k)` that comes before a step's writes (R75, R233). -/
def checkRoom (k : Nat) (s : State) : Run Unit :=
  if s.room < k then .err .sinkFull (BitVec.ofNat 32 k) s else .ok () s

end Sys2Proof.Machine
end

