-- ==== Sys2Proof/Machine/Operands.lean ====
section
/-! DEFINITION. How a command's operands and the arrays' slots are read: node indices (R99), heap slots (R51), the bits of a
BW_PUT value (R100) and of a code (R46), and the header's bytes (R72). -/

namespace Sys2Proof.Machine

/-- A node whose every field reads 0: what NODE[n] reads as for n >= ARENA_CNT (R47, I15; log 8). -/
def absentNode : Node := ⟨0#64, 0#8, false, 0#9, 0#9⟩

/-- NODE[n] (R11, R52). -/
def nodeAt (arena : List Node) (n : NodeIdx) : Node := arena.getD n.toNat absentNode

/-- W(n) = NODE[n].W (R11). -/
def weightAt (arena : List Node) (n : NodeIdx) : Weight := (nodeAt arena n).weight

/-- HEAP[k], 0 for k >= HEAP_SIZE (R45, R51, I15; log 8). -/
def slot (heap : List NodeIdx) (k : Nat) : NodeIdx := heap.getD k 0#9

/-- ARENA_CNT as a node index: the index the next node gets (R141, R143). -/
def State.nextNode (s : State) : NodeIdx := BitVec.ofNat 9 s.arena.length

/-- The check `if i >= ARENA_CNT: raise ERR_BAD_NODE(i)` of a node index operand (R99, R144, R147). -/
def checkNode (i : NodeIdx) (s : State) : Run Unit :=
  if s.arena.length ≤ i.toNat then .err .badNode (i.setWidth 32) s else .ok () s

/-- The bits a BW_PUT sends, VAL[N-1] first down to VAL[0] (R100, R183). -/
def putBitsOf (n : BitVec 5) (val : BitVec 16) : List Bool :=
  (List.range n.toNat).map fun j => val.getLsbD (n.toNat - 1 - j)

/-- The bits of a stored code, c(0) first (R10, R46, R199). -/
def codeBitsOf (len : Byte) (code : CodeBits) : List Bool :=
  (List.range len.toNat).map fun j => code.getLsbD j

/-- The code store of a path: bit j is path(j), every bit past the path 0 (R46, R170). -/
def codeStore : List Bool → CodeBits
  | [] => 0#256
  | b :: bs => (codeStore bs <<< 1) ||| (if b then 1#256 else 0#256)

/-- The four big-endian bytes of a count (R72). -/
def bigEndian (v : Word) : List Byte :=
  [v.extractLsb' 24 8, v.extractLsb' 16 8, v.extractLsb' 8 8, v.extractLsb' 0 8]

/-- The count that four big-endian bytes hold (R72). -/
def fromBigEndian (b0 b1 b2 b3 : Byte) : Word := b0 ++ b1 ++ b2 ++ b3

/-- The 1024 bytes of the header of a frequency table (R72). -/
def headerBytes (freq : Vector Word 256) : List Byte := freq.toList.flatMap bigEndian

/-- The frequency table of a header whose byte k is `byte k` (R72). -/
def headerTable (byte : Nat → Byte) : Vector Word 256 :=
  Vector.ofFn fun i => fromBigEndian (byte (4 * i.val)) (byte (4 * i.val + 1)) (byte (4 * i.val + 2)) (byte (4 * i.val + 3))

end Sys2Proof.Machine
end

