-- ==== Sys2Proof/Machine/Flags.lean ====
section
/-! DEFINITION. The status flags: every field of STATUS (R26), the live ones computed, and the interrupt output (R239). -/

namespace Sys2Proof.Machine

/-- A flag as one bit. -/
def bit (b : Bool) : BitVec 1 := if b then 1#1 else 0#1

/-- STATUS.BUSY: a command is pending (R26, R57). -/
def State.busy (s : State) : Bool := s.pending.isSome

/-- STATUS.HEAP_EMPTY: the live value of HEAP_SIZE = 0, the source's `isEmpty()` (R26). -/
def State.heapEmpty (s : State) : Bool := s.heap.isEmpty

/-- STATUS.BR_EOS: the live value of (BR_CNT = 0 and IN_POS >= IN_LEN); the next GetBit returns EOS (R26). -/
def State.brEos (s : State) : Bool := s.brCnt == 0 && decide (s.inLen ≤ s.inPos)

/-- The interrupt output: IRQ = (DONE & IE_DONE) | (ERR & IE_ERR), a level recomputed at every change (R239). -/
def State.irq (s : State) : Bool := (s.done && s.ieDone) || (s.err && s.ieErr)

/-- STATUS[7:6] (R26): 0 NONE, 1 EMPTY, 2 VALID; 3 never occurs. -/
def TreeState.code : TreeState → BitVec 2
  | .none => 0#2
  | .empty => 1#2
  | .valid => 2#2

/-- The STATUS word (R26). -/
def State.status (s : State) : Word :=
  0#8 ++ s.errCode ++ 0#5 ++ bit s.irq ++ bit s.brEos ++ bit s.lutValid ++ s.tree.code ++ bit s.heapEmpty ++ bit s.ovr
    ++ bit s.rej ++ bit s.err ++ bit s.done ++ bit s.busy

/-- The CTRL word (R28): bit 0 IE_DONE, bit 1 IE_ERR, the rest reads 0. -/
def State.ctrl (s : State) : Word := 0#30 ++ bit s.ieErr ++ bit s.ieDone

end Sys2Proof.Machine
end

