-- ==== Sys2Proof/Machine/BitIO.lean ====
section
/-! DEFINITION. The BitWriter and BitReader, spec/45_bitio.md. -/

namespace Sys2Proof.Machine

/-! ## BitWriter -/

/-- `buf[i] <- b`. -/
def setBit (buf : Byte) (i : Nat) (b : Bool) : Byte :=
  if b then buf ||| (1#8 <<< i) else buf &&& ~~~(1#8 <<< i)

/-- `PutBit(b)` (R182), MSB first (R74): the byte is written as soon as its eighth bit arrives. -/
def putBit (b : Bool) (s : State) : Run Unit :=
  if s.bwCnt + 1 = 8 then
    (memWriteOut (setBit s.bwBuf (7 - s.bwCnt) b) s).andThen fun _ s => .ok () { s with bwBuf := 0#8, bwCnt := 0 }
  else .ok () { s with bwBuf := setBit s.bwBuf (7 - s.bwCnt) b, bwCnt := s.bwCnt + 1 }

/-- PutBit of each bit in order. -/
def putBits : List Bool → State → Run Unit
  | [], s => .ok () s
  | b :: bs, s => (putBit b s).andThen fun _ s => putBits bs s

/-- The bytes that `n` more bits complete, (BW_CNT + n) div 8 (R183, R200). -/
def State.bytesCompleted (s : State) (n : Nat) : Nat := (s.bwCnt + n) / 8

/-- The effect of BW_FINALIZE (R184); its value is the number of pad bits written. -/
def bwFinalize (s : State) : Run Word :=
  if s.bwCnt = 0 then .ok 0#32 s
  else
    (checkRoom 1 s).andThen fun _ s =>
    (memWriteOut s.bwBuf s).andThen fun _ s =>
    .ok (BitVec.ofNat 32 (8 - s.bwCnt)) { s with bwBuf := 0#8, bwCnt := 0 }

/-- BW_RESET (R180). -/
def execBwReset (s : State) : Host.Outcome State Fault Refusal := complete (.ok () { s with bwBuf := 0#8, bwCnt := 0 })

/-- BW_PUT n, val (R183), one step: room for the completed bytes, then the bits, VAL[N-1] first. -/
def execBwPut (n : BitVec 5) (val : BitVec 16) (s : State) : Host.Outcome State Fault Refusal :=
  complete ((checkRoom (s.bytesCompleted n.toNat) s).andThen fun _ s => putBits (putBitsOf n val) s)

/-- BW_FINALIZE (R184). -/
def execBwFinalize (s : State) : Host.Outcome State Fault Refusal := completeWith (bwFinalize s)

/-! ## BitReader -/

/-- Deliver the next buffered bit BR_BUF[BR_CNT - 1] (R56, R187). -/
def takeBit (s : State) : Run (Option Bool) :=
  .ok (some (s.brBuf.getLsbD (s.brCnt - 1))) { s with brCnt := s.brCnt - 1 }

/-- `GetBit()` (R187): `some b` is Bit(b), `none` is EOS. A byte is fetched only when a bit is demanded and none is buffered;
EOS changes nothing and is not sticky. -/
def getBit (s : State) : Run (Option Bool) :=
  if s.brCnt = 0 then
    if s.inLen ≤ s.inPos then .ok none s
    else (memReadIn s).andThen fun b s => takeBit { s with brBuf := b, inPos := s.inPos + 1#32, brCnt := 8 }
  else takeBit s

/-- The RESULT value of BR_GET (R188): the bit, or 2 for end-of-source. -/
def bitResult : Option Bool → Word
  | some false => 0#32
  | some true => 1#32
  | none => 2#32

/-- BR_RESET (R186): the buffered bits are dropped, IN_POS is kept. -/
def execBrReset (s : State) : Host.Outcome State Fault Refusal := complete (.ok () { s with brBuf := 0#8, brCnt := 0 })

/-- BR_GET (R188): end-of-source is a result, not an error. -/
def execBrGet (s : State) : Host.Outcome State Fault Refusal :=
  completeWith ((getBit s).andThen fun r s => .ok (bitResult r) s)

end Sys2Proof.Machine
end

