-- ==== Sys2Proof/Machine/Heap.lean ====
section
/-! DEFINITION. The node arena and min-heap commands, spec/42_heap.md. -/

namespace Sys2Proof.Machine

/-! ## The heap as an array of node indices, keyed by weight (R51) -/

/-- `swap HEAP[i], HEAP[j]`. -/
def swapSlots (heap : List NodeIdx) (i j : Nat) : List NodeIdx := (heap.set i (slot heap j)).set j (slot heap i)

/-- The up-sift of R146 from slot `k`: it stops at the root, or when the parent's weight is `<=` the element's. The slot number
falls at every pass, so `k` passes suffice. -/
def siftUp (arena : List Node) : Nat → List NodeIdx → Nat → List NodeIdx
  | 0, heap, _ => heap
  | fuel + 1, heap, k =>
    if k = 0 then heap
    else if weightAt arena (slot heap ((k - 1) / 2)) ≤ weightAt arena (slot heap k) then heap
    else siftUp arena fuel (swapSlots heap ((k - 1) / 2) k) ((k - 1) / 2)

/-- `m` of one pass of R148 at slot `k`: the left child if strictly lighter, then the right child if strictly lighter still. -/
def lightest (arena : List Node) (heap : List NodeIdx) (k : Nat) : Nat :=
  let l := 2 * k + 1
  let r := 2 * k + 2
  let m := if l < heap.length ∧ weightAt arena (slot heap l) < weightAt arena (slot heap k) then l else k
  if r < heap.length ∧ weightAt arena (slot heap r) < weightAt arena (slot heap m) then r else m

/-- `SiftDown(k)` (R148). The slot number grows at every pass, so HEAP_SIZE passes suffice. -/
def siftDown (arena : List Node) : Nat → List NodeIdx → Nat → List NodeIdx
  | 0, heap, _ => heap
  | fuel + 1, heap, k =>
    if lightest arena heap k = k then heap
    else siftDown arena fuel (swapSlots heap (lightest arena heap k) k) (lightest arena heap k)

/-- The heap after `HeapInsert(i)` (R146): the element joins at slot HEAP_SIZE and sifts up. -/
def insertSlot (arena : List Node) (heap : List NodeIdx) (i : NodeIdx) : List NodeIdx :=
  siftUp arena heap.length (heap ++ [i]) heap.length

/-- The heap after `HeapExtract()` (R149): the last occupied slot moves to the root and sifts down. -/
def removeTop (arena : List Node) (heap : List NodeIdx) : List NodeIdx :=
  siftDown arena heap.length (heap.set 0 (slot heap (heap.length - 1))).dropLast 0

/-! ## The primitives -/

/-- Append a node to the arena and return its index (R52, R141, R143). -/
def appendNode (node : Node) (s : State) : Run NodeIdx := .ok s.nextNode { s with arena := s.arena ++ [node] }

/-- The leaf of symbol `b` (R141): W = zext_64(FREQ[b]), SYM = b, LEAF = 1, no children. -/
def leafOf (s : State) (b : Byte) : Node := ⟨(tableGet s.freq b).setWidth 64, b, true, 0#9, 0#9⟩

/-- The internal node with left child `a` and right child `b` (R143): W = W(a) + W(b), SYM = 0, LEAF = 0. -/
def joinOf (s : State) (a b : NodeIdx) : Node := ⟨weightAt s.arena a + weightAt s.arena b, 0#8, false, a, b⟩

/-- W(a) + W(b) taken without wrap (R144). -/
def exactSum (s : State) (a b : NodeIdx) : Nat := (weightAt s.arena a).toNat + (weightAt s.arena b).toNat

/-- `NewLeaf(b)`, called only when ARENA_CNT < 511 (R141). -/
def newLeaf (b : Byte) (s : State) : Run NodeIdx :=
  if s.arena.length < Config.arenaCap then appendNode (leafOf s b) s else .fault .primitiveMisused

/-- `NewJoin(a, b)`, called only when ARENA_CNT < 511 and W(a) + W(b) < 2^64 (R143). -/
def newJoin (a b : NodeIdx) (s : State) : Run NodeIdx :=
  if s.arena.length < Config.arenaCap ∧ exactSum s a b < 2 ^ 64 then appendNode (joinOf s a b) s else .fault .primitiveMisused

/-- `HeapInsert(i)`, called only when HEAP_SIZE < 256 and i < ARENA_CNT (R146). -/
def heapInsert (i : NodeIdx) (s : State) : Run Unit :=
  if s.heap.length < Config.heapCap ∧ i.toNat < s.arena.length then
    .ok () { s with heap := insertSlot s.arena s.heap i }
  else .fault .primitiveMisused

/-- `HeapExtract()`, called only when HEAP_SIZE > 0 (R149). -/
def heapExtract (s : State) : Run NodeIdx :=
  if 0 < s.heap.length then .ok (slot s.heap 0) { s with heap := removeTop s.arena s.heap } else .fault .primitiveMisused

/-! ## The commands -/

/-- A returned node index as a RESULT value. -/
def nodeResult (r : Run NodeIdx) : Run Word := r.andThen fun n s => .ok (n.setWidth 32) s

/-- The check `if ARENA_CNT == 511: raise ERR_ARENA_FULL(0)` (R142, R144). -/
def checkArena (s : State) : Run Unit :=
  if s.arena.length = Config.arenaCap then .err .arenaFull 0#32 s else .ok () s

/-- ARENA_CLEAR (R140): arena and heap emptied, TREE <- NONE, ROOT <- 0; LUT_VALID, NLEAF and TOTAL are kept. -/
def execArenaClear (s : State) : Host.Outcome State Fault Refusal :=
  complete (.ok () { s with arena := [], heap := [], tree := .none, root := 0#9 })

/-- NODE_LEAF sym (R142). -/
def execNodeLeaf (sym : Byte) (s : State) : Host.Outcome State Fault Refusal :=
  completeWith ((checkArena s).andThen fun _ s => nodeResult (newLeaf sym s))

/-- NODE_JOIN a, b (R144): IDXA below ARENA_CNT, then IDXB, then the arena's room, then the exact sum. -/
def execNodeJoin (a b : NodeIdx) (s : State) : Host.Outcome State Fault Refusal :=
  completeWith <|
    (checkNode a s).andThen fun _ s =>
    (checkNode b s).andThen fun _ s =>
    (checkArena s).andThen fun _ s =>
    if 2 ^ 64 ≤ exactSum s a b then .err .weightOvf 0#32 s else nodeResult (newJoin a b s)

/-- HEAP_CLEAR (R145): HEAP_SIZE <- 0, the arena is kept. -/
def execHeapClear (s : State) : Host.Outcome State Fault Refusal := complete (.ok () { s with heap := [] })

/-- HEAP_INSERT idx (R147): IDX below ARENA_CNT, then the heap's room. -/
def execHeapInsert (i : NodeIdx) (s : State) : Host.Outcome State Fault Refusal :=
  complete <|
    (checkNode i s).andThen fun _ s =>
    if s.heap.length = Config.heapCap then .err .heapFull (i.setWidth 32) s else heapInsert i s

/-- HEAP_EXTRACT (R150). -/
def execHeapExtract (s : State) : Host.Outcome State Fault Refusal :=
  completeWith (if s.heap.length = 0 then .err .heapUnderflow 0#32 s else nodeResult (heapExtract s))

end Sys2Proof.Machine
end

