-- ==== Sys2Proof/Machine/Tree.lean ====
section
/-! DEFINITION. The tree builder, spec/43_tree.md. -/

namespace Sys2Proof.Machine

/-- The first loop of TREE_BUILD (R160) over the symbols `bs`: a leaf for each nonzero count, inserted into the heap. -/
def addLeaves : List Byte → State → Run Unit
  | [], s => .ok () s
  | b :: bs, s =>
    if 0#32 < tableGet s.freq b then
      (newLeaf b s).andThen fun n s => (heapInsert n s).andThen fun _ s => addLeaves bs s
    else addLeaves bs s

/-- The second loop of TREE_BUILD (R160): extract `a`; if the heap is now empty `a` is the root, else extract `b`, join and
insert. Every pass leaves one entry less, so HEAP_SIZE passes suffice (R163). -/
def mergeLoop : Nat → State → Run NodeIdx
  | 0, _ => .fault .primitiveMisused
  | fuel + 1, s =>
    (heapExtract s).andThen fun a s =>
    if s.heap.length = 0 then .ok a s
    else
      (heapExtract s).andThen fun b s =>
      (newJoin a b s).andThen fun n s =>
      (heapInsert n s).andThen fun _ s => mergeLoop fuel s

/-- NLEAF <- ARENA_CNT after the leaves (R160). -/
def State.setNLeaf (s : State) : State := { s with nLeaf := BitVec.ofNat 9 s.arena.length }

/-- The effect of TREE_BUILD (R160) on a fresh arena and heap; its value is NLEAF. -/
def treeBuild (s : State) : Run Word :=
  (addLeaves allBytes { s with arena := [], heap := [], lutValid := false }).andThen fun _ s =>
  if s.heap.length = 0 then
    .ok (s.setNLeaf.nLeaf.setWidth 32) { s.setNLeaf with tree := .empty, root := 0#9, total := 0#64 }
  else
    (mergeLoop s.heap.length s.setNLeaf).andThen fun a s =>
    .ok (s.nLeaf.setWidth 32) { s with tree := .valid, root := a, total := weightAt s.arena a }

/-- TREE_BUILD (R160). -/
def execTreeBuild (s : State) : Host.Outcome State Fault Refusal := completeWith (treeBuild s)

end Sys2Proof.Machine
end

