-- ==== Sys2Proof/Machine/CodeTable.lean ====
section
/-! DEFINITION. The code-table generator, spec/44_codetable.md. -/

namespace Sys2Proof.Machine

/-- `Walk(n, path)` (R170), depth first, left child "0" then right child "1": the symbol and path of every leaf reached, in the
order reached. `none` when the walk is deeper than `fuel` (log 10). -/
def walk (arena : List Node) : Nat → NodeIdx → List Bool → Option (List (Byte × List Bool))
  | fuel, n, path =>
    if (nodeAt arena n).leaf then some [((nodeAt arena n).sym, path)]
    else
      match fuel with
      | 0 => none
      | fuel + 1 =>
        match walk arena fuel (nodeAt arena n).l (path ++ [false]) with
        | none => none
        | some left =>
          match walk arena fuel (nodeAt arena n).r (path ++ [true]) with
          | none => none
          | some right => some (left ++ right)

/-- Record one code: LUT_LEN[b] <- length, LUT_CODE[b] <- the path's bits (R170). -/
def State.writeCode (s : State) (b : Byte) (path : List Bool) : State :=
  { s with
    lutLen := tableSet s.lutLen b (BitVec.ofNat 8 path.length)
    lutCode := tableSet s.lutCode b (codeStore path) }

/-- Record the codes of the leaves in the order reached. -/
def writeCodes : List (Byte × List Bool) → State → State
  | [], s => s
  | (b, path) :: rest, s => writeCodes rest (s.writeCode b path)

/-- `maxlen` over the leaves reached (R170). -/
def longest : List (Byte × List Bool) → Nat
  | [] => 0
  | (_, path) :: rest => max path.length (longest rest)

/-- The leaves and codes of the tree at ROOT: a lone root has the code "0" (R171), else Walk from an empty path (R170). -/
def treeCodes (s : State) : Option (List (Byte × List Bool)) :=
  if (nodeAt s.arena s.root).leaf then some [((nodeAt s.arena s.root).sym, [false])]
  else walk s.arena s.arena.length s.root []

/-- All LUT_LEN and LUT_CODE <- 0 (R170). -/
def State.clearLut (s : State) : State :=
  { s with lutLen := Vector.replicate 256 0#8, lutCode := Vector.replicate 256 0#256 }

/-- The effect of CODE_GEN (R170); its value is the longest code's length. -/
def codeGen (s : State) : Run Word :=
  match s.tree with
  | .none => .err .noTree 0#32 s
  | .empty => .ok 0#32 { s.clearLut with lutValid := true }
  | .valid =>
    match treeCodes s with
    | none => .fault .walkDiverges
    | some codes => .ok (BitVec.ofNat 32 (longest codes)) { writeCodes codes s.clearLut with lutValid := true }

/-- CODE_GEN (R170). -/
def execCodeGen (s : State) : Host.Outcome State Fault Refusal := completeWith (codeGen s)

end Sys2Proof.Machine
end

