-- ==== Sys2Proof/Machine/Frequency.lean ====
section
/-! DEFINITION. The frequency counter and header commands, spec/41_frequency.md. -/

namespace Sys2Proof.Machine

/-- The effect of FREQ_CLEAR (R125). -/
def freqClear (s : State) : Run Unit :=
  .ok () { s with freq := Vector.replicate 256 0#32 }.invalidateDerived

/-- One step of FREQ_SCAN (R126): read the byte at IN_POS, check its counter, count it, advance. -/
def scanByte (s : State) : Run Unit :=
  (memReadIn s).andThen fun b s =>
    if tableGet s.freq b = 0xFFFFFFFF#32 then .err .freqOvf s.inPos s
    else .ok () { s with freq := tableSet s.freq b (tableGet s.freq b + 1#32), inPos := s.inPos + 1#32 }

/-- The loop of FREQ_SCAN (R126), `while IN_POS < IN_LEN`; it makes at most `avail` passes (R274). -/
def scanLoop : Nat → State → Run Unit
  | 0, s => .ok () s
  | fuel + 1, s => if s.inPos < s.inLen then (scanByte s).andThen fun _ s => scanLoop fuel s else .ok () s

/-- The effect of FREQ_SCAN (R126). -/
def freqScan (s : State) : Run Unit := scanLoop s.avail s.invalidateDerived

/-- The effect of FREQ_HDR_WR (R127), one step: room for 1024 bytes, then the header of R72 at OUT_POS. -/
def freqHdrWr (s : State) : Run Unit :=
  (checkRoom Config.hdrBytes s).andThen fun _ s =>
    .ok () { s with
      outMem := s.outMem.writeBlock s.outPos.toNat (headerBytes s.freq)
      outPos := s.outPos + BitVec.ofNat 32 Config.hdrBytes }

/-- The effect of FREQ_HDR_RD (R128), one step: 1024 bytes left before IN_LEN, then every counter from the header at IN_POS. -/
def freqHdrRd (s : State) : Run Unit :=
  if s.avail < Config.hdrBytes then .err .hdrTrunc (BitVec.ofNat 32 s.avail) s
  else if s.inSize.toNat < s.inPos.toNat + Config.hdrBytes then .fault .noSuchInAddress
  else
    .ok () { s with
      freq := headerTable fun k => s.inByte (s.inPos.toNat + k)
      inPos := s.inPos + BitVec.ofNat 32 Config.hdrBytes }.invalidateDerived

/-- FREQ_CLEAR (R125). -/
def execFreqClear (s : State) : Host.Outcome State Fault Refusal := complete (freqClear s)

/-- FREQ_SCAN (R126). -/
def execFreqScan (s : State) : Host.Outcome State Fault Refusal := complete (freqScan s)

/-- FREQ_HDR_WR (R127). -/
def execFreqHdrWr (s : State) : Host.Outcome State Fault Refusal := complete (freqHdrWr s)

/-- FREQ_HDR_RD (R128). -/
def execFreqHdrRd (s : State) : Host.Outcome State Fault Refusal := complete (freqHdrRd s)

end Sys2Proof.Machine
end

