-- ==== Sys2Proof/Machine/Coder.lean ====
section
/-! DEFINITION. The symbol coder and the entry points ENCODE and DECODE, spec/46_coder.md. "The effect of command X" is X's
run without its RESULT value. -/

namespace Sys2Proof.Machine

/-- A run whose value is dropped: the effect of a command without its `RESULT <-` write (spec/46_coder.md). -/
def Run.effect {α : Type} (r : Run α) : Run Unit := r.andThen fun _ s => .ok () s

/-! ## Per-symbol steps -/

/-- `EmitCode(b)` (R199): the bits of the code of `b`, c(0) first. -/
def emitCode (b : Byte) (s : State) : Run Unit := putBits (codeBitsOf (tableGet s.lutLen b) (tableGet s.lutCode b)) s

/-- The checks of R200 and R201 on the symbol `b`, in order: the code table is valid, `b` has a code, OUT has room. -/
def checkCode (b : Byte) (s : State) : Run Unit :=
  if s.lutValid = false then .err .noLut 0#32 s
  else if tableGet s.lutLen b = 0#8 then .err .noCode (b.setWidth 32) s
  else checkRoom (s.bytesCompleted (tableGet s.lutLen b).toNat) s

/-- SYMCNT <- SYMCNT + 1, mod 2^64 (R36). -/
def State.countSymbol (s : State) : State := { s with symCnt := s.symCnt + 1#64 }

/-- Emit the code of `b` and count the symbol (R200, R201); its value is the code's length. -/
def emitSymbol (b : Byte) (s : State) : Run Word :=
  (emitCode b s).andThen fun _ s => .ok ((tableGet s.lutLen b).setWidth 32) s.countSymbol

/-- The effect of ENC_NEXT (R201), one step; its value is the code's length. On any error IN_POS is not advanced. -/
def encNext (s : State) : Run Word :=
  if s.inLen ≤ s.inPos then .err .inEos s.inPos s
  else
    (memReadIn s).andThen fun b s =>
    (checkCode b s).andThen fun _ s => emitSymbol b { s with inPos := s.inPos + 1#32 }

/-- The bits the BitReader can still deliver: those buffered and those of the bytes before IN_LEN. -/
def State.bitsLeft (s : State) : Nat := s.brCnt + 8 * s.avail

/-- The descent of DEC_SYM (R202) from node `n` to a leaf, left on 0, right on 1; `none` when the BitReader signals
end-of-source. Every pass takes a bit, so `bitsLeft` passes suffice: after them GetBit returns EOS. -/
def descend : Nat → NodeIdx → State → Run (Option NodeIdx)
  | fuel, n, s =>
    if (nodeAt s.arena n).leaf then .ok (some n) s
    else
      match fuel with
      | 0 => .ok none s
      | fuel + 1 =>
        (getBit s).andThen fun r s =>
        match r with
        | none => .ok none s
        | some b => descend fuel (if b then (nodeAt s.arena n).r else (nodeAt s.arena n).l) s

/-- The leaf DEC_SYM reaches (R202): a lone root takes one bit and ignores its value. -/
def reachLeaf (s : State) : Run (Option NodeIdx) :=
  if (nodeAt s.arena s.root).leaf then (getBit s).andThen fun r s => .ok (r.map fun _ => s.root) s
  else descend s.bitsLeft s.root s

/-- Write the symbol of the leaf `n` to OUT and count it (R202); its value is the symbol. -/
def emitLeaf (n : NodeIdx) (s : State) : Run Word :=
  (memWriteOut (nodeAt s.arena n).sym s).andThen fun _ s => .ok ((nodeAt s.arena n).sym.setWidth 32) s.countSymbol

/-- The effect of DEC_SYM (R202), one step; its value is the decoded symbol. At end-of-source IN_POS, BR_BUF and BR_CNT are
put back as they were: the error keeps the state the step began in. -/
def decSym (s : State) : Run Word :=
  if s.tree ≠ .valid then .err .noTree 0#32 s
  else
    (checkRoom 1 s).andThen fun _ s =>
    (reachLeaf s).andThen fun leaf s' =>
    match leaf with
    | none => .err .payloadTrunc (s.symCnt.setWidth 32) s
    | some n => emitLeaf n s'

/-! ## Whole-file entry points -/

/-- The loop of ENCODE (R203), `while IN_POS < IN_LEN: ENC_NEXT`. -/
def encodeLoop : Nat → State → Run Unit
  | 0, s => .ok () s
  | fuel + 1, s => if s.inPos < s.inLen then (encNext s).andThen fun _ s => encodeLoop fuel s else .ok () s

/-- The start of ENCODE (R203): both cursors, SYMCNT and the BitWriter at 0. -/
def State.startEncode (s : State) : State :=
  { s with inPos := 0#32, outPos := 0#32, symCnt := 0#64, bwBuf := 0#8, bwCnt := 0 }

/-- The effect of ENCODE (R203); its value is the final OUT_POS. -/
def encodeFile (s : State) : Run Word :=
  (freqClear s.startEncode).andThen fun _ s =>
  (freqScan s).andThen fun _ s =>
  (freqHdrWr s).andThen fun _ s =>
  (treeBuild s).effect.andThen fun _ s =>
  (codeGen s).effect.andThen fun _ s =>
  (encodeLoop s.inLen.toNat { s with inPos := 0#32 }).andThen fun _ s =>
  (bwFinalize s).effect.andThen fun _ s => .ok s.outPos s

/-- The loop of DECODE (R204), `while SYMCNT < TOTAL: DEC_SYM`; every pass counts one symbol. -/
def decodeLoop : Nat → State → Run Unit
  | 0, s => .ok () s
  | fuel + 1, s => if s.symCnt < s.total then (decSym s).andThen fun _ s => decodeLoop fuel s else .ok () s

/-- The start of DECODE (R204): both cursors, SYMCNT and the BitReader at 0. -/
def State.startDecode (s : State) : State :=
  { s with inPos := 0#32, outPos := 0#32, symCnt := 0#64, brBuf := 0#8, brCnt := 0 }

/-- The effect of DECODE (R204); its value is the final OUT_POS, or 0 for an empty tree. -/
def decodeFile (s : State) : Run Word :=
  (freqHdrRd s.startDecode).andThen fun _ s =>
  (treeBuild s).effect.andThen fun _ s =>
  if s.tree = .empty then .ok 0#32 s
  else (decodeLoop (s.total - s.symCnt).toNat s).andThen fun _ s => .ok s.outPos s

/-! ## The commands -/

/-- ENC_SYM sym (R200). -/
def execEncSym (sym : Byte) (s : State) : Host.Outcome State Fault Refusal :=
  completeWith ((checkCode sym s).andThen fun _ s => emitSymbol sym s)

/-- ENC_NEXT (R201). -/
def execEncNext (s : State) : Host.Outcome State Fault Refusal := completeWith (encNext s)

/-- DEC_SYM (R202). -/
def execDecSym (s : State) : Host.Outcome State Fault Refusal := completeWith (decSym s)

/-- ENCODE (R203). -/
def execEncode (s : State) : Host.Outcome State Fault Refusal := completeWith (encodeFile s)

/-- DECODE (R204). -/
def execDecode (s : State) : Host.Outcome State Fault Refusal := completeWith (decodeFile s)

end Sys2Proof.Machine
end

