-- ==== Sys2Proof/Machine/Control.lean ====
section
/-! DEFINITION. The control commands, spec/40_control.md. -/

namespace Sys2Proof.Machine

/-- NOP (R115): nothing but completion. -/
def execNop (s : State) : Host.Outcome State Fault Refusal := complete (.ok () s)

/-- SOFT_RESET (R116): all of R61 but the contents of IN and OUT, then DONE. -/
def execSoftReset (s : State) : Host.Outcome State Fault Refusal := complete (.ok () s.softReset)

/-- CLR_ERR (R117): ERR, ERRCODE, ERRINFO, REJ and OVR cleared, all data state kept. -/
def execClrErr (s : State) : Host.Outcome State Fault Refusal := complete (.ok () s.clearError)

end Sys2Proof.Machine
end

