-- ==== Sys2Proof/Machine/Dispatch.lean ====
section
/-! DEFINITION. One arm per command: its meaning. -/

namespace Sys2Proof.Machine

/-- What the sequencer does for a legal command: the command's rule, then its completion (R236). -/
def exec (i : Instr) (s : State) : Host.Outcome State Fault Refusal :=
  match i with
  | .nop => Sys2Proof.Machine.execNop s
  | .softReset => Sys2Proof.Machine.execSoftReset s
  | .clrErr => Sys2Proof.Machine.execClrErr s
  | .freqClear => Sys2Proof.Machine.execFreqClear s
  | .freqScan => Sys2Proof.Machine.execFreqScan s
  | .freqHdrWr => Sys2Proof.Machine.execFreqHdrWr s
  | .freqHdrRd => Sys2Proof.Machine.execFreqHdrRd s
  | .arenaClear => Sys2Proof.Machine.execArenaClear s
  | .nodeLeaf sym => Sys2Proof.Machine.execNodeLeaf sym s
  | .nodeJoin idxa idxb => Sys2Proof.Machine.execNodeJoin idxa idxb s
  | .heapClear => Sys2Proof.Machine.execHeapClear s
  | .heapInsert idx => Sys2Proof.Machine.execHeapInsert idx s
  | .heapExtract => Sys2Proof.Machine.execHeapExtract s
  | .treeBuild => Sys2Proof.Machine.execTreeBuild s
  | .codeGen => Sys2Proof.Machine.execCodeGen s
  | .bwReset => Sys2Proof.Machine.execBwReset s
  | .bwPut n val => Sys2Proof.Machine.execBwPut n val s
  | .bwFinalize => Sys2Proof.Machine.execBwFinalize s
  | .brReset => Sys2Proof.Machine.execBrReset s
  | .brGet => Sys2Proof.Machine.execBrGet s
  | .encSym sym => Sys2Proof.Machine.execEncSym sym s
  | .encNext => Sys2Proof.Machine.execEncNext s
  | .decSym => Sys2Proof.Machine.execDecSym s
  | .encode => Sys2Proof.Machine.execEncode s
  | .decode => Sys2Proof.Machine.execDecode s

end Sys2Proof.Machine
end

