-- ==== Sys2Proof/Machine/Registers.lean ====
section
/-! DEFINITION. The host's interface: the register map and windows of spec/10_state.md, acceptance of a command (R235), the
access rules of spec/20_memory.md (R76 to R81), the hazards of spec/70_reset_and_hazards.md (R264 to R267), and the port of
IN and OUT. -/

namespace Sys2Proof.Machine

/-- A register or window word of the map R23. -/
inductive Reg
  | id | cmd | status | ctrl | result | errInfo | inLen | inPos | outPos | inSize | outCap | totalLo | totalHi | symCntLo
  | symCntHi | heapSize | arenaCnt | root | nLeaf | bwState | brState
  /-- FREQ[s] at 0x0400 + 4·s. -/
  | freq (s : Byte)
  /-- LUT_LEN[s] at 0x0800 + 4·s. -/
  | lutLen (s : Byte)
  /-- HEAP[i] at 0x0C00 + 4·i. -/
  | heap (i : Byte)
  /-- LUT_CODE[s].w at 0x1000 + 32·s + 4·w. -/
  | lutCode (s : Byte) (w : BitVec 3)
  /-- NODE[n].k at 0x3000 + 16·n + 4·k. -/
  | node (n : NodeIdx) (k : BitVec 2)
  /-- A reserved offset, 0x0054 to 0x03FC or 0x4FF0 to 0x4FFC (R48). -/
  | reserved
  deriving DecidableEq, Repr

/-- The registers at offsets 0x0000 to 0x0050, in order (R23). -/
def namedRegs : List Reg :=
  [.id, .cmd, .status, .ctrl, .result, .errInfo, .inLen, .inPos, .outPos, .inSize, .outCap] ++
  [.totalLo, .totalHi, .symCntLo, .symCntHi, .heapSize, .arenaCnt, .root, .nLeaf, .bwState, .brState]

/-- The register at a word-aligned byte offset below 0x5000 (R22, R23). -/
def regAt (off : Nat) : Reg :=
  if off < 0x0400 then namedRegs.getD (off / 4) .reserved
  else if off < 0x0800 then .freq (BitVec.ofNat 8 ((off - 0x0400) / 4))
  else if off < 0x0C00 then .lutLen (BitVec.ofNat 8 ((off - 0x0800) / 4))
  else if off < 0x1000 then .heap (BitVec.ofNat 8 ((off - 0x0C00) / 4))
  else if off < 0x3000 then .lutCode (BitVec.ofNat 8 ((off - 0x1000) / 32)) (BitVec.ofNat 3 ((off - 0x1000) / 4))
  else if off < 0x4FF0 then .node (BitVec.ofNat 9 ((off - 0x3000) / 16)) (BitVec.ofNat 2 ((off - 0x3000) / 4))
  else .reserved

/-! ## Reads -/

/-- NODE[n].k (R47): W_LO, W_HI, INFO, LINK; 0 for n >= ARENA_CNT. -/
def nodeWord (node : Node) (k : BitVec 2) : Word :=
  match k with
  | 0#2 => node.weight.extractLsb' 0 32
  | 1#2 => node.weight.extractLsb' 32 32
  | 2#2 => bit node.leaf ++ 0#23 ++ node.sym
  | _ => 0#7 ++ node.r ++ 0#7 ++ node.l

/-- LUT_CODE[s].w (R46): bit j of word w is code bit c(32·w + 31 - j), so the first code bit is bit 31 of word 0. -/
def codeWord (code : CodeBits) (w : BitVec 3) : Word := (code.extractLsb' (32 * w.toNat) 32).reverse

/-- The value of a register while BUSY = 0 (R24 to R48). No read has a side effect (R81). -/
def State.readReg (s : State) : Reg → Word
  | .id => Config.idWord
  | .cmd => 0#32
  | .status => s.status
  | .ctrl => s.ctrl
  | .result => s.result
  | .errInfo => s.errInfo
  | .inLen => s.inLen
  | .inPos => s.inPos
  | .outPos => s.outPos
  | .inSize => s.inSize
  | .outCap => s.outCap
  | .totalLo => s.total.extractLsb' 0 32
  | .totalHi => s.total.extractLsb' 32 32
  | .symCntLo => s.symCnt.extractLsb' 0 32
  | .symCntHi => s.symCnt.extractLsb' 32 32
  | .heapSize => (BitVec.ofNat 9 s.heap.length).setWidth 32
  | .arenaCnt => (BitVec.ofNat 9 s.arena.length).setWidth 32
  | .root => s.root.setWidth 32
  | .nLeaf => s.nLeaf.setWidth 32
  | .bwState => 0#20 ++ BitVec.ofNat 4 s.bwCnt ++ s.bwBuf
  | .brState => 0#20 ++ BitVec.ofNat 4 s.brCnt ++ s.brBuf
  | .freq b => tableGet s.freq b
  | .lutLen b => (tableGet s.lutLen b).setWidth 32
  | .heap i => (slot s.heap i.toNat).setWidth 32
  | .lutCode b w => codeWord (tableGet s.lutCode b) w
  | .node n k => nodeWord (nodeAt s.arena n) k
  | .reserved => 0#32

/-- The registers that return their current value while BUSY = 1 (R266); a reserved offset reads 0 at any time (R48, I10; log 4). -/
def Reg.steady : Reg → Bool
  | .id => true
  | .status => true
  | .ctrl => true
  | .inSize => true
  | .outCap => true
  | .reserved => true
  | _ => false

/-- A host read of a register (R266): its value, or an unspecified one while BUSY = 1, taken from the free values (log 4).
DESIGN CHOICE (log 4): the whole word is then free, the register's reserved fields with it (HEAP_SIZE[31:9], LUT_LEN[31:8], ...),
where R48 and I10 have a reserved field read 0 and R266 and I6 have the read return any value. -/
def hostRead (r : Reg) (s : State) : State :=
  if s.busy && !r.steady then { s with hostData := Config.busyRead s.freeCnt, freeCnt := s.freeCnt + 1 }
  else { s with hostData := s.readReg r }

/-! ## Writes -/

/-- Whether acceptance passes an opcode while ERR = 1: 0x00, 0x01 and 0x02 only (R235). -/
def acceptedInError (opc : BitVec 8) : Bool := opc == 0x00#8 || opc == 0x01#8 || opc == 0x02#8

/-- Acceptance (R235): a host write of the word `w` to CMD. -/
def present (w : Word) (s : State) : State :=
  if s.busy then { s with ovr := true }
  else if s.err && !acceptedInError (opcodeOf w) then { s with rej := true }
  else { s with done := false, pending := some w }

/-- A guarded register (R23, R265): a write while BUSY = 1 is dropped and sets OVR. -/
def guarded (s : State) (taken : State) : State := if s.busy then { s with ovr := true } else taken

/-- The lesser of two words, for the WARL registers (R32, R34). -/
def wordMin (v w : Word) : Word := if v ≤ w then v else w

/-- A host write of `v` to a register: CMD R25, STATUS R27, CTRL R28, IN_LEN R32, IN_POS R33, OUT_POS R34, FREQ R43; writes to
read-only and reserved offsets are ignored and set no OVR (R48, R265). -/
def hostWrite (r : Reg) (v : Word) (s : State) : State :=
  match r with
  | .cmd => present v s
  | .status => if v.getLsbD 1 then { s with done := false } else s
  | .ctrl => { s with ieDone := v.getLsbD 0, ieErr := v.getLsbD 1 }
  | .inLen => guarded s { s with inLen := wordMin v s.inSize }
  | .inPos => guarded s { s with inPos := v }
  | .outPos => guarded s { s with outPos := wordMin v s.outCap }
  | .freq b => guarded s (s.writeFreq b v)
  | .id => s
  | .result => s
  | .errInfo => s
  | .inSize => s
  | .outCap => s
  | .totalLo => s
  | .totalHi => s
  | .symCntLo => s
  | .symCntHi => s
  | .heapSize => s
  | .arenaCnt => s
  | .root => s
  | .nLeaf => s
  | .bwState => s
  | .brState => s
  | .lutLen _ => s
  | .heap _ => s
  | .lutCode _ _ => s
  | .node _ _ => s
  | .reserved => s

/-! ## The bus and the port -/

/-- A host read at or above 0x5000 (R78, I9): the platform answers it, and nothing of the HCC changes (log 12). -/
def platformRead (width off : Nat) (s : State) : State :=
  { s with hostData := Config.platformAnswer s.freeCnt width off, freeCnt := s.freeCnt + 1 }

/-- An access at or above 0x5000 does not reach the HCC and has the outcome `outside` (R78; log 12). Below, an access reaches a
register when it is 32 bits wide and at an offset that is 0 mod 4 (R76), and every other one is refused (R77). -/
def busAccess (width off : Nat) (access : Reg → State) (outside : State) : Host.Outcome State Fault Refusal :=
  if Config.regSpaceBytes ≤ off then .next outside
  else if width = 4 ∧ off % 4 = 0 then .next (access (regAt off))
  else .refused .badBusAccess

/-- The host writes a byte of IN, while BUSY = 0 only (R70, R267). -/
def portLoad (addr : Nat) (b : Byte) (s : State) : Host.Outcome State Fault Refusal :=
  if s.busy then .refused .portWhileBusy
  else if addr < s.inSize.toNat then .next { s with inMem := s.inMem.write addr b }
  else .fault .noSuchInAddress

/-- The host reads a byte of OUT, while BUSY = 0 only (R70, R267). Below OUT_POS it sees what OUT holds; at or above OUT_POS
the value is unspecified (R75, I4), a fresh free value (log 3). -/
def portRead (addr : Nat) (s : State) : Host.Outcome State Fault Refusal :=
  if s.busy then .refused .portWhileBusy
  else if s.outCap.toNat ≤ addr then .fault .noSuchOutAddress
  else if addr < s.outPos.toNat then .next { s with hostByte := s.outByte addr }
  else .next { s with hostByte := Config.staleByte s.freeCnt, freeCnt := s.freeCnt + 1 }

/-- An access of the host (R8, R70, R76). -/
def hostStep (a : HostAction) (s : State) : Host.Outcome State Fault Refusal :=
  match a with
  | .regWrite width off v => busAccess width off (fun r => hostWrite r v s) s
  | .regRead width off => busAccess width off (fun r => hostRead r s) (platformRead width off s)
  | .loadIn addr b => portLoad addr b s
  | .readOut addr => portRead addr s

end Sys2Proof.Machine
end

