-- ==== Sys2Proof/Machine/Sequencer.lean ====
section
/-! DEFINITION. A turn of the sequencer (R236), an event of the total order (R83), and how a command word is placed. -/

namespace Sys2Proof.Machine

/-- The legality check that comes before every command's own checks (R233, R236): an illegal word raises
ERR_ILLEGAL_CMD with ERRINFO = the word and changes nothing else (R103, R104). -/
def runWord (w : Word) (s : State) : Host.Outcome State Fault Refusal :=
  match Sys2Proof.decode w with
  | none => .next (s.takeError .illegalCmd w)
  | some i => exec i s

/-- A turn of the sequencer (R236): it performs the whole pending command; with none pending it is idle (R246). -/
def sequencerTurn (s : State) : Host.Outcome State Fault Refusal :=
  match s.pending with
  | none => .next s
  | some w => runWord w s

/-- One event of the total order (R83), taken off the list. -/
def takeEvent (e : Event) (s : State) : Host.Outcome State Fault Refusal :=
  match e with
  | .host a => hostStep a s
  | .reset => .next s.hardReset
  | .sequencer => sequencerTurn s

/-- What happens next (R83): the first of the coming events, or a sequencer turn when none is listed (R274; log 17). -/
def nextEvent (s : State) : Host.Outcome State Fault Refusal :=
  match s.events with
  | [] => sequencerTurn s
  | e :: rest => takeEvent e { s with events := rest }

/-- Place a command word as the pending one, with the sequencer's turn next (log 6). -/
def placeWord (s : State) (w : Word) : State := { s with pending := some w, events := .sequencer :: s.events }

end Sys2Proof.Machine
end

