-- ==== Sys2Proof/Machine/Step.lean ====
section
/-! DEFINITION. One step of the machine. -/

namespace Sys2Proof.Machine

/-- One step: the next event of the total order (R8, R83). -/
def step (s : State) : Host.Outcome State Fault Refusal := nextEvent s

/-- `s` with the command word of a table row pending and the sequencer's turn next, so that the next step runs exactly it. The
HCC fetches nothing (R87): a command comes from a host write to CMD, for which this stands (log 6). -/
def State.withFetchWord (s : State) (nbits w : Nat) : State := placeWord s (Sys2Proof.tableWord nbits w)

end Sys2Proof.Machine
end

