-- ==== Sys2Proof/Safety.lean ====
section
/-! DEFINITION. What a good state and a safe run are: the invariants of rule R60 (and R6, R30, R39, R52, R55 that it rests on),
what it means that a step completes, and the words claims are stated in: byte streams, bit streams, codes and their lengths. -/

namespace Sys2Proof.Machine

/-- The parameters are legal (R6): each is 1 to 2^32 - 1. -/
abbrev State.SizesOk (s : State) : Prop := 0 < s.inSize.toNat ∧ 0 < s.outCap.toNat

/-- IN_LEN <= IN_SIZE and OUT_POS <= OUT_CAP (R60). -/
abbrev State.CursorsOk (s : State) : Prop := s.inLen.toNat ≤ s.inSize.toNat ∧ s.outPos.toNat ≤ s.outCap.toNat

/-- BW_CNT <= 7 and BR_CNT <= 8 (R60), and the unwritten bits BW_BUF[7 - BW_CNT : 0] are 0 (R55). -/
abbrev State.BitsOk (s : State) : Prop :=
  s.bwCnt ≤ 7 ∧ s.brCnt ≤ 8 ∧ ∀ i, i < 8 - s.bwCnt → s.bwBuf.getLsbD i = false

/-- HEAP_SIZE <= 256, ARENA_CNT <= 511 (R60) and NLEAF <= 256 (R40). -/
abbrev State.CountsOk (s : State) : Prop := s.heap.length ≤ 256 ∧ s.arena.length ≤ 511 ∧ s.nLeaf.toNat ≤ 256

/-- Every occupied heap slot holds an index below ARENA_CNT (R60). -/
abbrev State.HeapRefsOk (s : State) : Prop := ∀ i ∈ s.heap, i.toNat < s.arena.length

/-- The heap property (R151) of a heap over an arena: for 0 < k < HEAP_SIZE, W(HEAP[(k - 1) div 2]) <= W(HEAP[k]). -/
abbrev HeapOrdered (arena : List Node) (heap : List NodeIdx) : Prop :=
  ∀ k, k < heap.length → 0 < k → weightAt arena (slot heap ((k - 1) / 2)) ≤ weightAt arena (slot heap k)

/-- The fields of node `n` (R52): a leaf has no children, an internal node has no symbol and its children stand below it. -/
abbrev Node.ShapeOk (n : Nat) (node : Node) : Prop :=
  if node.leaf then node.l = 0#9 ∧ node.r = 0#9 else node.sym = 0#8 ∧ node.l.toNat < n ∧ node.r.toNat < n

/-- Every node of the arena has its fields as R52 says. -/
abbrev ArenaOk (arena : List Node) : Prop := ∀ n, n < arena.length → Node.ShapeOk n (arena.getD n absentNode)

/-- TREE = VALID implies ROOT < ARENA_CNT (R60), and ROOT is 0 otherwise (R39). -/
abbrev State.TreeOk (s : State) : Prop :=
  (s.tree = .valid → s.root.toNat < s.arena.length) ∧ (s.tree ≠ .valid → s.root = 0#9)

/-- While ERR = 0, ERRCODE, ERRINFO and REJ are 0 (R26, R30, R235); while ERR = 1, ERRCODE is one of R230's codes. -/
abbrev State.ErrorOk (s : State) : Prop :=
  (s.err = false → s.errCode = 0#8 ∧ s.errInfo = 0#32 ∧ s.rej = false) ∧
  (s.err = true → 1 ≤ s.errCode.toNat ∧ s.errCode.toNat ≤ 14)

/-- The memories are in their canonical form and inside their sizes (R70). -/
abbrev State.MemoryOk (s : State) : Prop :=
  s.inMem.wf ∧ s.outMem.wf ∧ (∀ c ∈ s.inMem, c.1 < s.inSize.toNat) ∧ (∀ c ∈ s.outMem, c.1 < s.outCap.toNat)

/-- The bounds of R60: everything but the heap property. -/
abbrev State.Bounded (s : State) : Prop :=
  s.SizesOk ∧ s.CursorsOk ∧ s.BitsOk ∧ s.CountsOk ∧ s.HeapRefsOk ∧ ArenaOk s.arena ∧ s.TreeOk ∧ s.ErrorOk ∧ s.MemoryOk

/-- The invariants every rule preserves (R60). -/
abbrev State.Inv (s : State) : Prop := s.Bounded ∧ HeapOrdered s.arena s.heap

/-- The outcome is a next state. -/
def Completes (o : Host.Outcome State Fault Refusal) : Prop := ∃ t, o = .next t

/-- A safe run of the machine: no number of steps from `s` ends in a fault of the model. -/
def State.SafeRun (s : State) : Prop :=
  ∀ n f, Host.Core.run ⟨State, Fault, Refusal, step, State.reset⟩ n s ≠ .fault f

/-- A host access through the port stays inside the memories (R70). -/
def Event.inRange (s : State) : Event → Prop
  | .host (.loadIn addr _) => addr < s.inSize.toNat
  | .host (.readOut addr) => addr < s.outCap.toNat
  | .host (.regWrite _ _ _) => True
  | .host (.regRead _ _) => True
  | .reset => True
  | .sequencer => True

/-! ## The words of the claims: the input as bytes and as bits -/

/-- The bytes of IN from IN_POS to IN_LEN, in order: what FREQ_SCAN reads (R126). -/
def State.inBytes (s : State) : List Byte := (List.range s.avail).map fun k => s.inByte (s.inPos.toNat + k)

/-- The whole input IN[0 .. IN_LEN - 1]: what ENCODE reads (R203). -/
def State.input (s : State) : List Byte := (List.range s.inLen.toNat).map fun a => s.inByte a

/-- The bits of a byte, MSB first (R74). -/
def byteBits (b : Byte) : List Bool := (List.range 8).map fun j => b.getLsbD (7 - j)

/-- The bits the BitReader has still to deliver: those buffered, then those of the bytes from IN_POS to IN_LEN (R56, R187). -/
def State.readerBits (s : State) : List Bool :=
  ((List.range s.brCnt).map fun j => s.brBuf.getLsbD (s.brCnt - 1 - j)) ++ s.inBytes.flatMap byteBits

/-! ## The output as bits -/

/-- The pending bits of the BitWriter, in the order they were put (R55). -/
def State.pendingBits (s : State) : List Bool := (List.range s.bwCnt).map fun j => s.bwBuf.getLsbD (7 - j)

/-- The byte whose bits, MSB first, are the first eight of the list, and 0 where the list has ended (R73, R74). -/
def byteOf (bits : List Bool) : Byte :=
  (List.range 8).foldl (fun acc j => if bits.getD j false then acc ||| (1#8 <<< (7 - j)) else acc) 0#8

/-- Byte `i` of a bit stream (R73). -/
def streamByte (bits : List Bool) (i : Nat) : Byte := byteOf ((bits.drop (8 * i)).take 8)

/-- The BitWriter of `s` took `bits` and came to `t`: the whole bytes of (pending bits, then `bits`) stand in OUT from OUT_POS on,
the rest is pending, and no other byte of OUT changed (R182). -/
def Sent (s t : State) (bits : List Bool) : Prop :=
  let all := s.pendingBits ++ bits
  let k := all.length / 8
  t.outPos.toNat = s.outPos.toNat + k ∧ t.bwCnt = all.length % 8 ∧ t.bwBuf = byteOf (all.drop (8 * k)) ∧
    (∀ i, i < k → t.outByte (s.outPos.toNat + i) = streamByte all i) ∧
    ∀ a, a < s.outPos.toNat ∨ s.outPos.toNat + k ≤ a → t.outByte a = s.outByte a

/-! ## Trees and codes -/

/-- The number a table of counts sums to. -/
def tableSum (freq : Vector Word 256) : Nat := (allBytes.map fun b => (tableGet freq b).toNat).sum

/-- The symbols with a nonzero count, ascending. -/
def presentSymbols (freq : Vector Word 256) : List Byte := allBytes.filter fun b => decide (0#32 < tableGet freq b)

/-- The symbol of the leaf that a path from node `n` ends at; none when it ends at no leaf or goes on past one (R170). -/
def symbolAt (arena : List Node) : NodeIdx → List Bool → Option Byte
  | n, [] => if (nodeAt arena n).leaf then some (nodeAt arena n).sym else none
  | n, b :: bs =>
    if (nodeAt arena n).leaf then none
    else symbolAt arena (if b then (nodeAt arena n).r else (nodeAt arena n).l) bs

/-- The symbol DEC_SYM decodes from exactly these bits (R202): a lone root takes one bit of either value. -/
def State.decodesTo (s : State) (path : List Bool) : Option Byte :=
  if (nodeAt s.arena s.root).leaf then (if path.length = 1 then some (nodeAt s.arena s.root).sym else none)
  else symbolAt s.arena s.root path

/-- The code of a symbol in the code table (R46, R54). -/
def State.codeOf (s : State) (b : Byte) : List Bool := codeBitsOf (tableGet s.lutLen b) (tableGet s.lutCode b)

/-- B of R174 and R205: the sum of FREQ[b] times LUT_LEN[b]. -/
def State.payloadBits (s : State) : Nat :=
  (allBytes.map fun b => (tableGet s.freq b).toNat * (tableGet s.lutLen b).toNat).sum

/-- Payload bit `k` of a file whose byte at address `a` is `byteAt a` (R73). -/
def payloadBit (byteAt : Nat → Byte) (k : Nat) : Bool := (byteAt (1024 + k / 8)).getLsbD (7 - k % 8)

/-! ## The tree built by single commands -/

/-- One command after another: what comes after a next state; a stop stays. -/
def afterwards (o : Outcome) (f : State → Outcome) : Outcome :=
  match o with
  | .next t => f t
  | .fault e => .fault e
  | .refused e => .refused e

/-- The node index a command returned in RESULT. -/
def State.resultNode (s : State) : NodeIdx := s.result.setWidth 9

/-- NODE_LEAF then HEAP_INSERT of the leaf made, for each symbol in turn: the first loop of R160 in single commands. -/
def leavesByCommands : List Byte → State → Outcome
  | [], s => .next s
  | b :: bs, s =>
    afterwards (exec (.nodeLeaf b) s) fun t => afterwards (exec (.heapInsert t.resultNode) t) (leavesByCommands bs)

/-- HEAP_EXTRACT gives `a`, HEAP_EXTRACT gives `b`, NODE_JOIN a, b, HEAP_INSERT of the node made: one pass of R160's loop. -/
def mergeByCommands (s : State) : Outcome :=
  afterwards (exec .heapExtract s) fun sa =>
  afterwards (exec .heapExtract sa) fun sb =>
  afterwards (exec (.nodeJoin sa.resultNode sb.resultNode) sb) fun sj => exec (.heapInsert sj.resultNode) sj

/-- So many passes. -/
def mergesByCommands : Nat → State → Outcome
  | 0, s => .next s
  | n + 1, s => afterwards (mergeByCommands s) (mergesByCommands n)

/-- The tree of R160 by single commands: ARENA_CLEAR, the leaves in ascending symbol order, a pass for each leaf but one, and the
HEAP_EXTRACT that returns the root. -/
def buildByCommands (s : State) : Outcome :=
  afterwards (exec .arenaClear s) fun s1 =>
  afterwards (leavesByCommands (presentSymbols s.freq) s1) fun s2 =>
  afterwards (mergesByCommands ((presentSymbols s.freq).length - 1) s2) (exec .heapExtract)

/-! ## Where a command stores -/

/-- The address in OUT a command stores its first byte at, if it stores any: 0 for ENCODE and DECODE, which set OUT_POS to 0 first
(R203, R204), else OUT_POS (R75). -/
def State.storesFrom (s : State) (i : Instr) : Nat := if i = .encode ∨ i = .decode then 0 else s.outPos.toNat

/-! ## The opcode table's columns -/

/-- The rows of spec/opcode_table.json as (match, mask), R102. -/
def tableRows : List (Word × Word) :=
  [(0x00000000#32, 0xFFFFFFFF#32), (0x01000000#32, 0xFFFFFFFF#32), (0x02000000#32, 0xFFFFFFFF#32), (0x10000000#32, 0xFFFFFFFF#32),
    (0x11000000#32, 0xFFFFFFFF#32), (0x12000000#32, 0xFFFFFFFF#32), (0x13000000#32, 0xFFFFFFFF#32), (0x20000000#32, 0xFFFFFFFF#32),
    (0x21000000#32, 0xFFFFFF00#32), (0x22000000#32, 0xFFFC0000#32)] ++
  [(0x24000000#32, 0xFFFFFFFF#32), (0x25000000#32, 0xFFFFFE00#32), (0x26000000#32, 0xFFFFFFFF#32), (0x30000000#32, 0xFFFFFFFF#32),
    (0x31000000#32, 0xFFFFFFFF#32), (0x40000000#32, 0xFFFFFFFF#32), (0x41000000#32, 0xFFE00000#32), (0x42000000#32, 0xFFFFFFFF#32)] ++
  [(0x44000000#32, 0xFFFFFFFF#32), (0x45000000#32, 0xFFFFFFFF#32), (0x50000000#32, 0xFFFFFF00#32), (0x51000000#32, 0xFFFFFFFF#32),
    (0x52000000#32, 0xFFFFFFFF#32), (0x60000000#32, 0xFFFFFFFF#32), (0x61000000#32, 0xFFFFFFFF#32)]

/-- A legal command word: it matches a row of the table, and for BW_PUT N is 1 to 16 and VAL below 2^N (R100, R102, R106). -/
def LegalWord (w : Word) : Prop :=
  (∃ row ∈ tableRows, w &&& row.2 = row.1) ∧
    (w >>> 24 = 0x41#32 →
      1 ≤ (w.toNat / 2 ^ 16) % 32 ∧ (w.toNat / 2 ^ 16) % 32 ≤ 16 ∧ w.toNat % 2 ^ 16 < 2 ^ ((w.toNat / 2 ^ 16) % 32))

/-- The "errors" column of R102, without ERR_ILLEGAL_CMD. -/
def errorsOf : Instr → List ErrKind
  | .nop => []
  | .softReset => []
  | .clrErr => []
  | .freqClear => []
  | .freqScan => [.freqOvf]
  | .freqHdrWr => [.sinkFull]
  | .freqHdrRd => [.hdrTrunc]
  | .arenaClear => []
  | .nodeLeaf _ => [.arenaFull]
  | .nodeJoin _ _ => [.badNode, .arenaFull, .weightOvf]
  | .heapClear => []
  | .heapInsert _ => [.badNode, .heapFull]
  | .heapExtract => [.heapUnderflow]
  | .treeBuild => []
  | .codeGen => [.noTree]
  | .bwReset => []
  | .bwPut _ _ => [.sinkFull]
  | .bwFinalize => [.sinkFull]
  | .brReset => []
  | .brGet => []
  | .encSym _ => [.noLut, .noCode, .sinkFull]
  | .encNext => [.inEos, .noLut, .noCode, .sinkFull]
  | .decSym => [.noTree, .sinkFull, .payloadTrunc]
  | .encode => [.sinkFull]
  | .decode => [.hdrTrunc, .sinkFull, .payloadTrunc]

/-- The commands with "—" in the RESULT column of R102: RESULT is unchanged. -/
def keepsResult : Instr → Bool
  | .nop => true
  | .softReset => false
  | .clrErr => true
  | .freqClear => true
  | .freqScan => true
  | .freqHdrWr => true
  | .freqHdrRd => true
  | .arenaClear => true
  | .nodeLeaf _ => false
  | .nodeJoin _ _ => false
  | .heapClear => true
  | .heapInsert _ => true
  | .heapExtract => false
  | .treeBuild => false
  | .codeGen => false
  | .bwReset => true
  | .bwPut _ _ => true
  | .bwFinalize => false
  | .brReset => true
  | .brGet => false
  | .encSym _ => false
  | .encNext => false
  | .decSym => false
  | .encode => false
  | .decode => false

end Sys2Proof.Machine
end

