-- ==== Sys2Proof/Certificates/Slice0/Obligations.lean ====
section
/-! DEFINITION. The statements about the machine, from the numbered rules of spec/. `exec i s` is what the sequencer does for the
legal command `i` (R236); a state in a conclusion written `{ s with ... }` says that every field not named is unchanged. -/

open Sys2Proof Sys2Proof.Machine

/-! ## Encoding (spec/30_encoding.md) -/

/-- No bit of an encoding is dropped: the decoder reads every well-formed command back from its word (R97, R106). -/
def Obligations.DecodeAfterEncodeIsIdentity : Prop :=
  ∀ i : Instr, i.wellFormed = true → Sys2Proof.decode (Sys2Proof.encode i) = some i

/-- Each legal word has one meaning: a word that decodes is the encoding of what it decodes to, and that is well formed. -/
def Obligations.EncodeAfterDecodeIsIdentity : Prop :=
  ∀ (w : Word) (i : Instr), Sys2Proof.decode w = some i → Sys2Proof.encode i = w ∧ i.wellFormed = true

/-- Words written out from R97, R102 and R107 decode to the commands they stand for. -/
def Obligations.WrittenOutWordsDecode : Prop :=
  Sys2Proof.decode 0x60000000#32 = some .encode ∧ Sys2Proof.decode 0x50000061#32 = some (.encSym 0x61#8) ∧
    Sys2Proof.decode 0x25000003#32 = some (.heapInsert 3#9) ∧ Sys2Proof.decode 0x22000401#32 = some (.nodeJoin 2#9 1#9) ∧
    Sys2Proof.decode 0x41030005#32 = some (.bwPut 3#5 5#16) ∧ Sys2Proof.decode 0x00000000#32 = some .nop

/-- The decoder accepts exactly the words of the opcode table (R102 to R106). -/
def Obligations.DecoderAcceptsExactlyTheTable : Prop := ∀ w : Word, (Sys2Proof.decode w).isSome = true ↔ LegalWord w

/-- An illegal word raises ERR_ILLEGAL_CMD with ERRINFO = the word and changes nothing else but what completion writes (R103, R104,
R236). A word with a reserved opcode is illegal, and so is one with a nonzero reserved field or, for BW_PUT, an illegal N or VAL. -/
def Obligations.IllegalWordOnlyRaisesError : Prop :=
  (∀ (s : State) (w : Word), s.pending = some w → Sys2Proof.decode w = none →
    sequencerTurn s = .next { s with pending := none, done := true, err := true, errCode := 0x01#8, errInfo := w }) ∧
  ∀ w : Word, w.extractLsb' 24 8 ∉
      [0x00#8, 0x01#8, 0x02#8, 0x10#8, 0x11#8, 0x12#8, 0x13#8, 0x20#8, 0x21#8, 0x22#8, 0x24#8, 0x25#8, 0x26#8, 0x30#8, 0x31#8,
        0x40#8, 0x41#8, 0x42#8, 0x44#8, 0x45#8, 0x50#8, 0x51#8, 0x52#8, 0x60#8, 0x61#8] ∨ ¬ LegalWord w →
    Sys2Proof.decode w = none

/-! ## The step -/

/-- A step runs the decoded command: at the sequencer's turn (no event listed, or the turn listed next) a pending legal word is
executed, and a word placed by `withFetchWord` is run by the very next step. With no event and nothing pending the machine is
idle (R236, R246). -/
def Obligations.StepRunsTheDecodedCommand : Prop :=
  (∀ (s : State) (w : Word) (i : Instr), s.pending = some w → Sys2Proof.decode w = some i →
    (s.events = [] → step s = exec i s) ∧
    ∀ rest, s.events = .sequencer :: rest → step s = exec i { s with events := rest }) ∧
  (∀ (s : State) (w : Nat) (i : Instr), w < 2 ^ 32 → decodeTableWord 32 w = some i →
    step (s.withFetchWord 32 w) = exec i { s with pending := some (BitVec.ofNat 32 w) }) ∧
  ∀ s : State, s.pending = none → s.events = [] → step s = .next s

/-! ## The host's interface (spec/10_state.md, 20_memory.md, 60_exceptions.md, 70_reset_and_hazards.md) -/

/-- Acceptance (R235): a word written to CMD while BUSY sets OVR; while ERR, a word whose opcode is not 0x00, 0x01 or 0x02 sets
REJ; every other word clears DONE and is pending; if it is illegal it then fails with ERR_ILLEGAL_CMD. A dropped or rejected word
leaves no other trace. -/
def Obligations.CmdWriteIsAcceptedDroppedOrRejected : Prop :=
  ∀ (s : State) (w : Word) (rest : List Event), s.events = .host (.regWrite 4 0x0004 w) :: rest →
    (∀ p, s.pending = some p → step s = .next { s with events := rest, ovr := true }) ∧
    (s.pending = none → s.err = true → w.extractLsb' 24 8 ∉ [0x00#8, 0x01#8, 0x02#8] →
      step s = .next { s with events := rest, rej := true }) ∧
    (s.pending = none → (s.err = false ∨ w.extractLsb' 24 8 ∈ [0x00#8, 0x01#8, 0x02#8]) →
      step s = .next { s with events := rest, done := false, pending := some w } ∧
      (Sys2Proof.decode w = none → sequencerTurn { s with events := rest, done := false, pending := some w } =
        .next { s with events := rest, done := true, err := true, errCode := 0x01#8, errInfo := w }))

/-- Guarded writes while BUSY = 1 change nothing except OVR; STATUS and CTRL are taken at any time and set no OVR; writes to
read-only and reserved offsets are ignored at any time (R265). -/
def Obligations.GuardedWritesAreDroppedWhileBusy : Prop :=
  ∀ (s : State) (off : Nat) (v : Word) (rest : List Event), s.events = .host (.regWrite 4 off v) :: rest → off % 4 = 0 →
    off < 0x5000 →
    (s.pending ≠ none → (off = 0x0004 ∨ off = 0x0018 ∨ off = 0x001C ∨ off = 0x0020 ∨ (0x0400 ≤ off ∧ off < 0x0800)) →
      step s = .next { s with events := rest, ovr := true }) ∧
    (off = 0x0008 → step s = .next { s with events := rest, done := s.done && !v.getLsbD 1 }) ∧
    (off = 0x000C → step s = .next { s with events := rest, ieDone := v.getLsbD 0, ieErr := v.getLsbD 1 }) ∧
    (off = 0x0000 ∨ off = 0x0010 ∨ off = 0x0014 ∨ (0x0024 ≤ off ∧ off < 0x0400) ∨ 0x0800 ≤ off →
      step s = .next { s with events := rest })

/-- While BUSY = 0 the registers of the map read as their rules say, and a read changes nothing else of the machine (R23 to R42,
R48, R81). -/
def Obligations.NamedRegistersReadAsMapped : Prop :=
  ∀ s : State, s.pending = none →
    let reads := fun (off : Nat) (v : Word) =>
      step { s with events := .host (.regRead 4 off) :: s.events } = .next { s with hostData := v }
    reads 0x0000 0x48434301#32 ∧ reads 0x0004 0#32 ∧ reads 0x0008 s.status ∧
    reads 0x000C (0#30 ++ (if s.ieErr then 1#1 else 0#1) ++ (if s.ieDone then 1#1 else 0#1)) ∧
    reads 0x0010 s.result ∧ reads 0x0014 s.errInfo ∧ reads 0x0018 s.inLen ∧ reads 0x001C s.inPos ∧ reads 0x0020 s.outPos ∧
    reads 0x0024 s.inSize ∧ reads 0x0028 s.outCap ∧
    reads 0x002C (s.total.setWidth 32) ∧ reads 0x0030 ((s.total >>> 32).setWidth 32) ∧
    reads 0x0034 (s.symCnt.setWidth 32) ∧ reads 0x0038 ((s.symCnt >>> 32).setWidth 32) ∧
    (s.heap.length ≤ 256 → reads 0x003C (BitVec.ofNat 32 s.heap.length)) ∧
    (s.arena.length ≤ 511 → reads 0x0040 (BitVec.ofNat 32 s.arena.length)) ∧
    reads 0x0044 (s.root.setWidth 32) ∧ reads 0x0048 (s.nLeaf.setWidth 32) ∧
    (s.bwCnt ≤ 7 → reads 0x004C (BitVec.ofNat 32 (s.bwCnt * 256 + s.bwBuf.toNat))) ∧
    (s.brCnt ≤ 8 → reads 0x0050 (BitVec.ofNat 32 (s.brCnt * 256 + s.brBuf.toNat))) ∧
    ∀ off, off % 4 = 0 → (0x0054 ≤ off ∧ off < 0x0400 ∨ 0x4FF0 ≤ off ∧ off < 0x5000) → reads off 0#32

/-- While BUSY = 0 the windows read the internal arrays: FREQ and LUT_LEN by symbol, HEAP and NODE 0 at and above their counts,
LUT_CODE with the first code bit in bit 31 of word 0 (R43 to R47). -/
def Obligations.WindowsReadTheArrays : Prop :=
  ∀ s : State, s.pending = none →
    let reads := fun (off : Nat) (v : Word) =>
      step { s with events := .host (.regRead 4 off) :: s.events } = .next { s with hostData := v }
    (∀ b : Byte, reads (0x0400 + 4 * b.toNat) (tableGet s.freq b) ∧
      reads (0x0800 + 4 * b.toNat) ((tableGet s.lutLen b).setWidth 32)) ∧
    (∀ i, i < 256 → ∀ x, (s.heap[i]? = some x → reads (0x0C00 + 4 * i) (x.setWidth 32)) ∧
      (s.heap.length ≤ i → reads (0x0C00 + 4 * i) 0#32)) ∧
    (∀ (b : Byte) (w : Nat), w < 8 → ∃ v : Word, reads (0x1000 + 32 * b.toNat + 4 * w) v ∧
      ∀ j, j < 32 → v.getLsbD j = (tableGet s.lutCode b).getLsbD (32 * w + 31 - j)) ∧
    (∀ n, n < 511 → ∀ node, s.arena[n]? = some node →
      reads (0x3000 + 16 * n) (node.weight.setWidth 32) ∧ reads (0x3004 + 16 * n) ((node.weight >>> 32).setWidth 32) ∧
      reads (0x3008 + 16 * n) (BitVec.ofNat 32 ((if node.leaf then 2 ^ 31 else 0) + node.sym.toNat)) ∧
      reads (0x300C + 16 * n) (BitVec.ofNat 32 (node.r.toNat * 2 ^ 16 + node.l.toNat))) ∧
    ∀ n k, n < 511 → k < 4 → s.arena.length ≤ n → reads (0x3000 + 16 * n + 4 * k) 0#32

/-- While BUSY = 1, ID, STATUS, CTRL, IN_SIZE and OUT_CAP return their current values and every other register or window an
unspecified value, which is the model's free value of log 4 (R266). -/
def Obligations.BusyReadsAreUnspecified : Prop :=
  ∀ (s : State) (w : Word) (off : Nat) (rest : List Event), s.pending = some w → s.events = .host (.regRead 4 off) :: rest →
    off % 4 = 0 →
    (off = 0x0000 → step s = .next { s with events := rest, hostData := 0x48434301#32 }) ∧
    (off = 0x0008 → step s = .next { s with events := rest, hostData := s.status }) ∧
    (off = 0x000C → step s = .next { s with events := rest, hostData := s.ctrl }) ∧
    (off = 0x0024 → step s = .next { s with events := rest, hostData := s.inSize }) ∧
    (off = 0x0028 → step s = .next { s with events := rest, hostData := s.outCap }) ∧
    ((off = 0x0004 ∨ (0x0010 ≤ off ∧ off ≤ 0x0020) ∨ (0x002C ≤ off ∧ off ≤ 0x0050) ∨ (0x0400 ≤ off ∧ off < 0x4FF0)) →
      step s = .next { s with events := rest, hostData := Config.busyRead s.freeCnt, freeCnt := s.freeCnt + 1 })

/-- Below 0x5000 an access of another width, or at an offset that is not 0 mod 4, is refused (R77). An access at or above 0x5000, of
any width and alignment and whether or not BUSY, is no part of the HCC (R78): a write there changes nothing of it, and a read gives
the host the platform's answer, a parameter of the model (log 12), and changes nothing of the HCC either. -/
def Obligations.BadBusAccessesAreRefused : Prop :=
  ∀ (s : State) (width off : Nat) (v : Word) (rest : List Event),
    (s.events = .host (.regWrite width off v) :: rest ∨ s.events = .host (.regRead width off) :: rest) →
    (off < 0x5000 → (width ≠ 4 ∨ off % 4 ≠ 0) → step s = .refused .badBusAccess) ∧
    (0x5000 ≤ off →
      (s.events = .host (.regWrite width off v) :: rest → step s = .next { s with events := rest }) ∧
      (s.events = .host (.regRead width off) :: rest → step s = .next { s with
        events := rest, hostData := Config.platformAnswer s.freeCnt width off, freeCnt := s.freeCnt + 1 }))

/-- The host's port (R70, R75, R267): while BUSY = 0 a byte written into IN is what IN then holds there and nothing else changes;
a byte read below OUT_POS is what OUT holds; while BUSY = 1 both are refused. -/
def Obligations.PortMovesBytesOnlyWhenIdle : Prop :=
  (∀ (s : State) (addr : Nat) (b : Byte) (rest : List Event), s.events = .host (.loadIn addr b) :: rest →
    (s.pending ≠ none → step s = .refused .portWhileBusy) ∧
    (s.pending = none → addr < s.inSize.toNat → ∃ t, step s = .next t ∧ t = { s with events := rest, inMem := t.inMem } ∧
      t.inByte addr = b ∧ ∀ a, a ≠ addr → t.inByte a = s.inByte a)) ∧
  ∀ (s : State) (addr : Nat) (rest : List Event), s.events = .host (.readOut addr) :: rest →
    (s.pending ≠ none → step s = .refused .portWhileBusy) ∧
    (s.pending = none → addr < s.outPos.toNat → addr < s.outCap.toNat →
      step s = .next { s with events := rest, hostByte := s.outByte addr })

/-- A host write of FREQ[b] while BUSY = 0 sets that counter and performs InvalidateDerived, whether or not the value changed
(R43, R59). -/
def Obligations.FreqWriteInvalidatesDerived : Prop :=
  ∀ (s : State) (b : Byte) (v : Word) (rest : List Event), s.pending = none →
    s.events = .host (.regWrite 4 (0x0400 + 4 * b.toNat) v) :: rest →
    ∃ t, step s = .next t ∧
      t = { s with events := rest, freq := t.freq, tree := .none, root := 0#9, lutValid := false } ∧
      ∀ c : Byte, tableGet t.freq c = if c = b then v else tableGet s.freq c

/-- Host writes of the cursors while BUSY = 0: IN_LEN <- min(v, IN_SIZE), IN_POS <- v, OUT_POS <- min(v, OUT_CAP); the bit
buffers are not touched (R32, R33, R34, R270, R272). -/
def Obligations.CursorWritesAreLimited : Prop :=
  ∀ (s : State) (v : Word) (rest : List Event), s.pending = none →
    (s.events = .host (.regWrite 4 0x0018 v) :: rest →
      step s = .next { s with events := rest, inLen := BitVec.ofNat 32 (min v.toNat s.inSize.toNat) }) ∧
    (s.events = .host (.regWrite 4 0x001C v) :: rest → step s = .next { s with events := rest, inPos := v }) ∧
    (s.events = .host (.regWrite 4 0x0020 v) :: rest →
      step s = .next { s with events := rest, outPos := BitVec.ofNat 32 (min v.toNat s.outCap.toNat) })

/-- Every field of STATUS stands where R26 puts it, the live ones computed, and bit 10 is IRQ = (DONE & IE_DONE) | (ERR & IE_ERR)
(R26, R239). -/
def Obligations.StatusFieldsAndIrq : Prop :=
  ∀ s : State,
    (s.status.getLsbD 0 = true ↔ s.pending ≠ none) ∧ s.status.getLsbD 1 = s.done ∧ s.status.getLsbD 2 = s.err ∧
    s.status.getLsbD 3 = s.rej ∧ s.status.getLsbD 4 = s.ovr ∧ (s.status.getLsbD 5 = true ↔ s.heap.length = 0) ∧
    s.status.extractLsb' 6 2 = (match s.tree with | .none => 0#2 | .empty => 1#2 | .valid => 2#2) ∧
    s.status.getLsbD 8 = s.lutValid ∧ (s.status.getLsbD 9 = true ↔ s.brCnt = 0 ∧ s.inLen.toNat ≤ s.inPos.toNat) ∧
    (s.status.getLsbD 10 = true ↔ (s.done = true ∧ s.ieDone = true) ∨ (s.err = true ∧ s.ieErr = true)) ∧
    s.status.extractLsb' 11 5 = 0#5 ∧ s.status.extractLsb' 16 8 = s.errCode ∧ s.status.extractLsb' 24 8 = 0#8

/-- After a reset event every state element has its value of R61: a pending command is abandoned, STATUS reads 0x220 and nothing
of IN or OUT is known (R61, R260, R262). The same holds of `State.reset`. -/
def Obligations.ResetLeavesTheResetValues : Prop :=
  (∀ (s : State) (rest : List Event), s.events = .reset :: rest →
    ∃ t, step s = .next t ∧ t.status = 0x00000220#32 ∧ t.irq = false ∧
      t = { State.reset with
        inSize := s.inSize, outCap := s.outCap, events := rest, epoch := s.epoch + 1, freeCnt := s.freeCnt,
        hostData := s.hostData, hostByte := s.hostByte }) ∧
  State.reset.pending = none ∧ State.reset.done = false ∧ State.reset.err = false ∧ State.reset.rej = false ∧
  State.reset.ovr = false ∧ State.reset.errCode = 0#8 ∧ State.reset.errInfo = 0#32 ∧ State.reset.ieDone = false ∧
  State.reset.ieErr = false ∧ State.reset.result = 0#32 ∧ State.reset.inLen = 0#32 ∧ State.reset.inPos = 0#32 ∧
  State.reset.outPos = 0#32 ∧ State.reset.total = 0#64 ∧ State.reset.symCnt = 0#64 ∧
  (∀ b, tableGet State.reset.freq b = 0#32) ∧ State.reset.heap = [] ∧ State.reset.arena = [] ∧ State.reset.tree = .none ∧
  State.reset.root = 0#9 ∧ State.reset.nLeaf = 0#9 ∧ (∀ b, tableGet State.reset.lutLen b = 0#8) ∧
  (∀ b, tableGet State.reset.lutCode b = 0#256) ∧ State.reset.lutValid = false ∧ State.reset.bwBuf = 0#8 ∧
  State.reset.bwCnt = 0 ∧ State.reset.brBuf = 0#8 ∧ State.reset.brCnt = 0 ∧ State.reset.inMem = [] ∧ State.reset.outMem = []

/-! ## Control (spec/40_control.md) -/

/-- NOP completes and leaves all other state unchanged (R115). -/
def Obligations.NopOnlyCompletes : Prop := ∀ s : State, exec .nop s = .next { s with pending := none, done := true }

/-- SOFT_RESET sets every state element of R61 to its reset value, except the contents of IN and OUT, and completes; STATUS then
reads 0x222 (R116). -/
def Obligations.SoftResetKeepsOnlyTheMemories : Prop :=
  ∀ s : State, ∃ t, exec .softReset s = .next t ∧ t.status = 0x00000222#32 ∧
    t = { State.reset with
      done := true, inSize := s.inSize, outCap := s.outCap, inMem := s.inMem, outMem := s.outMem, events := s.events,
      epoch := s.epoch, freeCnt := s.freeCnt, hostData := s.hostData, hostByte := s.hostByte }

/-- CLR_ERR clears ERR, ERRCODE, ERRINFO, REJ and OVR, keeps all data state and completes (R117, R238). -/
def Obligations.ClrErrClearsOnlyErrorState : Prop :=
  ∀ s : State, exec .clrErr s =
    .next { s with
      err := false, errCode := 0#8, errInfo := 0#32, rej := false, ovr := false, pending := none, done := true }

/-- The clearing commands have exactly their pseudocode's effect: ARENA_CLEAR R140, HEAP_CLEAR R145, BW_RESET R180, BR_RESET
R186. -/
def Obligations.ClearingCommandsClearOnlyTheirs : Prop :=
  ∀ s : State,
    exec .arenaClear s =
      .next { s with arena := [], heap := [], tree := .none, root := 0#9, pending := none, done := true } ∧
    exec .heapClear s = .next { s with heap := [], pending := none, done := true } ∧
    exec .bwReset s = .next { s with bwBuf := 0#8, bwCnt := 0, pending := none, done := true } ∧
    exec .brReset s = .next { s with brBuf := 0#8, brCnt := 0, pending := none, done := true }

/-! ## Frequency table (spec/41_frequency.md) -/

/-- FREQ_CLEAR zeroes every counter, performs InvalidateDerived and completes (R125). -/
def Obligations.FreqClearZeroesEveryCounter : Prop :=
  ∀ s : State, ∃ t, exec .freqClear s = .next t ∧ (∀ b, tableGet t.freq b = 0#32) ∧
    t = { s with freq := t.freq, tree := .none, root := 0#9, lutValid := false, pending := none, done := true }

/-- FREQ_SCAN adds to every counter the number of times its byte stands in IN from IN_POS to IN_LEN, when no counter passes
2^32 - 1; IN_POS comes to IN_LEN unless it was past it, and what was derived is invalidated (R126). -/
def Obligations.FreqScanCountsTheInput : Prop :=
  ∀ s : State, s.inLen.toNat ≤ s.inSize.toNat →
    (∀ b, (tableGet s.freq b).toNat + s.inBytes.count b < 2 ^ 32) →
    ∃ t, exec .freqScan s = .next t ∧
      (∀ b, (tableGet t.freq b).toNat = (tableGet s.freq b).toNat + s.inBytes.count b) ∧
      t.inPos = (if s.inPos.toNat < s.inLen.toNat then s.inLen else s.inPos) ∧
      t = { s with
        freq := t.freq, inPos := t.inPos, tree := .none, root := 0#9, lutValid := false, pending := none, done := true }

/-- FREQ_SCAN stops at the first byte whose counter is 2^32 - 1: ERR_FREQ_OVF with ERRINFO the byte's address; the counts of the
earlier bytes stay added and IN_POS stands at the byte (R126). -/
def Obligations.FreqScanStopsBeforeOverflow : Prop :=
  ∀ (s : State) (k : Nat) (x : Byte), s.inLen.toNat ≤ s.inSize.toNat → s.inBytes[k]? = some x →
    (∀ b, (tableGet s.freq b).toNat + (s.inBytes.take k).count b < 2 ^ 32) →
    (tableGet s.freq x).toNat + (s.inBytes.take k).count x = 2 ^ 32 - 1 →
    ∃ t, exec .freqScan s = .next t ∧
      (∀ b, (tableGet t.freq b).toNat = (tableGet s.freq b).toNat + (s.inBytes.take k).count b) ∧
      t.inPos.toNat = s.inPos.toNat + k ∧
      t = { s with
        freq := t.freq, inPos := t.inPos, tree := .none, root := 0#9, lutValid := false, pending := none, done := true,
        err := true, errCode := 0x0A#8, errInfo := t.inPos }

/-- FREQ_HDR_WR writes the 1024 bytes of R72 at OUT_POS, every other byte of OUT reads as before, and OUT_POS grows by 1024; with
less room it raises ERR_SINK_FULL(1024) and writes nothing (R127, R72). -/
def Obligations.HeaderWriteIsBigEndian : Prop :=
  ∀ s : State,
    (s.outPos.toNat + 1024 ≤ s.outCap.toNat → ∃ t, exec .freqHdrWr s = .next t ∧
      t.outPos.toNat = s.outPos.toNat + 1024 ∧
      (∀ (b : Byte) (k : Nat), k < 4 →
        t.outByte (s.outPos.toNat + 4 * b.toNat + k) = (tableGet s.freq b).extractLsb' (24 - 8 * k) 8) ∧
      (∀ a, a < s.outPos.toNat ∨ s.outPos.toNat + 1024 ≤ a → t.outByte a = s.outByte a) ∧
      t = { s with outMem := t.outMem, outPos := t.outPos, pending := none, done := true }) ∧
    (s.outCap.toNat < s.outPos.toNat + 1024 → exec .freqHdrWr s =
      .next { s with err := true, errCode := 0x02#8, errInfo := 1024#32, pending := none, done := true })

/-- FREQ_HDR_RD reads every counter from the 1024 big-endian bytes at IN_POS, advances IN_POS by 1024 and invalidates; with fewer
bytes before IN_LEN it raises ERR_HDR_TRUNC with their number and changes nothing (R128, R72). -/
def Obligations.HeaderReadReplacesTheTable : Prop :=
  ∀ s : State, s.inLen.toNat ≤ s.inSize.toNat →
    (s.inPos.toNat + 1024 ≤ s.inLen.toNat → ∃ t, exec .freqHdrRd s = .next t ∧
      t.inPos.toNat = s.inPos.toNat + 1024 ∧
      (∀ (b : Byte) (k : Nat), k < 4 →
        (tableGet t.freq b).extractLsb' (24 - 8 * k) 8 = s.inByte (s.inPos.toNat + 4 * b.toNat + k)) ∧
      t = { s with
        freq := t.freq, inPos := t.inPos, tree := .none, root := 0#9, lutValid := false, pending := none, done := true }) ∧
    (s.inLen.toNat < s.inPos.toNat + 1024 → exec .freqHdrRd s =
      .next { s with
        err := true, errCode := 0x03#8, errInfo := BitVec.ofNat 32 (s.inLen.toNat - s.inPos.toNat), pending := none,
        done := true })

/-! ## Arena and heap (spec/42_heap.md) -/

/-- NODE_LEAF appends the leaf of the symbol, with W = zext_64(FREQ[sym]), and returns its index; a full arena raises
ERR_ARENA_FULL(0) and changes nothing (R141, R142). -/
def Obligations.NodeLeafAppendsALeaf : Prop :=
  ∀ (s : State) (sym : Byte),
    (s.arena.length < 511 → exec (.nodeLeaf sym) s =
      .next { s with
        arena := s.arena ++ [⟨(tableGet s.freq sym).setWidth 64, sym, true, 0#9, 0#9⟩],
        result := BitVec.ofNat 32 s.arena.length, pending := none, done := true }) ∧
    (s.arena.length = 511 → exec (.nodeLeaf sym) s =
      .next { s with err := true, errCode := 0x07#8, errInfo := 0#32, pending := none, done := true })

/-- NODE_JOIN appends the internal node with left child a and right child b and returns its index; its errors come in the order
BAD_NODE(a), BAD_NODE(b), ARENA_FULL, WEIGHT_OVF and change nothing (R143, R144). -/
def Obligations.NodeJoinAppendsAnInternalNode : Prop :=
  ∀ (s : State) (a b : NodeIdx),
    let wa := (weightAt s.arena a).toNat
    let wb := (weightAt s.arena b).toNat
    let fails := fun (code : Byte) (info : Word) => exec (.nodeJoin a b) s =
      .next { s with err := true, errCode := code, errInfo := info, pending := none, done := true }
    (s.arena.length ≤ a.toNat → fails 0x08#8 (a.setWidth 32)) ∧
    (a.toNat < s.arena.length → s.arena.length ≤ b.toNat → fails 0x08#8 (b.setWidth 32)) ∧
    (a.toNat < s.arena.length → b.toNat < s.arena.length → s.arena.length = 511 → fails 0x07#8 0#32) ∧
    (a.toNat < s.arena.length → b.toNat < s.arena.length → s.arena.length < 511 → 2 ^ 64 ≤ wa + wb → fails 0x09#8 0#32) ∧
    (a.toNat < s.arena.length → b.toNat < s.arena.length → s.arena.length < 511 → wa + wb < 2 ^ 64 →
      exec (.nodeJoin a b) s =
        .next { s with
          arena := s.arena ++ [⟨BitVec.ofNat 64 (wa + wb), 0#8, false, a, b⟩], result := BitVec.ofNat 32 s.arena.length,
          pending := none, done := true })

/-- HEAP_INSERT adds the node to the heap, changes nothing else and keeps the heap property; its errors are BAD_NODE, then
HEAP_FULL, and change nothing (R146, R147, R151). -/
def Obligations.HeapInsertAddsTheNode : Prop :=
  ∀ (s : State) (i : NodeIdx),
    let fails := fun (code : Byte) => exec (.heapInsert i) s =
      .next { s with err := true, errCode := code, errInfo := i.setWidth 32, pending := none, done := true }
    (s.arena.length ≤ i.toNat → fails 0x08#8) ∧
    (i.toNat < s.arena.length → s.heap.length = 256 → fails 0x06#8) ∧
    (i.toNat < s.arena.length → s.heap.length < 256 → ∃ t, exec (.heapInsert i) s = .next t ∧
      t.heap.Perm (i :: s.heap) ∧ (HeapOrdered s.arena s.heap → HeapOrdered t.arena t.heap) ∧
      t = { s with heap := t.heap, pending := none, done := true })

/-- HEAP_EXTRACT returns slot 0 and removes it, changes nothing else, keeps the heap property, and on an ordered heap the node
returned has the least weight; an empty heap raises ERR_HEAP_UNDERFLOW(0) (R149, R150, R151). -/
def Obligations.HeapExtractRemovesALightestNode : Prop :=
  ∀ s : State,
    (s.heap = [] → exec .heapExtract s =
      .next { s with err := true, errCode := 0x05#8, errInfo := 0#32, pending := none, done := true }) ∧
    ∀ (top : NodeIdx) (others : List NodeIdx), s.heap = top :: others →
      ∃ t, exec .heapExtract s = .next t ∧ t.result = top.setWidth 32 ∧ t.heap.Perm others ∧
        (HeapOrdered s.arena s.heap →
          HeapOrdered t.arena t.heap ∧ ∀ i ∈ s.heap, weightAt s.arena top ≤ weightAt s.arena i) ∧
        t = { s with heap := t.heap, result := t.result, pending := none, done := true }

/-- The tie-break is not insertion order: three nodes of equal weight inserted in the order 0, 1, 2 stand as [0, 1, 2]; the first
extraction returns 0 and leaves [2, 1], the second returns 2 (R152, which the spec derives from R146, R148 and R149). -/
def Obligations.EqualWeightsAreNotFirstInFirstOut : Prop :=
  ∀ s : State, weightAt s.arena 0#9 = weightAt s.arena 1#9 → weightAt s.arena 1#9 = weightAt s.arena 2#9 →
    2 < s.arena.length → s.heap = [] →
    ∃ s0 s1 s2 s3 s4, exec (.heapInsert 0#9) s = .next s0 ∧ exec (.heapInsert 1#9) s0 = .next s1 ∧
      exec (.heapInsert 2#9) s1 = .next s2 ∧ s2.heap = [0#9, 1#9, 2#9] ∧
      exec .heapExtract s2 = .next s3 ∧ s3.result = 0#32 ∧ s3.heap = [2#9, 1#9] ∧
      exec .heapExtract s3 = .next s4 ∧ s4.result = 2#32

/-! ## Tree builder (spec/43_tree.md) -/

/-- With L >= 1 nonzero counters TREE_BUILD completes (R163: it needs no check) with TREE = VALID, L leaves in ascending symbol
order, then L - 1 internal nodes, ROOT = 2L - 2, an empty heap and TOTAL = the sum of all FREQ (R160; the layout is R164, which the
spec derives from R160). An internal node's weight is the sum of its children's, its left child, extracted first, is no heavier than
its right child, and no internal node is lighter than one created before it. The merge rule is that of the single commands: node
for node, the arena and the root are those that ARENA_CLEAR, then NODE_LEAF and HEAP_INSERT for each counted symbol, then L - 1
times (HEAP_EXTRACT gives a, HEAP_EXTRACT gives b, NODE_JOIN a, b, HEAP_INSERT), then HEAP_EXTRACT make. -/
def Obligations.TreeBuildLayout : Prop :=
  ∀ s : State, presentSymbols s.freq ≠ [] →
    let len := (presentSymbols s.freq).length
    ∃ t, exec .treeBuild s = .next t ∧ t.tree = .valid ∧ t.nLeaf = BitVec.ofNat 9 len ∧ t.result = BitVec.ofNat 32 len ∧
      t.arena.length = 2 * len - 1 ∧ t.root = BitVec.ofNat 9 (2 * len - 2) ∧ t.total.toNat = tableSum s.freq ∧
      t.arena.take len =
        (presentSymbols s.freq).map (fun b => ⟨(tableGet s.freq b).setWidth 64, b, true, 0#9, 0#9⟩) ∧
      (∀ n node, len ≤ n → t.arena[n]? = some node → node.leaf = false ∧ node.sym = 0#8 ∧ node.l.toNat < n ∧
        node.r.toNat < n ∧ node.l ≠ node.r ∧
        node.weight.toNat = (weightAt t.arena node.l).toNat + (weightAt t.arena node.r).toNat ∧
        weightAt t.arena node.l ≤ weightAt t.arena node.r ∧
        ∀ m earlier, len ≤ m → m < n → t.arena[m]? = some earlier → earlier.weight ≤ node.weight) ∧
      buildByCommands s = .next { s with
        arena := t.arena, heap := [], tree := .none, root := 0#9, result := t.root.setWidth 32, pending := none,
        done := true } ∧
      t = { s with
        arena := t.arena, heap := [], tree := .valid, root := t.root, nLeaf := t.nLeaf, total := t.total,
        lutValid := false, result := t.result, pending := none, done := true }

/-- Zero symbols: no nodes are created, TREE = EMPTY, ROOT = 0, ARENA_CNT = 0, NLEAF = 0, TOTAL = 0, RESULT = 0 (R162). Lone
root: with exactly one nonzero counter the single leaf is the root, with no internal node (R161). -/
def Obligations.TreeBuildOfZeroSymbolsAndOfOne : Prop :=
  ∀ s : State,
    ((∀ b, tableGet s.freq b = 0#32) → exec .treeBuild s =
      .next { s with
        arena := [], heap := [], tree := .empty, root := 0#9, nLeaf := 0#9, total := 0#64, lutValid := false,
        result := 0#32, pending := none, done := true }) ∧
    ∀ b : Byte, tableGet s.freq b ≠ 0#32 → (∀ c, c ≠ b → tableGet s.freq c = 0#32) → exec .treeBuild s =
      .next { s with
        arena := [⟨(tableGet s.freq b).setWidth 64, b, true, 0#9, 0#9⟩], heap := [], tree := .valid, root := 0#9,
        nLeaf := 1#9, total := (tableGet s.freq b).setWidth 64, lutValid := false, result := 1#32, pending := none,
        done := true }

/-- TREE_BUILD is a function of FREQ alone: the same FREQ gives the same arena, ROOT and TOTAL, node for node (R165, which the spec
derives from R160). -/
def Obligations.TreeBuildDependsOnFreqAlone : Prop :=
  ∀ s s' t : State, s.freq = s'.freq → exec .treeBuild s = .next t →
    ∃ t', exec .treeBuild s' = .next t' ∧ t'.arena = t.arena ∧ t'.heap = t.heap ∧ t'.tree = t.tree ∧ t'.root = t.root ∧
      t'.nLeaf = t.nLeaf ∧ t'.total = t.total ∧ t'.result = t.result

/-! ## Code table (spec/44_codetable.md) -/

/-- CODE_GEN with TREE = NONE raises ERR_NO_TREE(0) and changes nothing; with TREE = EMPTY it leaves an all-empty table; a lone
root's symbol gets the 1-bit code "0" (R170, R171). -/
def Obligations.CodeGenWithoutInternalNodes : Prop :=
  ∀ s : State,
    (s.tree = .none → exec .codeGen s =
      .next { s with err := true, errCode := 0x0B#8, errInfo := 0#32, pending := none, done := true }) ∧
    (s.tree = .empty → exec .codeGen s =
      .next { s with
        lutLen := Vector.replicate 256 0#8, lutCode := Vector.replicate 256 0#256, lutValid := true, result := 0#32,
        pending := none, done := true }) ∧
    (s.tree = .valid → (nodeAt s.arena s.root).leaf = true → ∃ t, exec .codeGen s = .next t ∧ t.result = 1#32 ∧
      (∀ b, t.codeOf b = if b = (nodeAt s.arena s.root).sym then [false] else []) ∧ (∀ b, tableGet t.lutCode b = 0#256) ∧
      t = { s with
        lutLen := t.lutLen, lutCode := t.lutCode, lutValid := true, result := 1#32, pending := none, done := true })

/-- From a state with the bounds of R60, CODE_GEN on a built tree completes, sets LUT_VALID and writes only the code table and
RESULT (R170). -/
def Obligations.CodeGenWritesOnlyTheCodeTable : Prop :=
  ∀ s : State, s.Bounded → s.tree ≠ .none →
    ∃ t, exec .codeGen s = .next t ∧
      t = { s with
        lutLen := t.lutLen, lutCode := t.lutCode, lutValid := true, result := t.result, pending := none, done := true }

/-- After TREE_BUILD and CODE_GEN exactly the symbols with a nonzero count have a code; the code's bits lead from the root to the
symbol's leaf; with two or more leaves its length is 1 to NLEAF - 1, RESULT is the longest, and no bit is set past the length
(R170, R172, R46). -/
def Obligations.CodesLeadToTheirLeaves : Prop :=
  ∀ s t u : State, exec .treeBuild s = .next t → exec .codeGen t = .next u →
    u.lutValid = true ∧
    (∀ b, (u.codeOf b ≠ [] ↔ tableGet s.freq b ≠ 0#32) ∧ (u.codeOf b ≠ [] → u.decodesTo (u.codeOf b) = some b) ∧
      (∀ j, (tableGet u.lutLen b).toNat ≤ j → (tableGet u.lutCode b).getLsbD j = false) ∧
      (tableGet u.lutLen b).toNat ≤ u.result.toNat ∧
      (2 ≤ u.nLeaf.toNat → (tableGet u.lutLen b).toNat ≤ u.nLeaf.toNat - 1)) ∧
    (presentSymbols s.freq ≠ [] → ∃ b, (tableGet u.lutLen b).toNat = u.result.toNat)

/-- The codes of a TREE_BUILD tree with two or more leaves are prefix-free and satisfy the Kraft equality (R173, which
the spec derives from R170 and R53). -/
def Obligations.CodesArePrefixFreeAndComplete : Prop :=
  ∀ s t u : State, exec .treeBuild s = .next t → exec .codeGen t = .next u → 2 ≤ u.nLeaf.toNat →
    (∀ b c, b ≠ c → u.codeOf b ≠ [] → u.codeOf c ≠ [] → ¬ (u.codeOf b).IsPrefix (u.codeOf c)) ∧
    ((allBytes.filter fun b => decide (u.codeOf b ≠ [])).map fun b => 2 ^ (255 - (u.codeOf b).length)).sum = 2 ^ 255

/-! ## Bit I/O (spec/45_bitio.md) -/

/-- BW_PUT sends VAL[N-1] first down to VAL[0]: whole bytes go to OUT from OUT_POS on, MSB first, the rest is pending; with less
room than the completed bytes it raises ERR_SINK_FULL(k) and takes no bit (R182, R183, R74). -/
def Obligations.BwPutSendsItsBits : Prop :=
  ∀ (s : State) (n : BitVec 5) (val : BitVec 16), bwPutLegal n val = true → s.BitsOk →
    let k := (s.bwCnt + n.toNat) / 8
    (s.outPos.toNat + k ≤ s.outCap.toNat → ∃ t, exec (.bwPut n val) s = .next t ∧
      Sent s t ((List.range n.toNat).map fun j => val.getLsbD (n.toNat - 1 - j)) ∧
      t = { s with
        outMem := t.outMem, outPos := t.outPos, bwBuf := t.bwBuf, bwCnt := t.bwCnt, pending := none, done := true }) ∧
    (s.outCap.toNat - s.outPos.toNat < k → exec (.bwPut n val) s =
      .next { s with err := true, errCode := 0x02#8, errInfo := BitVec.ofNat 32 k, pending := none, done := true })

/-- BW_FINALIZE writes nothing when no bit is pending; else it writes the buffer as one byte at OUT_POS with RESULT the number of
pad bits, which are 0; with OUT full it raises ERR_SINK_FULL(1) and writes nothing (R184, R185). -/
def Obligations.BwFinalizeFlushesAPartialByte : Prop :=
  ∀ s : State,
    (s.bwCnt = 0 → exec .bwFinalize s = .next { s with result := 0#32, pending := none, done := true }) ∧
    (s.BitsOk → s.bwCnt ≠ 0 → s.outPos.toNat < s.outCap.toNat → ∃ t, exec .bwFinalize s = .next t ∧
      t.outPos.toNat = s.outPos.toNat + 1 ∧ t.outByte s.outPos.toNat = s.bwBuf ∧
      (∀ i, i < t.result.toNat → (t.outByte s.outPos.toNat).getLsbD i = false) ∧
      (∀ a, a ≠ s.outPos.toNat → t.outByte a = s.outByte a) ∧
      t = { s with
        outMem := t.outMem, outPos := t.outPos, bwBuf := 0#8, bwCnt := 0, result := BitVec.ofNat 32 (8 - s.bwCnt),
        pending := none, done := true }) ∧
    (s.bwCnt ≠ 0 → s.outCap.toNat ≤ s.outPos.toNat → exec .bwFinalize s =
      .next { s with err := true, errCode := 0x02#8, errInfo := 1#32, pending := none, done := true })

/-- BR_GET delivers the next bit of the stream, fetching a byte only when none is buffered; at end-of-source it returns 2 and
changes nothing (R187, R188). -/
def Obligations.BrGetDeliversTheNextBit : Prop :=
  ∀ s : State,
    (s.brCnt = 0 → s.inLen.toNat ≤ s.inPos.toNat →
      exec .brGet s = .next { s with result := 2#32, pending := none, done := true }) ∧
    (s.brCnt = 0 → s.inPos.toNat < s.inLen.toNat → s.inLen.toNat ≤ s.inSize.toNat →
      exec .brGet s = .next { s with
        brBuf := s.inByte s.inPos.toNat, brCnt := 7, inPos := s.inPos + 1#32,
        result := (if (s.inByte s.inPos.toNat).getLsbD 7 then 1#32 else 0#32), pending := none, done := true }) ∧
    (s.brCnt ≠ 0 → exec .brGet s = .next { s with
      brCnt := s.brCnt - 1, result := (if s.brBuf.getLsbD (s.brCnt - 1) then 1#32 else 0#32), pending := none, done := true })

/-! ## Symbol coder (spec/46_coder.md) -/

/-- ENC_SYM sends the code of its symbol, c(0) first, counts it and returns the code's length, when the table is valid, the symbol
has a code and OUT has room for the completed bytes (R199, R200). -/
def Obligations.EncSymSendsTheCode : Prop :=
  ∀ (s : State) (sym : Byte), s.BitsOk → s.lutValid = true → tableGet s.lutLen sym ≠ 0#8 →
    s.outPos.toNat + (s.bwCnt + (tableGet s.lutLen sym).toNat) / 8 ≤ s.outCap.toNat →
    ∃ t, exec (.encSym sym) s = .next t ∧ Sent s t (s.codeOf sym) ∧
      t = { s with
        outMem := t.outMem, outPos := t.outPos, bwBuf := t.bwBuf, bwCnt := t.bwCnt, symCnt := s.symCnt + 1#64,
        result := (tableGet s.lutLen sym).setWidth 32, pending := none, done := true }

/-- ENC_NEXT does for the byte at IN_POS what ENC_SYM does for its operand, and advances IN_POS (R201). -/
def Obligations.EncNextSendsTheNextByte : Prop :=
  ∀ s : State, s.BitsOk → s.inPos.toNat < s.inLen.toNat → s.inLen.toNat ≤ s.inSize.toNat → s.lutValid = true →
    let sym := s.inByte s.inPos.toNat
    tableGet s.lutLen sym ≠ 0#8 → s.outPos.toNat + (s.bwCnt + (tableGet s.lutLen sym).toNat) / 8 ≤ s.outCap.toNat →
    ∃ t, exec .encNext s = .next t ∧ Sent s t (s.codeOf sym) ∧
      t = { s with
        outMem := t.outMem, outPos := t.outPos, bwBuf := t.bwBuf, bwCnt := t.bwCnt, symCnt := s.symCnt + 1#64,
        inPos := s.inPos + 1#32, result := (tableGet s.lutLen sym).setWidth 32, pending := none, done := true }

/-- The errors of ENC_SYM and ENC_NEXT come in the order IN_EOS (ENC_NEXT only), NO_LUT, NO_CODE, SINK_FULL, and change nothing
(R200, R201, R233). -/
def Obligations.EncodingErrorsInOrder : Prop :=
  ∀ (s : State) (i : Instr) (sym : Byte),
    (i = .encSym sym ∨
      i = .encNext ∧ s.inPos.toNat < s.inLen.toNat ∧ s.inLen.toNat ≤ s.inSize.toNat ∧ sym = s.inByte s.inPos.toNat) →
    let k := (s.bwCnt + (tableGet s.lutLen sym).toNat) / 8
    let fails := fun (i : Instr) (code : Byte) (info : Word) => exec i s =
      .next { s with err := true, errCode := code, errInfo := info, pending := none, done := true }
    (s.lutValid = false → fails i 0x0C#8 0#32) ∧
    (s.lutValid = true → tableGet s.lutLen sym = 0#8 → fails i 0x0D#8 (sym.setWidth 32)) ∧
    (s.lutValid = true → tableGet s.lutLen sym ≠ 0#8 → s.outCap.toNat - s.outPos.toNat < k →
      fails i 0x02#8 (BitVec.ofNat 32 k)) ∧
    (s.inLen.toNat ≤ s.inPos.toNat → fails .encNext 0x0E#8 s.inPos)

/-- DEC_SYM takes exactly the bits of one code off the reader's stream and writes the symbol they lead to at OUT_POS; a byte is
fetched only when a bit is demanded and none is buffered (R187, R202). -/
def Obligations.DecSymDecodesOneSymbol : Prop :=
  ∀ (s : State) (path : List Bool) (sym : Byte), s.tree = .valid → s.outPos.toNat < s.outCap.toNat →
    s.inLen.toNat ≤ s.inSize.toNat → path.IsPrefix s.readerBits → s.decodesTo path = some sym →
    ∃ t, exec .decSym s = .next t ∧ t.readerBits = s.readerBits.drop path.length ∧
      t.inPos.toNat = s.inPos.toNat + (path.length - s.brCnt + 7) / 8 ∧
      t.outByte s.outPos.toNat = sym ∧ (∀ a, a ≠ s.outPos.toNat → t.outByte a = s.outByte a) ∧
      t = { s with
        inPos := t.inPos, brBuf := t.brBuf, brCnt := t.brCnt, outMem := t.outMem, outPos := s.outPos + 1#32,
        symCnt := s.symCnt + 1#64, result := sym.setWidth 32, pending := none, done := true }

/-- The errors of DEC_SYM: NO_TREE when TREE is not VALID, then SINK_FULL(1), then PAYLOAD_TRUNC(SYMCNT[31:0]) when the stream ends
before a leaf is reached; each leaves IN_POS and the BitReader as they were (R202). -/
def Obligations.DecSymErrorsChangeNothing : Prop :=
  ∀ s : State,
    let fails := fun (code : Byte) (info : Word) => exec .decSym s =
      .next { s with err := true, errCode := code, errInfo := info, pending := none, done := true }
    (s.tree ≠ .valid → fails 0x0B#8 0#32) ∧
    (s.tree = .valid → s.outCap.toNat ≤ s.outPos.toNat → fails 0x02#8 1#32) ∧
    (s.tree = .valid → s.outPos.toNat < s.outCap.toNat → s.inLen.toNat ≤ s.inSize.toNat →
      (∀ path, path.IsPrefix s.readerBits → s.decodesTo path = none) → fails 0x04#8 (s.symCnt.setWidth 32))

/-! ## Whole files (spec/46_coder.md) -/

/-- ENCODE completes from every state with the invariants; its only error is SINK_FULL, which 1024 + 32·IN_LEN bytes of OUT rule
out. On success OUT holds the header of the counts of the input and then the codes of its bytes, and the registers are as R205
says: OUT_POS = RESULT = 1024 + ceil(B / 8), SYMCNT = IN_POS = IN_LEN, BW_STATE = 0 (R203, R73; R205 is the spec's own derivation).
The arena, TREE, ROOT, NLEAF, TOTAL and the code table are those of TREE_BUILD, then CODE_GEN, on the counts of the input. -/
def Obligations.EncodeWritesTheFile : Prop :=
  ∀ s : State, s.Inv → s.err = false →
    ∃ t, exec .encode s = .next t ∧
      (s.outCap.toNat ≥ 1024 + 32 * s.inLen.toNat → t.err = false) ∧
      (t.err = true → t.errCode = 0x02#8 ∧ t.result = s.result) ∧
      (t.err = false →
        (∀ b, (tableGet t.freq b).toNat = s.input.count b) ∧ tableSum t.freq = s.inLen.toNat ∧
        t.result.toNat = 1024 + (t.payloadBits + 7) / 8 ∧
        (∀ (b : Byte) (k : Nat), k < 4 → t.outByte (4 * b.toNat + k) = (tableGet t.freq b).extractLsb' (24 - 8 * k) 8) ∧
        (∀ i, i < (t.payloadBits + 7) / 8 → t.outByte (1024 + i) = streamByte (s.input.flatMap t.codeOf) i) ∧
        (s.input.flatMap t.codeOf).length = t.payloadBits ∧
        (∀ a, t.result.toNat ≤ a → t.outByte a = s.outByte a) ∧
        (∃ v w, exec .treeBuild { s with freq := t.freq } = .next v ∧ exec .codeGen v = .next w ∧ t.arena = v.arena ∧
          t.tree = v.tree ∧ t.root = v.root ∧ t.nLeaf = v.nLeaf ∧ t.total = v.total ∧ t.lutLen = w.lutLen ∧
          t.lutCode = w.lutCode) ∧
        t = { s with
          inPos := s.inLen, outPos := t.result, symCnt := BitVec.ofNat 64 s.inLen.toNat, freq := t.freq, heap := [],
          arena := t.arena, tree := t.tree, root := t.root, nLeaf := t.nLeaf, total := t.total, lutLen := t.lutLen,
          lutCode := t.lutCode, lutValid := true, bwBuf := 0#8, bwCnt := 0, outMem := t.outMem, result := t.result,
          pending := none, done := true })

/-- ENCODE of the same IN contents and IN_LEN writes the same OUT bytes and leaves the same values in every register it writes,
whatever state it starts from (R207, which the spec derives from R203). -/
def Obligations.EncodeIsDeterministic : Prop :=
  ∀ s s' t : State, s.Inv → s'.Inv → s.err = false → s'.err = false → s.inLen = s'.inLen → s.outCap = s'.outCap →
    (∀ a, a < s.inLen.toNat → s.inByte a = s'.inByte a) → exec .encode s = .next t → t.err = false →
    ∃ t', exec .encode s' = .next t' ∧ (∀ a, a < t.outPos.toNat → t'.outByte a = t.outByte a) ∧
      t' = { s' with
        inPos := t.inPos, outPos := t.outPos, symCnt := t.symCnt, freq := t.freq, heap := t.heap, arena := t.arena,
        tree := t.tree, root := t.root, nLeaf := t.nLeaf, total := t.total, lutLen := t.lutLen, lutCode := t.lutCode,
        lutValid := t.lutValid, bwBuf := t.bwBuf, bwCnt := t.bwCnt, outMem := t'.outMem, result := t.result,
        pending := none, done := true }

/-- DECODE of any file, whoever wrote it: it takes FREQ from the header, builds the tree, and when the payload starts with the
codes of as many symbols as the header counts, it writes those symbols from OUT address 0 on, with RESULT = OUT_POS = SYMCNT their
number; it reads no byte past the last code bit and writes no other byte of OUT (R204, R72, R73). -/
def Obligations.DecodeReadsTheCodesOfItsHeader : Prop :=
  ∀ (s v w : State) (msg : List Byte), s.inLen.toNat ≤ s.inSize.toNat → 1024 ≤ s.inLen.toNat →
    exec .treeBuild { s with freq := headerTable s.inByte } = .next v → exec .codeGen v = .next w →
    msg.length = tableSum (headerTable s.inByte) → msg.length ≤ s.outCap.toNat → (∀ b ∈ msg, w.codeOf b ≠ []) →
    (msg.flatMap w.codeOf).IsPrefix
      ((List.range (s.inLen.toNat - 1024)).flatMap fun i => byteBits (s.inByte (1024 + i))) →
    ∃ t, exec .decode s = .next t ∧ t.inPos.toNat = 1024 + ((msg.flatMap w.codeOf).length + 7) / 8 ∧
      (∀ i x, msg[i]? = some x → t.outByte i = x) ∧ (∀ a, msg.length ≤ a → t.outByte a = s.outByte a) ∧
      t = { s with
        inPos := t.inPos, outPos := BitVec.ofNat 32 msg.length, symCnt := BitVec.ofNat 64 msg.length, brBuf := t.brBuf,
        brCnt := t.brCnt, freq := headerTable s.inByte, heap := [], arena := v.arena, tree := v.tree, root := v.root,
        nLeaf := v.nLeaf, total := v.total, lutValid := false, outMem := t.outMem, result := BitVec.ofNat 32 msg.length,
        pending := none, done := true }

/-- Round trip: DECODE of a file that agrees with what ENCODE wrote on the header and on the B payload bits (any pad bits, any
bytes after it) gives back the input, with RESULT its length, and reads exactly ceil(B / 8) payload bytes (R206 and R208,
which the spec derives from R203, R204, R165, R173, R182 and R187). -/
def Obligations.DecodeInvertsEncode : Prop :=
  ∀ s t u : State, s.Inv → s.err = false → exec .encode s = .next t → t.err = false →
    u.Inv → u.err = false → 1024 + (t.payloadBits + 7) / 8 ≤ u.inLen.toNat → s.inLen.toNat ≤ u.outCap.toNat →
    (∀ a, a < 1024 → u.inByte a = t.outByte a) →
    (∀ k, k < t.payloadBits → payloadBit u.inByte k = payloadBit t.outByte k) →
    ∃ v, exec .decode u = .next v ∧ v.err = false ∧ v.result.toNat = s.inLen.toNat ∧ v.outPos.toNat = s.inLen.toNat ∧
      v.symCnt.toNat = s.inLen.toNat ∧ v.inPos.toNat = 1024 + (t.payloadBits + 7) / 8 ∧
      ∀ a, a < s.inLen.toNat → v.outByte a = s.inByte a

/-- DECODE of an all-zero header emits nothing, reads no payload bit and ends with IN_POS = 1024; with fewer than 1024 bytes it
raises ERR_HDR_TRUNC(IN_LEN), the cursors, SYMCNT and the BitReader already reset and FREQ kept (R204). -/
def Obligations.DecodeOfEmptyAndTruncatedHeaders : Prop :=
  ∀ s : State, s.inLen.toNat ≤ s.inSize.toNat →
    (1024 ≤ s.inLen.toNat → (∀ a, a < 1024 → s.inByte a = 0#8) → exec .decode s =
      .next { s with
        inPos := 1024#32, outPos := 0#32, symCnt := 0#64, brBuf := 0#8, brCnt := 0, freq := Vector.replicate 256 0#32,
        arena := [], heap := [], tree := .empty, root := 0#9, nLeaf := 0#9, total := 0#64, lutValid := false,
        result := 0#32, pending := none, done := true }) ∧
    (s.inLen.toNat < 1024 → exec .decode s =
      .next { s with
        inPos := 0#32, outPos := 0#32, symCnt := 0#64, brBuf := 0#8, brCnt := 0, err := true, errCode := 0x03#8,
        errInfo := s.inLen, pending := none, done := true })

/-! ## Whole-machine rules -/

/-- A command that names no result leaves RESULT unchanged, and a command that ends in an error leaves it unchanged (R29, R102). -/
def Obligations.ResultIsWrittenOnlyOnNamedSuccess : Prop :=
  ∀ (i : Instr) (s t : State), exec i s = .next t →
    (keepsResult i = true → t.result = s.result) ∧ (s.err = false → t.err = true → t.result = s.result)

/-- A command reports only the errors the table lists for it, with that error's code (R102, R230). -/
def Obligations.CommandsRaiseOnlyListedErrors : Prop :=
  ∀ (i : Instr) (s t : State), s.Bounded → s.err = false → exec i s = .next t → t.err = true →
    ∃ k ∈ errorsOf i, t.errCode = k.code

/-- No command changes IN, IN_SIZE, OUT_CAP or the coming events; every command ends with PENDING = none and DONE = 1; only
SOFT_RESET changes IN_LEN and CTRL; only SOFT_RESET and CLR_ERR change REJ and OVR or clear ERR; and only SOFT_RESET, ENCODE and
DECODE move IN_POS backwards (R31, R32, R33, R70, R71, R236; log 19 on R32's "No command writes IN_LEN"). -/
def Obligations.CommandsKeepInputAndParameters : Prop :=
  ∀ (i : Instr) (s t : State), exec i s = .next t →
    t.inMem = s.inMem ∧ t.epoch = s.epoch ∧ t.inSize = s.inSize ∧ t.outCap = s.outCap ∧ t.events = s.events ∧
    t.pending = none ∧ t.done = true ∧
    (i ≠ .softReset → t.inLen = s.inLen ∧ t.ieDone = s.ieDone ∧ t.ieErr = s.ieErr) ∧
    (i ≠ .softReset → i ≠ .clrErr → t.rej = s.rej ∧ t.ovr = s.ovr ∧ (s.err = true → t.err = true)) ∧
    (i ≠ .softReset → i ≠ .encode → i ≠ .decode → s.inPos.toNat ≤ t.inPos.toNat)

/-- The HCC writes OUT only at OUT_POS: apart from SOFT_RESET, which writes none, a command changes no byte outside the stretch its
OUT_POS passes over, which starts at 0 for ENCODE and DECODE (R75, R84). -/
def Obligations.OutIsWrittenOnlyAtOutPos : Prop :=
  ∀ (i : Instr) (s t : State), exec i s = .next t →
    (i = .softReset → t.outMem = s.outMem) ∧
    (i ≠ .softReset → ∀ a, t.outPos.toNat ≤ a → t.outByte a = s.outByte a) ∧
    (i ≠ .softReset → i ≠ .encode → i ≠ .decode →
      s.outPos.toNat ≤ t.outPos.toNat ∧ ∀ a, a < s.outPos.toNat → t.outByte a = s.outByte a)

/-- The HCC never reads OUT: two states that differ only in what OUT holds run every command alike (R70, R75). The bytes the
command stores, from OUT_POS (from 0 for ENCODE and DECODE) up to where OUT_POS comes to stand, are the same, and every other byte
of OUT is what it was in each of the two. -/
def Obligations.OutContentsNeverInfluenceACommand : Prop :=
  ∀ (i : Instr) (s : State) (m : Memory),
    (∀ t, exec i s = .next t → ∃ m', exec i { s with outMem := m } = .next { t with outMem := m' } ∧
      ∀ a, Memory.read? m' a =
        if s.storesFrom i ≤ a ∧ a < t.outPos.toNat then Memory.read? t.outMem a else Memory.read? m a) ∧
    ∀ f, exec i s = .fault f → exec i { s with outMem := m } = .fault f

/-- A pending command completes at the sequencer's next turn: from a state with the bounds of R60 the turn ends in a next state
with nothing pending and DONE set if a command was pending; it never faults and never refuses (R236, R274). -/
def Obligations.PendingCommandAlwaysCompletes : Prop :=
  ∀ s : State, s.Bounded → ∃ t, sequencerTurn s = .next t ∧ t.pending = none ∧ (s.pending ≠ none → t.done = true)

/-- The state after reset meets the invariants (R60, R61); its sizes are the model's choice of log 5. -/
def Obligations.ResetMeetsTheInvariants : Prop := State.reset.Inv

/-- Every step keeps the bounds of R60, the canonical form of the memories, the shape of the arena's nodes and the error state's
consistency, from every state that meets them (R60). -/
def Obligations.StepKeepsTheBounds : Prop := ∀ s t : State, s.Bounded → step s = .next t → t.Bounded

/-- Every step keeps the heap property, and with it all the invariants of R60 (R60, R151). -/
def Obligations.StepKeepsTheInvariants : Prop := ∀ s t : State, s.Inv → step s = .next t → t.Inv
end

