-- ==== Sys2Proof/Laws/Memory.lean ====
section
/-! SUPPORT. The laws of the memories IN and OUT and of the 256-entry tables: read after write, and the canonical form. -/

namespace Sys2Proof.Machine

/-! ## Memories -/

/-- What consecutive cells hold at an address. -/
theorem lookup_cellsFrom (bs : List Byte) (a x : Nat) :
    (cellsFrom a bs).lookup x = if a ≤ x then bs[x - a]? else none := by
  induction bs generalizing a with
  | nil => simp [cellsFrom]
  | cons b bs ih =>
    rw [cellsFrom, List.lookup_cons, ih]
    by_cases hx : x = a
    · simp [hx]
    · have hne : (x == a) = false := by simpa using hx
      rw [hne]
      by_cases hle : a ≤ x
      · have h1 : a + 1 ≤ x := by omega
        have h2 : x - a = (x - (a + 1)) + 1 := by omega
        simp [hle, h1, h2]
      · have h1 : ¬ a + 1 ≤ x := by omega
        simp [hle, h1]

/-- What a memory with a first cell holds. -/
theorem lookup_cell (c : Host.Cell) (m : Memory) (x : Nat) :
    (c :: m).lookup x = if x = c.1 then some c.2 else m.lookup x := by
  obtain ⟨k, v⟩ := c
  rw [List.lookup_cons]
  by_cases h : x = k
  · simp [h]
  · have hne : (x == k) = false := by simpa using h
    simp [h, hne]

/-- Filtering by a condition on the address keeps what the addresses that meet it hold, and nothing else. -/
theorem lookup_filter_addr (m : Memory) (p : Nat → Bool) (x : Nat) :
    (m.filter fun c => p c.1).lookup x = if p x then m.lookup x else none := by
  induction m with
  | nil => simp
  | cons c m ih =>
    rw [lookup_cell]
    cases hp : p c.1
    · rw [List.filter_cons_of_neg (by simp [hp]), ih]
      by_cases hx : x = c.1
      · simp [hx, hp]
      · simp [hx]
    · rw [List.filter_cons_of_pos (by simp [hp]), lookup_cell, ih]
      by_cases hx : x = c.1
      · simp [hx, hp]
      · simp [hx]

/-- Reading after writing a block: the block's bytes inside it, what was there before outside. -/
theorem Memory.read?_writeBlock (m : Memory) (a : Nat) (bs : List Byte) (x : Nat) :
    (m.writeBlock a bs).read? x =
      if a ≤ x ∧ x < a + bs.length then bs[x - a]? else m.read? x := by
  unfold Memory.writeBlock Memory.read?
  rw [List.lookup_append, List.lookup_append, lookup_filter_addr m (fun n => decide (n < a)),
    lookup_filter_addr m (fun n => decide (a + bs.length ≤ n)), lookup_cellsFrom]
  by_cases h1 : x < a
  · have h2 : ¬ a ≤ x := by omega
    have h3 : ¬ a + bs.length ≤ x := by omega
    simp [h1, h2, h3]
  · have h2 : a ≤ x := by omega
    by_cases h3 : a + bs.length ≤ x
    · have h4 : ¬ x < a + bs.length := by omega
      have h5 : bs[x - a]? = none := by rw [List.getElem?_eq_none_iff]; omega
      simp [h1, h2, h3, h4, h5]
    · have h4 : x < a + bs.length := by omega
      simp [h1, h2, h3, h4]

/-- Reading after writing one byte. -/
theorem Memory.read?_write (m : Memory) (a : Nat) (b : Byte) (x : Nat) :
    (m.write a b).read? x = if x = a then some b else m.read? x := by
  rw [Memory.write, Memory.read?_writeBlock]
  by_cases h : x = a
  · simp [h]
  · have h1 : ¬ (a ≤ x ∧ x < a + [b].length) := by simp; omega
    rw [if_neg h1, if_neg h]

/-- Every cell of a run of consecutive cells has an address of the run. -/
theorem addr_of_mem_cellsFrom {bs : List Byte} {a : Nat} {c : Host.Cell} (h : c ∈ cellsFrom a bs) :
    a ≤ c.1 ∧ c.1 < a + bs.length := by
  induction bs generalizing a with
  | nil => simp [cellsFrom] at h
  | cons b bs ih =>
    rcases List.mem_cons.1 h with rfl | h
    · simp
    · have := ih h
      simp only [List.length_cons]
      omega

/-- Consecutive cells have rising addresses. -/
theorem cellsFrom_wf (bs : List Byte) (a : Nat) : Memory.wf (cellsFrom a bs) := by
  induction bs generalizing a with
  | nil => simp [cellsFrom]
  | cons b bs ih =>
    refine List.pairwise_cons.2 ⟨fun c hc => ?_, ih (a + 1)⟩
    have := addr_of_mem_cellsFrom hc
    simp only
    omega

/-- Writing a block keeps the canonical form. -/
theorem Memory.writeBlock_wf {m : Memory} (h : m.wf) (a : Nat) (bs : List Byte) : (m.writeBlock a bs).wf := by
  unfold Memory.wf Memory.writeBlock
  refine List.pairwise_append.2 ⟨List.pairwise_append.2 ⟨h.filter _, cellsFrom_wf bs a, ?_⟩, h.filter _, ?_⟩
  · intro x hx y hy
    have h1 := List.of_mem_filter hx
    have h2 := addr_of_mem_cellsFrom hy
    simp only [decide_eq_true_eq] at h1
    omega
  · intro x hx y hy
    have h2 := List.of_mem_filter hy
    simp only [decide_eq_true_eq] at h2
    rcases List.mem_append.1 hx with hx | hx
    · have h1 := List.of_mem_filter hx
      simp only [decide_eq_true_eq] at h1
      omega
    · have h1 := addr_of_mem_cellsFrom hx
      omega

/-- Writing a byte keeps the canonical form. -/
theorem Memory.write_wf {m : Memory} (h : m.wf) (a : Nat) (b : Byte) : (m.write a b).wf := Memory.writeBlock_wf h a [b]

/-- Both memories are in the canonical form after reset: nothing is listed. -/
theorem State.reset_memories_wf : State.reset.inMem.wf ∧ State.reset.outMem.wf := ⟨List.Pairwise.nil, List.Pairwise.nil⟩

/-- After writing a block below a bound, every listed address is below the bound if it was before. -/
theorem Memory.writeBlock_lt {m : Memory} {n : Nat} (h : ∀ c ∈ m, c.1 < n) {a : Nat} {bs : List Byte}
    (hn : a + bs.length ≤ n) : ∀ c ∈ m.writeBlock a bs, c.1 < n := by
  intro c hc
  rcases List.mem_append.1 hc with hc | hc
  · rcases List.mem_append.1 hc with hc | hc
    · exact h c (List.mem_of_mem_filter hc)
    · have := addr_of_mem_cellsFrom hc
      omega
  · exact h c (List.mem_of_mem_filter hc)

/-- After writing a byte below a bound, every listed address is below the bound if it was before. -/
theorem Memory.write_lt {m : Memory} {n : Nat} (h : ∀ c ∈ m, c.1 < n) {a : Nat} {b : Byte} (hn : a < n) :
    ∀ c ∈ m.write a b, c.1 < n :=
  Memory.writeBlock_lt h (by simpa using hn)

/-- Below every listed address a memory holds nothing. -/
theorem lookup_below {m : Memory} {k x : Nat} (h : ∀ c ∈ m, k < c.1) (hx : x ≤ k) : m.lookup x = none := by
  induction m with
  | nil => rfl
  | cons c m ih =>
    have hc := h c (List.mem_cons_self ..)
    rw [lookup_cell, if_neg (by omega), ih fun d hd => h d (List.mem_cons_of_mem _ hd)]

/-- Canonical memories that read alike are equal: equal memories are equal data. -/
theorem Memory.ext_read {m m' : Memory} (h : m.wf) (h' : m'.wf) (hr : ∀ a, m.read? a = m'.read? a) : m = m' := by
  unfold Memory.read? at hr
  induction m generalizing m' with
  | nil =>
    cases m' with
    | nil => rfl
    | cons c m' => exact absurd (hr c.1) (by simp [lookup_cell])
  | cons c m ih =>
    cases m' with
    | nil => exact absurd (hr c.1) (by simp [lookup_cell])
    | cons d m' =>
      obtain ⟨hc, hm⟩ := List.pairwise_cons.1 h
      obtain ⟨hd, hm'⟩ := List.pairwise_cons.1 h'
      have key : c.1 = d.1 := by
        rcases Nat.lt_trichotomy c.1 d.1 with hlt | heq | hgt
        · have h1 := hr c.1
          rw [lookup_cell, lookup_cell, if_pos rfl, if_neg (by omega), lookup_below hd (by omega)] at h1
          cases h1
        · exact heq
        · have h1 := hr d.1
          rw [lookup_cell, lookup_cell, if_neg (by omega), if_pos rfl, lookup_below hc (by omega)] at h1
          cases h1
      have hval : c.2 = d.2 := by
        have h1 := hr c.1
        rw [lookup_cell, lookup_cell, if_pos rfl, if_pos key] at h1
        exact Option.some.inj h1
      have hcd : c = d := Prod.ext key hval
      subst hcd
      congr 1
      refine ih hm hm' fun a => ?_
      by_cases ha : a ≤ c.1
      · rw [lookup_below hc ha, lookup_below hd ha]
      · have h1 := hr a
        rwa [lookup_cell, lookup_cell, if_neg (by omega), if_neg (by omega)] at h1

/-! ## Tables -/

/-- Entry `c` after entry `b` was set. -/
theorem tableGet_tableSet {α : Type} (t : Vector α 256) (b c : Byte) (v : α) :
    tableGet (tableSet t b v) c = if c = b then v else tableGet t c := by
  unfold tableGet tableSet
  rw [Vector.getElem_set]
  by_cases h : c = b
  · simp [h]
  · have : b.toNat ≠ c.toNat := fun e => h (BitVec.eq_of_toNat_eq e.symm)
    simp [h, this]

@[simp] theorem tableGet_tableSet_self {α : Type} (t : Vector α 256) (b : Byte) (v : α) : tableGet (tableSet t b v) b = v := by
  simp [tableGet_tableSet]

@[simp] theorem tableGet_replicate {α : Type} (v : α) (b : Byte) : tableGet (Vector.replicate 256 v) b = v := by
  simp [tableGet]

/-- Two tables with the same entries are the same. -/
theorem table_ext {α : Type} {t u : Vector α 256} (h : ∀ b, tableGet t b = tableGet u b) : t = u := by
  apply Vector.ext
  intro i hi
  have := h (BitVec.ofNat 8 i)
  simpa [tableGet, Nat.mod_eq_of_lt hi] using this

/-- Every byte is among `allBytes`. -/
theorem mem_allBytes (b : Byte) : b ∈ allBytes := by
  refine List.mem_map.2 ⟨b.toNat, List.mem_range.2 b.isLt, ?_⟩
  simp

@[simp] theorem length_allBytes : allBytes.length = 256 := by simp [allBytes]

/-- `allBytes` holds no byte twice. -/
theorem nodup_allBytes : allBytes.Nodup := by
  refine List.Nodup.map_on ?_ List.nodup_range
  intro x hx y hy h
  have hx := List.mem_range.1 hx
  have hy := List.mem_range.1 hy
  have := congrArg BitVec.toNat h
  simpa [Nat.mod_eq_of_lt hx, Nat.mod_eq_of_lt hy] using this

end Sys2Proof.Machine
end

