-- ==== Sys2Proof/Laws/State.lean ====
section
/-! SUPPORT. What each named update of the state does to each field: one lemma per field per update, true by rfl. -/

namespace Sys2Proof.Machine

/-! ## State.finish -/

@[simp] theorem State.finish_pending (s : State) : s.finish.pending = none := rfl
@[simp] theorem State.finish_done (s : State) : s.finish.done = true := rfl
@[simp] theorem State.finish_err (s : State) : s.finish.err = s.err := rfl
@[simp] theorem State.finish_rej (s : State) : s.finish.rej = s.rej := rfl
@[simp] theorem State.finish_ovr (s : State) : s.finish.ovr = s.ovr := rfl
@[simp] theorem State.finish_errCode (s : State) : s.finish.errCode = s.errCode := rfl
@[simp] theorem State.finish_errInfo (s : State) : s.finish.errInfo = s.errInfo := rfl
@[simp] theorem State.finish_ieDone (s : State) : s.finish.ieDone = s.ieDone := rfl
@[simp] theorem State.finish_ieErr (s : State) : s.finish.ieErr = s.ieErr := rfl
@[simp] theorem State.finish_result (s : State) : s.finish.result = s.result := rfl
@[simp] theorem State.finish_inLen (s : State) : s.finish.inLen = s.inLen := rfl
@[simp] theorem State.finish_inPos (s : State) : s.finish.inPos = s.inPos := rfl
@[simp] theorem State.finish_outPos (s : State) : s.finish.outPos = s.outPos := rfl
@[simp] theorem State.finish_inSize (s : State) : s.finish.inSize = s.inSize := rfl
@[simp] theorem State.finish_outCap (s : State) : s.finish.outCap = s.outCap := rfl
@[simp] theorem State.finish_total (s : State) : s.finish.total = s.total := rfl
@[simp] theorem State.finish_symCnt (s : State) : s.finish.symCnt = s.symCnt := rfl
@[simp] theorem State.finish_freq (s : State) : s.finish.freq = s.freq := rfl
@[simp] theorem State.finish_heap (s : State) : s.finish.heap = s.heap := rfl
@[simp] theorem State.finish_arena (s : State) : s.finish.arena = s.arena := rfl
@[simp] theorem State.finish_tree (s : State) : s.finish.tree = s.tree := rfl
@[simp] theorem State.finish_root (s : State) : s.finish.root = s.root := rfl
@[simp] theorem State.finish_nLeaf (s : State) : s.finish.nLeaf = s.nLeaf := rfl
@[simp] theorem State.finish_lutLen (s : State) : s.finish.lutLen = s.lutLen := rfl
@[simp] theorem State.finish_lutCode (s : State) : s.finish.lutCode = s.lutCode := rfl
@[simp] theorem State.finish_lutValid (s : State) : s.finish.lutValid = s.lutValid := rfl
@[simp] theorem State.finish_bwBuf (s : State) : s.finish.bwBuf = s.bwBuf := rfl
@[simp] theorem State.finish_bwCnt (s : State) : s.finish.bwCnt = s.bwCnt := rfl
@[simp] theorem State.finish_brBuf (s : State) : s.finish.brBuf = s.brBuf := rfl
@[simp] theorem State.finish_brCnt (s : State) : s.finish.brCnt = s.brCnt := rfl
@[simp] theorem State.finish_inMem (s : State) : s.finish.inMem = s.inMem := rfl
@[simp] theorem State.finish_outMem (s : State) : s.finish.outMem = s.outMem := rfl
@[simp] theorem State.finish_events (s : State) : s.finish.events = s.events := rfl
@[simp] theorem State.finish_epoch (s : State) : s.finish.epoch = s.epoch := rfl
@[simp] theorem State.finish_freeCnt (s : State) : s.finish.freeCnt = s.freeCnt := rfl
@[simp] theorem State.finish_hostData (s : State) : s.finish.hostData = s.hostData := rfl
@[simp] theorem State.finish_hostByte (s : State) : s.finish.hostByte = s.hostByte := rfl

/-! ## State.takeError -/

@[simp] theorem State.takeError_pending (s : State) (k : ErrKind) (info : Word) : (s.takeError k info).pending = none := rfl
@[simp] theorem State.takeError_done (s : State) (k : ErrKind) (info : Word) : (s.takeError k info).done = true := rfl
@[simp] theorem State.takeError_err (s : State) (k : ErrKind) (info : Word) : (s.takeError k info).err = true := rfl
@[simp] theorem State.takeError_rej (s : State) (k : ErrKind) (info : Word) : (s.takeError k info).rej = s.rej := rfl
@[simp] theorem State.takeError_ovr (s : State) (k : ErrKind) (info : Word) : (s.takeError k info).ovr = s.ovr := rfl
@[simp] theorem State.takeError_errCode (s : State) (k : ErrKind) (info : Word) : (s.takeError k info).errCode = k.code := rfl
@[simp] theorem State.takeError_errInfo (s : State) (k : ErrKind) (info : Word) : (s.takeError k info).errInfo = info := rfl
@[simp] theorem State.takeError_ieDone (s : State) (k : ErrKind) (info : Word) : (s.takeError k info).ieDone = s.ieDone := rfl
@[simp] theorem State.takeError_ieErr (s : State) (k : ErrKind) (info : Word) : (s.takeError k info).ieErr = s.ieErr := rfl
@[simp] theorem State.takeError_result (s : State) (k : ErrKind) (info : Word) : (s.takeError k info).result = s.result := rfl
@[simp] theorem State.takeError_inLen (s : State) (k : ErrKind) (info : Word) : (s.takeError k info).inLen = s.inLen := rfl
@[simp] theorem State.takeError_inPos (s : State) (k : ErrKind) (info : Word) : (s.takeError k info).inPos = s.inPos := rfl
@[simp] theorem State.takeError_outPos (s : State) (k : ErrKind) (info : Word) : (s.takeError k info).outPos = s.outPos := rfl
@[simp] theorem State.takeError_inSize (s : State) (k : ErrKind) (info : Word) : (s.takeError k info).inSize = s.inSize := rfl
@[simp] theorem State.takeError_outCap (s : State) (k : ErrKind) (info : Word) : (s.takeError k info).outCap = s.outCap := rfl
@[simp] theorem State.takeError_total (s : State) (k : ErrKind) (info : Word) : (s.takeError k info).total = s.total := rfl
@[simp] theorem State.takeError_symCnt (s : State) (k : ErrKind) (info : Word) : (s.takeError k info).symCnt = s.symCnt := rfl
@[simp] theorem State.takeError_freq (s : State) (k : ErrKind) (info : Word) : (s.takeError k info).freq = s.freq := rfl
@[simp] theorem State.takeError_heap (s : State) (k : ErrKind) (info : Word) : (s.takeError k info).heap = s.heap := rfl
@[simp] theorem State.takeError_arena (s : State) (k : ErrKind) (info : Word) : (s.takeError k info).arena = s.arena := rfl
@[simp] theorem State.takeError_tree (s : State) (k : ErrKind) (info : Word) : (s.takeError k info).tree = s.tree := rfl
@[simp] theorem State.takeError_root (s : State) (k : ErrKind) (info : Word) : (s.takeError k info).root = s.root := rfl
@[simp] theorem State.takeError_nLeaf (s : State) (k : ErrKind) (info : Word) : (s.takeError k info).nLeaf = s.nLeaf := rfl
@[simp] theorem State.takeError_lutLen (s : State) (k : ErrKind) (info : Word) : (s.takeError k info).lutLen = s.lutLen := rfl
@[simp] theorem State.takeError_lutCode (s : State) (k : ErrKind) (info : Word) : (s.takeError k info).lutCode = s.lutCode := rfl
@[simp] theorem State.takeError_lutValid (s : State) (k : ErrKind) (info : Word) : (s.takeError k info).lutValid = s.lutValid := rfl
@[simp] theorem State.takeError_bwBuf (s : State) (k : ErrKind) (info : Word) : (s.takeError k info).bwBuf = s.bwBuf := rfl
@[simp] theorem State.takeError_bwCnt (s : State) (k : ErrKind) (info : Word) : (s.takeError k info).bwCnt = s.bwCnt := rfl
@[simp] theorem State.takeError_brBuf (s : State) (k : ErrKind) (info : Word) : (s.takeError k info).brBuf = s.brBuf := rfl
@[simp] theorem State.takeError_brCnt (s : State) (k : ErrKind) (info : Word) : (s.takeError k info).brCnt = s.brCnt := rfl
@[simp] theorem State.takeError_inMem (s : State) (k : ErrKind) (info : Word) : (s.takeError k info).inMem = s.inMem := rfl
@[simp] theorem State.takeError_outMem (s : State) (k : ErrKind) (info : Word) : (s.takeError k info).outMem = s.outMem := rfl
@[simp] theorem State.takeError_events (s : State) (k : ErrKind) (info : Word) : (s.takeError k info).events = s.events := rfl
@[simp] theorem State.takeError_epoch (s : State) (k : ErrKind) (info : Word) : (s.takeError k info).epoch = s.epoch := rfl
@[simp] theorem State.takeError_freeCnt (s : State) (k : ErrKind) (info : Word) : (s.takeError k info).freeCnt = s.freeCnt := rfl
@[simp] theorem State.takeError_hostData (s : State) (k : ErrKind) (info : Word) : (s.takeError k info).hostData = s.hostData := rfl
@[simp] theorem State.takeError_hostByte (s : State) (k : ErrKind) (info : Word) : (s.takeError k info).hostByte = s.hostByte := rfl

/-! ## State.clearError -/

@[simp] theorem State.clearError_pending (s : State) : s.clearError.pending = s.pending := rfl
@[simp] theorem State.clearError_done (s : State) : s.clearError.done = s.done := rfl
@[simp] theorem State.clearError_err (s : State) : s.clearError.err = false := rfl
@[simp] theorem State.clearError_rej (s : State) : s.clearError.rej = false := rfl
@[simp] theorem State.clearError_ovr (s : State) : s.clearError.ovr = false := rfl
@[simp] theorem State.clearError_errCode (s : State) : s.clearError.errCode = 0#8 := rfl
@[simp] theorem State.clearError_errInfo (s : State) : s.clearError.errInfo = 0#32 := rfl
@[simp] theorem State.clearError_ieDone (s : State) : s.clearError.ieDone = s.ieDone := rfl
@[simp] theorem State.clearError_ieErr (s : State) : s.clearError.ieErr = s.ieErr := rfl
@[simp] theorem State.clearError_result (s : State) : s.clearError.result = s.result := rfl
@[simp] theorem State.clearError_inLen (s : State) : s.clearError.inLen = s.inLen := rfl
@[simp] theorem State.clearError_inPos (s : State) : s.clearError.inPos = s.inPos := rfl
@[simp] theorem State.clearError_outPos (s : State) : s.clearError.outPos = s.outPos := rfl
@[simp] theorem State.clearError_inSize (s : State) : s.clearError.inSize = s.inSize := rfl
@[simp] theorem State.clearError_outCap (s : State) : s.clearError.outCap = s.outCap := rfl
@[simp] theorem State.clearError_total (s : State) : s.clearError.total = s.total := rfl
@[simp] theorem State.clearError_symCnt (s : State) : s.clearError.symCnt = s.symCnt := rfl
@[simp] theorem State.clearError_freq (s : State) : s.clearError.freq = s.freq := rfl
@[simp] theorem State.clearError_heap (s : State) : s.clearError.heap = s.heap := rfl
@[simp] theorem State.clearError_arena (s : State) : s.clearError.arena = s.arena := rfl
@[simp] theorem State.clearError_tree (s : State) : s.clearError.tree = s.tree := rfl
@[simp] theorem State.clearError_root (s : State) : s.clearError.root = s.root := rfl
@[simp] theorem State.clearError_nLeaf (s : State) : s.clearError.nLeaf = s.nLeaf := rfl
@[simp] theorem State.clearError_lutLen (s : State) : s.clearError.lutLen = s.lutLen := rfl
@[simp] theorem State.clearError_lutCode (s : State) : s.clearError.lutCode = s.lutCode := rfl
@[simp] theorem State.clearError_lutValid (s : State) : s.clearError.lutValid = s.lutValid := rfl
@[simp] theorem State.clearError_bwBuf (s : State) : s.clearError.bwBuf = s.bwBuf := rfl
@[simp] theorem State.clearError_bwCnt (s : State) : s.clearError.bwCnt = s.bwCnt := rfl
@[simp] theorem State.clearError_brBuf (s : State) : s.clearError.brBuf = s.brBuf := rfl
@[simp] theorem State.clearError_brCnt (s : State) : s.clearError.brCnt = s.brCnt := rfl
@[simp] theorem State.clearError_inMem (s : State) : s.clearError.inMem = s.inMem := rfl
@[simp] theorem State.clearError_outMem (s : State) : s.clearError.outMem = s.outMem := rfl
@[simp] theorem State.clearError_events (s : State) : s.clearError.events = s.events := rfl
@[simp] theorem State.clearError_epoch (s : State) : s.clearError.epoch = s.epoch := rfl
@[simp] theorem State.clearError_freeCnt (s : State) : s.clearError.freeCnt = s.freeCnt := rfl
@[simp] theorem State.clearError_hostData (s : State) : s.clearError.hostData = s.hostData := rfl
@[simp] theorem State.clearError_hostByte (s : State) : s.clearError.hostByte = s.hostByte := rfl

/-! ## State.invalidateDerived -/

@[simp] theorem State.invalidateDerived_pending (s : State) : s.invalidateDerived.pending = s.pending := rfl
@[simp] theorem State.invalidateDerived_done (s : State) : s.invalidateDerived.done = s.done := rfl
@[simp] theorem State.invalidateDerived_err (s : State) : s.invalidateDerived.err = s.err := rfl
@[simp] theorem State.invalidateDerived_rej (s : State) : s.invalidateDerived.rej = s.rej := rfl
@[simp] theorem State.invalidateDerived_ovr (s : State) : s.invalidateDerived.ovr = s.ovr := rfl
@[simp] theorem State.invalidateDerived_errCode (s : State) : s.invalidateDerived.errCode = s.errCode := rfl
@[simp] theorem State.invalidateDerived_errInfo (s : State) : s.invalidateDerived.errInfo = s.errInfo := rfl
@[simp] theorem State.invalidateDerived_ieDone (s : State) : s.invalidateDerived.ieDone = s.ieDone := rfl
@[simp] theorem State.invalidateDerived_ieErr (s : State) : s.invalidateDerived.ieErr = s.ieErr := rfl
@[simp] theorem State.invalidateDerived_result (s : State) : s.invalidateDerived.result = s.result := rfl
@[simp] theorem State.invalidateDerived_inLen (s : State) : s.invalidateDerived.inLen = s.inLen := rfl
@[simp] theorem State.invalidateDerived_inPos (s : State) : s.invalidateDerived.inPos = s.inPos := rfl
@[simp] theorem State.invalidateDerived_outPos (s : State) : s.invalidateDerived.outPos = s.outPos := rfl
@[simp] theorem State.invalidateDerived_inSize (s : State) : s.invalidateDerived.inSize = s.inSize := rfl
@[simp] theorem State.invalidateDerived_outCap (s : State) : s.invalidateDerived.outCap = s.outCap := rfl
@[simp] theorem State.invalidateDerived_total (s : State) : s.invalidateDerived.total = s.total := rfl
@[simp] theorem State.invalidateDerived_symCnt (s : State) : s.invalidateDerived.symCnt = s.symCnt := rfl
@[simp] theorem State.invalidateDerived_freq (s : State) : s.invalidateDerived.freq = s.freq := rfl
@[simp] theorem State.invalidateDerived_heap (s : State) : s.invalidateDerived.heap = s.heap := rfl
@[simp] theorem State.invalidateDerived_arena (s : State) : s.invalidateDerived.arena = s.arena := rfl
@[simp] theorem State.invalidateDerived_tree (s : State) : s.invalidateDerived.tree = .none := rfl
@[simp] theorem State.invalidateDerived_root (s : State) : s.invalidateDerived.root = 0#9 := rfl
@[simp] theorem State.invalidateDerived_nLeaf (s : State) : s.invalidateDerived.nLeaf = s.nLeaf := rfl
@[simp] theorem State.invalidateDerived_lutLen (s : State) : s.invalidateDerived.lutLen = s.lutLen := rfl
@[simp] theorem State.invalidateDerived_lutCode (s : State) : s.invalidateDerived.lutCode = s.lutCode := rfl
@[simp] theorem State.invalidateDerived_lutValid (s : State) : s.invalidateDerived.lutValid = false := rfl
@[simp] theorem State.invalidateDerived_bwBuf (s : State) : s.invalidateDerived.bwBuf = s.bwBuf := rfl
@[simp] theorem State.invalidateDerived_bwCnt (s : State) : s.invalidateDerived.bwCnt = s.bwCnt := rfl
@[simp] theorem State.invalidateDerived_brBuf (s : State) : s.invalidateDerived.brBuf = s.brBuf := rfl
@[simp] theorem State.invalidateDerived_brCnt (s : State) : s.invalidateDerived.brCnt = s.brCnt := rfl
@[simp] theorem State.invalidateDerived_inMem (s : State) : s.invalidateDerived.inMem = s.inMem := rfl
@[simp] theorem State.invalidateDerived_outMem (s : State) : s.invalidateDerived.outMem = s.outMem := rfl
@[simp] theorem State.invalidateDerived_events (s : State) : s.invalidateDerived.events = s.events := rfl
@[simp] theorem State.invalidateDerived_epoch (s : State) : s.invalidateDerived.epoch = s.epoch := rfl
@[simp] theorem State.invalidateDerived_freeCnt (s : State) : s.invalidateDerived.freeCnt = s.freeCnt := rfl
@[simp] theorem State.invalidateDerived_hostData (s : State) : s.invalidateDerived.hostData = s.hostData := rfl
@[simp] theorem State.invalidateDerived_hostByte (s : State) : s.invalidateDerived.hostByte = s.hostByte := rfl

/-! ## State.writeFreq -/

@[simp] theorem State.writeFreq_pending (s : State) (b : Byte) (v : Word) : (s.writeFreq b v).pending = s.pending := rfl
@[simp] theorem State.writeFreq_done (s : State) (b : Byte) (v : Word) : (s.writeFreq b v).done = s.done := rfl
@[simp] theorem State.writeFreq_err (s : State) (b : Byte) (v : Word) : (s.writeFreq b v).err = s.err := rfl
@[simp] theorem State.writeFreq_rej (s : State) (b : Byte) (v : Word) : (s.writeFreq b v).rej = s.rej := rfl
@[simp] theorem State.writeFreq_ovr (s : State) (b : Byte) (v : Word) : (s.writeFreq b v).ovr = s.ovr := rfl
@[simp] theorem State.writeFreq_errCode (s : State) (b : Byte) (v : Word) : (s.writeFreq b v).errCode = s.errCode := rfl
@[simp] theorem State.writeFreq_errInfo (s : State) (b : Byte) (v : Word) : (s.writeFreq b v).errInfo = s.errInfo := rfl
@[simp] theorem State.writeFreq_ieDone (s : State) (b : Byte) (v : Word) : (s.writeFreq b v).ieDone = s.ieDone := rfl
@[simp] theorem State.writeFreq_ieErr (s : State) (b : Byte) (v : Word) : (s.writeFreq b v).ieErr = s.ieErr := rfl
@[simp] theorem State.writeFreq_result (s : State) (b : Byte) (v : Word) : (s.writeFreq b v).result = s.result := rfl
@[simp] theorem State.writeFreq_inLen (s : State) (b : Byte) (v : Word) : (s.writeFreq b v).inLen = s.inLen := rfl
@[simp] theorem State.writeFreq_inPos (s : State) (b : Byte) (v : Word) : (s.writeFreq b v).inPos = s.inPos := rfl
@[simp] theorem State.writeFreq_outPos (s : State) (b : Byte) (v : Word) : (s.writeFreq b v).outPos = s.outPos := rfl
@[simp] theorem State.writeFreq_inSize (s : State) (b : Byte) (v : Word) : (s.writeFreq b v).inSize = s.inSize := rfl
@[simp] theorem State.writeFreq_outCap (s : State) (b : Byte) (v : Word) : (s.writeFreq b v).outCap = s.outCap := rfl
@[simp] theorem State.writeFreq_total (s : State) (b : Byte) (v : Word) : (s.writeFreq b v).total = s.total := rfl
@[simp] theorem State.writeFreq_symCnt (s : State) (b : Byte) (v : Word) : (s.writeFreq b v).symCnt = s.symCnt := rfl
@[simp] theorem State.writeFreq_freq (s : State) (b : Byte) (v : Word) : (s.writeFreq b v).freq = tableSet s.freq b v := rfl
@[simp] theorem State.writeFreq_heap (s : State) (b : Byte) (v : Word) : (s.writeFreq b v).heap = s.heap := rfl
@[simp] theorem State.writeFreq_arena (s : State) (b : Byte) (v : Word) : (s.writeFreq b v).arena = s.arena := rfl
@[simp] theorem State.writeFreq_tree (s : State) (b : Byte) (v : Word) : (s.writeFreq b v).tree = .none := rfl
@[simp] theorem State.writeFreq_root (s : State) (b : Byte) (v : Word) : (s.writeFreq b v).root = 0#9 := rfl
@[simp] theorem State.writeFreq_nLeaf (s : State) (b : Byte) (v : Word) : (s.writeFreq b v).nLeaf = s.nLeaf := rfl
@[simp] theorem State.writeFreq_lutLen (s : State) (b : Byte) (v : Word) : (s.writeFreq b v).lutLen = s.lutLen := rfl
@[simp] theorem State.writeFreq_lutCode (s : State) (b : Byte) (v : Word) : (s.writeFreq b v).lutCode = s.lutCode := rfl
@[simp] theorem State.writeFreq_lutValid (s : State) (b : Byte) (v : Word) : (s.writeFreq b v).lutValid = false := rfl
@[simp] theorem State.writeFreq_bwBuf (s : State) (b : Byte) (v : Word) : (s.writeFreq b v).bwBuf = s.bwBuf := rfl
@[simp] theorem State.writeFreq_bwCnt (s : State) (b : Byte) (v : Word) : (s.writeFreq b v).bwCnt = s.bwCnt := rfl
@[simp] theorem State.writeFreq_brBuf (s : State) (b : Byte) (v : Word) : (s.writeFreq b v).brBuf = s.brBuf := rfl
@[simp] theorem State.writeFreq_brCnt (s : State) (b : Byte) (v : Word) : (s.writeFreq b v).brCnt = s.brCnt := rfl
@[simp] theorem State.writeFreq_inMem (s : State) (b : Byte) (v : Word) : (s.writeFreq b v).inMem = s.inMem := rfl
@[simp] theorem State.writeFreq_outMem (s : State) (b : Byte) (v : Word) : (s.writeFreq b v).outMem = s.outMem := rfl
@[simp] theorem State.writeFreq_events (s : State) (b : Byte) (v : Word) : (s.writeFreq b v).events = s.events := rfl
@[simp] theorem State.writeFreq_epoch (s : State) (b : Byte) (v : Word) : (s.writeFreq b v).epoch = s.epoch := rfl
@[simp] theorem State.writeFreq_freeCnt (s : State) (b : Byte) (v : Word) : (s.writeFreq b v).freeCnt = s.freeCnt := rfl
@[simp] theorem State.writeFreq_hostData (s : State) (b : Byte) (v : Word) : (s.writeFreq b v).hostData = s.hostData := rfl
@[simp] theorem State.writeFreq_hostByte (s : State) (b : Byte) (v : Word) : (s.writeFreq b v).hostByte = s.hostByte := rfl

/-! ## State.setNLeaf -/

@[simp] theorem State.setNLeaf_pending (s : State) : s.setNLeaf.pending = s.pending := rfl
@[simp] theorem State.setNLeaf_done (s : State) : s.setNLeaf.done = s.done := rfl
@[simp] theorem State.setNLeaf_err (s : State) : s.setNLeaf.err = s.err := rfl
@[simp] theorem State.setNLeaf_rej (s : State) : s.setNLeaf.rej = s.rej := rfl
@[simp] theorem State.setNLeaf_ovr (s : State) : s.setNLeaf.ovr = s.ovr := rfl
@[simp] theorem State.setNLeaf_errCode (s : State) : s.setNLeaf.errCode = s.errCode := rfl
@[simp] theorem State.setNLeaf_errInfo (s : State) : s.setNLeaf.errInfo = s.errInfo := rfl
@[simp] theorem State.setNLeaf_ieDone (s : State) : s.setNLeaf.ieDone = s.ieDone := rfl
@[simp] theorem State.setNLeaf_ieErr (s : State) : s.setNLeaf.ieErr = s.ieErr := rfl
@[simp] theorem State.setNLeaf_result (s : State) : s.setNLeaf.result = s.result := rfl
@[simp] theorem State.setNLeaf_inLen (s : State) : s.setNLeaf.inLen = s.inLen := rfl
@[simp] theorem State.setNLeaf_inPos (s : State) : s.setNLeaf.inPos = s.inPos := rfl
@[simp] theorem State.setNLeaf_outPos (s : State) : s.setNLeaf.outPos = s.outPos := rfl
@[simp] theorem State.setNLeaf_inSize (s : State) : s.setNLeaf.inSize = s.inSize := rfl
@[simp] theorem State.setNLeaf_outCap (s : State) : s.setNLeaf.outCap = s.outCap := rfl
@[simp] theorem State.setNLeaf_total (s : State) : s.setNLeaf.total = s.total := rfl
@[simp] theorem State.setNLeaf_symCnt (s : State) : s.setNLeaf.symCnt = s.symCnt := rfl
@[simp] theorem State.setNLeaf_freq (s : State) : s.setNLeaf.freq = s.freq := rfl
@[simp] theorem State.setNLeaf_heap (s : State) : s.setNLeaf.heap = s.heap := rfl
@[simp] theorem State.setNLeaf_arena (s : State) : s.setNLeaf.arena = s.arena := rfl
@[simp] theorem State.setNLeaf_tree (s : State) : s.setNLeaf.tree = s.tree := rfl
@[simp] theorem State.setNLeaf_root (s : State) : s.setNLeaf.root = s.root := rfl
@[simp] theorem State.setNLeaf_nLeaf (s : State) : s.setNLeaf.nLeaf = BitVec.ofNat 9 s.arena.length := rfl
@[simp] theorem State.setNLeaf_lutLen (s : State) : s.setNLeaf.lutLen = s.lutLen := rfl
@[simp] theorem State.setNLeaf_lutCode (s : State) : s.setNLeaf.lutCode = s.lutCode := rfl
@[simp] theorem State.setNLeaf_lutValid (s : State) : s.setNLeaf.lutValid = s.lutValid := rfl
@[simp] theorem State.setNLeaf_bwBuf (s : State) : s.setNLeaf.bwBuf = s.bwBuf := rfl
@[simp] theorem State.setNLeaf_bwCnt (s : State) : s.setNLeaf.bwCnt = s.bwCnt := rfl
@[simp] theorem State.setNLeaf_brBuf (s : State) : s.setNLeaf.brBuf = s.brBuf := rfl
@[simp] theorem State.setNLeaf_brCnt (s : State) : s.setNLeaf.brCnt = s.brCnt := rfl
@[simp] theorem State.setNLeaf_inMem (s : State) : s.setNLeaf.inMem = s.inMem := rfl
@[simp] theorem State.setNLeaf_outMem (s : State) : s.setNLeaf.outMem = s.outMem := rfl
@[simp] theorem State.setNLeaf_events (s : State) : s.setNLeaf.events = s.events := rfl
@[simp] theorem State.setNLeaf_epoch (s : State) : s.setNLeaf.epoch = s.epoch := rfl
@[simp] theorem State.setNLeaf_freeCnt (s : State) : s.setNLeaf.freeCnt = s.freeCnt := rfl
@[simp] theorem State.setNLeaf_hostData (s : State) : s.setNLeaf.hostData = s.hostData := rfl
@[simp] theorem State.setNLeaf_hostByte (s : State) : s.setNLeaf.hostByte = s.hostByte := rfl

/-! ## State.clearLut -/

@[simp] theorem State.clearLut_pending (s : State) : s.clearLut.pending = s.pending := rfl
@[simp] theorem State.clearLut_done (s : State) : s.clearLut.done = s.done := rfl
@[simp] theorem State.clearLut_err (s : State) : s.clearLut.err = s.err := rfl
@[simp] theorem State.clearLut_rej (s : State) : s.clearLut.rej = s.rej := rfl
@[simp] theorem State.clearLut_ovr (s : State) : s.clearLut.ovr = s.ovr := rfl
@[simp] theorem State.clearLut_errCode (s : State) : s.clearLut.errCode = s.errCode := rfl
@[simp] theorem State.clearLut_errInfo (s : State) : s.clearLut.errInfo = s.errInfo := rfl
@[simp] theorem State.clearLut_ieDone (s : State) : s.clearLut.ieDone = s.ieDone := rfl
@[simp] theorem State.clearLut_ieErr (s : State) : s.clearLut.ieErr = s.ieErr := rfl
@[simp] theorem State.clearLut_result (s : State) : s.clearLut.result = s.result := rfl
@[simp] theorem State.clearLut_inLen (s : State) : s.clearLut.inLen = s.inLen := rfl
@[simp] theorem State.clearLut_inPos (s : State) : s.clearLut.inPos = s.inPos := rfl
@[simp] theorem State.clearLut_outPos (s : State) : s.clearLut.outPos = s.outPos := rfl
@[simp] theorem State.clearLut_inSize (s : State) : s.clearLut.inSize = s.inSize := rfl
@[simp] theorem State.clearLut_outCap (s : State) : s.clearLut.outCap = s.outCap := rfl
@[simp] theorem State.clearLut_total (s : State) : s.clearLut.total = s.total := rfl
@[simp] theorem State.clearLut_symCnt (s : State) : s.clearLut.symCnt = s.symCnt := rfl
@[simp] theorem State.clearLut_freq (s : State) : s.clearLut.freq = s.freq := rfl
@[simp] theorem State.clearLut_heap (s : State) : s.clearLut.heap = s.heap := rfl
@[simp] theorem State.clearLut_arena (s : State) : s.clearLut.arena = s.arena := rfl
@[simp] theorem State.clearLut_tree (s : State) : s.clearLut.tree = s.tree := rfl
@[simp] theorem State.clearLut_root (s : State) : s.clearLut.root = s.root := rfl
@[simp] theorem State.clearLut_nLeaf (s : State) : s.clearLut.nLeaf = s.nLeaf := rfl
@[simp] theorem State.clearLut_lutLen (s : State) : s.clearLut.lutLen = Vector.replicate 256 0#8 := rfl
@[simp] theorem State.clearLut_lutCode (s : State) : s.clearLut.lutCode = Vector.replicate 256 0#256 := rfl
@[simp] theorem State.clearLut_lutValid (s : State) : s.clearLut.lutValid = s.lutValid := rfl
@[simp] theorem State.clearLut_bwBuf (s : State) : s.clearLut.bwBuf = s.bwBuf := rfl
@[simp] theorem State.clearLut_bwCnt (s : State) : s.clearLut.bwCnt = s.bwCnt := rfl
@[simp] theorem State.clearLut_brBuf (s : State) : s.clearLut.brBuf = s.brBuf := rfl
@[simp] theorem State.clearLut_brCnt (s : State) : s.clearLut.brCnt = s.brCnt := rfl
@[simp] theorem State.clearLut_inMem (s : State) : s.clearLut.inMem = s.inMem := rfl
@[simp] theorem State.clearLut_outMem (s : State) : s.clearLut.outMem = s.outMem := rfl
@[simp] theorem State.clearLut_events (s : State) : s.clearLut.events = s.events := rfl
@[simp] theorem State.clearLut_epoch (s : State) : s.clearLut.epoch = s.epoch := rfl
@[simp] theorem State.clearLut_freeCnt (s : State) : s.clearLut.freeCnt = s.freeCnt := rfl
@[simp] theorem State.clearLut_hostData (s : State) : s.clearLut.hostData = s.hostData := rfl
@[simp] theorem State.clearLut_hostByte (s : State) : s.clearLut.hostByte = s.hostByte := rfl

/-! ## State.writeCode -/

@[simp] theorem State.writeCode_pending (s : State) (b : Byte) (path : List Bool) : (s.writeCode b path).pending = s.pending := rfl
@[simp] theorem State.writeCode_done (s : State) (b : Byte) (path : List Bool) : (s.writeCode b path).done = s.done := rfl
@[simp] theorem State.writeCode_err (s : State) (b : Byte) (path : List Bool) : (s.writeCode b path).err = s.err := rfl
@[simp] theorem State.writeCode_rej (s : State) (b : Byte) (path : List Bool) : (s.writeCode b path).rej = s.rej := rfl
@[simp] theorem State.writeCode_ovr (s : State) (b : Byte) (path : List Bool) : (s.writeCode b path).ovr = s.ovr := rfl
@[simp] theorem State.writeCode_errCode (s : State) (b : Byte) (path : List Bool) : (s.writeCode b path).errCode = s.errCode := rfl
@[simp] theorem State.writeCode_errInfo (s : State) (b : Byte) (path : List Bool) : (s.writeCode b path).errInfo = s.errInfo := rfl
@[simp] theorem State.writeCode_ieDone (s : State) (b : Byte) (path : List Bool) : (s.writeCode b path).ieDone = s.ieDone := rfl
@[simp] theorem State.writeCode_ieErr (s : State) (b : Byte) (path : List Bool) : (s.writeCode b path).ieErr = s.ieErr := rfl
@[simp] theorem State.writeCode_result (s : State) (b : Byte) (path : List Bool) : (s.writeCode b path).result = s.result := rfl
@[simp] theorem State.writeCode_inLen (s : State) (b : Byte) (path : List Bool) : (s.writeCode b path).inLen = s.inLen := rfl
@[simp] theorem State.writeCode_inPos (s : State) (b : Byte) (path : List Bool) : (s.writeCode b path).inPos = s.inPos := rfl
@[simp] theorem State.writeCode_outPos (s : State) (b : Byte) (path : List Bool) : (s.writeCode b path).outPos = s.outPos := rfl
@[simp] theorem State.writeCode_inSize (s : State) (b : Byte) (path : List Bool) : (s.writeCode b path).inSize = s.inSize := rfl
@[simp] theorem State.writeCode_outCap (s : State) (b : Byte) (path : List Bool) : (s.writeCode b path).outCap = s.outCap := rfl
@[simp] theorem State.writeCode_total (s : State) (b : Byte) (path : List Bool) : (s.writeCode b path).total = s.total := rfl
@[simp] theorem State.writeCode_symCnt (s : State) (b : Byte) (path : List Bool) : (s.writeCode b path).symCnt = s.symCnt := rfl
@[simp] theorem State.writeCode_freq (s : State) (b : Byte) (path : List Bool) : (s.writeCode b path).freq = s.freq := rfl
@[simp] theorem State.writeCode_heap (s : State) (b : Byte) (path : List Bool) : (s.writeCode b path).heap = s.heap := rfl
@[simp] theorem State.writeCode_arena (s : State) (b : Byte) (path : List Bool) : (s.writeCode b path).arena = s.arena := rfl
@[simp] theorem State.writeCode_tree (s : State) (b : Byte) (path : List Bool) : (s.writeCode b path).tree = s.tree := rfl
@[simp] theorem State.writeCode_root (s : State) (b : Byte) (path : List Bool) : (s.writeCode b path).root = s.root := rfl
@[simp] theorem State.writeCode_nLeaf (s : State) (b : Byte) (path : List Bool) : (s.writeCode b path).nLeaf = s.nLeaf := rfl
@[simp] theorem State.writeCode_lutLen (s : State) (b : Byte) (path : List Bool) : (s.writeCode b path).lutLen = tableSet s.lutLen b (BitVec.ofNat 8 path.length) := rfl
@[simp] theorem State.writeCode_lutCode (s : State) (b : Byte) (path : List Bool) : (s.writeCode b path).lutCode = tableSet s.lutCode b (codeStore path) := rfl
@[simp] theorem State.writeCode_lutValid (s : State) (b : Byte) (path : List Bool) : (s.writeCode b path).lutValid = s.lutValid := rfl
@[simp] theorem State.writeCode_bwBuf (s : State) (b : Byte) (path : List Bool) : (s.writeCode b path).bwBuf = s.bwBuf := rfl
@[simp] theorem State.writeCode_bwCnt (s : State) (b : Byte) (path : List Bool) : (s.writeCode b path).bwCnt = s.bwCnt := rfl
@[simp] theorem State.writeCode_brBuf (s : State) (b : Byte) (path : List Bool) : (s.writeCode b path).brBuf = s.brBuf := rfl
@[simp] theorem State.writeCode_brCnt (s : State) (b : Byte) (path : List Bool) : (s.writeCode b path).brCnt = s.brCnt := rfl
@[simp] theorem State.writeCode_inMem (s : State) (b : Byte) (path : List Bool) : (s.writeCode b path).inMem = s.inMem := rfl
@[simp] theorem State.writeCode_outMem (s : State) (b : Byte) (path : List Bool) : (s.writeCode b path).outMem = s.outMem := rfl
@[simp] theorem State.writeCode_events (s : State) (b : Byte) (path : List Bool) : (s.writeCode b path).events = s.events := rfl
@[simp] theorem State.writeCode_epoch (s : State) (b : Byte) (path : List Bool) : (s.writeCode b path).epoch = s.epoch := rfl
@[simp] theorem State.writeCode_freeCnt (s : State) (b : Byte) (path : List Bool) : (s.writeCode b path).freeCnt = s.freeCnt := rfl
@[simp] theorem State.writeCode_hostData (s : State) (b : Byte) (path : List Bool) : (s.writeCode b path).hostData = s.hostData := rfl
@[simp] theorem State.writeCode_hostByte (s : State) (b : Byte) (path : List Bool) : (s.writeCode b path).hostByte = s.hostByte := rfl

/-! ## State.countSymbol -/

@[simp] theorem State.countSymbol_pending (s : State) : s.countSymbol.pending = s.pending := rfl
@[simp] theorem State.countSymbol_done (s : State) : s.countSymbol.done = s.done := rfl
@[simp] theorem State.countSymbol_err (s : State) : s.countSymbol.err = s.err := rfl
@[simp] theorem State.countSymbol_rej (s : State) : s.countSymbol.rej = s.rej := rfl
@[simp] theorem State.countSymbol_ovr (s : State) : s.countSymbol.ovr = s.ovr := rfl
@[simp] theorem State.countSymbol_errCode (s : State) : s.countSymbol.errCode = s.errCode := rfl
@[simp] theorem State.countSymbol_errInfo (s : State) : s.countSymbol.errInfo = s.errInfo := rfl
@[simp] theorem State.countSymbol_ieDone (s : State) : s.countSymbol.ieDone = s.ieDone := rfl
@[simp] theorem State.countSymbol_ieErr (s : State) : s.countSymbol.ieErr = s.ieErr := rfl
@[simp] theorem State.countSymbol_result (s : State) : s.countSymbol.result = s.result := rfl
@[simp] theorem State.countSymbol_inLen (s : State) : s.countSymbol.inLen = s.inLen := rfl
@[simp] theorem State.countSymbol_inPos (s : State) : s.countSymbol.inPos = s.inPos := rfl
@[simp] theorem State.countSymbol_outPos (s : State) : s.countSymbol.outPos = s.outPos := rfl
@[simp] theorem State.countSymbol_inSize (s : State) : s.countSymbol.inSize = s.inSize := rfl
@[simp] theorem State.countSymbol_outCap (s : State) : s.countSymbol.outCap = s.outCap := rfl
@[simp] theorem State.countSymbol_total (s : State) : s.countSymbol.total = s.total := rfl
@[simp] theorem State.countSymbol_symCnt (s : State) : s.countSymbol.symCnt = s.symCnt + 1#64 := rfl
@[simp] theorem State.countSymbol_freq (s : State) : s.countSymbol.freq = s.freq := rfl
@[simp] theorem State.countSymbol_heap (s : State) : s.countSymbol.heap = s.heap := rfl
@[simp] theorem State.countSymbol_arena (s : State) : s.countSymbol.arena = s.arena := rfl
@[simp] theorem State.countSymbol_tree (s : State) : s.countSymbol.tree = s.tree := rfl
@[simp] theorem State.countSymbol_root (s : State) : s.countSymbol.root = s.root := rfl
@[simp] theorem State.countSymbol_nLeaf (s : State) : s.countSymbol.nLeaf = s.nLeaf := rfl
@[simp] theorem State.countSymbol_lutLen (s : State) : s.countSymbol.lutLen = s.lutLen := rfl
@[simp] theorem State.countSymbol_lutCode (s : State) : s.countSymbol.lutCode = s.lutCode := rfl
@[simp] theorem State.countSymbol_lutValid (s : State) : s.countSymbol.lutValid = s.lutValid := rfl
@[simp] theorem State.countSymbol_bwBuf (s : State) : s.countSymbol.bwBuf = s.bwBuf := rfl
@[simp] theorem State.countSymbol_bwCnt (s : State) : s.countSymbol.bwCnt = s.bwCnt := rfl
@[simp] theorem State.countSymbol_brBuf (s : State) : s.countSymbol.brBuf = s.brBuf := rfl
@[simp] theorem State.countSymbol_brCnt (s : State) : s.countSymbol.brCnt = s.brCnt := rfl
@[simp] theorem State.countSymbol_inMem (s : State) : s.countSymbol.inMem = s.inMem := rfl
@[simp] theorem State.countSymbol_outMem (s : State) : s.countSymbol.outMem = s.outMem := rfl
@[simp] theorem State.countSymbol_events (s : State) : s.countSymbol.events = s.events := rfl
@[simp] theorem State.countSymbol_epoch (s : State) : s.countSymbol.epoch = s.epoch := rfl
@[simp] theorem State.countSymbol_freeCnt (s : State) : s.countSymbol.freeCnt = s.freeCnt := rfl
@[simp] theorem State.countSymbol_hostData (s : State) : s.countSymbol.hostData = s.hostData := rfl
@[simp] theorem State.countSymbol_hostByte (s : State) : s.countSymbol.hostByte = s.hostByte := rfl

/-! ## State.startEncode -/

@[simp] theorem State.startEncode_pending (s : State) : s.startEncode.pending = s.pending := rfl
@[simp] theorem State.startEncode_done (s : State) : s.startEncode.done = s.done := rfl
@[simp] theorem State.startEncode_err (s : State) : s.startEncode.err = s.err := rfl
@[simp] theorem State.startEncode_rej (s : State) : s.startEncode.rej = s.rej := rfl
@[simp] theorem State.startEncode_ovr (s : State) : s.startEncode.ovr = s.ovr := rfl
@[simp] theorem State.startEncode_errCode (s : State) : s.startEncode.errCode = s.errCode := rfl
@[simp] theorem State.startEncode_errInfo (s : State) : s.startEncode.errInfo = s.errInfo := rfl
@[simp] theorem State.startEncode_ieDone (s : State) : s.startEncode.ieDone = s.ieDone := rfl
@[simp] theorem State.startEncode_ieErr (s : State) : s.startEncode.ieErr = s.ieErr := rfl
@[simp] theorem State.startEncode_result (s : State) : s.startEncode.result = s.result := rfl
@[simp] theorem State.startEncode_inLen (s : State) : s.startEncode.inLen = s.inLen := rfl
@[simp] theorem State.startEncode_inPos (s : State) : s.startEncode.inPos = 0#32 := rfl
@[simp] theorem State.startEncode_outPos (s : State) : s.startEncode.outPos = 0#32 := rfl
@[simp] theorem State.startEncode_inSize (s : State) : s.startEncode.inSize = s.inSize := rfl
@[simp] theorem State.startEncode_outCap (s : State) : s.startEncode.outCap = s.outCap := rfl
@[simp] theorem State.startEncode_total (s : State) : s.startEncode.total = s.total := rfl
@[simp] theorem State.startEncode_symCnt (s : State) : s.startEncode.symCnt = 0#64 := rfl
@[simp] theorem State.startEncode_freq (s : State) : s.startEncode.freq = s.freq := rfl
@[simp] theorem State.startEncode_heap (s : State) : s.startEncode.heap = s.heap := rfl
@[simp] theorem State.startEncode_arena (s : State) : s.startEncode.arena = s.arena := rfl
@[simp] theorem State.startEncode_tree (s : State) : s.startEncode.tree = s.tree := rfl
@[simp] theorem State.startEncode_root (s : State) : s.startEncode.root = s.root := rfl
@[simp] theorem State.startEncode_nLeaf (s : State) : s.startEncode.nLeaf = s.nLeaf := rfl
@[simp] theorem State.startEncode_lutLen (s : State) : s.startEncode.lutLen = s.lutLen := rfl
@[simp] theorem State.startEncode_lutCode (s : State) : s.startEncode.lutCode = s.lutCode := rfl
@[simp] theorem State.startEncode_lutValid (s : State) : s.startEncode.lutValid = s.lutValid := rfl
@[simp] theorem State.startEncode_bwBuf (s : State) : s.startEncode.bwBuf = 0#8 := rfl
@[simp] theorem State.startEncode_bwCnt (s : State) : s.startEncode.bwCnt = 0 := rfl
@[simp] theorem State.startEncode_brBuf (s : State) : s.startEncode.brBuf = s.brBuf := rfl
@[simp] theorem State.startEncode_brCnt (s : State) : s.startEncode.brCnt = s.brCnt := rfl
@[simp] theorem State.startEncode_inMem (s : State) : s.startEncode.inMem = s.inMem := rfl
@[simp] theorem State.startEncode_outMem (s : State) : s.startEncode.outMem = s.outMem := rfl
@[simp] theorem State.startEncode_events (s : State) : s.startEncode.events = s.events := rfl
@[simp] theorem State.startEncode_epoch (s : State) : s.startEncode.epoch = s.epoch := rfl
@[simp] theorem State.startEncode_freeCnt (s : State) : s.startEncode.freeCnt = s.freeCnt := rfl
@[simp] theorem State.startEncode_hostData (s : State) : s.startEncode.hostData = s.hostData := rfl
@[simp] theorem State.startEncode_hostByte (s : State) : s.startEncode.hostByte = s.hostByte := rfl

/-! ## State.startDecode -/

@[simp] theorem State.startDecode_pending (s : State) : s.startDecode.pending = s.pending := rfl
@[simp] theorem State.startDecode_done (s : State) : s.startDecode.done = s.done := rfl
@[simp] theorem State.startDecode_err (s : State) : s.startDecode.err = s.err := rfl
@[simp] theorem State.startDecode_rej (s : State) : s.startDecode.rej = s.rej := rfl
@[simp] theorem State.startDecode_ovr (s : State) : s.startDecode.ovr = s.ovr := rfl
@[simp] theorem State.startDecode_errCode (s : State) : s.startDecode.errCode = s.errCode := rfl
@[simp] theorem State.startDecode_errInfo (s : State) : s.startDecode.errInfo = s.errInfo := rfl
@[simp] theorem State.startDecode_ieDone (s : State) : s.startDecode.ieDone = s.ieDone := rfl
@[simp] theorem State.startDecode_ieErr (s : State) : s.startDecode.ieErr = s.ieErr := rfl
@[simp] theorem State.startDecode_result (s : State) : s.startDecode.result = s.result := rfl
@[simp] theorem State.startDecode_inLen (s : State) : s.startDecode.inLen = s.inLen := rfl
@[simp] theorem State.startDecode_inPos (s : State) : s.startDecode.inPos = 0#32 := rfl
@[simp] theorem State.startDecode_outPos (s : State) : s.startDecode.outPos = 0#32 := rfl
@[simp] theorem State.startDecode_inSize (s : State) : s.startDecode.inSize = s.inSize := rfl
@[simp] theorem State.startDecode_outCap (s : State) : s.startDecode.outCap = s.outCap := rfl
@[simp] theorem State.startDecode_total (s : State) : s.startDecode.total = s.total := rfl
@[simp] theorem State.startDecode_symCnt (s : State) : s.startDecode.symCnt = 0#64 := rfl
@[simp] theorem State.startDecode_freq (s : State) : s.startDecode.freq = s.freq := rfl
@[simp] theorem State.startDecode_heap (s : State) : s.startDecode.heap = s.heap := rfl
@[simp] theorem State.startDecode_arena (s : State) : s.startDecode.arena = s.arena := rfl
@[simp] theorem State.startDecode_tree (s : State) : s.startDecode.tree = s.tree := rfl
@[simp] theorem State.startDecode_root (s : State) : s.startDecode.root = s.root := rfl
@[simp] theorem State.startDecode_nLeaf (s : State) : s.startDecode.nLeaf = s.nLeaf := rfl
@[simp] theorem State.startDecode_lutLen (s : State) : s.startDecode.lutLen = s.lutLen := rfl
@[simp] theorem State.startDecode_lutCode (s : State) : s.startDecode.lutCode = s.lutCode := rfl
@[simp] theorem State.startDecode_lutValid (s : State) : s.startDecode.lutValid = s.lutValid := rfl
@[simp] theorem State.startDecode_bwBuf (s : State) : s.startDecode.bwBuf = s.bwBuf := rfl
@[simp] theorem State.startDecode_bwCnt (s : State) : s.startDecode.bwCnt = s.bwCnt := rfl
@[simp] theorem State.startDecode_brBuf (s : State) : s.startDecode.brBuf = 0#8 := rfl
@[simp] theorem State.startDecode_brCnt (s : State) : s.startDecode.brCnt = 0 := rfl
@[simp] theorem State.startDecode_inMem (s : State) : s.startDecode.inMem = s.inMem := rfl
@[simp] theorem State.startDecode_outMem (s : State) : s.startDecode.outMem = s.outMem := rfl
@[simp] theorem State.startDecode_events (s : State) : s.startDecode.events = s.events := rfl
@[simp] theorem State.startDecode_epoch (s : State) : s.startDecode.epoch = s.epoch := rfl
@[simp] theorem State.startDecode_freeCnt (s : State) : s.startDecode.freeCnt = s.freeCnt := rfl
@[simp] theorem State.startDecode_hostData (s : State) : s.startDecode.hostData = s.hostData := rfl
@[simp] theorem State.startDecode_hostByte (s : State) : s.startDecode.hostByte = s.hostByte := rfl

/-! ## State.hardReset -/

@[simp] theorem State.hardReset_pending (s : State) : s.hardReset.pending = none := rfl
@[simp] theorem State.hardReset_done (s : State) : s.hardReset.done = false := rfl
@[simp] theorem State.hardReset_err (s : State) : s.hardReset.err = false := rfl
@[simp] theorem State.hardReset_rej (s : State) : s.hardReset.rej = false := rfl
@[simp] theorem State.hardReset_ovr (s : State) : s.hardReset.ovr = false := rfl
@[simp] theorem State.hardReset_errCode (s : State) : s.hardReset.errCode = 0#8 := rfl
@[simp] theorem State.hardReset_errInfo (s : State) : s.hardReset.errInfo = 0#32 := rfl
@[simp] theorem State.hardReset_ieDone (s : State) : s.hardReset.ieDone = false := rfl
@[simp] theorem State.hardReset_ieErr (s : State) : s.hardReset.ieErr = false := rfl
@[simp] theorem State.hardReset_result (s : State) : s.hardReset.result = 0#32 := rfl
@[simp] theorem State.hardReset_inLen (s : State) : s.hardReset.inLen = 0#32 := rfl
@[simp] theorem State.hardReset_inPos (s : State) : s.hardReset.inPos = 0#32 := rfl
@[simp] theorem State.hardReset_outPos (s : State) : s.hardReset.outPos = 0#32 := rfl
@[simp] theorem State.hardReset_inSize (s : State) : s.hardReset.inSize = s.inSize := rfl
@[simp] theorem State.hardReset_outCap (s : State) : s.hardReset.outCap = s.outCap := rfl
@[simp] theorem State.hardReset_total (s : State) : s.hardReset.total = 0#64 := rfl
@[simp] theorem State.hardReset_symCnt (s : State) : s.hardReset.symCnt = 0#64 := rfl
@[simp] theorem State.hardReset_freq (s : State) : s.hardReset.freq = Vector.replicate 256 0#32 := rfl
@[simp] theorem State.hardReset_heap (s : State) : s.hardReset.heap = [] := rfl
@[simp] theorem State.hardReset_arena (s : State) : s.hardReset.arena = [] := rfl
@[simp] theorem State.hardReset_tree (s : State) : s.hardReset.tree = .none := rfl
@[simp] theorem State.hardReset_root (s : State) : s.hardReset.root = 0#9 := rfl
@[simp] theorem State.hardReset_nLeaf (s : State) : s.hardReset.nLeaf = 0#9 := rfl
@[simp] theorem State.hardReset_lutLen (s : State) : s.hardReset.lutLen = Vector.replicate 256 0#8 := rfl
@[simp] theorem State.hardReset_lutCode (s : State) : s.hardReset.lutCode = Vector.replicate 256 0#256 := rfl
@[simp] theorem State.hardReset_lutValid (s : State) : s.hardReset.lutValid = false := rfl
@[simp] theorem State.hardReset_bwBuf (s : State) : s.hardReset.bwBuf = 0#8 := rfl
@[simp] theorem State.hardReset_bwCnt (s : State) : s.hardReset.bwCnt = 0 := rfl
@[simp] theorem State.hardReset_brBuf (s : State) : s.hardReset.brBuf = 0#8 := rfl
@[simp] theorem State.hardReset_brCnt (s : State) : s.hardReset.brCnt = 0 := rfl
@[simp] theorem State.hardReset_inMem (s : State) : s.hardReset.inMem = [] := rfl
@[simp] theorem State.hardReset_outMem (s : State) : s.hardReset.outMem = [] := rfl
@[simp] theorem State.hardReset_events (s : State) : s.hardReset.events = s.events := rfl
@[simp] theorem State.hardReset_epoch (s : State) : s.hardReset.epoch = s.epoch + 1 := rfl
@[simp] theorem State.hardReset_freeCnt (s : State) : s.hardReset.freeCnt = s.freeCnt := rfl
@[simp] theorem State.hardReset_hostData (s : State) : s.hardReset.hostData = s.hostData := rfl
@[simp] theorem State.hardReset_hostByte (s : State) : s.hardReset.hostByte = s.hostByte := rfl

/-! ## State.softReset -/

@[simp] theorem State.softReset_pending (s : State) : s.softReset.pending = none := rfl
@[simp] theorem State.softReset_done (s : State) : s.softReset.done = false := rfl
@[simp] theorem State.softReset_err (s : State) : s.softReset.err = false := rfl
@[simp] theorem State.softReset_rej (s : State) : s.softReset.rej = false := rfl
@[simp] theorem State.softReset_ovr (s : State) : s.softReset.ovr = false := rfl
@[simp] theorem State.softReset_errCode (s : State) : s.softReset.errCode = 0#8 := rfl
@[simp] theorem State.softReset_errInfo (s : State) : s.softReset.errInfo = 0#32 := rfl
@[simp] theorem State.softReset_ieDone (s : State) : s.softReset.ieDone = false := rfl
@[simp] theorem State.softReset_ieErr (s : State) : s.softReset.ieErr = false := rfl
@[simp] theorem State.softReset_result (s : State) : s.softReset.result = 0#32 := rfl
@[simp] theorem State.softReset_inLen (s : State) : s.softReset.inLen = 0#32 := rfl
@[simp] theorem State.softReset_inPos (s : State) : s.softReset.inPos = 0#32 := rfl
@[simp] theorem State.softReset_outPos (s : State) : s.softReset.outPos = 0#32 := rfl
@[simp] theorem State.softReset_inSize (s : State) : s.softReset.inSize = s.inSize := rfl
@[simp] theorem State.softReset_outCap (s : State) : s.softReset.outCap = s.outCap := rfl
@[simp] theorem State.softReset_total (s : State) : s.softReset.total = 0#64 := rfl
@[simp] theorem State.softReset_symCnt (s : State) : s.softReset.symCnt = 0#64 := rfl
@[simp] theorem State.softReset_freq (s : State) : s.softReset.freq = Vector.replicate 256 0#32 := rfl
@[simp] theorem State.softReset_heap (s : State) : s.softReset.heap = [] := rfl
@[simp] theorem State.softReset_arena (s : State) : s.softReset.arena = [] := rfl
@[simp] theorem State.softReset_tree (s : State) : s.softReset.tree = .none := rfl
@[simp] theorem State.softReset_root (s : State) : s.softReset.root = 0#9 := rfl
@[simp] theorem State.softReset_nLeaf (s : State) : s.softReset.nLeaf = 0#9 := rfl
@[simp] theorem State.softReset_lutLen (s : State) : s.softReset.lutLen = Vector.replicate 256 0#8 := rfl
@[simp] theorem State.softReset_lutCode (s : State) : s.softReset.lutCode = Vector.replicate 256 0#256 := rfl
@[simp] theorem State.softReset_lutValid (s : State) : s.softReset.lutValid = false := rfl
@[simp] theorem State.softReset_bwBuf (s : State) : s.softReset.bwBuf = 0#8 := rfl
@[simp] theorem State.softReset_bwCnt (s : State) : s.softReset.bwCnt = 0 := rfl
@[simp] theorem State.softReset_brBuf (s : State) : s.softReset.brBuf = 0#8 := rfl
@[simp] theorem State.softReset_brCnt (s : State) : s.softReset.brCnt = 0 := rfl
@[simp] theorem State.softReset_inMem (s : State) : s.softReset.inMem = s.inMem := rfl
@[simp] theorem State.softReset_outMem (s : State) : s.softReset.outMem = s.outMem := rfl
@[simp] theorem State.softReset_events (s : State) : s.softReset.events = s.events := rfl
@[simp] theorem State.softReset_epoch (s : State) : s.softReset.epoch = s.epoch := rfl
@[simp] theorem State.softReset_freeCnt (s : State) : s.softReset.freeCnt = s.freeCnt := rfl
@[simp] theorem State.softReset_hostData (s : State) : s.softReset.hostData = s.hostData := rfl
@[simp] theorem State.softReset_hostByte (s : State) : s.softReset.hostByte = s.hostByte := rfl

end Sys2Proof.Machine
end

