-- ==== Sys2Proof/Laws/Run.lean ====
section
/-! SUPPORT. What a run, a completion and the shared checks can do, said once each. -/

namespace Sys2Proof.Machine

/-- When two successes are the same, the second read off the first. -/
theorem Run.ok_eq_ok {α : Type} {a b : α} {s t : State} : Run.ok a s = .ok b t ↔ b = a ∧ t = s := by
  rw [Run.ok.injEq, eq_comm, eq_comm (a := s)]

/-- When two errors are the same, the second read off the first. -/
theorem Run.err_eq_err {α : Type} {k e : ErrKind} {info w : Word} {s t : State} :
    (Run.err k info s : Run α) = .err e w t ↔ e = k ∧ w = info ∧ t = s := by
  rw [Run.err.injEq, eq_comm, eq_comm (a := info), eq_comm (a := s)]

/-! ## Sequencing -/

@[simp] theorem Run.ok_andThen {α β : Type} (a : α) (s : State) (f : α → State → Run β) : (Run.ok a s).andThen f = f a s := rfl

@[simp] theorem Run.err_andThen {α β : Type} (k : ErrKind) (info : Word) (s : State) (f : α → State → Run β) :
    (Run.err k info s : Run α).andThen f = .err k info s := rfl

@[simp] theorem Run.fault_andThen {α β : Type} (e : Fault) (f : α → State → Run β) :
    (Run.fault e : Run α).andThen f = .fault e := rfl

theorem Run.andThen_assoc {α β γ : Type} (r : Run α) (f : α → State → Run β) (g : β → State → Run γ) :
    (r.andThen f).andThen g = r.andThen fun a s => (f a s).andThen g := by
  cases r <;> rfl

/-- A sequence succeeds exactly when both parts do. -/
theorem Run.andThen_eq_ok {α β : Type} {r : Run α} {f : α → State → Run β} {b : β} {t : State} :
    r.andThen f = .ok b t ↔ ∃ a s, r = .ok a s ∧ f a s = .ok b t := by
  cases r <;> simp

/-- A sequence raises an error exactly when its first part does, or its second after the first's success. -/
theorem Run.andThen_eq_err {α β : Type} {r : Run α} {f : α → State → Run β} {k : ErrKind} {info : Word} {t : State} :
    r.andThen f = .err k info t ↔ r = .err k info t ∨ ∃ a s, r = .ok a s ∧ f a s = .err k info t := by
  cases r <;> simp

/-- A sequence faults exactly when its first part does, or its second after the first's success. -/
theorem Run.andThen_eq_fault {α β : Type} {r : Run α} {f : α → State → Run β} {e : Fault} :
    r.andThen f = .fault e ↔ r = .fault e ∨ ∃ a s, r = .ok a s ∧ f a s = .fault e := by
  cases r <;> simp

/-- A run without its value succeeds with the same state. -/
theorem Run.effect_eq_ok {α : Type} {r : Run α} {u : Unit} {t : State} : r.effect = .ok u t ↔ ∃ a, r = .ok a t := by
  cases r <;> simp [Run.effect]

/-- A run without its value raises the same errors. -/
theorem Run.effect_eq_err {α : Type} {r : Run α} {k : ErrKind} {info : Word} {t : State} :
    r.effect = .err k info t ↔ r = .err k info t := by
  cases r <;> simp [Run.effect]

/-- A run without its value faults alike. -/
theorem Run.effect_eq_fault {α : Type} {r : Run α} {e : Fault} : r.effect = .fault e ↔ r = .fault e := by
  cases r <;> simp [Run.effect]

/-! ## What holds wherever a run ends -/

/-- The state a run succeeds in or raises its error in has a property. -/
def Run.Ends {α : Type} (r : Run α) (p : State → Prop) : Prop :=
  match r with
  | .ok _ t => p t
  | .err _ _ t => p t
  | .fault _ => True

@[simp] theorem Run.ok_ends {α : Type} (a : α) (t : State) (p : State → Prop) : (Run.ok a t).Ends p ↔ p t := Iff.rfl

@[simp] theorem Run.err_ends {α : Type} (k : ErrKind) (info : Word) (t : State) (p : State → Prop) :
    (Run.err k info t : Run α).Ends p ↔ p t := Iff.rfl

@[simp] theorem Run.fault_ends {α : Type} (e : Fault) (p : State → Prop) : (Run.fault e : Run α).Ends p ↔ True := Iff.rfl

theorem Run.Ends.mono {α : Type} {r : Run α} {p q : State → Prop} (h : r.Ends p) (hpq : ∀ t, p t → q t) : r.Ends q := by
  cases r <;> simp_all

/-- A sequence ends with a property when its first part does and its second part takes that over. -/
theorem Run.Ends.andThen {α β : Type} {r : Run α} {f : α → State → Run β} {p : State → Prop} (h : r.Ends p)
    (hf : ∀ a s, p s → (f a s).Ends p) : (r.andThen f).Ends p := by
  cases r with
  | ok a s => exact hf a s h
  | err k info s => exact h
  | fault e => trivial

/-- Dropping the value changes nothing of where a run ends. -/
theorem Run.effect_ends {α : Type} {r : Run α} {p : State → Prop} : r.effect.Ends p ↔ r.Ends p := by
  cases r <;> exact Iff.rfl

theorem Run.Ends.of_ok {α : Type} {r : Run α} {p : State → Prop} (h : r.Ends p) {a : α} {t : State} (hr : r = .ok a t) : p t := by
  rw [hr] at h
  exact h

theorem Run.Ends.of_err {α : Type} {r : Run α} {p : State → Prop} (h : r.Ends p) {k : ErrKind} {info : Word} {t : State}
    (hr : r = .err k info t) : p t := by
  rw [hr] at h
  exact h

/-! ## Completion (R236) -/

/-- What completion without a result value can be. -/
theorem complete_eq_next {r : Run Unit} {t : State} :
    complete r = .next t ↔
      (∃ s, r = .ok () s ∧ t = s.finish) ∨ ∃ k info s, r = .err k info s ∧ t = s.takeError k info := by
  cases r with
  | ok a s => simp [complete, eq_comm]
  | err k info s => simp [complete, eq_comm]
  | fault f => simp [complete]

/-- What completion with a result value can be. -/
theorem completeWith_eq_next {r : Run Word} {t : State} :
    completeWith r = .next t ↔
      (∃ v s, r = .ok v s ∧ t = { s with result := v }.finish) ∨ ∃ k info s, r = .err k info s ∧ t = s.takeError k info := by
  cases r with
  | ok a s => simp [completeWith, eq_comm]
  | err k info s => simp [completeWith, eq_comm]
  | fault f => simp [completeWith]

/-- Completion never refuses. -/
theorem complete_ne_refused (r : Run Unit) (x : Refusal) : complete r ≠ .refused x := by
  cases r <;> simp [complete]

/-- Completion never refuses. -/
theorem completeWith_ne_refused (r : Run Word) (x : Refusal) : completeWith r ≠ .refused x := by
  cases r <;> simp [completeWith]

/-! ## Reads, writes and checks -/

/-- An IN read succeeds exactly below IN_SIZE, and changes nothing. -/
theorem memReadIn_eq_ok {s t : State} {b : Byte} :
    memReadIn s = .ok b t ↔ s.inPos.toNat < s.inSize.toNat ∧ b = s.inByte s.inPos.toNat ∧ t = s := by
  unfold memReadIn
  split <;> simp only [Run.ok_eq_ok, reduceCtorEq] <;> simp_all

/-- An IN read raises no error of the HCC. -/
theorem memReadIn_ne_err (s : State) (k : ErrKind) (info : Word) (t : State) : memReadIn s ≠ .err k info t := by
  unfold memReadIn
  split <;> simp

/-- An OUT write succeeds exactly below OUT_CAP; it stores the byte at OUT_POS and moves OUT_POS on. -/
theorem memWriteOut_eq_ok {b : Byte} {s t : State} {u : Unit} :
    memWriteOut b s = .ok u t ↔
      s.outPos.toNat < s.outCap.toNat ∧
        t = { s with outMem := s.outMem.write s.outPos.toNat b, outPos := s.outPos + 1#32 } := by
  unfold memWriteOut
  split <;> simp only [Run.ok_eq_ok, reduceCtorEq] <;> simp_all

/-- An OUT write raises no error of the HCC. -/
theorem memWriteOut_ne_err (b : Byte) (s : State) (k : ErrKind) (info : Word) (t : State) :
    memWriteOut b s ≠ .err k info t := by
  unfold memWriteOut
  split <;> simp

/-- The room check passes exactly when the room is there, and changes nothing. -/
theorem checkRoom_eq_ok {k : Nat} {s t : State} {u : Unit} : checkRoom k s = .ok u t ↔ k ≤ s.room ∧ t = s := by
  unfold checkRoom
  split <;> simp only [Run.ok_eq_ok, reduceCtorEq] <;> simp_all

/-- The room check raises ERR_SINK_FULL(k) exactly when the room is missing, and changes nothing. -/
theorem checkRoom_eq_err {k : Nat} {s t : State} {e : ErrKind} {info : Word} :
    checkRoom k s = .err e info t ↔ s.room < k ∧ e = .sinkFull ∧ info = BitVec.ofNat 32 k ∧ t = s := by
  unfold checkRoom
  split <;> simp only [Run.err_eq_err, reduceCtorEq] <;> simp_all

/-- The room check never faults. -/
theorem checkRoom_ne_fault (k : Nat) (s : State) (f : Fault) : checkRoom k s ≠ .fault f := by
  unfold checkRoom
  split <;> simp

/-- The node check passes exactly below ARENA_CNT, and changes nothing. -/
theorem checkNode_eq_ok {i : NodeIdx} {s t : State} {u : Unit} :
    checkNode i s = .ok u t ↔ i.toNat < s.arena.length ∧ t = s := by
  unfold checkNode
  split <;> simp only [Run.ok_eq_ok, reduceCtorEq] <;> simp_all

/-- The node check raises ERR_BAD_NODE(i) exactly at or above ARENA_CNT, and changes nothing. -/
theorem checkNode_eq_err {i : NodeIdx} {s t : State} {e : ErrKind} {info : Word} :
    checkNode i s = .err e info t ↔ s.arena.length ≤ i.toNat ∧ e = .badNode ∧ info = i.setWidth 32 ∧ t = s := by
  unfold checkNode
  split <;> simp only [Run.err_eq_err, reduceCtorEq] <;> simp_all

/-- The arena check passes exactly when the arena is not full, and changes nothing. -/
theorem checkArena_eq_ok {s t : State} {u : Unit} : checkArena s = .ok u t ↔ s.arena.length ≠ 511 ∧ t = s := by
  unfold checkArena Config.arenaCap
  split <;> simp only [Run.ok_eq_ok, reduceCtorEq] <;> simp_all

/-- The arena check raises ERR_ARENA_FULL(0) exactly when the arena is full, and changes nothing. -/
theorem checkArena_eq_err {s t : State} {e : ErrKind} {info : Word} :
    checkArena s = .err e info t ↔ s.arena.length = 511 ∧ e = .arenaFull ∧ info = 0#32 ∧ t = s := by
  unfold checkArena Config.arenaCap
  split <;> simp only [Run.err_eq_err, reduceCtorEq] <;> simp_all

/-! ## The primitives of the arena and heap -/

/-- NewLeaf succeeds exactly below ARENA_CAP: it appends the leaf and returns its index (R141). -/
theorem newLeaf_eq_ok {b : Byte} {s t : State} {n : NodeIdx} :
    newLeaf b s = .ok n t ↔
      s.arena.length < 511 ∧ n = s.nextNode ∧ t = { s with arena := s.arena ++ [leafOf s b] } := by
  unfold newLeaf Config.arenaCap appendNode
  split <;> simp only [Run.ok_eq_ok, reduceCtorEq] <;> simp_all

/-- NewJoin succeeds exactly below ARENA_CAP and without overflow: it appends the node and returns its index (R143). -/
theorem newJoin_eq_ok {a b : NodeIdx} {s t : State} {n : NodeIdx} :
    newJoin a b s = .ok n t ↔
      (s.arena.length < 511 ∧ exactSum s a b < 2 ^ 64) ∧ n = s.nextNode ∧
        t = { s with arena := s.arena ++ [joinOf s a b] } := by
  unfold newJoin Config.arenaCap appendNode
  split <;> simp only [Run.ok_eq_ok, reduceCtorEq] <;> simp_all

/-- HeapInsert succeeds exactly when the heap is not full and the node exists; only the heap changes (R146). -/
theorem heapInsert_eq_ok {i : NodeIdx} {s t : State} {u : Unit} :
    heapInsert i s = .ok u t ↔
      (s.heap.length < 256 ∧ i.toNat < s.arena.length) ∧ t = { s with heap := insertSlot s.arena s.heap i } := by
  unfold heapInsert Config.heapCap
  split <;> simp only [Run.ok_eq_ok, reduceCtorEq] <;> simp_all

/-- HeapExtract succeeds exactly on a non-empty heap: it returns slot 0; only the heap changes (R149). -/
theorem heapExtract_eq_ok {s t : State} {n : NodeIdx} :
    heapExtract s = .ok n t ↔
      0 < s.heap.length ∧ n = slot s.heap 0 ∧ t = { s with heap := removeTop s.arena s.heap } := by
  unfold heapExtract
  split <;> simp only [Run.ok_eq_ok, reduceCtorEq] <;> simp_all

/-- The primitives of the arena and heap raise no error of the HCC. -/
theorem newLeaf_ne_err (b : Byte) (s : State) (k : ErrKind) (info : Word) (t : State) : newLeaf b s ≠ .err k info t := by
  unfold newLeaf appendNode
  split <;> simp

theorem newJoin_ne_err (a b : NodeIdx) (s : State) (k : ErrKind) (info : Word) (t : State) :
    newJoin a b s ≠ .err k info t := by
  unfold newJoin appendNode
  split <;> simp

theorem heapInsert_ne_err (i : NodeIdx) (s : State) (k : ErrKind) (info : Word) (t : State) :
    heapInsert i s ≠ .err k info t := by
  unfold heapInsert
  split <;> simp

theorem heapExtract_ne_err (s : State) (k : ErrKind) (info : Word) (t : State) : heapExtract s ≠ .err k info t := by
  unfold heapExtract
  split <;> simp

/-! ## Where the shared operations end -/

theorem memReadIn_ends (s : State) : (memReadIn s).Ends fun t => t = s := by
  unfold memReadIn
  split <;> simp

theorem checkRoom_ends (k : Nat) (s : State) : (checkRoom k s).Ends fun t => t = s := by
  unfold checkRoom
  split <;> simp

theorem checkNode_ends (i : NodeIdx) (s : State) : (checkNode i s).Ends fun t => t = s := by
  unfold checkNode
  split <;> simp

theorem checkArena_ends (s : State) : (checkArena s).Ends fun t => t = s := by
  unfold checkArena
  split <;> simp

theorem checkCode_ends (b : Byte) (s : State) : (checkCode b s).Ends fun t => t = s := by
  unfold checkCode
  split
  · simp
  · split
    · simp
    · exact checkRoom_ends _ _

theorem memWriteOut_ends (b : Byte) (s : State) :
    (memWriteOut b s).Ends fun t => t = { s with outMem := t.outMem, outPos := t.outPos } := by
  unfold memWriteOut
  split <;> simp

end Sys2Proof.Machine
end

