-- ==== Sys2Proof/Laws/BitIO.lean ====
section
/-! SUPPORT. The laws of the BitWriter and the BitReader: bytes as bits, what putting bits sends (R182), what getting a bit
takes off the stream (R187). -/

namespace Sys2Proof.Machine

/-! ## Bytes as bits, MSB first (R74) -/

theorem getLsbD_or_if (acc m : Byte) (c : Bool) (i : Nat) :
    (if c then acc ||| m else acc).getLsbD i = (acc.getLsbD i || (c && m.getLsbD i)) := by
  cases c <;> simp

/-- Bit `7 - j` of the byte of a bit list is its element `j`. -/
theorem byteOf_getLsbD (bits : List Bool) {i : Nat} (hi : i < 8) : (byteOf bits).getLsbD i = bits.getD (7 - i) false := by
  unfold byteOf
  rw [show List.range 8 = [0, 1, 2, 3, 4, 5, 6, 7] from rfl]
  simp only [List.foldl_cons, List.foldl_nil, getLsbD_or_if]
  match i, hi with
  | 0, _ | 1, _ | 2, _ | 3, _ | 4, _ | 5, _ | 6, _ | 7, _ => simp

/-- Two bytes with the same bits are the same. -/
theorem byte_ext {a b : Byte} (h : ∀ i, i < 8 → a.getLsbD i = b.getLsbD i) : a = b :=
  BitVec.eq_of_getLsbD_eq fun i hi => h i hi

@[simp] theorem length_byteBits (b : Byte) : (byteBits b).length = 8 := by simp [byteBits]

/-- Element `j` of a byte's bits is its bit `7 - j`. -/
theorem byteBits_getElem? (b : Byte) {j : Nat} (hj : j < 8) : (byteBits b)[j]? = some (b.getLsbD (7 - j)) := by
  simp [byteBits, List.getElem?_map, List.getElem?_range hj]

/-- The byte of a byte's bits. -/
@[simp] theorem byteOf_byteBits (b : Byte) : byteOf (byteBits b) = b := by
  refine byte_ext fun i hi => ?_
  rw [byteOf_getLsbD _ hi, List.getD_eq_getElem?_getD, byteBits_getElem? b (by omega), Option.getD_some]
  congr 1
  omega

/-- The bits of the byte of eight bits. -/
theorem byteBits_byteOf {bits : List Bool} (h : bits.length = 8) : byteBits (byteOf bits) = bits := by
  refine List.ext_getElem (by rw [length_byteBits, h]) fun j h1 h2 => ?_
  have hj : j < 8 := by omega
  have := byteBits_getElem? (byteOf bits) hj
  rw [List.getElem?_eq_getElem h1, Option.some.injEq] at this
  rw [this, byteOf_getLsbD _ (by omega), show 7 - (7 - j) = j by omega, List.getD_eq_getElem _ _ h2]

/-! ## The BitWriter -/

@[simp] theorem length_pendingBits (s : State) : s.pendingBits.length = s.bwCnt := by simp [State.pendingBits]

/-- The BitWriter holds exactly its pending bits (R55). -/
theorem bwBuf_eq_byteOf {s : State} (h : s.BitsOk) : s.bwBuf = byteOf s.pendingBits := by
  obtain ⟨h7, -, hz⟩ := h
  refine byte_ext fun i hi => ?_
  rw [byteOf_getLsbD _ hi]
  by_cases hc : 7 - i < s.bwCnt
  · rw [List.getD_eq_getElem _ _ (by simpa using hc)]
    simp only [State.pendingBits, List.getElem_map, List.getElem_range]
    congr 1
    omega
  · rw [List.getD_eq_default _ _ (by simpa using hc)]
    exact hz i (by omega)

/-- A buffer that is the byte of a list shorter than eight gives that list as its pending bits. -/
theorem pendingBits_of_byteOf {s : State} {l : List Bool} (hc : s.bwCnt = l.length) (h7 : l.length ≤ 7)
    (hb : s.bwBuf = byteOf l) : s.pendingBits = l := by
  refine List.ext_getElem (by simpa using hc) fun j h1 h2 => ?_
  simp only [State.pendingBits, List.getElem_map, List.getElem_range]
  rw [hb, byteOf_getLsbD _ (by omega), show 7 - (7 - j) = j by omega, List.getD_eq_getElem _ _ h2]

/-- The unwritten bits of the byte of a list are 0. -/
theorem byteOf_low_bits (l : List Bool) {i : Nat} (hi : i < 8 - l.length) : (byteOf l).getLsbD i = false := by
  rw [byteOf_getLsbD _ (by omega), List.getD_eq_default _ _ (by omega)]

/-- Setting the next free bit appends it. -/
theorem setBit_byteOf (l : List Bool) (b : Bool) (h : l.length ≤ 7) : setBit (byteOf l) (7 - l.length) b = byteOf (l ++ [b]) := by
  refine byte_ext fun i hi => ?_
  rw [byteOf_getLsbD _ hi, List.getD_eq_getElem?_getD, List.getElem?_append]
  unfold setBit
  by_cases he : i = 7 - l.length
  · have e : 7 - (7 - l.length) = l.length := by omega
    have e8 : 7 - l.length < 8 := by omega
    subst he
    rw [e]
    cases b <;> simp [e8]
  · have hbit : (1#8 <<< (7 - l.length)).getLsbD i = false := by
      simp only [BitVec.getLsbD_shiftLeft, BitVec.getLsbD_one]
      simp
      omega
    have key : (if b then byteOf l ||| 1#8 <<< (7 - l.length) else byteOf l &&& ~~~(1#8 <<< (7 - l.length))).getLsbD i =
        (byteOf l).getLsbD i := by
      cases b
      · simp only [Bool.false_eq_true, if_false, BitVec.getLsbD_and, BitVec.getLsbD_not, hbit]
        simp [hi]
      · simp only [if_true, BitVec.getLsbD_or, hbit, Bool.or_false]
    rw [key, byteOf_getLsbD _ hi, List.getD_eq_getElem?_getD]
    by_cases hl : 7 - i < l.length
    · rw [if_pos hl]
    · rw [if_neg hl, List.getElem?_eq_none (by omega), List.getElem?_eq_none (by simp; omega)]

/-- Everything PutBit does (R182), with room for the byte it may complete: the bit joins the pending ones, and eight of them are
written at OUT_POS. -/
theorem putBit_spec {s : State} (h : s.BitsOk) (b : Bool) (hroom : s.bwCnt = 7 → s.outPos.toNat < s.outCap.toNat) :
    putBit b s = .ok () (
      if s.bwCnt = 7 then
        { s with
          outMem := s.outMem.write s.outPos.toNat (byteOf (s.pendingBits ++ [b])), outPos := s.outPos + 1#32, bwBuf := 0#8, bwCnt := 0 }
      else { s with bwBuf := byteOf (s.pendingBits ++ [b]), bwCnt := s.bwCnt + 1 }) := by
  have hset : setBit s.bwBuf (7 - s.bwCnt) b = byteOf (s.pendingBits ++ [b]) := by
    rw [bwBuf_eq_byteOf h, ← setBit_byteOf _ _ (by simpa using h.1), length_pendingBits]
  unfold putBit
  rw [hset]
  by_cases h7 : s.bwCnt = 7
  · rw [if_pos (by omega), if_pos h7, memWriteOut, if_pos (hroom h7)]
    rfl
  · rw [if_neg (by omega), if_neg h7]

/-- PutBit keeps BW_CNT at most 7 and the unwritten bits 0. -/
theorem putBit_bitsOk {s t : State} (h : s.BitsOk) {b : Bool} (hr : putBit b s = .ok () t) : t.BitsOk := by
  by_cases hroom : s.bwCnt = 7 → s.outPos.toNat < s.outCap.toNat
  · rw [putBit_spec h b hroom, Run.ok_eq_ok] at hr
    obtain ⟨-, rfl⟩ := hr
    split
    · exact ⟨by simp, h.2.1, by simp⟩
    · rename_i h7
      refine ⟨by have := h.1; simp only; omega, h.2.1, fun i hi => ?_⟩
      exact byteOf_low_bits _ (by simpa using hi)
  · obtain ⟨h7, hfull⟩ := Classical.not_imp.1 hroom
    unfold putBit memWriteOut at hr
    rw [if_pos (by omega), if_neg hfull] at hr
    simp at hr

/-- PutBit raises no error of the HCC. -/
theorem putBit_ne_err (b : Bool) (s : State) (k : ErrKind) (info : Word) (t : State) : putBit b s ≠ .err k info t := by
  unfold putBit
  split
  · rw [ne_eq, Run.andThen_eq_err]
    rintro (h | ⟨_, _, _, h⟩)
    · exact memWriteOut_ne_err _ _ _ _ _ h
    · simp at h
  · simp

/-- Putting bits raises no error of the HCC. -/
theorem putBits_ne_err (bits : List Bool) (s : State) (k : ErrKind) (info : Word) (t : State) : putBits bits s ≠ .err k info t := by
  induction bits generalizing s with
  | nil => simp [putBits]
  | cons b bs ih =>
    rw [putBits, ne_eq, Run.andThen_eq_err]
    rintro (h | ⟨_, _, _, h⟩)
    · exact putBit_ne_err _ _ _ _ _ h
    · exact ih _ h

/-- PutBit writes only OUT, OUT_POS and the BitWriter. -/
theorem putBit_frame {b : Bool} {s t : State} {u : Unit} (h : putBit b s = .ok u t) :
    t = { s with outMem := t.outMem, outPos := t.outPos, bwBuf := t.bwBuf, bwCnt := t.bwCnt } := by
  unfold putBit at h
  split at h
  · obtain ⟨_, m, h1, h2⟩ := Run.andThen_eq_ok.1 h
    obtain ⟨-, rfl⟩ := memWriteOut_eq_ok.1 h1
    obtain ⟨-, rfl⟩ := Run.ok_eq_ok.1 h2
    rfl
  · obtain ⟨-, rfl⟩ := Run.ok_eq_ok.1 h
    rfl

/-- Putting bits writes only OUT, OUT_POS and the BitWriter. -/
theorem putBits_frame {bits : List Bool} {s t : State} {u : Unit} (h : putBits bits s = .ok u t) :
    t = { s with outMem := t.outMem, outPos := t.outPos, bwBuf := t.bwBuf, bwCnt := t.bwCnt } := by
  induction bits generalizing s with
  | nil =>
    obtain ⟨-, rfl⟩ := Run.ok_eq_ok.1 h
    rfl
  | cons b bs ih =>
    obtain ⟨_, m, h1, h2⟩ := Run.andThen_eq_ok.1 h
    have e1 := putBit_frame h1
    have e2 := ih h2
    rw [e1] at e2
    exact e2

/-- Putting bits keeps BW_CNT at most 7 and the unwritten bits 0. -/
theorem putBits_bitsOk {bits : List Bool} {s t : State} (h : s.BitsOk) {u : Unit} (hr : putBits bits s = .ok u t) : t.BitsOk := by
  induction bits generalizing s with
  | nil =>
    obtain ⟨-, rfl⟩ := Run.ok_eq_ok.1 hr
    exact h
  | cons b bs ih =>
    obtain ⟨_, m, h1, h2⟩ := Run.andThen_eq_ok.1 hr
    exact ih (putBit_bitsOk h h1) h2

/-! ## What is sent -/

theorem streamByte_append_left (xs ys : List Bool) {i : Nat} (h : 8 * i + 8 ≤ xs.length) :
    streamByte (xs ++ ys) i = streamByte xs i := by
  unfold streamByte
  rw [List.drop_append_of_le_length (by omega), List.take_append_of_le_length (by rw [List.length_drop]; omega)]

theorem streamByte_drop (xs : List Bool) (k i : Nat) : streamByte (xs.drop (8 * k)) i = streamByte xs (k + i) := by
  unfold streamByte
  rw [List.drop_drop, show 8 * k + 8 * i = 8 * (k + i) by omega]

/-- Sending nothing changes nothing. -/
theorem Sent.nil {s : State} (h : s.BitsOk) : Sent s s [] := by
  have h7 := h.1
  have hk : s.bwCnt / 8 = 0 := by omega
  refine ⟨?_, ?_, ?_, ?_, fun a _ => rfl⟩ <;> simp only [List.append_nil, length_pendingBits, hk]
  · omega
  · omega
  · simpa using bwBuf_eq_byteOf h
  · intro i hi
    omega

/-- The pending bits after sending are the rest of the stream. -/
theorem Sent.pendingBits {s t : State} {xs : List Bool} (h : Sent s t xs) :
    t.pendingBits = (s.pendingBits ++ xs).drop (8 * ((s.pendingBits ++ xs).length / 8)) := by
  obtain ⟨-, hc, hb, -, -⟩ := h
  refine pendingBits_of_byteOf ?_ ?_ hb <;> rw [List.length_drop]
  · rw [hc]
    omega
  · omega

/-- Sending `xs` and then `ys` is sending both. -/
theorem Sent.trans {s m t : State} {xs ys : List Bool} (h1 : Sent s m xs) (h2 : Sent m t ys) : Sent s t (xs ++ ys) := by
  have hp := h1.pendingBits
  obtain ⟨o1, -, -, w1, f1⟩ := h1
  obtain ⟨o2, c2, b2, w2, f2⟩ := h2
  rw [hp] at o2 c2 b2 w2 f2
  unfold Sent
  rw [← List.append_assoc]
  generalize s.pendingBits ++ xs = p at o1 w1 f1 o2 c2 b2 w2 f2 ⊢
  have hall : p.drop (8 * (p.length / 8)) ++ ys = (p ++ ys).drop (8 * (p.length / 8)) := by
    rw [List.drop_append_of_le_length (by omega)]
  have hlen : ((p ++ ys).drop (8 * (p.length / 8))).length = (p ++ ys).length - 8 * (p.length / 8) := List.length_drop
  have hle : p.length ≤ (p ++ ys).length := by simp
  rw [hall, hlen] at o2 c2 f2
  rw [hall, hlen] at b2 w2
  have hk : ((p ++ ys).length - 8 * (p.length / 8)) / 8 = (p ++ ys).length / 8 - p.length / 8 := by omega
  rw [hk] at o2 b2 w2 f2
  refine ⟨by omega, by omega, ?_, fun i hi => ?_, fun a ha => ?_⟩
  · rw [b2, List.drop_drop]
    congr 2
    omega
  · by_cases hi1 : i < p.length / 8
    · rw [f2 _ (Or.inl (by omega)), w1 i hi1, streamByte_append_left _ _ (by omega)]
    · have := w2 (i - p.length / 8) (by omega)
      rw [streamByte_drop, o1, show s.outPos.toNat + p.length / 8 + (i - p.length / 8) = s.outPos.toNat + i by omega,
        show p.length / 8 + (i - p.length / 8) = i by omega] at this
      exact this
  · rw [f2 a (by omega), f1 a (by omega)]

/-- What OUT holds after one byte was written. -/
theorem outByte_write (s : State) (a x : Nat) (b : Byte) (p : Word) (buf : Byte) (cnt : Nat) :
    ({ s with outMem := s.outMem.write a b, outPos := p, bwBuf := buf, bwCnt := cnt }).outByte x =
      if x = a then b else s.outByte x := by
  unfold State.outByte
  simp only [Memory.read?_write]
  split <;> rfl

/-- PutBit sends its bit (R182). -/
theorem putBit_sent {s t : State} (h : s.BitsOk) {b : Bool} {u : Unit} (hr : putBit b s = .ok u t) : Sent s t [b] := by
  have hroom : s.bwCnt = 7 → s.outPos.toNat < s.outCap.toNat := by
    intro h7
    by_contra hfull
    unfold putBit memWriteOut at hr
    rw [if_pos (by omega), if_neg hfull] at hr
    simp at hr
  rw [putBit_spec h b hroom, Run.ok_eq_ok] at hr
  obtain ⟨-, rfl⟩ := hr
  have h7 := h.1
  have hl : (s.pendingBits ++ [b]).length = s.bwCnt + 1 := by simp
  have hc := s.outCap.isLt
  unfold Sent
  simp only [hl]
  split
  · rename_i he
    have hp := hroom he
    have hk : (s.bwCnt + 1) / 8 = 1 := by omega
    rw [hk]
    refine ⟨?_, by show 0 = _; omega, ?_, fun i hi => ?_, fun a ha => ?_⟩
    · show (s.outPos + 1#32).toNat = _
      rw [BitVec.toNat_add]
      simp only [BitVec.toNat_ofNat]
      omega
    · show 0#8 = _
      rw [List.drop_eq_nil_of_le (by omega)]
      rfl
    · obtain rfl : i = 0 := by omega
      rw [outByte_write, if_pos (by omega), streamByte, List.drop_zero, List.take_of_length_le (by omega)]
    · rw [outByte_write, if_neg (by omega)]
  · have hk : (s.bwCnt + 1) / 8 = 0 := by omega
    rw [hk]
    exact ⟨rfl, by simp only; omega, by simp, fun i hi => by omega, fun a _ => rfl⟩

/-- EVERYTHING putting bits does (R182): when it succeeds, the bits are sent and nothing else but the BitWriter changes. -/
theorem putBits_sent {bits : List Bool} {s t : State} (h : s.BitsOk) {u : Unit} (hr : putBits bits s = .ok u t) : Sent s t bits := by
  induction bits generalizing s with
  | nil =>
    obtain ⟨-, rfl⟩ := Run.ok_eq_ok.1 hr
    exact Sent.nil h
  | cons b bs ih =>
    obtain ⟨_, m, h1, h2⟩ := Run.andThen_eq_ok.1 hr
    exact (putBit_sent h h1).trans (ih (putBit_bitsOk h h1) h2)

/-- Putting bits succeeds when OUT has room for the bytes they complete (R183, R199). -/
theorem putBits_ok {bits : List Bool} {s : State} (h : s.BitsOk)
    (hroom : s.outPos.toNat + (s.bwCnt + bits.length) / 8 ≤ s.outCap.toNat) : ∃ t, putBits bits s = .ok () t := by
  induction bits generalizing s with
  | nil => exact ⟨s, rfl⟩
  | cons b bs ih =>
    have h7 := h.1
    rw [List.length_cons] at hroom
    obtain ⟨m, hm⟩ : ∃ m, putBit b s = .ok () m := ⟨_, putBit_spec h b (by intro; omega)⟩
    have hs := putBit_sent h hm
    have hf := putBit_frame hm
    have hcap : m.outCap = s.outCap := by rw [hf]
    obtain ⟨o, c, -⟩ := hs
    simp only [List.length_append, length_pendingBits, List.length_singleton] at o c
    obtain ⟨t, ht⟩ := ih (putBit_bitsOk h hm) (by rw [o, c, hcap]; omega)
    exact ⟨t, by rw [putBits, hm]; exact ht⟩

/-! ## The BitReader -/

/-- Taking a buffered bit. -/
theorem getBit_buffered {s : State} (h : s.brCnt ≠ 0) :
    getBit s = .ok (some (s.brBuf.getLsbD (s.brCnt - 1))) { s with brCnt := s.brCnt - 1 } := by
  rw [getBit, if_neg h, takeBit]

/-- End-of-source changes nothing. -/
theorem getBit_eos {s : State} (h : s.brCnt = 0) (he : s.inLen.toNat ≤ s.inPos.toNat) : getBit s = .ok none s := by
  rw [getBit, if_pos h, if_pos (BitVec.le_def.2 he)]

/-- Fetching a byte and taking its first bit. -/
theorem getBit_fetch {s : State} (h : s.brCnt = 0) (he : s.inPos.toNat < s.inLen.toNat) (hs : s.inLen.toNat ≤ s.inSize.toNat) :
    getBit s = .ok (some ((s.inByte s.inPos.toNat).getLsbD 7))
      { s with brBuf := s.inByte s.inPos.toNat, inPos := s.inPos + 1#32, brCnt := 7 } := by
  rw [getBit, if_pos h, if_neg (by rw [BitVec.le_def]; omega), memReadIn, if_pos (by omega)]
  rfl

/-- The bytes still to be read, when one is. -/
theorem inBytes_cons {s : State} (he : s.inPos.toNat < s.inLen.toNat) :
    s.inBytes = s.inByte s.inPos.toNat :: ({ s with inPos := s.inPos + 1#32 }).inBytes := by
  have hl := s.inLen.isLt
  have hp : (s.inPos + 1#32).toNat = s.inPos.toNat + 1 := by
    rw [BitVec.toNat_add]
    simp only [BitVec.toNat_ofNat]
    omega
  unfold State.inBytes State.avail
  simp only [hp]
  rw [show s.inLen.toNat - s.inPos.toNat = (s.inLen.toNat - (s.inPos.toNat + 1)) + 1 by omega, List.range_succ_eq_map, List.map_cons,
    List.map_map]
  congr 1
  refine List.map_congr_left fun k _ => ?_
  simp only [Function.comp_apply, State.inByte]
  rw [show s.inPos.toNat + (k + 1) = s.inPos.toNat + 1 + k by omega]

/-- EVERYTHING GetBit does (R187): it delivers the first of the reader's bits and leaves the others, or finds none. Only IN_POS
and the BitReader change. -/
theorem getBit_readerBits {s : State} (hs : s.inLen.toNat ≤ s.inSize.toNat) :
    (s.readerBits = [] ∧ getBit s = .ok none s) ∨
    ∃ b rest t, s.readerBits = b :: rest ∧ getBit s = .ok (some b) t ∧ t.readerBits = rest ∧
      t = { s with inPos := t.inPos, brBuf := t.brBuf, brCnt := t.brCnt } := by
  by_cases h : s.brCnt = 0
  · by_cases he : s.inLen.toNat ≤ s.inPos.toNat
    · refine Or.inl ⟨?_, getBit_eos h he⟩
      simp [State.readerBits, State.inBytes, State.avail, h, Nat.sub_eq_zero_of_le he]
    · have he' : s.inPos.toNat < s.inLen.toNat := by omega
      refine Or.inr ⟨(s.inByte s.inPos.toNat).getLsbD 7, _, _, ?_, getBit_fetch h he' hs, rfl, rfl⟩
      rw [State.readerBits, h, inBytes_cons he', List.flatMap_cons, List.range_zero, List.map_nil, List.nil_append]
      rfl
  · refine Or.inr ⟨_, _, _, ?_, getBit_buffered h, rfl, rfl⟩
    rw [State.readerBits, show s.brCnt = (s.brCnt - 1) + 1 by omega, List.range_succ_eq_map]
    simp only [List.map_cons, List.map_map, List.cons_append, State.readerBits]
    congr 2
    refine List.map_congr_left fun j _ => ?_
    simp only [Function.comp_apply]
    congr 1
    omega

theorem length_flatMap_byteBits (bs : List Byte) : (bs.flatMap byteBits).length = 8 * bs.length := by
  induction bs with
  | nil => rfl
  | cons b bs ih => rw [List.flatMap_cons, List.length_append, ih, length_byteBits, List.length_cons]; omega

/-- The number of bits the reader has left. -/
theorem length_readerBits (s : State) : s.readerBits.length = s.bitsLeft := by
  rw [State.readerBits, List.length_append, length_flatMap_byteBits]
  simp [State.inBytes, State.bitsLeft]

end Sys2Proof.Machine
end

