-- ==== Sys2Proof/Laws/Heap.lean ====
section
/-! SUPPORT. The laws of the heap: its sifts only reorder, and they keep the heap property (R146 to R151). -/

namespace Sys2Proof.Machine

/-! ## Slots -/

theorem slot_of_lt {heap : List NodeIdx} {k : Nat} (h : k < heap.length) : slot heap k = heap[k] := List.getD_eq_getElem _ _ h

theorem slot_of_le {heap : List NodeIdx} {k : Nat} (h : heap.length ≤ k) : slot heap k = 0#9 := List.getD_eq_default _ _ h

@[simp] theorem length_swapSlots (heap : List NodeIdx) (i j : Nat) : (swapSlots heap i j).length = heap.length := by
  simp [swapSlots]

/-- A swap of two occupied slots only reorders. -/
theorem swapSlots_perm {heap : List NodeIdx} {i j : Nat} (hi : i < heap.length) (hj : j < heap.length) :
    (swapSlots heap i j).Perm heap := by
  rw [swapSlots, slot_of_lt hi, slot_of_lt hj]
  exact List.set_set_perm hi hj

/-- The slots after a swap. -/
theorem slot_swapSlots {heap : List NodeIdx} {i j : Nat} (hi : i < heap.length) (hj : j < heap.length) (x : Nat) :
    slot (swapSlots heap i j) x = if x = j then slot heap i else if x = i then slot heap j else slot heap x := by
  unfold swapSlots slot
  simp only [List.getD_eq_getElem?_getD, List.getElem?_set, List.length_set]
  by_cases hxj : x = j
  · subst hxj
    simp [hj]
  · rw [if_neg (Ne.symm hxj), if_neg hxj]
    by_cases hxi : x = i
    · subst hxi
      simp [hi]
    · rw [if_neg (Ne.symm hxi), if_neg hxi]

/-! ## Up (R146) -/

/-- The up-sift only reorders. -/
theorem siftUp_perm (arena : List Node) (fuel : Nat) {heap : List NodeIdx} {k : Nat} (hk : k < heap.length) :
    (siftUp arena fuel heap k).Perm heap := by
  induction fuel generalizing heap k with
  | zero => exact List.Perm.refl _
  | succ fuel ih =>
    unfold siftUp
    split
    · exact List.Perm.refl _
    · split
      · exact List.Perm.refl _
      · have hp : (k - 1) / 2 < heap.length := by omega
        exact (ih (by simpa using hp)).trans (swapSlots_perm hp hk)

/-- The heap property holds everywhere but between slot `k` and its parent. -/
def OrderedBut (arena : List Node) (heap : List NodeIdx) (k : Nat) : Prop :=
  (∀ j, j < heap.length → 0 < j → j ≠ k → weightAt arena (slot heap ((j - 1) / 2)) ≤ weightAt arena (slot heap j)) ∧
    ∀ j, j < heap.length → 0 < j → 0 < k → (j - 1) / 2 = k →
      weightAt arena (slot heap ((k - 1) / 2)) ≤ weightAt arena (slot heap j)

/-- The up-sift from the one misplaced slot ends in the heap property. -/
theorem siftUp_ordered (arena : List Node) {fuel : Nat} {heap : List NodeIdx} {k : Nat} (hf : k ≤ fuel) (hk : k < heap.length)
    (h : OrderedBut arena heap k) : HeapOrdered arena (siftUp arena fuel heap k) := by
  induction fuel generalizing heap k with
  | zero =>
    intro j hj h0
    exact h.1 j hj h0 (by omega)
  | succ fuel ih =>
    unfold siftUp
    split
    · intro j hj h0
      exact h.1 j hj h0 (by omega)
    · rename_i hk0
      split
      · rename_i hle
        intro j hj h0
        by_cases hjk : j = k
        · rw [hjk]
          exact hle
        · exact h.1 j hj h0 hjk
      · rename_i hlt
        have hp : (k - 1) / 2 < heap.length := by omega
        have hwlt : weightAt arena (slot heap k) ≤ weightAt arena (slot heap ((k - 1) / 2)) := BitVec.le_of_lt (BitVec.not_le.1 hlt)
        refine ih (by omega) (by simpa using hp) ⟨fun j hj h0 hjp => ?_, fun j hj h0 hp0 hjp => ?_⟩
        · rw [length_swapSlots] at hj
          rw [slot_swapSlots hp hk, slot_swapSlots hp hk]
          by_cases hjk : j = k
          · rw [hjk, if_pos rfl, if_neg (by omega), if_pos rfl]
            exact hwlt
          · rw [if_neg hjk, if_neg hjp]
            by_cases hpk : (j - 1) / 2 = k
            · rw [if_pos hpk]
              exact h.2 j hj h0 (by omega) hpk
            · rw [if_neg hpk]
              by_cases hpp : (j - 1) / 2 = (k - 1) / 2
              · rw [if_pos hpp]
                have := h.1 j hj h0 hjk
                rw [hpp] at this
                exact BitVec.le_trans hwlt this
              · rw [if_neg hpp]
                exact h.1 j hj h0 hjk
        · rw [length_swapSlots] at hj
          have hpp := h.1 ((k - 1) / 2) hp hp0 (by omega)
          rw [slot_swapSlots hp hk, slot_swapSlots hp hk, if_neg (by omega), if_neg (by omega)]
          by_cases hjk : j = k
          · rw [if_pos hjk]
            exact hpp
          · rw [if_neg hjk, if_neg (by omega)]
            have := h.1 j hj h0 hjk
            rw [hjp] at this
            exact BitVec.le_trans hpp this

@[simp] theorem length_siftUp (arena : List Node) (fuel : Nat) (heap : List NodeIdx) (k : Nat) :
    (siftUp arena fuel heap k).length = heap.length := by
  induction fuel generalizing heap k with
  | zero => rfl
  | succ fuel ih =>
    unfold siftUp
    split
    · rfl
    · split
      · rfl
      · rw [ih, length_swapSlots]

/-! ## Down (R148) -/

/-- The lightest of a slot and its children is one of them. -/
theorem lightest_cases (arena : List Node) (heap : List NodeIdx) (k : Nat) :
    lightest arena heap k = k ∨
      (lightest arena heap k < heap.length ∧ (lightest arena heap k = 2 * k + 1 ∨ lightest arena heap k = 2 * k + 2)) := by
  unfold lightest
  simp only
  split
  · rename_i hl
    split
    · rename_i hr
      exact Or.inr ⟨hr.1, Or.inr rfl⟩
    · exact Or.inr ⟨hl.1, Or.inl rfl⟩
  · split
    · rename_i hr
      exact Or.inr ⟨hr.1, Or.inr rfl⟩
    · exact Or.inl rfl

/-- The lightest is not heavier than the slot, nor than either child. -/
theorem lightest_le (arena : List Node) (heap : List NodeIdx) (k : Nat) :
    weightAt arena (slot heap (lightest arena heap k)) ≤ weightAt arena (slot heap k) ∧
      ∀ j, j < heap.length → 0 < j → (j - 1) / 2 = k →
        weightAt arena (slot heap (lightest arena heap k)) ≤ weightAt arena (slot heap j) := by
  have of_lt : ∀ x y : Weight, x < y → x ≤ y := fun x y => BitVec.le_of_lt
  have of_not : ∀ {j : Nat} {x : Weight}, j < heap.length → ¬ (j < heap.length ∧ weightAt arena (slot heap j) < x) →
      x ≤ weightAt arena (slot heap j) := fun hj h => BitVec.not_lt.1 fun hlt => h ⟨hj, hlt⟩
  have child : ∀ j, 0 < j → (j - 1) / 2 = k → j = 2 * k + 1 ∨ j = 2 * k + 2 := by omega
  unfold lightest
  simp only
  split
  · rename_i hl
    split
    · rename_i hr
      refine ⟨BitVec.le_trans (of_lt _ _ hr.2) (of_lt _ _ hl.2), fun j hj h0 hjk => ?_⟩
      obtain rfl | rfl := child j h0 hjk
      · exact of_lt _ _ hr.2
      · exact BitVec.le_refl _
    · rename_i hr
      refine ⟨of_lt _ _ hl.2, fun j hj h0 hjk => ?_⟩
      obtain rfl | rfl := child j h0 hjk
      · exact BitVec.le_refl _
      · exact of_not hj hr
  · rename_i hl
    split
    · rename_i hr
      refine ⟨of_lt _ _ hr.2, fun j hj h0 hjk => ?_⟩
      obtain rfl | rfl := child j h0 hjk
      · exact BitVec.le_trans (of_lt _ _ hr.2) (of_not hj hl)
      · exact BitVec.le_refl _
    · rename_i hr
      refine ⟨BitVec.le_refl _, fun j hj h0 hjk => ?_⟩
      obtain rfl | rfl := child j h0 hjk
      · exact of_not hj hl
      · exact of_not hj hr

@[simp] theorem length_siftDown (arena : List Node) (fuel : Nat) (heap : List NodeIdx) (k : Nat) :
    (siftDown arena fuel heap k).length = heap.length := by
  induction fuel generalizing heap k with
  | zero => rfl
  | succ fuel ih =>
    unfold siftDown
    split
    · rfl
    · rw [ih, length_swapSlots]

/-- The down-sift only reorders. -/
theorem siftDown_perm (arena : List Node) (fuel : Nat) {heap : List NodeIdx} {k : Nat} (hk : k < heap.length) :
    (siftDown arena fuel heap k).Perm heap := by
  induction fuel generalizing heap k with
  | zero => exact List.Perm.refl _
  | succ fuel ih =>
    unfold siftDown
    split
    · exact List.Perm.refl _
    · rename_i hne
      have hm : lightest arena heap k < heap.length := (lightest_cases arena heap k).resolve_left hne |>.1
      exact (ih (by simpa using hm)).trans (swapSlots_perm hm hk)

/-- The heap property holds everywhere but between slot `k` and its children. -/
def OrderedAbove (arena : List Node) (heap : List NodeIdx) (k : Nat) : Prop :=
  (∀ j, j < heap.length → 0 < j → (j - 1) / 2 ≠ k → weightAt arena (slot heap ((j - 1) / 2)) ≤ weightAt arena (slot heap j)) ∧
    ∀ j, j < heap.length → 0 < j → 0 < k → (j - 1) / 2 = k →
      weightAt arena (slot heap ((k - 1) / 2)) ≤ weightAt arena (slot heap j)

/-- The down-sift from the one misplaced slot ends in the heap property. -/
theorem siftDown_ordered (arena : List Node) {fuel : Nat} {heap : List NodeIdx} {k : Nat} (hf : heap.length ≤ fuel + k)
    (h : OrderedAbove arena heap k) : HeapOrdered arena (siftDown arena fuel heap k) := by
  induction fuel generalizing heap k with
  | zero =>
    intro j hj h0
    exact h.1 j hj h0 (by simp only [siftDown] at hj; omega)
  | succ fuel ih =>
    obtain ⟨hmk, hmc⟩ := lightest_le arena heap k
    unfold siftDown
    split
    · rename_i he
      rw [he] at hmc
      intro j hj h0
      by_cases hjk : (j - 1) / 2 = k
      · rw [hjk]
        exact hmc j hj h0 hjk
      · exact h.1 j hj h0 hjk
    · rename_i hne
      obtain ⟨hm, hm2⟩ := (lightest_cases arena heap k).resolve_left hne
      generalize lightest arena heap k = m at hmk hmc hne hm hm2 ⊢
      have hk : k < heap.length := by omega
      have hmp : (m - 1) / 2 = k := by omega
      refine ih (by rw [length_swapSlots]; omega) ⟨fun j hj h0 hjm => ?_, fun j hj h0 _ hjm => ?_⟩
      · rw [length_swapSlots] at hj
        rw [slot_swapSlots hm hk, slot_swapSlots hm hk]
        by_cases hpk : (j - 1) / 2 = k
        · rw [if_pos hpk, if_neg (by omega)]
          by_cases hj2 : j = m
          · rw [if_pos hj2]
            exact hmk
          · rw [if_neg hj2]
            exact hmc j hj h0 hpk
        · rw [if_neg hpk, if_neg hjm]
          by_cases hjk : j = k
          · rw [if_pos hjk, hjk]
            exact h.2 m hm (by omega) (by omega) hmp
          · rw [if_neg hjk, if_neg (by omega)]
            exact h.1 j hj h0 hpk
      · rw [length_swapSlots] at hj
        rw [hmp, slot_swapSlots hm hk, slot_swapSlots hm hk, if_pos rfl, if_neg (by omega), if_neg (by omega)]
        have := h.1 j hj h0 (by omega)
        rw [hjm] at this
        exact this

/-! ## HeapInsert and HeapExtract (R146, R149) -/

@[simp] theorem length_insertSlot (arena : List Node) (heap : List NodeIdx) (i : NodeIdx) :
    (insertSlot arena heap i).length = heap.length + 1 := by simp [insertSlot]

/-- HeapInsert adds the element and otherwise only reorders. -/
theorem insertSlot_perm (arena : List Node) (heap : List NodeIdx) (i : NodeIdx) : (insertSlot arena heap i).Perm (i :: heap) :=
  (siftUp_perm arena _ (by simp)).trans List.perm_append_comm

/-- The slots of a heap with one appended. -/
theorem slot_append (heap : List NodeIdx) (i : NodeIdx) {k : Nat} (h : k < heap.length) : slot (heap ++ [i]) k = slot heap k := by
  unfold slot
  rw [List.getD_eq_getElem?_getD, List.getElem?_append_left h, List.getD_eq_getElem?_getD]

/-- HeapInsert keeps the heap property. -/
theorem insertSlot_ordered {arena : List Node} {heap : List NodeIdx} (h : HeapOrdered arena heap) (i : NodeIdx) :
    HeapOrdered arena (insertSlot arena heap i) := by
  refine siftUp_ordered arena (Nat.le_refl _) (by simp) ⟨fun j hj h0 hjk => ?_, fun j hj h0 _ hjk => ?_⟩
  · have hj' : j < heap.length := by simp at hj; omega
    rw [slot_append _ _ hj', slot_append _ _ (by omega)]
    exact h j hj' h0
  · simp at hj
    omega

/-- The slots after the last one moved to the root. -/
theorem slot_set_dropLast (heap : List NodeIdx) (x : NodeIdx) {k : Nat} (h : k < heap.length - 1) :
    slot ((heap.set 0 x).dropLast) k = if k = 0 then x else slot heap k := by
  unfold slot
  rw [List.getD_eq_getElem?_getD, List.getElem?_dropLast, List.length_set, if_pos h, List.getElem?_set]
  by_cases h0 : k = 0
  · subst h0
    rw [if_pos rfl, if_pos rfl, if_pos (by omega)]
    rfl
  · rw [if_neg (by omega), if_neg h0, List.getD_eq_getElem?_getD]

@[simp] theorem length_removeTop (arena : List Node) (heap : List NodeIdx) : (removeTop arena heap).length = heap.length - 1 := by
  simp [removeTop]

/-- Moving the last element to the root of a heap with its root removed only reorders. -/
theorem set_dropLast_perm (top : NodeIdx) (others : List NodeIdx) :
    (((top :: others).set 0 (slot (top :: others) ((top :: others).length - 1))).dropLast).Perm others := by
  rw [List.set_cons_zero, List.length_cons, Nat.add_sub_cancel]
  rcases List.eq_nil_or_concat others with rfl | ⟨l, x, rfl⟩
  · exact List.Perm.refl _
  · have e : slot (top :: (l ++ [x])) (l ++ [x]).length = x := by
      simp [slot]
    rw [List.concat_eq_append, e, ← List.cons_append, List.dropLast_concat]
    exact List.perm_append_comm (l₁ := [x])

/-- HeapExtract takes slot 0 off and otherwise only reorders. -/
theorem removeTop_perm (arena : List Node) (top : NodeIdx) (others : List NodeIdx) :
    (removeTop arena (top :: others)).Perm others := by
  have hperm := set_dropLast_perm top others
  unfold removeTop
  rcases others with _ | ⟨o, os⟩
  · have hl := length_siftDown arena (top :: []).length
      (((top :: []).set 0 (slot (top :: []) ((top :: []).length - 1))).dropLast) 0
    exact List.Perm.of_eq (List.eq_nil_of_length_eq_zero (by rw [hl]; simp))
  · exact (siftDown_perm arena _ (by simp)).trans hperm

/-- HeapExtract keeps the heap property. -/
theorem removeTop_ordered {arena : List Node} {heap : List NodeIdx} (h : HeapOrdered arena heap) :
    HeapOrdered arena (removeTop arena heap) := by
  refine siftDown_ordered arena (by simp) ⟨fun j hj h0 hj0 => ?_, fun j hj h0 h00 _ => absurd h00 (by omega)⟩
  simp only [List.length_dropLast, List.length_set] at hj
  rw [slot_set_dropLast _ _ hj, slot_set_dropLast _ _ (by omega), if_neg (by omega), if_neg (by omega)]
  exact h j (by omega) h0

/-- In an ordered heap no slot is lighter than slot 0 (R151). -/
theorem HeapOrdered.top_le {arena : List Node} {heap : List NodeIdx} (h : HeapOrdered arena heap) (k : Nat)
    (hk : k < heap.length) : weightAt arena (slot heap 0) ≤ weightAt arena (slot heap k) := by
  induction k using Nat.strongRecOn with
  | ind k ih =>
    by_cases h0 : k = 0
    · rw [h0]
      exact BitVec.le_refl _
    · exact BitVec.le_trans (ih ((k - 1) / 2) (by omega) (by omega)) (h k hk (by omega))

end Sys2Proof.Machine
end

