-- ==== Sys2Proof/Laws/Tree.lean ====
section
/-! SUPPORT. The laws of the tree builder (R160 to R164): the codes of a subtree, and what its two loops leave. -/

namespace Sys2Proof.Machine

/-! ## Nodes -/

/-- Appending a node does not change the existing ones. -/
theorem nodeAt_append {arena : List Node} (more : List Node) {i : NodeIdx} (h : i.toNat < arena.length) :
    nodeAt (arena ++ more) i = nodeAt arena i := by
  unfold nodeAt
  rw [List.getD_eq_getElem?_getD, List.getElem?_append_left h, List.getD_eq_getElem?_getD]

theorem weightAt_append {arena : List Node} (more : List Node) {i : NodeIdx} (h : i.toNat < arena.length) :
    weightAt (arena ++ more) i = weightAt arena i := by rw [weightAt, nodeAt_append more h, weightAt]

/-- The index of the next node, as a number. -/
theorem nextNode_toNat {s : State} (h : s.arena.length < 512) : s.nextNode.toNat = s.arena.length := by
  simp [State.nextNode, Nat.mod_eq_of_lt h]

/-- The node just appended. -/
theorem nodeAt_next {s : State} (h : s.arena.length < 512) (node : Node) : nodeAt (s.arena ++ [node]) s.nextNode = node := by
  simp [nodeAt, nextNode_toNat h, List.getD_eq_getElem?_getD]

/-! ## The codes of a subtree (R10, R170) -/

/-- `HasCodes arena n codes`: node `n` is the root of a strict binary tree within the arena, and `codes` are its leaves' symbols,
each with its path from `n`, left to right. -/
inductive HasCodes (arena : List Node) : NodeIdx → List (Byte × List Bool) → Prop
  /-- A leaf has the empty path to its symbol. -/
  | leaf {n : NodeIdx} (h : n.toNat < arena.length) (hl : (nodeAt arena n).leaf = true) : HasCodes arena n [((nodeAt arena n).sym, [])]
  /-- An internal node has its left child's paths after 0 and its right child's after 1. -/
  | node {n : NodeIdx} {xs ys : List (Byte × List Bool)} (h : n.toNat < arena.length) (hl : (nodeAt arena n).leaf = false)
      (left : HasCodes arena (nodeAt arena n).l xs) (right : HasCodes arena (nodeAt arena n).r ys) :
      HasCodes arena n ((xs.map fun c => (c.1, false :: c.2)) ++ ys.map fun c => (c.1, true :: c.2))

theorem HasCodes.lt {arena : List Node} {n : NodeIdx} {codes : List (Byte × List Bool)} (h : HasCodes arena n codes) :
    n.toNat < arena.length := by
  cases h <;> assumption

/-- Appending nodes does not change a subtree's codes. -/
theorem HasCodes.append {arena : List Node} (more : List Node) {n : NodeIdx} {codes : List (Byte × List Bool)}
    (h : HasCodes arena n codes) : HasCodes (arena ++ more) n codes := by
  induction h with
  | leaf h hl =>
    have e := nodeAt_append more h
    rw [← e]
    exact .leaf (by rw [List.length_append]; omega) (by rw [e]; exact hl)
  | node h hl _ _ ihl ihr =>
    have e := nodeAt_append more h
    exact .node (by rw [List.length_append]; omega) (by rw [e]; exact hl) (by rw [e]; exact ihl) (by rw [e]; exact ihr)

/-- A subtree has at least one leaf. -/
theorem HasCodes.ne_nil {arena : List Node} {n : NodeIdx} {codes : List (Byte × List Bool)} (h : HasCodes arena n codes) :
    codes ≠ [] := by
  induction h with
  | leaf => simp
  | node h hl _ _ ihl _ => simp [ihl]

/-! ## Weights -/

/-- The weights of the heap's nodes, summed without wrap. -/
def heapWeight (arena : List Node) (heap : List NodeIdx) : Nat := (heap.map fun i => (weightAt arena i).toNat).sum

theorem heapWeight_perm {arena : List Node} {heap heap' : List NodeIdx} (h : heap.Perm heap') :
    heapWeight arena heap = heapWeight arena heap' := (h.map _).sum_nat

theorem heapWeight_append {arena : List Node} (more : List Node) {heap : List NodeIdx} (h : ∀ i ∈ heap, i.toNat < arena.length) :
    heapWeight (arena ++ more) heap = heapWeight arena heap := by
  unfold heapWeight
  congr 1
  exact List.map_congr_left fun i hi => by rw [weightAt_append more (h i hi)]

/-! ## The merge loop -/

/-- An internal node as R160 makes it: no symbol, children below it, the sum of their weights. -/
def JoinedAt (arena : List Node) (n : Nat) (node : Node) : Prop :=
  node.leaf = false ∧ node.sym = 0#8 ∧ node.l.toNat < n ∧ node.r.toNat < n ∧
    node.weight.toNat = (weightAt arena node.l).toNat + (weightAt arena node.r).toNat

theorem slot_zero_cons (top : NodeIdx) (others : List NodeIdx) : slot (top :: others) 0 = top := rfl

/-- EVERYTHING the merge loop does (R160, R163): on a heap of disjoint subtrees it always succeeds, creates one internal node for
each further entry, and its root's subtree has exactly the leaves of them all. -/
theorem mergeLoop_spec {syms : List Byte} (fuel : Nat) {s : State} {C : NodeIdx → List (Byte × List Bool)}
    (h0 : 0 < s.heap.length) (hf : s.heap.length ≤ fuel) (ha : s.arena.length + s.heap.length ≤ 512) (hh : s.heap.length ≤ 256)
    (hw : heapWeight s.arena s.heap < 2 ^ 64) (hC : ∀ i ∈ s.heap, HasCodes s.arena i (C i))
    (hp : (s.heap.flatMap fun i => (C i).map Prod.fst).Perm syms) :
    ∃ a t codes more, mergeLoop fuel s = .ok a t ∧ t = { s with arena := s.arena ++ more, heap := [] } ∧
      more.length = s.heap.length - 1 ∧ HasCodes t.arena a codes ∧ (codes.map Prod.fst).Perm syms ∧
      (weightAt t.arena a).toNat = heapWeight s.arena s.heap ∧
      (s.heap.length = 1 → a = slot s.heap 0) ∧ (2 ≤ s.heap.length → a.toNat = s.arena.length + s.heap.length - 2) ∧
      ∀ n node, s.arena.length ≤ n → t.arena[n]? = some node → JoinedAt t.arena n node := by
  induction fuel generalizing s C with
  | zero => omega
  | succ fuel ih =>
    obtain ⟨top, others, hheap⟩ : ∃ top others, s.heap = top :: others := List.exists_cons_of_length_pos h0
    have hlen : s.heap.length = others.length + 1 := by rw [hheap, List.length_cons]
    have e1 : heapExtract s = .ok top { s with heap := removeTop s.arena s.heap } := by
      rw [heapExtract, if_pos h0, hheap, slot_zero_cons]
    have p1 : (removeTop s.arena s.heap).Perm others := by
      rw [hheap]
      exact removeTop_perm s.arena top others
    have htop : HasCodes s.arena top (C top) := hC top (by rw [hheap]; exact List.mem_cons_self ..)
    unfold mergeLoop
    rw [e1, Run.ok_andThen]
    simp only
    generalize removeTop s.arena s.heap = heap1 at p1
    have l1 := p1.length_eq
    by_cases hone : heap1.length = 0
    · rw [if_pos hone]
      have ho : others = [] := List.eq_nil_of_length_eq_zero (by omega)
      have hh1 : heap1 = [] := List.eq_nil_of_length_eq_zero hone
      refine ⟨top, _, C top, [], rfl, by simp [hh1], by simp [hlen, ho], htop, ?_, ?_, ?_, ?_, ?_⟩
      · rw [hheap, ho] at hp
        simpa using hp
      · rw [hheap, ho]
        simp [heapWeight]
      · intro _
        rw [hheap]
        rfl
      · intro h2
        rw [hlen, ho] at h2
        simp at h2
      · intro n node hn hnode
        have := List.getElem?_eq_some_iff.1 hnode |>.1
        simp only at this
        omega
    · rw [if_neg hone]
      obtain ⟨b, rest, hheap1⟩ : ∃ b rest, heap1 = b :: rest := List.exists_cons_of_length_pos (by omega)
      have e2 : heapExtract { s with heap := heap1 } = .ok b { s with heap := removeTop s.arena heap1 } := by
        rw [heapExtract]
        simp only
        rw [if_pos (by omega), hheap1, slot_zero_cons]
      have p2 : (removeTop s.arena heap1).Perm rest := by
        rw [hheap1]
        exact removeTop_perm s.arena b rest
      rw [e2, Run.ok_andThen]
      generalize removeTop s.arena heap1 = heap2 at p2
      have l2 := p2.length_eq
      have l3 : others.length = rest.length + 1 := by rw [← l1, hheap1, List.length_cons]
      have pall : s.heap.Perm (top :: b :: heap2) := by
        rw [hheap]
        refine List.Perm.cons _ (p1.symm.trans ?_)
        rw [hheap1]
        exact p2.symm.cons _
      have hb : HasCodes s.arena b (C b) := hC b (pall.mem_iff.2 (by simp))
      have hrest : ∀ i ∈ heap2, HasCodes s.arena i (C i) := fun i hi => hC i (pall.mem_iff.2 (by simp [hi]))
      have hwall : heapWeight s.arena s.heap =
          (weightAt s.arena top).toNat + ((weightAt s.arena b).toNat + heapWeight s.arena heap2) := by
        rw [heapWeight_perm pall]
        simp [heapWeight]
      have e3 : newJoin top b { s with heap := heap2 } =
          .ok s.nextNode { s with heap := heap2, arena := s.arena ++ [joinOf s top b] } := by
        have hsum : exactSum { s with heap := heap2 } top b < 2 ^ 64 := by
          show (weightAt s.arena top).toNat + (weightAt s.arena b).toNat < 2 ^ 64
          omega
        rw [newJoin, if_pos ⟨by show s.arena.length < Config.arenaCap; unfold Config.arenaCap; omega, hsum⟩]
        rfl
      rw [e3, Run.ok_andThen]
      have hnext := nextNode_toNat (s := s) (by omega)
      have e4 : heapInsert s.nextNode { s with heap := heap2, arena := s.arena ++ [joinOf s top b] } =
          .ok () { s with
            arena := s.arena ++ [joinOf s top b], heap := insertSlot (s.arena ++ [joinOf s top b]) heap2 s.nextNode } := by
        rw [heapInsert, if_pos]
        refine ⟨?_, ?_⟩
        · show heap2.length < Config.heapCap
          unfold Config.heapCap
          omega
        · show s.nextNode.toNat < (s.arena ++ [joinOf s top b]).length
          rw [hnext, List.length_append, List.length_singleton]
          omega
      rw [e4, Run.ok_andThen]
      have p3 := insertSlot_perm (s.arena ++ [joinOf s top b]) heap2 s.nextNode
      generalize insertSlot (s.arena ++ [joinOf s top b]) heap2 s.nextNode = heap3 at p3
      have l4 : heap3.length = heap2.length + 1 := by rw [p3.length_eq, List.length_cons]
      have hjoin : nodeAt (s.arena ++ [joinOf s top b]) s.nextNode = joinOf s top b := nodeAt_next (by omega) _
      have hnew : HasCodes (s.arena ++ [joinOf s top b]) s.nextNode
          (((C top).map fun c => (c.1, false :: c.2)) ++ (C b).map fun c => (c.1, true :: c.2)) := by
        refine .node (by rw [hnext, List.length_append, List.length_singleton]; omega) (by rw [hjoin]; rfl) ?_ ?_
        · rw [hjoin]
          exact htop.append _
        · rw [hjoin]
          exact hb.append _
      have hne : ∀ i ∈ heap2, i ≠ s.nextNode := fun i hi he => by
        have := (hrest i hi).lt
        rw [he, hnext] at this
        omega
      have hwjoin : (weightAt (s.arena ++ [joinOf s top b]) s.nextNode).toNat =
          (weightAt s.arena top).toNat + (weightAt s.arena b).toNat := by
        rw [weightAt, hjoin]
        show (weightAt s.arena top + weightAt s.arena b).toNat = _
        rw [BitVec.toNat_add, Nat.mod_eq_of_lt (by omega)]
      have hw3 : heapWeight (s.arena ++ [joinOf s top b]) heap3 = heapWeight s.arena s.heap := by
        rw [heapWeight_perm p3]
        show (weightAt (s.arena ++ [joinOf s top b]) s.nextNode).toNat + heapWeight (s.arena ++ [joinOf s top b]) heap2 = _
        rw [heapWeight_append _ fun i hi => (hrest i hi).lt, hwjoin]
        omega
      obtain ⟨a, t, codes, more, r1, r2, r3, r4, r5, r6, r7, r8, r9⟩ :=
        ih (s := { s with arena := s.arena ++ [joinOf s top b], heap := heap3 })
          (C := Function.update C s.nextNode
            (((C top).map fun c => (c.1, false :: c.2)) ++ (C b).map fun c => (c.1, true :: c.2)))
          (by simp only; omega) (by simp only; omega) (by simp only [List.length_append, List.length_singleton]; omega)
          (by simp only; omega) (by simp only; rw [hw3]; exact hw)
          (by
            intro i hi
            simp only at hi ⊢
            rcases List.mem_cons.1 (p3.mem_iff.1 hi) with rfl | hi
            · rw [Function.update_self]
              exact hnew
            · rw [Function.update_of_ne (hne i hi)]
              exact (hrest i hi).append _)
          (by
            simp only
            refine (p3.flatMap_right _).trans (List.Perm.trans ?_ hp)
            refine List.Perm.trans ?_ (pall.flatMap_right _).symm
            rw [List.flatMap_cons, List.flatMap_cons, List.flatMap_cons, Function.update_self, ← List.append_assoc]
            refine List.Perm.append (List.Perm.of_eq (by simp [Function.comp_def])) (List.Perm.of_eq ?_)
            unfold List.flatMap
            congr 1
            exact List.map_congr_left fun i hi => by rw [Function.update_of_ne (hne i hi)])
      simp only at r1 r2 r3 r6 r7 r8 r9
      subst r2
      refine ⟨a, _, codes, joinOf s top b :: more, r1, by simp, ?_, r4, r5, ?_, ?_, ?_, ?_⟩
      · rw [List.length_cons, r3]
        omega
      · rw [r6, hw3]
      · intro h
        omega
      · intro _
        by_cases h3 : heap3.length = 1
        · rw [r7 h3]
          have : heap3 = [s.nextNode] := by
            have h2nil : heap2 = [] := List.eq_nil_of_length_eq_zero (by omega)
            rw [h2nil] at p3
            exact List.perm_singleton.1 p3
          rw [this]
          show s.nextNode.toNat = _
          rw [hnext]
          omega
        · rw [r8 (by omega)]
          simp only [List.length_append, List.length_singleton]
          omega
      · intro n node hn hnode
        by_cases hlast : n = s.arena.length
        · subst hlast
          have : node = joinOf s top b := by
            simpa using hnode.symm
          subst this
          refine ⟨rfl, rfl, htop.lt, hb.lt, ?_⟩
          show (weightAt s.arena top + weightAt s.arena b).toNat = (weightAt _ top).toNat + (weightAt _ b).toNat
          rw [List.append_assoc, weightAt_append _ htop.lt, weightAt_append _ hb.lt, BitVec.toNat_add, Nat.mod_eq_of_lt (by omega)]
        · exact r9 n node (by simp only [List.length_append, List.length_singleton]; omega) hnode

/-! ## The leaves -/

/-- Whether a symbol's counter is nonzero. -/
def isPresent (freq : Vector Word 256) (b : Byte) : Bool := decide (0#32 < tableGet freq b)

/-- The leaf of a symbol over a frequency table (R141). -/
def leafNode (freq : Vector Word 256) (b : Byte) : Node := ⟨(tableGet freq b).setWidth 64, b, true, 0#9, 0#9⟩

/-- The node indices from `start` on. -/
def indicesFrom (start n : Nat) : List NodeIdx := (List.range' start n).map (BitVec.ofNat 9)

/-- EVERYTHING the first loop of TREE_BUILD does (R160): with room for the present symbols it always succeeds, and appends and
inserts one leaf for each, in order. -/
theorem addLeaves_spec (bs : List Byte) {s : State} (ha : s.arena.length + (bs.filter (isPresent s.freq)).length ≤ 511)
    (hh : s.heap.length + (bs.filter (isPresent s.freq)).length ≤ 256) :
    ∃ t, addLeaves bs s = .ok () t ∧ t = { s with arena := t.arena, heap := t.heap } ∧
      t.arena = s.arena ++ (bs.filter (isPresent s.freq)).map (leafNode s.freq) ∧
      t.heap.Perm (indicesFrom s.arena.length (bs.filter (isPresent s.freq)).length ++ s.heap) := by
  induction bs generalizing s with
  | nil => exact ⟨s, rfl, rfl, by simp, by simp [indicesFrom]⟩
  | cons b bs ih =>
    unfold addLeaves
    by_cases hb : 0#32 < tableGet s.freq b
    · have hp : isPresent s.freq b = true := decide_eq_true hb
      rw [List.filter_cons_of_pos hp] at ha hh ⊢
      rw [List.length_cons] at ha hh ⊢
      rw [if_pos hb]
      have e1 : newLeaf b s = .ok s.nextNode { s with arena := s.arena ++ [leafNode s.freq b] } := by
        rw [newLeaf, if_pos (by unfold Config.arenaCap; omega)]
        rfl
      have hnext := nextNode_toNat (s := s) (by omega)
      have e2 : heapInsert s.nextNode { s with arena := s.arena ++ [leafNode s.freq b] } =
          .ok () { s with
            arena := s.arena ++ [leafNode s.freq b]
            heap := insertSlot (s.arena ++ [leafNode s.freq b]) s.heap s.nextNode } := by
        rw [heapInsert, if_pos]
        refine ⟨?_, ?_⟩
        · show s.heap.length < Config.heapCap
          unfold Config.heapCap
          omega
        · show s.nextNode.toNat < (s.arena ++ [leafNode s.freq b]).length
          rw [hnext, List.length_append, List.length_singleton]
          omega
      rw [e1, Run.ok_andThen, e2, Run.ok_andThen]
      have p1 := insertSlot_perm (s.arena ++ [leafNode s.freq b]) s.heap s.nextNode
      generalize insertSlot (s.arena ++ [leafNode s.freq b]) s.heap s.nextNode = heap1 at p1
      have l1 : heap1.length = s.heap.length + 1 := by rw [p1.length_eq, List.length_cons]
      obtain ⟨t, r1, r2, r3, r4⟩ := ih (s := { s with arena := s.arena ++ [leafNode s.freq b], heap := heap1 })
        (by simp only [List.length_append, List.length_singleton]; omega) (by simp only; omega)
      simp only [List.length_append, List.length_singleton] at r2 r3 r4
      refine ⟨t, r1, r2, ?_, ?_⟩
      · rw [r3, List.map_cons, List.append_assoc, List.singleton_append]
      · refine r4.trans ?_
        rw [indicesFrom, indicesFrom, List.range'_succ, List.map_cons, List.cons_append]
        refine (List.Perm.append_left _ p1).trans ?_
        exact List.perm_middle
    · have hp : isPresent s.freq b = false := decide_eq_false hb
      rw [List.filter_cons_of_neg (by simp [hp])] at ha hh ⊢
      rw [if_neg hb]
      exact ih ha hh

theorem presentSymbols_eq (freq : Vector Word 256) : presentSymbols freq = allBytes.filter (isPresent freq) := rfl

/-- At most 256 symbols are present (R163). -/
theorem length_presentSymbols (freq : Vector Word 256) : (presentSymbols freq).length ≤ 256 := by
  have := List.length_filter_le (isPresent freq) allBytes
  rw [length_allBytes] at this
  exact this

/-- A symbol is present when its counter is nonzero. -/
theorem mem_presentSymbols {freq : Vector Word 256} {b : Byte} : b ∈ presentSymbols freq ↔ tableGet freq b ≠ 0#32 := by
  rw [presentSymbols_eq, List.mem_filter, isPresent, decide_eq_true_eq]
  refine ⟨fun h he => ?_, fun h => ⟨mem_allBytes b, ?_⟩⟩
  · rw [he] at h
    exact absurd h.2 (by decide)
  · have : (tableGet freq b).toNat ≠ 0 := fun h0 => h (BitVec.eq_of_toNat_eq h0)
    rw [BitVec.lt_def]
    simp only [BitVec.toNat_ofNat]
    omega

theorem nodup_presentSymbols (freq : Vector Word 256) : (presentSymbols freq).Nodup := nodup_allBytes.filter _

/-- A sum over the present symbols is the sum over all, where the others add 0. -/
theorem sum_filter_of_zero {f : Byte → Nat} {p : Byte → Bool} (bs : List Byte) (h : ∀ b, p b = false → f b = 0) :
    ((bs.filter p).map f).sum = (bs.map f).sum := by
  induction bs with
  | nil => rfl
  | cons b bs ih =>
    cases hb : p b
    · rw [List.filter_cons_of_neg (by simp [hb]), ih, List.map_cons, List.sum_cons, h b hb, Nat.zero_add]
    · rw [List.filter_cons_of_pos hb, List.map_cons, List.sum_cons, ih, List.map_cons, List.sum_cons]

/-- The sum of the present counters is the sum of all. -/
theorem sum_presentSymbols (freq : Vector Word 256) :
    ((presentSymbols freq).map fun b => (tableGet freq b).toNat).sum = tableSum freq := by
  refine sum_filter_of_zero allBytes fun b hb => ?_
  have := of_decide_eq_false hb
  rw [BitVec.lt_def] at this
  simp only [BitVec.toNat_ofNat] at this
  omega

theorem sum_map_le {f : Byte → Nat} {n : Nat} (bs : List Byte) (h : ∀ b, f b ≤ n) : (bs.map f).sum ≤ bs.length * n := by
  induction bs with
  | nil => simp
  | cons b bs ih =>
    rw [List.map_cons, List.sum_cons, List.length_cons, Nat.succ_mul]
    have := h b
    omega

/-- The sum of all counters is below 2^40 (R163). -/
theorem tableSum_lt (freq : Vector Word 256) : tableSum freq < 2 ^ 40 := by
  have h1 : tableSum freq ≤ allBytes.length * (2 ^ 32 - 1) := sum_map_le allBytes fun b => by
    have := (tableGet freq b).isLt
    omega
  rw [length_allBytes] at h1
  omega

theorem mem_indicesFrom {start n : Nat} {i : NodeIdx} (h : start + n ≤ 512) :
    i ∈ indicesFrom start n ↔ start ≤ i.toNat ∧ i.toNat < start + n := by
  unfold indicesFrom
  rw [List.mem_map]
  constructor
  · rintro ⟨k, hk, rfl⟩
    have := List.mem_range'_1.1 hk
    simp only [BitVec.toNat_ofNat]
    rw [Nat.mod_eq_of_lt (by omega)]
    exact this
  · intro hi
    exact ⟨i.toNat, List.mem_range'_1.2 hi, by simp⟩

/-- A map over the first nodes' indices reads the nodes off. -/
theorem map_indicesFrom_zero {α : Type} (nodes : List Node) (f : Node → α) (h : nodes.length ≤ 512) :
    (indicesFrom 0 nodes.length).map (fun i => f (nodeAt nodes i)) = nodes.map f := by
  refine List.ext_getElem (by simp [indicesFrom]) fun k h1 h2 => ?_
  have hk : k < nodes.length := by simpa [indicesFrom] using h1
  simp [indicesFrom, nodeAt, List.getD_eq_getElem?_getD, Nat.mod_eq_of_lt (show k < 512 by omega), hk]

/-- EVERYTHING TREE_BUILD does on a table with a nonzero counter (R160, R163, R164): it always succeeds; the leaves come first, in
ascending symbol order, then the joins; ROOT's subtree has exactly the present symbols; TOTAL is the sum of the counters. -/
theorem treeBuild_spec {s : State} (hne : presentSymbols s.freq ≠ []) :
    ∃ t codes more, treeBuild s = .ok (BitVec.ofNat 32 (presentSymbols s.freq).length) t ∧
      t = { s with
        arena := (presentSymbols s.freq).map (leafNode s.freq) ++ more, heap := [], tree := .valid, root := t.root,
        nLeaf := BitVec.ofNat 9 (presentSymbols s.freq).length, total := BitVec.ofNat 64 (tableSum s.freq), lutValid := false } ∧
      more.length = (presentSymbols s.freq).length - 1 ∧ t.root = BitVec.ofNat 9 (2 * (presentSymbols s.freq).length - 2) ∧
      HasCodes t.arena t.root codes ∧ (codes.map Prod.fst).Perm (presentSymbols s.freq) ∧
      ∀ n node, (presentSymbols s.freq).length ≤ n → t.arena[n]? = some node → JoinedAt t.arena n node := by
  have hlen := length_presentSymbols s.freq
  have hpos : 0 < (presentSymbols s.freq).length := List.length_pos_iff.2 hne
  obtain ⟨m, q1, q2, q3, q4⟩ := addLeaves_spec allBytes (s := { s with arena := [], heap := [], lutValid := false })
    (by show 0 + (presentSymbols s.freq).length ≤ 511; omega) (by show 0 + (presentSymbols s.freq).length ≤ 256; omega)
  simp only [← presentSymbols_eq, List.nil_append, List.append_nil, List.length_nil] at q2 q3 q4
  have hml : m.heap.length = (presentSymbols s.freq).length := by rw [q4.length_eq]; simp [indicesFrom]
  have hal : m.arena.length = (presentSymbols s.freq).length := by rw [q3, List.length_map]
  have hmem : ∀ i ∈ m.heap, i.toNat < m.arena.length := fun i hi => by
    have := (mem_indicesFrom (by omega)).1 (q4.mem_iff.1 hi)
    omega
  have hleaf : ∀ i ∈ m.heap, (nodeAt m.arena i).leaf = true := fun i hi => by
    have h := hmem i hi
    rw [hal] at h
    simp [nodeAt, q3, List.getD_eq_getElem?_getD, h, leafNode]
  have hq4 : m.heap.Perm (indicesFrom 0 m.arena.length) := by rw [hal]; exact q4
  have hw : heapWeight m.arena m.heap = tableSum s.freq := by
    rw [heapWeight_perm hq4, heapWeight]
    show ((indicesFrom 0 m.arena.length).map fun i => (nodeAt m.arena i).weight.toNat).sum = _
    rw [map_indicesFrom_zero m.arena (fun n => n.weight.toNat) (by omega), q3, List.map_map, ← sum_presentSymbols]
    congr 1
  have hsum := tableSum_lt s.freq
  obtain ⟨a, t, codes, more, r1, r2, r3, r4, r5, r6, r7, r8, r9⟩ := mergeLoop_spec (syms := presentSymbols s.freq) m.heap.length
    (s := m.setNLeaf) (C := fun i => [((nodeAt m.arena i).sym, [])])
    (by show 0 < m.heap.length; omega) (Nat.le_refl _) (by show m.arena.length + m.heap.length ≤ 512; omega)
    (by show m.heap.length ≤ 256; omega) (by show heapWeight m.arena m.heap < 2 ^ 64; rw [hw]; omega)
    (fun i hi => .leaf (hmem i hi) (hleaf i hi))
    (by
      show (m.heap.flatMap fun i => [(nodeAt m.arena i).sym]).Perm _
      refine (hq4.flatMap_right _).trans (List.Perm.of_eq ?_)
      rw [← List.map_eq_flatMap, map_indicesFrom_zero m.arena (fun n => n.sym) (by omega), q3, List.map_map]
      exact List.map_id'' (fun b => rfl) _)
  have r6' : (weightAt t.arena a).toNat = tableSum s.freq := r6.trans hw
  have hroot : a = BitVec.ofNat 9 (2 * (presentSymbols s.freq).length - 2) := by
    by_cases h1 : m.heap.length = 1
    · rw [r7 h1, show m.setNLeaf.heap = m.heap from rfl]
      have hL : (presentSymbols s.freq).length = 1 := by omega
      rw [hL] at q4
      rw [List.perm_singleton.1 q4, hL]
      rfl
    · refine BitVec.eq_of_toNat_eq ?_
      rw [r8 (by show 2 ≤ m.heap.length; omega)]
      show m.arena.length + m.heap.length - 2 = _
      rw [BitVec.toNat_ofNat, Nat.mod_eq_of_lt (by omega)]
      omega
  have hn : (BitVec.ofNat 9 (presentSymbols s.freq).length).setWidth 32 = BitVec.ofNat 32 (presentSymbols s.freq).length := by
    apply BitVec.eq_of_toNat_eq
    simp only [BitVec.toNat_setWidth, BitVec.toNat_ofNat]
    omega
  have hn2 : m.setNLeaf.nLeaf = BitVec.ofNat 9 (presentSymbols s.freq).length := by rw [← hal]; rfl
  refine ⟨{ t with tree := .valid, root := a, total := weightAt t.arena a }, codes, more, ?_, ?_, ?_, hroot, r4, r5, ?_⟩
  · have hnt : t.nLeaf = BitVec.ofNat 9 (presentSymbols s.freq).length := by rw [r2]; exact hn2
    rw [treeBuild, q1, Run.ok_andThen, if_neg (by omega), r1, Run.ok_andThen, hnt, hn]
  · have htot : weightAt t.arena a = BitVec.ofNat 64 (tableSum s.freq) := by
      apply BitVec.eq_of_toNat_eq
      rw [r6', BitVec.toNat_ofNat, Nat.mod_eq_of_lt (by omega)]
    rw [htot, r2]
    show ({ m.setNLeaf with
      arena := m.arena ++ more, heap := [], tree := .valid, root := a, total := BitVec.ofNat 64 (tableSum s.freq) } : State) = _
    rw [State.setNLeaf, hal, q3, q2]
  · rw [r3]
    show m.heap.length - 1 = _
    omega
  · intro n node hnn hnode
    exact r9 n node (by show m.arena.length ≤ n; omega) hnode

/-- TREE_BUILD on an all-zero table (R162). -/
theorem treeBuild_empty {s : State} (h : presentSymbols s.freq = []) :
    treeBuild s = .ok 0#32 { s with
      arena := [], heap := [], tree := .empty, root := 0#9, nLeaf := 0#9, total := 0#64, lutValid := false } := by
  obtain ⟨m, q1, q2, q3, q4⟩ := addLeaves_spec allBytes (s := { s with arena := [], heap := [], lutValid := false })
    (by show 0 + (presentSymbols s.freq).length ≤ 511; simp [h]) (by show 0 + (presentSymbols s.freq).length ≤ 256; simp [h])
  simp only [← presentSymbols_eq, h, List.append_nil, List.length_nil, List.map_nil] at q2 q3 q4
  have hheap : m.heap = [] := List.Perm.eq_nil (by simpa [indicesFrom] using q4)
  have hm : m = { s with arena := [], heap := [], lutValid := false } := by rw [q2, q3, hheap]
  rw [treeBuild, q1, Run.ok_andThen, hm]
  rfl

/-- TREE_BUILD always succeeds (R163), and writes only the arena, the heap, which it leaves empty, TREE, ROOT, NLEAF, TOTAL and
LUT_VALID. -/
theorem treeBuild_frame (s : State) : ∃ v t, treeBuild s = .ok v t ∧
    t = { s with
      arena := t.arena, heap := [], tree := t.tree, root := t.root, nLeaf := t.nLeaf, total := t.total, lutValid := false } := by
  by_cases h : presentSymbols s.freq = []
  · exact ⟨_, _, treeBuild_empty h, rfl⟩
  · obtain ⟨t, _, _, r1, r2, _⟩ := treeBuild_spec h
    refine ⟨_, t, r1, ?_⟩
    rw [r2]

end Sys2Proof.Machine
end

