-- ==== Sys2Proof/Laws/CodeTable.lean ====
section
/-! SUPPORT. The laws of codes and of the code table (R46, R170 to R173): the paths of a strict binary tree, and what CODE_GEN stores
of them. -/

namespace Sys2Proof.Machine

/-! ## Paths of a strict binary tree -/

/-- A code is shorter than the number of codes (R172). -/
theorem HasCodes.length_lt {arena : List Node} {n : NodeIdx} {codes : List (Byte × List Bool)} (h : HasCodes arena n codes) :
    ∀ c ∈ codes, c.2.length < codes.length := by
  induction h with
  | leaf h hl => simp
  | node h hl hx hy ihl ihr =>
    have lx := List.length_pos_iff.2 hx.ne_nil
    have ly := List.length_pos_iff.2 hy.ne_nil
    intro c hc
    rw [List.length_append, List.length_map, List.length_map]
    rcases List.mem_append.1 hc with hc | hc
    · obtain ⟨d, hd, rfl⟩ := List.mem_map.1 hc
      have := ihl d hd
      simp only [List.length_cons]
      omega
    · obtain ⟨d, hd, rfl⟩ := List.mem_map.1 hc
      have := ihr d hd
      simp only [List.length_cons]
      omega

/-- The subtree of an internal node has two codes at least, and no code is empty. -/
theorem HasCodes.node_codes {arena : List Node} {n : NodeIdx} {codes : List (Byte × List Bool)} (h : HasCodes arena n codes)
    (hl : (nodeAt arena n).leaf = false) : 2 ≤ codes.length ∧ ∀ c ∈ codes, c.2 ≠ [] := by
  cases h with
  | leaf _ hl2 => rw [hl] at hl2; cases hl2
  | node h _ hx hy =>
    have lx := List.length_pos_iff.2 hx.ne_nil
    have ly := List.length_pos_iff.2 hy.ne_nil
    refine ⟨by rw [List.length_append, List.length_map, List.length_map]; omega, fun c hc => ?_⟩
    rcases List.mem_append.1 hc with hc | hc <;> obtain ⟨d, _, rfl⟩ := List.mem_map.1 hc <;> simp

/-- The subtree of a leaf has one code, the empty one. -/
theorem HasCodes.leaf_codes {arena : List Node} {n : NodeIdx} {codes : List (Byte × List Bool)} (h : HasCodes arena n codes)
    (hl : (nodeAt arena n).leaf = true) : codes = [((nodeAt arena n).sym, [])] := by
  cases h with
  | leaf _ _ => rfl
  | node _ hl2 _ _ => rw [hl] at hl2; cases hl2

/-- No code of a subtree is a prefix of another (R173). -/
theorem HasCodes.eq_of_prefix {arena : List Node} {n : NodeIdx} {codes : List (Byte × List Bool)} (h : HasCodes arena n codes)
    {c d : Byte × List Bool} (hc : c ∈ codes) (hd : d ∈ codes) (hp : c.2.IsPrefix d.2) : c = d := by
  induction h generalizing c d with
  | leaf h hl =>
    rw [List.mem_singleton.1 hc, List.mem_singleton.1 hd]
  | node h hl _ _ ihl ihr =>
    rcases List.mem_append.1 hc with hc | hc <;> rcases List.mem_append.1 hd with hd | hd <;>
      obtain ⟨c', hc', rfl⟩ := List.mem_map.1 hc <;> obtain ⟨d', hd', rfl⟩ := List.mem_map.1 hd <;>
      simp only [List.cons_prefix_cons, Bool.false_eq_true, Bool.true_eq_false, false_and, true_and] at hp
    · rw [ihl hc' hd' hp]
    · rw [ihr hc' hd' hp]

/-- The paths of a subtree fill the space of paths: the Kraft equality (R173), in whole numbers. -/
theorem HasCodes.kraft {arena : List Node} {n : NodeIdx} {codes : List (Byte × List Bool)} (h : HasCodes arena n codes) {k : Nat}
    (hk : ∀ c ∈ codes, c.2.length ≤ k) : (codes.map fun c => 2 ^ (k - c.2.length)).sum = 2 ^ k := by
  induction h generalizing k with
  | leaf h hl => simp
  | @node n xs ys h hl hx hy ihl ihr =>
    obtain ⟨x, xs', rfl⟩ := List.exists_cons_of_ne_nil hx.ne_nil
    obtain ⟨k, rfl⟩ : ∃ j, k = j + 1 := by
      have := hk (x.1, false :: x.2) (by simp)
      simp only [List.length_cons] at this
      exact ⟨k - 1, by omega⟩
    have h1 := ihl (k := k) fun c hc => by
      have := hk (c.1, false :: c.2) (List.mem_append_left _ (List.mem_map.2 ⟨c, hc, rfl⟩))
      simpa using this
    have h2 := ihr (k := k) fun c hc => by
      have := hk (c.1, true :: c.2) (List.mem_append_right _ (List.mem_map.2 ⟨c, hc, rfl⟩))
      simpa using this
    rw [List.map_append, List.sum_append, List.map_map, List.map_map]
    simp only [Function.comp_def, List.length_cons, Nat.add_sub_add_right]
    rw [h1, h2, Nat.pow_succ]
    omega

/-- A code's path leads to its symbol's leaf (R170). -/
theorem HasCodes.symbolAt_eq {arena : List Node} {n : NodeIdx} {codes : List (Byte × List Bool)} (h : HasCodes arena n codes)
    {c : Byte × List Bool} (hc : c ∈ codes) : symbolAt arena n c.2 = some c.1 := by
  induction h generalizing c with
  | leaf h hl =>
    rw [List.mem_singleton.1 hc]
    simp [symbolAt, hl]
  | node h hl _ _ ihl ihr =>
    rcases List.mem_append.1 hc with hc | hc <;> obtain ⟨d, hd, rfl⟩ := List.mem_map.1 hc
    · simp [symbolAt, hl, ihl hd]
    · simp [symbolAt, hl, ihr hd]

/-- Walk (R170) reaches exactly the subtree's leaves, each with its path. -/
theorem HasCodes.walk_eq {arena : List Node} {n : NodeIdx} {codes : List (Byte × List Bool)} (h : HasCodes arena n codes) {fuel : Nat}
    (hf : ∀ c ∈ codes, c.2.length ≤ fuel) (path : List Bool) :
    walk arena fuel n path = some (codes.map fun c => (c.1, path ++ c.2)) := by
  induction h generalizing fuel path with
  | leaf h hl =>
    cases fuel <;> simp [walk, hl]
  | @node n xs ys h hl hx hy ihl ihr =>
    obtain ⟨x, xs', rfl⟩ := List.exists_cons_of_ne_nil hx.ne_nil
    obtain ⟨fuel, rfl⟩ : ∃ j, fuel = j + 1 := by
      have := hf (x.1, false :: x.2) (by simp)
      simp only [List.length_cons] at this
      exact ⟨fuel - 1, by omega⟩
    have h1 := ihl (fuel := fuel) (fun c hc => by
      have := hf (c.1, false :: c.2) (List.mem_append_left _ (List.mem_map.2 ⟨c, hc, rfl⟩))
      simpa using this) (path ++ [false])
    have h2 := ihr (fuel := fuel) (fun c hc => by
      have := hf (c.1, true :: c.2) (List.mem_append_right _ (List.mem_map.2 ⟨c, hc, rfl⟩))
      simpa using this) (path ++ [true])
    rw [walk, if_neg (by simp [hl])]
    simp only [h1, h2, List.map_append, List.map_map, Function.comp_def, List.append_assoc, List.singleton_append]

/-! ## The code store (R46, R54) -/

/-- Bit `j` of the code store of a path is its element `j`, and 0 past its end. -/
theorem codeStore_getLsbD (path : List Bool) {j : Nat} (hj : j < 256) : (codeStore path).getLsbD j = path.getD j false := by
  induction path generalizing j with
  | nil => simp [codeStore]
  | cons b bs ih =>
    unfold codeStore
    rw [BitVec.getLsbD_or, BitVec.getLsbD_shiftLeft]
    cases j with
    | zero => cases b <;> simp
    | succ j =>
      have e : (if b = true then 1#256 else 0#256).getLsbD (j + 1) = false := by cases b <;> simp
      rw [e]
      simp [ih (show j < 256 by omega), hj]

/-- A stored code reads back as the path it was stored from. -/
theorem codeBitsOf_codeStore {path : List Bool} (h : path.length ≤ 255) :
    codeBitsOf (BitVec.ofNat 8 path.length) (codeStore path) = path := by
  have hl : (BitVec.ofNat 8 path.length).toNat = path.length := by simp; omega
  refine List.ext_getElem (by simp only [codeBitsOf, hl, List.length_map, List.length_range]) fun j h1 h2 => ?_
  simp only [codeBitsOf, List.getElem_map, List.getElem_range]
  rw [codeStore_getLsbD _ (by omega), List.getD_eq_getElem _ _ h2]

@[simp] theorem length_codeBitsOf (len : Byte) (code : CodeBits) : (codeBitsOf len code).length = len.toNat := by simp [codeBitsOf]

/-! ## Recording codes (R170) -/

/-- Recording codes writes only the code table. -/
theorem writeCodes_frame (codes : List (Byte × List Bool)) (s : State) :
    writeCodes codes s = { s with lutLen := (writeCodes codes s).lutLen, lutCode := (writeCodes codes s).lutCode } := by
  induction codes generalizing s with
  | nil => rfl
  | cons c codes ih =>
    have := ih (s.writeCode c.1 c.2)
    rw [writeCodes]
    exact this

/-- A symbol that is not among the codes keeps its entry. -/
theorem writeCodes_other {codes : List (Byte × List Bool)} (s : State) {b : Byte} (h : b ∉ codes.map Prod.fst) :
    tableGet (writeCodes codes s).lutLen b = tableGet s.lutLen b ∧ tableGet (writeCodes codes s).lutCode b = tableGet s.lutCode b := by
  induction codes generalizing s with
  | nil => exact ⟨rfl, rfl⟩
  | cons c codes ih =>
    rw [List.map_cons, List.mem_cons, not_or] at h
    obtain ⟨h1, h2⟩ := ih (s.writeCode c.1 c.2) h.2
    rw [writeCodes]
    refine ⟨h1.trans ?_, h2.trans ?_⟩ <;> simp only [State.writeCode] <;> rw [tableGet_tableSet, if_neg h.1]

/-- A symbol among the codes, each of which is given once, gets its path. -/
theorem writeCodes_mem {codes : List (Byte × List Bool)} (s : State) (hn : (codes.map Prod.fst).Nodup) {b : Byte} {path : List Bool}
    (h : (b, path) ∈ codes) :
    tableGet (writeCodes codes s).lutLen b = BitVec.ofNat 8 path.length ∧ tableGet (writeCodes codes s).lutCode b = codeStore path := by
  induction codes generalizing s with
  | nil => simp at h
  | cons c codes ih =>
    rw [List.map_cons, List.nodup_cons] at hn
    rw [writeCodes]
    rcases List.mem_cons.1 h with rfl | h
    · obtain ⟨h1, h2⟩ := writeCodes_other (s.writeCode b path) hn.1
      refine ⟨h1.trans ?_, h2.trans ?_⟩ <;> simp only [State.writeCode] <;> rw [tableGet_tableSet_self]
    · exact ih _ hn.2 h

/-- The longest code is as long as some code, when there is one, and no code is longer. -/
theorem longest_spec (codes : List (Byte × List Bool)) :
    (∀ c ∈ codes, c.2.length ≤ longest codes) ∧ (codes ≠ [] → ∃ c ∈ codes, c.2.length = longest codes) := by
  induction codes with
  | nil => simp
  | cons c codes ih =>
    obtain ⟨b, path⟩ := c
    have e : longest ((b, path) :: codes) = max path.length (longest codes) := rfl
    rw [e]
    refine ⟨fun d hd => ?_, fun _ => ?_⟩
    · rcases List.mem_cons.1 hd with rfl | hd
      · exact Nat.le_max_left _ _
      · exact Nat.le_trans (ih.1 d hd) (Nat.le_max_right _ _)
    · by_cases hle : longest codes ≤ path.length
      · exact ⟨(b, path), List.mem_cons_self .., by simp only; omega⟩
      · obtain ⟨d, hd, he⟩ := ih.2 fun hnil => by
          rw [hnil] at hle
          exact hle (Nat.zero_le _)
        exact ⟨d, List.mem_cons_of_mem _ hd, by omega⟩

/-- The codes CODE_GEN stores for a tree: a lone root's symbol has the code "0" (R171). -/
def effectiveCodes (s : State) (codes : List (Byte × List Bool)) : List (Byte × List Bool) :=
  if (nodeAt s.arena s.root).leaf then [((nodeAt s.arena s.root).sym, [false])] else codes

/-- EVERYTHING CODE_GEN does on a tree (R170, R171): it stores the effective codes and their greatest length, and sets
LUT_VALID. -/
theorem codeGen_spec {s : State} {codes : List (Byte × List Bool)} (hv : s.tree = .valid) (hc : HasCodes s.arena s.root codes)
    (hl : codes.length ≤ s.arena.length) :
    codeGen s = .ok (BitVec.ofNat 32 (longest (effectiveCodes s codes)))
      { writeCodes (effectiveCodes s codes) s.clearLut with lutValid := true } := by
  have key : treeCodes s = some (effectiveCodes s codes) := by
    unfold treeCodes effectiveCodes
    split
    · rfl
    · rw [hc.walk_eq (fuel := s.arena.length) fun c hm => by have := hc.length_lt c hm; omega]
      simp
  unfold codeGen
  rw [hv]
  simp only [key]

/-- CODE_GEN, wherever it ends, changes only the code table and LUT_VALID. -/
theorem codeGen_ends (s : State) :
    (codeGen s).Ends fun t => t = { s with lutLen := t.lutLen, lutCode := t.lutCode, lutValid := t.lutValid } := by
  unfold codeGen
  split
  · rfl
  · rfl
  · split
    · trivial
    · rw [Run.ok_ends, writeCodes_frame]
      rfl

end Sys2Proof.Machine
end

