-- ==== Sys2Proof/Laws/Coder.lean ====
section
/-! SUPPORT. The laws of the symbol coder (R199 to R202): the descent through the tree, and what the per-symbol steps can change. -/

namespace Sys2Proof.Machine

/-! ## The descent (R202) -/

/-- How far GetBit moves IN_POS for one bit, counted for `k + 1` bits in a row (R187). -/
theorem getBit_inPos {s t : State} {b : Bool} (h : getBit s = .ok (some b) t) (k : Nat) :
    t.inPos.toNat + (k - t.brCnt + 7) / 8 = s.inPos.toNat + (k + 1 - s.brCnt + 7) / 8 := by
  by_cases h0 : s.brCnt = 0
  · unfold getBit at h
    rw [if_pos h0] at h
    split at h
    · simp at h
    · rename_i hlt
      rw [BitVec.not_le, BitVec.lt_def] at hlt
      have hl := s.inLen.isLt
      obtain ⟨c, m, h1, h2⟩ := Run.andThen_eq_ok.1 h
      obtain ⟨-, -, rfl⟩ := memReadIn_eq_ok.1 h1
      rw [takeBit, Run.ok_eq_ok] at h2
      obtain ⟨-, rfl⟩ := h2
      have : (m.inPos + 1#32).toNat = m.inPos.toNat + 1 := by
        rw [BitVec.toNat_add]
        simp only [BitVec.toNat_ofNat]
        omega
      simp only [this]
      omega
  · rw [getBit_buffered h0, Run.ok_eq_ok] at h
    obtain ⟨-, rfl⟩ := h
    simp only
    omega

/-- EVERYTHING the descent does when the reader's bits start with a leaf's path: it ends at that leaf, takes exactly the path's
bits, and changes only IN_POS and the BitReader. -/
theorem descend_spec {fuel : Nat} {n : NodeIdx} {s : State} {path : List Bool} {b : Byte} (hs : s.inLen.toNat ≤ s.inSize.toNat)
    (hf : path.length ≤ fuel) (hp : path.IsPrefix s.readerBits) (hb : symbolAt s.arena n path = some b) :
    ∃ m t, descend fuel n s = .ok (some m) t ∧ (nodeAt s.arena m).sym = b ∧ t.readerBits = s.readerBits.drop path.length ∧
      t.inPos.toNat = s.inPos.toNat + (path.length - s.brCnt + 7) / 8 ∧
      t = { s with inPos := t.inPos, brBuf := t.brBuf, brCnt := t.brCnt } := by
  induction path generalizing fuel n s with
  | nil =>
    have hl : (nodeAt s.arena n).leaf = true := by
      by_contra hl
      simp [symbolAt, hl] at hb
    refine ⟨n, s, ?_, ?_, by simp, by simp, rfl⟩
    · cases fuel <;> simp [descend, hl]
    · simpa [symbolAt, hl] using hb
  | cons c path ih =>
    have hl : (nodeAt s.arena n).leaf = false := by
      by_contra hl
      simp [symbolAt, hl] at hb
    obtain ⟨fuel, rfl⟩ : ∃ j, fuel = j + 1 := ⟨fuel - 1, by rw [List.length_cons] at hf; omega⟩
    rcases getBit_readerBits hs with ⟨he, _⟩ | ⟨d, rest, m, h1, h2, h3, h4⟩
    · rw [he] at hp
      simp at hp
    · rw [h1, List.cons_prefix_cons] at hp
      obtain ⟨rfl, hp⟩ := hp
      have ha : m.arena = s.arena := by rw [h4]
      have hs' : m.inLen.toNat ≤ m.inSize.toNat := by rw [h4]; exact hs
      have hb' : symbolAt m.arena (if c then (nodeAt m.arena n).r else (nodeAt m.arena n).l) path = some b := by
        rw [ha]
        simpa [symbolAt, hl] using hb
      obtain ⟨x, t, r1, r2, r3, r4, r5⟩ := ih (fuel := fuel) hs' (by rw [List.length_cons] at hf; omega) (by rw [h3]; exact hp) hb'
      refine ⟨x, t, ?_, by rw [← ha]; exact r2, ?_, ?_, ?_⟩
      · rw [descend, if_neg (by simp [hl]), h2, Run.ok_andThen]
        exact r1
      · rw [r3, h3, h1, List.length_cons, List.drop_succ_cons]
      · rw [r4, List.length_cons]
        exact getBit_inPos h2 path.length
      · rw [r5, h4]

/-- The descent finds end-of-source when no prefix of the reader's bits is a leaf's path. -/
theorem descend_none {fuel : Nat} {n : NodeIdx} {s : State} (hs : s.inLen.toNat ≤ s.inSize.toNat)
    (h : ∀ path, path.IsPrefix s.readerBits → symbolAt s.arena n path = none) : ∃ t, descend fuel n s = .ok none t := by
  have hl : (nodeAt s.arena n).leaf = false := by
    by_contra hl
    have := h [] (List.nil_prefix)
    simp [symbolAt, hl] at this
  induction fuel generalizing n s with
  | zero => exact ⟨s, by simp [descend, hl]⟩
  | succ fuel ih =>
    rw [descend, if_neg (by simp [hl])]
    rcases getBit_readerBits hs with ⟨_, he⟩ | ⟨c, rest, m, h1, h2, h3, h4⟩
    · exact ⟨s, by rw [he, Run.ok_andThen]⟩
    · rw [h2, Run.ok_andThen]
      have ha : m.arena = s.arena := by rw [h4]
      have hs' : m.inLen.toNat ≤ m.inSize.toNat := by rw [h4]; exact hs
      have hnone : ∀ path, path.IsPrefix m.readerBits →
          symbolAt m.arena (if c then (nodeAt m.arena n).r else (nodeAt m.arena n).l) path = none := by
        intro path hp
        rw [h3] at hp
        have := h (c :: path) (by rw [h1]; exact List.cons_prefix_cons.2 ⟨rfl, hp⟩)
        rw [ha]
        simpa [symbolAt, hl] using this
      refine ih hs' hnone ?_
      by_contra hl2
      have := hnone [] (List.nil_prefix)
      simp [symbolAt, hl2] at this

/-! ## What the per-symbol steps can change -/

/-- Putting bits, wherever it ends, writes only OUT, OUT_POS and the BitWriter. -/
theorem putBits_ends (bits : List Bool) (s : State) :
    (putBits bits s).Ends fun t => t = { s with outMem := t.outMem, outPos := t.outPos, bwBuf := t.bwBuf, bwCnt := t.bwCnt } := by
  cases h : putBits bits s with
  | ok a t => exact putBits_frame h
  | err k info t => exact absurd h (putBits_ne_err _ _ _ _ _)
  | fault f => trivial

/-- GetBit, wherever it ends, changes only IN_POS and the BitReader. -/
theorem getBit_ends (s : State) :
    (getBit s).Ends fun t => t = { s with inPos := t.inPos, brBuf := t.brBuf, brCnt := t.brCnt } := by
  unfold getBit takeBit memReadIn
  split
  · split
    · simp
    · split <;> simp
  · simp

/-- GetBit raises no error of the HCC. -/
theorem getBit_ne_err (s : State) (k : ErrKind) (info : Word) (t : State) : getBit s ≠ .err k info t := by
  unfold getBit takeBit memReadIn
  split
  · split
    · simp
    · split <;> simp
  · simp

/-- The descent, wherever it ends, changes only IN_POS and the BitReader. -/
theorem descend_ends (fuel : Nat) (n : NodeIdx) (s : State) :
    (descend fuel n s).Ends fun t => t = { s with inPos := t.inPos, brBuf := t.brBuf, brCnt := t.brCnt } := by
  induction fuel generalizing n s with
  | zero =>
    unfold descend
    split <;> simp
  | succ fuel ih =>
    unfold descend
    split
    · simp
    · refine (getBit_ends s).andThen fun r m hm => ?_
      cases r with
      | none => exact hm
      | some c =>
        refine (ih _ m).mono fun t ht => ?_
        rw [hm] at ht
        rw [ht]

/-- The effect of ENC_NEXT, wherever it ends, changes only IN_POS, SYMCNT, OUT, OUT_POS and the BitWriter. -/
theorem encNext_ends (s : State) :
    (encNext s).Ends fun t => t = { s with
      inPos := t.inPos, symCnt := t.symCnt, outMem := t.outMem, outPos := t.outPos, bwBuf := t.bwBuf, bwCnt := t.bwCnt } := by
  unfold encNext
  split
  · simp
  · refine Run.Ends.andThen ((memReadIn_ends s).mono fun t ht => by rw [ht]) fun b m hm => ?_
    refine Run.Ends.andThen ((checkCode_ends b m).mono fun t ht => by rw [ht]; exact hm) fun _ m2 hm2 => ?_
    unfold emitSymbol emitCode
    refine Run.Ends.andThen ((putBits_ends _ _).mono fun t ht => ?_) fun _ m3 hm3 => ?_
    · rw [hm2] at ht
      rw [ht]
    · rw [Run.ok_ends, State.countSymbol, hm3]

/-- The loop of ENCODE, wherever it ends, changes only what ENC_NEXT does. -/
theorem encodeLoop_ends (fuel : Nat) (s : State) :
    (encodeLoop fuel s).Ends fun t => t = { s with
      inPos := t.inPos, symCnt := t.symCnt, outMem := t.outMem, outPos := t.outPos, bwBuf := t.bwBuf, bwCnt := t.bwCnt } := by
  induction fuel generalizing s with
  | zero => simp [encodeLoop]
  | succ fuel ih =>
    unfold encodeLoop
    split
    · refine (encNext_ends s).andThen fun _ m hm => (ih m).mono fun t ht => ?_
      rw [hm] at ht
      rw [ht]
    · simp

/-- The effect of DEC_SYM, wherever it ends, changes only IN_POS, the BitReader, SYMCNT, OUT and OUT_POS. -/
theorem decSym_ends (s : State) :
    (decSym s).Ends fun t => t = { s with
      inPos := t.inPos, brBuf := t.brBuf, brCnt := t.brCnt, symCnt := t.symCnt, outMem := t.outMem, outPos := t.outPos } := by
  unfold decSym
  split
  · simp
  · refine Run.Ends.andThen ((checkRoom_ends 1 s).mono fun t ht => by rw [ht]) fun _ m hm => ?_
    have hr : (reachLeaf m).Ends fun t => t = { m with inPos := t.inPos, brBuf := t.brBuf, brCnt := t.brCnt } := by
      unfold reachLeaf
      split
      · exact (getBit_ends m).andThen fun _ _ h => h
      · exact descend_ends _ _ _
    refine Run.Ends.andThen (p := fun t => t = { s with
      inPos := t.inPos, brBuf := t.brBuf, brCnt := t.brCnt, symCnt := t.symCnt, outMem := t.outMem, outPos := t.outPos })
      (hr.mono fun t ht => ?_) fun leaf m2 hm2 => ?_
    · rw [hm] at ht
      rw [ht]
    · cases leaf with
      | none => exact hm
      | some x =>
        unfold emitLeaf
        refine Run.Ends.andThen ((memWriteOut_ends _ m2).mono fun t ht => ?_) fun _ m3 hm3 => ?_
        · rw [hm2] at ht
          rw [ht]
        · rw [Run.ok_ends, State.countSymbol, hm3]

/-- The loop of DECODE, wherever it ends, changes only what DEC_SYM does. -/
theorem decodeLoop_ends (fuel : Nat) (s : State) :
    (decodeLoop fuel s).Ends fun t => t = { s with
      inPos := t.inPos, brBuf := t.brBuf, brCnt := t.brCnt, symCnt := t.symCnt, outMem := t.outMem, outPos := t.outPos } := by
  induction fuel generalizing s with
  | zero => simp [decodeLoop]
  | succ fuel ih =>
    unfold decodeLoop
    split
    · refine (decSym_ends s).andThen fun _ m hm => (ih m).mono fun t ht => ?_
      rw [hm] at ht
      rw [ht]
    · simp

end Sys2Proof.Machine
end

