-- ==== Sys2Proof/Laws/Frequency.lean ====
section
/-! SUPPORT. The laws of the frequency table: the header's bytes and its inverse (R72), and what FREQ_SCAN's loop counts (R126). -/

namespace Sys2Proof.Machine

/-! ## The header (R72) -/

@[simp] theorem length_bigEndian (v : Word) : (bigEndian v).length = 4 := rfl

/-- Byte `k` of a big-endian count. -/
theorem bigEndian_getElem? (v : Word) {k : Nat} (hk : k < 4) : (bigEndian v)[k]? = some (v.extractLsb' (24 - 8 * k) 8) := by
  match k, hk with
  | 0, _ => rfl
  | 1, _ => rfl
  | 2, _ => rfl
  | 3, _ => rfl

/-- Element `4 i + k` of a list of chunks of four. -/
theorem flatMap_bigEndian_getElem? (vs : List Word) (i : Nat) {k : Nat} (hk : k < 4) :
    (vs.flatMap bigEndian)[4 * i + k]? = vs[i]?.bind fun v => (bigEndian v)[k]? := by
  induction vs generalizing i with
  | nil => simp
  | cons v vs ih =>
    rw [List.flatMap_cons]
    cases i with
    | zero => rw [List.getElem?_append_left (by simpa using hk)]; simp
    | succ i =>
      rw [List.getElem?_append_right (by simp; omega), length_bigEndian,
        show 4 * (i + 1) + k - 4 = 4 * i + k by omega, ih]
      simp

theorem length_flatMap_bigEndian (vs : List Word) : (vs.flatMap bigEndian).length = 4 * vs.length := by
  induction vs with
  | nil => rfl
  | cons v vs ih => rw [List.flatMap_cons, List.length_append, ih, length_bigEndian, List.length_cons]; omega

@[simp] theorem length_headerBytes (freq : Vector Word 256) : (headerBytes freq).length = 1024 := by
  rw [headerBytes, length_flatMap_bigEndian, Vector.length_toList]

/-- Byte `4 b + k` of the header of a table. -/
theorem headerBytes_getElem? (freq : Vector Word 256) (b : Byte) {k : Nat} (hk : k < 4) :
    (headerBytes freq)[4 * b.toNat + k]? = some ((tableGet freq b).extractLsb' (24 - 8 * k) 8) := by
  have hb : b.toNat < freq.toList.length := by simpa using b.isLt
  rw [headerBytes, flatMap_bigEndian_getElem? _ _ hk, List.getElem?_eq_getElem hb]
  simp only [Option.bind_some, bigEndian_getElem? _ hk]
  rfl

/-- Entry `b` of the table a header's bytes give. -/
theorem tableGet_headerTable (byte : Nat → Byte) (b : Byte) :
    tableGet (headerTable byte) b = fromBigEndian (byte (4 * b.toNat)) (byte (4 * b.toNat + 1)) (byte (4 * b.toNat + 2))
      (byte (4 * b.toNat + 3)) := by
  simp [tableGet, headerTable]

/-- Byte `k` of a count read big-endian. -/
theorem fromBigEndian_extract (byte : Nat → Byte) (a : Nat) {k : Nat} (hk : k < 4) :
    (fromBigEndian (byte a) (byte (a + 1)) (byte (a + 2)) (byte (a + 3))).extractLsb' (24 - 8 * k) 8 = byte (a + k) := by
  unfold fromBigEndian
  match k, hk with
  | 0, _ | 1, _ | 2, _ | 3, _ =>
    ext i hi
    simp only [BitVec.getElem_extractLsb', BitVec.getLsbD_append]
    repeat' first
      | rw [if_pos (by omega)]
      | rw [if_neg (by omega)]
    rw [← BitVec.getLsbD_eq_getElem]
    congr 1
    omega

/-- Reading a count back from its own four bytes. -/
theorem fromBigEndian_bigEndian (v : Word) :
    fromBigEndian (v.extractLsb' 24 8) (v.extractLsb' 16 8) (v.extractLsb' 8 8) (v.extractLsb' 0 8) = v := by
  unfold fromBigEndian
  ext i hi
  simp only [BitVec.getElem_append, BitVec.getElem_extractLsb']
  split
  · simp [BitVec.getLsbD_eq_getElem, hi]
  · split
    · simp [BitVec.getLsbD_eq_getElem, show 8 + (i - 8) = i by omega, hi]
    · split
      · simp [BitVec.getLsbD_eq_getElem, show 16 + (i - 8 - 8) = i by omega, hi]
      · simp [BitVec.getLsbD_eq_getElem, show 24 + (i - 8 - 8 - 8) = i by omega, hi]

/-- The table depends on the 1024 bytes only. -/
theorem headerTable_congr {f g : Nat → Byte} (h : ∀ a, a < 1024 → f a = g a) : headerTable f = headerTable g := by
  apply table_ext
  intro b
  have hb := b.isLt
  rw [tableGet_headerTable, tableGet_headerTable, h _ (by omega), h _ (by omega), h _ (by omega), h _ (by omega)]

/-- Parsing is the inverse of writing (R72). -/
theorem headerTable_headerBytes {freq : Vector Word 256} {byte : Nat → Byte}
    (h : ∀ a, a < 1024 → (headerBytes freq)[a]? = some (byte a)) : headerTable byte = freq := by
  apply table_ext
  intro b
  have hb := b.isLt
  have key : ∀ k, k < 4 → byte (4 * b.toNat + k) = (tableGet freq b).extractLsb' (24 - 8 * k) 8 := by
    intro k hk
    have := (h (4 * b.toNat + k) (by omega)).symm.trans (headerBytes_getElem? freq b hk)
    exact Option.some.inj this
  rw [tableGet_headerTable, show byte (4 * b.toNat) = _ from key 0 (by omega), key 1 (by omega), key 2 (by omega),
    key 3 (by omega)]
  exact fromBigEndian_bigEndian _

/-! ## The scan (R126) -/

/-- One step of FREQ_SCAN, below IN_LEN, at a counter that is not full. -/
theorem scanByte_ok {s : State} (hp : s.inPos.toNat < s.inSize.toNat) (hc : tableGet s.freq (s.inByte s.inPos.toNat) ≠ 0xFFFFFFFF#32) :
    scanByte s = .ok () { s with
      freq := tableSet s.freq (s.inByte s.inPos.toNat) (tableGet s.freq (s.inByte s.inPos.toNat) + 1#32), inPos := s.inPos + 1#32 } := by
  rw [scanByte, memReadIn, if_pos hp, Run.ok_andThen, if_neg hc]

/-- One step of FREQ_SCAN at a full counter raises ERR_FREQ_OVF with the byte's address and changes nothing. -/
theorem scanByte_err {s : State} (hp : s.inPos.toNat < s.inSize.toNat) (hc : tableGet s.freq (s.inByte s.inPos.toNat) = 0xFFFFFFFF#32) :
    scanByte s = .err .freqOvf s.inPos s := by
  rw [scanByte, memReadIn, if_pos hp, Run.ok_andThen, if_pos hc]

/-- One step of FREQ_SCAN, wherever it ends, changes only FREQ and IN_POS. -/
theorem scanByte_ends (s : State) : (scanByte s).Ends fun t => t = { s with freq := t.freq, inPos := t.inPos } := by
  unfold scanByte memReadIn
  split
  · rw [Run.ok_andThen]
    split <;> simp
  · trivial

/-- The scan, wherever it ends, changes only FREQ and IN_POS. -/
theorem scanLoop_ends (fuel : Nat) (s : State) : (scanLoop fuel s).Ends fun t => t = { s with freq := t.freq, inPos := t.inPos } := by
  induction fuel generalizing s with
  | zero => simp [scanLoop]
  | succ fuel ih =>
    unfold scanLoop
    split
    · refine (scanByte_ends s).andThen fun _ m hm => (ih m).mono fun t ht => ?_
      rw [hm] at ht
      rw [ht]
    · simp

/-- The effect of FREQ_SCAN, wherever it ends, changes only FREQ and IN_POS and invalidates what was derived (R59). -/
theorem freqScan_ends (s : State) :
    (freqScan s).Ends fun t => t = { s with freq := t.freq, inPos := t.inPos, tree := .none, root := 0#9, lutValid := false } := by
  refine (scanLoop_ends s.avail s.invalidateDerived).mono fun t ht => ?_
  rw [ht]
  rfl

/-- The effect of FREQ_HDR_WR, wherever it ends, changes only OUT and OUT_POS. -/
theorem freqHdrWr_ends (s : State) : (freqHdrWr s).Ends fun t => t = { s with outMem := t.outMem, outPos := t.outPos } := by
  unfold freqHdrWr checkRoom
  split <;> simp

/-- The effect of FREQ_HDR_RD: on success only FREQ and IN_POS change and what was derived is invalidated; else nothing changes. -/
theorem freqHdrRd_ends (s : State) :
    (freqHdrRd s).Ends fun t =>
      t = s ∨ t = { s with freq := t.freq, inPos := t.inPos, tree := .none, root := 0#9, lutValid := false } := by
  unfold freqHdrRd
  split
  · exact Or.inl rfl
  · split
    · trivial
    · exact Or.inr rfl

end Sys2Proof.Machine
end

