-- ==== Sys2Proof/Laws/Merge.lean ====
section
/-! SUPPORT. One pass of TREE_BUILD's merge loop (R160): what it leaves, the same pass by single commands, and the order of the
weights it makes. -/

namespace Sys2Proof.Machine

/-! ## Commands in sequence -/

@[simp] theorem afterwards_next (t : State) (f : State → Outcome) : afterwards (.next t) f = f t := rfl

theorem afterwards_assoc (o : Outcome) (f g : State → Outcome) :
    afterwards (afterwards o f) g = afterwards o fun t => afterwards (f t) g := by
  cases o <;> rfl

/-- A node index comes back unchanged from a RESULT word. -/
theorem setWidth_resultNode (n : NodeIdx) : (n.setWidth 32).setWidth 9 = n := by
  apply BitVec.eq_of_toNat_eq
  have := n.isLt
  simp only [BitVec.toNat_setWidth]
  omega

/-! ## The heap over a growing arena -/

/-- Appending nodes keeps the heap property of a heap within the arena. -/
theorem HeapOrdered.append {arena : List Node} {heap : List NodeIdx} (h : HeapOrdered arena heap) (more : List Node)
    (hlt : ∀ i ∈ heap, i.toNat < arena.length) : HeapOrdered (arena ++ more) heap := by
  intro k hk h0
  have e : ∀ j, j < heap.length → weightAt (arena ++ more) (slot heap j) = weightAt arena (slot heap j) := fun j hj =>
    weightAt_append more (hlt _ (by rw [slot_of_lt hj]; exact List.getElem_mem hj))
  rw [e _ hk, e _ (by omega)]
  exact h k hk h0

/-- The first element of an ordered heap is no heavier than any other (R151). -/
theorem HeapOrdered.head_le {arena : List Node} {top : NodeIdx} {others : List NodeIdx} (h : HeapOrdered arena (top :: others))
    {i : NodeIdx} (hi : i ∈ top :: others) : weightAt arena top ≤ weightAt arena i := by
  obtain ⟨k, hk, rfl⟩ := List.mem_iff_getElem.1 hi
  have := h.top_le k hk
  rwa [slot_of_lt hk] at this

/-! ## One pass -/

/-- One pass of the loop: the first node extracted, the second, their join, and its insertion (R160). -/
def mergePass (s : State) : State :=
  let heap1 := removeTop s.arena s.heap
  let arena := s.arena ++ [joinOf s (slot s.heap 0) (slot heap1 0)]
  { s with arena := arena, heap := insertSlot arena (removeTop s.arena heap1) s.nextNode }

/-- What a pass needs: two entries within the arena, room for one node, and no overflow (R163). -/
structure Mergeable (s : State) : Prop where
  two : 2 ≤ s.heap.length
  slots : s.heap.length ≤ 256
  room : s.arena.length < 511
  inside : ∀ i ∈ s.heap, i.toNat < s.arena.length
  weight : heapWeight s.arena s.heap < 2 ^ 64

/-- EVERYTHING a pass does to the heap's entries: `a` and `b` are taken off, the new node joins the others. On an ordered heap
`a` is a lightest entry, `b` a lightest of the others, and the heap stays ordered. -/
theorem mergePass_spec {s : State} (h : Mergeable s) :
    ∃ a b rest, slot s.heap 0 = a ∧ slot (removeTop s.arena s.heap) 0 = b ∧ s.heap.Perm (a :: b :: rest) ∧
      (removeTop s.arena (removeTop s.arena s.heap)).Perm rest ∧ (mergePass s).arena = s.arena ++ [joinOf s a b] ∧
      (mergePass s).heap.Perm (s.nextNode :: rest) ∧
      (HeapOrdered s.arena s.heap → HeapOrdered (mergePass s).arena (mergePass s).heap ∧
        weightAt s.arena a ≤ weightAt s.arena b ∧ ∀ i ∈ rest, weightAt s.arena b ≤ weightAt s.arena i) := by
  obtain ⟨a, others, e⟩ : ∃ a others, s.heap = a :: others := List.exists_cons_of_length_pos (by have := h.two; omega)
  have hl : s.heap.length = others.length + 1 := by rw [e, List.length_cons]
  have p1 : (removeTop s.arena s.heap).Perm others := by
    rw [e]
    exact removeTop_perm s.arena a others
  obtain ⟨b, rest, e1⟩ : ∃ b rest, removeTop s.arena s.heap = b :: rest :=
    List.exists_cons_of_length_pos (by rw [p1.length_eq]; have := h.two; omega)
  have p2 : (removeTop s.arena (removeTop s.arena s.heap)).Perm rest := by
    rw [e1]
    exact removeTop_perm s.arena b rest
  have ea : slot s.heap 0 = a := by rw [e]; rfl
  have eb : slot (removeTop s.arena s.heap) 0 = b := by rw [e1]; rfl
  have pall : s.heap.Perm (a :: b :: rest) := by
    rw [e]
    exact List.Perm.cons _ (p1.symm.trans (by rw [e1]))
  have earena : (mergePass s).arena = s.arena ++ [joinOf s a b] := by simp only [mergePass, ea, eb]
  refine ⟨a, b, rest, ea, eb, pall, p2, earena, (insertSlot_perm _ _ _).trans (p2.cons _), fun hord => ⟨?_, ?_, ?_⟩⟩
  · refine insertSlot_ordered (HeapOrdered.append ?_ _ fun i hi => h.inside i ?_) _
    · exact removeTop_ordered (removeTop_ordered hord)
    · exact pall.mem_iff.2 (List.mem_cons_of_mem _ (List.mem_cons_of_mem _ (p2.mem_iff.1 hi)))
  · have hord' := hord
    rw [e] at hord'
    exact hord'.head_le (e ▸ pall.mem_iff.2 (by simp))
  · intro i hi
    have h1 := removeTop_ordered hord
    rw [e1] at h1
    exact h1.head_le (List.mem_cons_of_mem _ hi)

/-- The weights of the two nodes taken off do not overflow together (R163). -/
theorem mergePass_sum {s : State} {a b : NodeIdx} {rest : List NodeIdx} (p : s.heap.Perm (a :: b :: rest))
    (hw : heapWeight s.arena s.heap < 2 ^ 64) : exactSum s a b < 2 ^ 64 := by
  have e : heapWeight s.arena s.heap =
      (weightAt s.arena a).toNat + ((weightAt s.arena b).toNat + heapWeight s.arena rest) := by
    rw [heapWeight_perm p]
    simp [heapWeight]
  unfold exactSum
  omega

/-- The weight of a join that does not overflow. -/
theorem joinOf_weight {s : State} {a b : NodeIdx} (h : exactSum s a b < 2 ^ 64) : (joinOf s a b).weight.toNat = exactSum s a b := by
  show (weightAt s.arena a + weightAt s.arena b).toNat = _
  rw [BitVec.toNat_add]
  exact Nat.mod_eq_of_lt h

/-- The loop runs a pass and goes on. -/
theorem mergeLoop_pass {s : State} (fuel : Nat) (h : Mergeable s) : mergeLoop (fuel + 1) s = mergeLoop fuel (mergePass s) := by
  obtain ⟨a, b, rest, ea, eb, pall, p2, earena, -, -⟩ := mergePass_spec h
  have h2 := h.two
  have hs := h.slots
  have hr := h.room
  have l1 : (removeTop s.arena s.heap).length = s.heap.length - 1 := length_removeTop ..
  have hsum : exactSum s a b < 2 ^ 64 := mergePass_sum pall h.weight
  have e1 : heapExtract s = .ok a { s with heap := removeTop s.arena s.heap } := by
    rw [heapExtract, if_pos (by omega), ea]
  have e2 : heapExtract { s with heap := removeTop s.arena s.heap } =
      .ok b { s with heap := removeTop s.arena (removeTop s.arena s.heap) } := by
    rw [heapExtract]
    simp only
    rw [if_pos (by omega), eb]
  have e3 : newJoin a b { s with heap := removeTop s.arena (removeTop s.arena s.heap) } =
      .ok s.nextNode { s with
        heap := removeTop s.arena (removeTop s.arena s.heap), arena := s.arena ++ [joinOf s a b] } := by
    rw [newJoin, if_pos ⟨hr, hsum⟩]
    rfl
  have hnext := nextNode_toNat (s := s) (by omega)
  have e4 : heapInsert s.nextNode { s with
      heap := removeTop s.arena (removeTop s.arena s.heap), arena := s.arena ++ [joinOf s a b] } = .ok () (mergePass s) := by
    rw [heapInsert, if_pos]
    · simp only [mergePass, ea, eb]
    · refine ⟨?_, ?_⟩
      · simp only [length_removeTop, Config.heapCap]
        omega
      · simp only [hnext, List.length_append, List.length_singleton]
        omega
  rw [mergeLoop, e1, Run.ok_andThen]
  simp only
  rw [if_neg (by omega), e2, Run.ok_andThen, e3, Run.ok_andThen, e4, Run.ok_andThen]

/-- The single commands run the same pass. -/
theorem mergeByCommands_pass {s : State} (h : Mergeable s) :
    mergeByCommands s = .next { mergePass s with result := s.nextNode.setWidth 32, pending := none, done := true } := by
  obtain ⟨a, b, rest, ea, eb, pall, p2, earena, -, -⟩ := mergePass_spec h
  have h2 := h.two
  have hs := h.slots
  have hr := h.room
  have l1 : (removeTop s.arena s.heap).length = s.heap.length - 1 := length_removeTop ..
  have hsum : exactSum s a b < 2 ^ 64 := mergePass_sum pall h.weight
  have ha : a.toNat < s.arena.length := h.inside a (pall.mem_iff.2 (by simp))
  have hb : b.toNat < s.arena.length := h.inside b (pall.mem_iff.2 (by simp))
  have hnext := nextNode_toNat (s := s) (by omega)
  have extract : ∀ t : State, 0 < t.heap.length → exec .heapExtract t = .next { t with
      heap := removeTop t.arena t.heap, result := (slot t.heap 0).setWidth 32, pending := none, done := true } := by
    intro t ht
    show completeWith (if t.heap.length = 0 then _ else nodeResult (heapExtract t)) = _
    rw [if_neg (by omega), heapExtract, if_pos ht]
    rfl
  have join : ∀ t : State, t.arena = s.arena → exec (.nodeJoin a b) t = .next { t with
      arena := s.arena ++ [joinOf s a b], result := s.nextNode.setWidth 32, pending := none, done := true } := by
    intro t ht
    have hsum' : exactSum t a b < 2 ^ 64 := by rw [exactSum, ht]; exact hsum
    have en : t.nextNode = s.nextNode := by rw [State.nextNode, State.nextNode, ht]
    have ej : joinOf t a b = joinOf s a b := by rw [joinOf, joinOf, ht]
    show completeWith ((checkNode a t).andThen fun _ t => (checkNode b t).andThen fun _ t => (checkArena t).andThen fun _ t =>
      if 2 ^ 64 ≤ exactSum t a b then _ else nodeResult (newJoin a b t)) = _
    rw [checkNode, if_neg (by rw [ht]; omega), Run.ok_andThen, checkNode, if_neg (by rw [ht]; omega), Run.ok_andThen, checkArena,
      if_neg (by rw [ht, Config.arenaCap]; omega), Run.ok_andThen, if_neg (by omega), newJoin,
      if_pos ⟨by rw [ht]; exact hr, hsum'⟩, appendNode, en, ej, ht]
    rfl
  have insert : ∀ t : State, t.heap.length < 256 → s.nextNode.toNat < t.arena.length → exec (.heapInsert s.nextNode) t =
      .next { t with heap := insertSlot t.arena t.heap s.nextNode, pending := none, done := true } := by
    intro t ht hn
    show complete ((checkNode s.nextNode t).andThen fun _ t => if t.heap.length = Config.heapCap then _ else _) = _
    rw [checkNode, if_neg (by omega), Run.ok_andThen, if_neg (by rw [Config.heapCap]; omega), heapInsert,
      if_pos ⟨ht, hn⟩]
    rfl
  rw [mergeByCommands, extract s (by omega), afterwards_next, extract _ (by simp only; omega), afterwards_next]
  simp only [State.resultNode, setWidth_resultNode, ea, eb]
  rw [join]
  · simp only [afterwards_next, setWidth_resultNode]
    rw [insert]
    · simp only [mergePass, ea, eb]
    · simp only [length_removeTop]
      omega
    · simp only [hnext, List.length_append, List.length_singleton]
      omega
  · rfl

/-- A pass leaves what the next pass needs, but for the number of entries. -/
theorem mergePass_mergeable {s : State} (h : Mergeable s) (h3 : 3 ≤ s.heap.length) (hroom : s.arena.length < 510) :
    Mergeable (mergePass s) := by
  obtain ⟨a, b, rest, -, -, pall, -, earena, pnew, -⟩ := mergePass_spec h
  have hl := pall.length_eq
  have hl2 := pnew.length_eq
  simp only [List.length_cons] at hl hl2
  have hs := h.slots
  have hnext := nextNode_toNat (s := s) (by omega)
  have hrest : ∀ i ∈ rest, i.toNat < s.arena.length := fun i hi => h.inside i (pall.mem_iff.2 (by simp [hi]))
  refine ⟨by omega, by omega, ?_, fun i hi => ?_, ?_⟩
  · rw [earena, List.length_append, List.length_singleton]
    omega
  · rw [earena, List.length_append, List.length_singleton]
    rcases List.mem_cons.1 (pnew.mem_iff.1 hi) with rfl | hi
    · omega
    · have := hrest i hi
      omega
  · have hsum := mergePass_sum pall h.weight
    have hjoin : nodeAt (s.arena ++ [joinOf s a b]) s.nextNode = joinOf s a b := nodeAt_next (by omega) _
    have hw : (weightAt (s.arena ++ [joinOf s a b]) s.nextNode).toNat = exactSum s a b := by
      rw [weightAt, hjoin, joinOf_weight hsum]
    have hall := h.weight
    rw [heapWeight_perm pall] at hall
    rw [earena, heapWeight_perm pnew]
    show (weightAt (s.arena ++ [joinOf s a b]) s.nextNode).toNat + heapWeight (s.arena ++ [joinOf s a b]) rest < _
    rw [hw, heapWeight_append _ hrest]
    have : heapWeight s.arena (a :: b :: rest) =
        (weightAt s.arena a).toNat + ((weightAt s.arena b).toNat + heapWeight s.arena rest) := by simp [heapWeight]
    unfold exactSum
    omega

/-! ## The order of the weights -/

/-- The internal nodes from index `start` on: the left child is no heavier than the right one, and the weights do not fall. -/
def WeightsRise (start : Nat) (arena : List Node) : Prop :=
  ∀ n node, start ≤ n → arena[n]? = some node →
    weightAt arena node.l ≤ weightAt arena node.r ∧
      ∀ m earlier, start ≤ m → m < n → arena[m]? = some earlier → earlier.weight ≤ node.weight

/-- From an ordered heap whose lightest entry weighs at least `y`, every node the merge loop makes weighs at least `2 y`, and the
nodes it makes rise (R160, R151). -/
theorem mergeLoop_rises (fuel : Nat) {s t : State} {a : NodeIdx} {y : Nat} (ha : s.arena.length + s.heap.length ≤ 512)
    (hh : s.heap.length ≤ 256) (hin : ∀ i ∈ s.heap, i.toNat < s.arena.length) (hw : heapWeight s.arena s.heap < 2 ^ 64)
    (hord : HeapOrdered s.arena s.heap) (hy : ∀ i ∈ s.heap, y ≤ (weightAt s.arena i).toNat)
    (hrun : mergeLoop fuel s = .ok a t) :
    (∃ more, t.arena = s.arena ++ more) ∧ WeightsRise s.arena.length t.arena ∧
      ∀ n node, s.arena.length ≤ n → t.arena[n]? = some node → 2 * y ≤ node.weight.toNat := by
  induction fuel generalizing s y with
  | zero => exact absurd hrun (by simp [mergeLoop])
  | succ fuel ih =>
    by_cases h2 : 2 ≤ s.heap.length
    · have hm : Mergeable s := ⟨h2, hh, by omega, hin, hw⟩
      rw [mergeLoop_pass fuel hm] at hrun
      obtain ⟨a', b, rest, -, -, pall, -, earena, pnew, hordered⟩ := mergePass_spec hm
      obtain ⟨hord', hab, hbr⟩ := hordered hord
      have hl := pall.length_eq
      have hl2 := pnew.length_eq
      simp only [List.length_cons] at hl hl2
      have hnext := nextNode_toNat (s := s) (by omega)
      have hsum := mergePass_sum pall hw
      have hia : a' ∈ s.heap := pall.mem_iff.2 (by simp)
      have hib : b ∈ s.heap := pall.mem_iff.2 (by simp)
      have hrest : ∀ i ∈ rest, i.toNat < s.arena.length := fun i hi => hin i (pall.mem_iff.2 (by simp [hi]))
      have hjw : (joinOf s a' b).weight.toNat = (weightAt s.arena a').toNat + (weightAt s.arena b).toNat := joinOf_weight hsum
      have hwn : weightAt (mergePass s).arena s.nextNode = (joinOf s a' b).weight := by
        rw [earena, weightAt, nodeAt_next (by omega)]
      have hwr : ∀ i ∈ rest, weightAt (mergePass s).arena i = weightAt s.arena i := fun i hi => by
        rw [earena, weightAt_append _ (hrest i hi)]
      have hle : (weightAt s.arena a').toNat ≤ (weightAt s.arena b).toNat := hab
      have hlen : (mergePass s).arena.length = s.arena.length + 1 := by
        rw [earena, List.length_append, List.length_singleton]
      have hin' : ∀ i ∈ (mergePass s).heap, i.toNat < (mergePass s).arena.length := fun i hi => by
        rcases List.mem_cons.1 (pnew.mem_iff.1 hi) with rfl | hi
        · omega
        · have := hrest i hi
          omega
      have hw' : heapWeight (mergePass s).arena (mergePass s).heap < 2 ^ 64 := by
        have e : heapWeight s.arena s.heap =
            (weightAt s.arena a').toNat + ((weightAt s.arena b).toNat + heapWeight s.arena rest) := by
          rw [heapWeight_perm pall]
          simp [heapWeight]
        rw [heapWeight_perm pnew]
        show (weightAt (mergePass s).arena s.nextNode).toNat + heapWeight (mergePass s).arena rest < _
        rw [hwn, hjw, earena, heapWeight_append _ hrest]
        omega
      have hy' : ∀ i ∈ (mergePass s).heap, (weightAt s.arena b).toNat ≤ (weightAt (mergePass s).arena i).toNat := fun i hi => by
        rcases List.mem_cons.1 (pnew.mem_iff.1 hi) with rfl | hi
        · rw [hwn, hjw]
          omega
        · rw [hwr i hi]
          exact hbr i hi
      obtain ⟨⟨more, emore⟩, hrise, hlow⟩ := ih (by omega) (by omega) hin' hw' hord' hy' hrun
      rw [hlen] at hrise hlow
      have emore' : t.arena = s.arena ++ (joinOf s a' b :: more) := by rw [emore, earena, List.append_assoc]; rfl
      have efirst : t.arena[s.arena.length]? = some (joinOf s a' b) := by rw [emore']; simp
      have hya := hy a' hia
      refine ⟨⟨_, emore'⟩, fun n node hn hnode => ?_, fun n node hn hnode => ?_⟩
      · by_cases hfirst : n = s.arena.length
        · subst hfirst
          obtain rfl : joinOf s a' b = node := by rw [efirst] at hnode; exact Option.some.inj hnode
          refine ⟨?_, fun m _ hm1 hm2 => absurd hm2 (by omega)⟩
          show weightAt t.arena a' ≤ weightAt t.arena b
          rw [emore', weightAt_append _ (hin a' hia), weightAt_append _ (hin b hib)]
          exact hab
        · obtain ⟨hlr, hprev⟩ := hrise n node (by omega) hnode
          refine ⟨hlr, fun m earlier hm1 hm2 hearlier => ?_⟩
          by_cases hmfirst : m = s.arena.length
          · subst hmfirst
            obtain rfl : joinOf s a' b = earlier := by rw [efirst] at hearlier; exact Option.some.inj hearlier
            rw [BitVec.le_def, hjw]
            have := hlow n node (by omega) hnode
            omega
          · exact hprev m earlier (by omega) hm2 hearlier
      · by_cases hfirst : n = s.arena.length
        · subst hfirst
          obtain rfl : joinOf s a' b = node := by rw [efirst] at hnode; exact Option.some.inj hnode
          rw [hjw]
          omega
        · have := hlow n node (by omega) hnode
          omega
    · have harena : t.arena = s.arena := by
        rw [mergeLoop] at hrun
        obtain ⟨x, u, h1, h3⟩ := Run.andThen_eq_ok.1 hrun
        obtain ⟨hpos, rfl, rfl⟩ := heapExtract_eq_ok.1 h1
        simp only [length_removeTop] at h3
        rw [if_pos (by omega)] at h3
        rw [(Run.ok_eq_ok.1 h3).2]
      have hnone : ∀ n node, s.arena.length ≤ n → t.arena[n]? = some node → False := fun n node hn hnode => by
        rw [harena, List.getElem?_eq_none hn] at hnode
        exact absurd hnode (by simp)
      exact ⟨⟨[], by rw [harena, List.append_nil]⟩, fun n node hn hnode => (hnone n node hn hnode).elim,
        fun n node hn hnode => (hnone n node hn hnode).elim⟩

/-- The first loop of TREE_BUILD keeps the heap property (R160, R151). -/
theorem addLeaves_ordered (bs : List Byte) {s t : State} (hord : HeapOrdered s.arena s.heap)
    (hin : ∀ i ∈ s.heap, i.toNat < s.arena.length) (hrun : addLeaves bs s = .ok () t) : HeapOrdered t.arena t.heap := by
  induction bs generalizing s with
  | nil =>
    rw [(Run.ok_eq_ok.1 hrun).2]
    exact hord
  | cons b bs ih =>
    rw [addLeaves] at hrun
    split at hrun
    · obtain ⟨n, u, h1, h2⟩ := Run.andThen_eq_ok.1 hrun
      obtain ⟨_, v, h3, h4⟩ := Run.andThen_eq_ok.1 h2
      obtain ⟨hlt, rfl, rfl⟩ := newLeaf_eq_ok.1 h1
      obtain ⟨⟨-, hn⟩, rfl⟩ := heapInsert_eq_ok.1 h3
      refine ih (insertSlot_ordered (hord.append _ hin) _) (fun i hi => ?_) h4
      rcases List.mem_cons.1 ((insertSlot_perm _ _ _).mem_iff.1 hi) with rfl | hi
      · exact hn
      · have := hin i hi
        simp only [List.length_append, List.length_singleton]
        omega
    · exact ih hord hin hrun

end Sys2Proof.Machine
end

