-- ==== Sys2Proof/Laws/PerInstr.lean ====
section
/-! SUPPORT. Statements made for every instruction, one lemma for each constructor. -/

namespace Sys2Proof.Laws.OpcodeField

/-- Bits [31:24] of the encoder's word are the instruction's opcode, whatever its operands are (R96, R97). -/
def Statement (i : Instr) : Prop := opcodeOf (Sys2Proof.encode i) = i.opcode

/-- NOP. -/
theorem nop : Statement .nop := rfl

/-- SOFT_RESET. -/
theorem softReset : Statement .softReset := rfl

/-- CLR_ERR. -/
theorem clrErr : Statement .clrErr := rfl

/-- FREQ_CLEAR. -/
theorem freqClear : Statement .freqClear := rfl

/-- FREQ_SCAN. -/
theorem freqScan : Statement .freqScan := rfl

/-- FREQ_HDR_WR. -/
theorem freqHdrWr : Statement .freqHdrWr := rfl

/-- FREQ_HDR_RD. -/
theorem freqHdrRd : Statement .freqHdrRd := rfl

/-- ARENA_CLEAR. -/
theorem arenaClear : Statement .arenaClear := rfl

/-- NODE_LEAF. -/
theorem nodeLeaf (sym : Byte) : Statement (.nodeLeaf sym) := by
  simp only [Statement, opcodeOf, Sys2Proof.encode, encodeS, Instr.opcode]
  ext k hk
  simp only [BitVec.getElem_extractLsb', BitVec.getLsbD_append]
  simp [show ¬ 24 + k < 8 by omega, show ¬ 24 + k - 8 < 16 by omega, show 24 + k - 8 - 16 = k by omega, hk]

/-- NODE_JOIN. -/
theorem nodeJoin (idxa idxb : NodeIdx) : Statement (.nodeJoin idxa idxb) := by
  simp only [Statement, opcodeOf, Sys2Proof.encode, encodeJ, Instr.opcode]
  ext k hk
  simp only [BitVec.getElem_extractLsb', BitVec.getLsbD_append]
  simp [show ¬ 24 + k < 9 by omega, show ¬ 24 + k - 9 < 9 by omega, show ¬ 24 + k - 9 - 9 < 6 by omega, show 24 + k - 9 - 9 - 6 = k by omega, hk]

/-- HEAP_CLEAR. -/
theorem heapClear : Statement .heapClear := rfl

/-- HEAP_INSERT. -/
theorem heapInsert (idx : NodeIdx) : Statement (.heapInsert idx) := by
  simp only [Statement, opcodeOf, Sys2Proof.encode, encodeI, Instr.opcode]
  ext k hk
  simp only [BitVec.getElem_extractLsb', BitVec.getLsbD_append]
  simp [show ¬ 24 + k < 9 by omega, show ¬ 24 + k - 9 < 15 by omega, show 24 + k - 9 - 15 = k by omega, hk]

/-- HEAP_EXTRACT. -/
theorem heapExtract : Statement .heapExtract := rfl

/-- TREE_BUILD. -/
theorem treeBuild : Statement .treeBuild := rfl

/-- CODE_GEN. -/
theorem codeGen : Statement .codeGen := rfl

/-- BW_RESET. -/
theorem bwReset : Statement .bwReset := rfl

/-- BW_PUT. -/
theorem bwPut (n : BitVec 5) (val : BitVec 16) : Statement (.bwPut n val) := by
  simp only [Statement, opcodeOf, Sys2Proof.encode, encodeB, Instr.opcode]
  ext k hk
  simp only [BitVec.getElem_extractLsb', BitVec.getLsbD_append]
  simp [show ¬ 24 + k < 16 by omega, show ¬ 24 + k - 16 < 5 by omega, show ¬ 24 + k - 16 - 5 < 3 by omega, show 24 + k - 16 - 5 - 3 = k by omega, hk]

/-- BW_FINALIZE. -/
theorem bwFinalize : Statement .bwFinalize := rfl

/-- BR_RESET. -/
theorem brReset : Statement .brReset := rfl

/-- BR_GET. -/
theorem brGet : Statement .brGet := rfl

/-- ENC_SYM. -/
theorem encSym (sym : Byte) : Statement (.encSym sym) := by
  simp only [Statement, opcodeOf, Sys2Proof.encode, encodeS, Instr.opcode]
  ext k hk
  simp only [BitVec.getElem_extractLsb', BitVec.getLsbD_append]
  simp [show ¬ 24 + k < 8 by omega, show ¬ 24 + k - 8 < 16 by omega, show 24 + k - 8 - 16 = k by omega, hk]

/-- ENC_NEXT. -/
theorem encNext : Statement .encNext := rfl

/-- DEC_SYM. -/
theorem decSym : Statement .decSym := rfl

/-- ENCODE. -/
theorem encode : Statement .encode := rfl

/-- DECODE. -/
theorem decode : Statement .decode := rfl

end Sys2Proof.Laws.OpcodeField
end

