-- ==== Sys2Proof/Machine/HostProgram.lean ====
section
/-! DEFINITION. The assembler syntax (R107), host programs (R108) and pseudo-instructions (R109) of spec/30_encoding.md, as
lists of the machine's events. -/

namespace Sys2Proof.Machine

/-! ## The assembler (R107) -/

/-- A symbol operand, 0 to 255; out of range it is refused, not truncated (R107). -/
def symOperand (v : Nat) : Option Byte := if v < 256 then some (BitVec.ofNat 8 v) else none

/-- A node index operand, 0 to 511; out of range it is refused, not truncated (R107). -/
def idxOperand (v : Nat) : Option NodeIdx := if v < 512 then some (BitVec.ofNat 9 v) else none

/-- The operands of BW_PUT: `n` is 1 to 16 and `val` below 2^n (R107). -/
def bitsOperand (n val : Nat) : Option Instr :=
  if 1 ≤ n ∧ n ≤ 16 ∧ val < 2 ^ n then some (.bwPut (BitVec.ofNat 5 n) (BitVec.ofNat 16 val)) else none

/-- A mnemonic of R102 and its operands, in the order R107 writes them. -/
def assemble (mnemonic : String) (operands : List Nat) : Option Instr :=
  match mnemonic, operands with
  | "NOP", [] => some .nop
  | "SOFT_RESET", [] => some .softReset
  | "CLR_ERR", [] => some .clrErr
  | "FREQ_CLEAR", [] => some .freqClear
  | "FREQ_SCAN", [] => some .freqScan
  | "FREQ_HDR_WR", [] => some .freqHdrWr
  | "FREQ_HDR_RD", [] => some .freqHdrRd
  | "ARENA_CLEAR", [] => some .arenaClear
  | "NODE_LEAF", [sym] => (symOperand sym).map .nodeLeaf
  | "NODE_JOIN", [a, b] => (idxOperand a).bind fun a => (idxOperand b).map fun b => .nodeJoin a b
  | "HEAP_CLEAR", [] => some .heapClear
  | "HEAP_INSERT", [idx] => (idxOperand idx).map .heapInsert
  | "HEAP_EXTRACT", [] => some .heapExtract
  | "TREE_BUILD", [] => some .treeBuild
  | "CODE_GEN", [] => some .codeGen
  | "BW_RESET", [] => some .bwReset
  | "BW_PUT", [n, val] => bitsOperand n val
  | "BW_FINALIZE", [] => some .bwFinalize
  | "BR_RESET", [] => some .brReset
  | "BR_GET", [] => some .brGet
  | "ENC_SYM", [sym] => (symOperand sym).map .encSym
  | "ENC_NEXT", [] => some .encNext
  | "DEC_SYM", [] => some .decSym
  | "ENCODE", [] => some .encode
  | "DECODE", [] => some .decode
  | _, _ => none

/-- The value of a digit character: 0 to 9, and a to f or A to F. -/
def digitValue (c : Char) : Option Nat :=
  if '0' ≤ c ∧ c ≤ '9' then some (c.toNat - '0'.toNat)
  else if 'a' ≤ c ∧ c ≤ 'f' then some (c.toNat - 'a'.toNat + 10)
  else if 'A' ≤ c ∧ c ≤ 'F' then some (c.toNat - 'A'.toNat + 10)
  else none

/-- The digits of a number in base `base`, read on from the value `acc`. -/
def digitsFrom (base : Nat) : Nat → List Char → Option Nat
  | acc, [] => some acc
  | acc, c :: cs =>
    match digitValue c with
    | none => none
    | some d => if d < base then digitsFrom base (base * acc + d) cs else none

/-- At least one digit of base `base`. -/
def digits (base : Nat) (cs : List Char) : Option Nat := if cs.isEmpty then none else digitsFrom base 0 cs

/-- An operand's value: decimal, `0x` hexadecimal, `0b` binary, or an ASCII character in single quotes (R9, R107).
DESIGN CHOICE (log 15): every operand takes all four forms. R107 gives the quoted character for `sym` only and says of `idx`, `a`,
`b`, `n` and `val` that they are numbers; R9 makes `'a'` a way to write the number 0x61, so `HEAP_INSERT 'a'` is read as
`HEAP_INSERT 97`. The range of the operand is checked on its value, whatever its form. -/
def operandValue (cs : List Char) : Option Nat :=
  match cs with
  | ['\'', c, '\''] => if c.toNat < 128 then some c.toNat else none
  | '0' :: 'x' :: rest => digits 16 rest
  | '0' :: 'b' :: rest => digits 2 rest
  | _ => digits 10 cs

/-- Without the blanks at either end. -/
def trimBlanks (cs : List Char) : List Char := ((cs.dropWhile (· == ' ')).reverse.dropWhile (· == ' ')).reverse

/-- The operands of a line, separated by commas (R107); the text in pieces. -/
def operandTexts (cs : List Char) : List (List Char) :=
  if (trimBlanks cs).isEmpty then []
  else if trimBlanks cs == ['\'', ',', '\''] then [trimBlanks cs]
  else
    match cs.span (· != ',') with
    | (a, _ :: b) => [trimBlanks a, trimBlanks b]
    | (a, []) => [trimBlanks a]

/-- The values of operand texts; none when one is no number. -/
def operandValues : List (List Char) → Option (List Nat)
  | [] => some []
  | t :: ts =>
    match operandValue t, operandValues ts with
    | some v, some vs => some (v :: vs)
    | _, _ => none

/-- A line without its comment, which starts with `;` (R108), and without blanks at either end. A `;` in single quotes is an
operand. -/
def stripComment : List Char → List Char
  | [] => []
  | '\'' :: c :: '\'' :: rest => '\'' :: c :: '\'' :: stripComment rest
  | c :: rest => if c == ';' then [] else c :: stripComment rest

/-- A command line (R107): the mnemonic, then its operands separated by commas. -/
def assembleLine (line : String) : Option Instr :=
  match (trimBlanks (stripComment line.toList)).span (· != ' ') with
  | (mnemonic, rest) =>
    match operandValues (operandTexts rest) with
    | none => none
    | some vs => assemble (String.ofList mnemonic) vs

/-! ## Host programs (R108) -/

/-- The byte offset of a register (R23). -/
def Reg.offset : Reg → Nat
  | .id => 0x0000
  | .cmd => 0x0004
  | .status => 0x0008
  | .ctrl => 0x000C
  | .result => 0x0010
  | .errInfo => 0x0014
  | .inLen => 0x0018
  | .inPos => 0x001C
  | .outPos => 0x0020
  | .inSize => 0x0024
  | .outCap => 0x0028
  | .totalLo => 0x002C
  | .totalHi => 0x0030
  | .symCntLo => 0x0034
  | .symCntHi => 0x0038
  | .heapSize => 0x003C
  | .arenaCnt => 0x0040
  | .root => 0x0044
  | .nLeaf => 0x0048
  | .bwState => 0x004C
  | .brState => 0x0050
  | .freq b => 0x0400 + 4 * b.toNat
  | .lutLen b => 0x0800 + 4 * b.toNat
  | .heap i => 0x0C00 + 4 * i.toNat
  | .lutCode b w => 0x1000 + 32 * b.toNat + 4 * w.toNat
  | .node n k => 0x3000 + 16 * n.toNat + 4 * k.toNat
  | .reserved => 0x0054

/-- A statement of a host program (R108). -/
inductive HostStmt
  /-- `LOAD IN, addr, bytes`. -/
  | load (addr : Nat) (bytes : List Byte)
  /-- `WR REG, value`. -/
  | wr (r : Reg) (v : Word)
  /-- `RD REG`. -/
  | rd (r : Reg)
  /-- A command line: `WR CMD, word` followed by `WAIT`. -/
  | command (w : Word)
  /-- `WAIT`: the host reads STATUS until BUSY = 0. -/
  | wait
  deriving DecidableEq, Repr

/-- The host writes bytes into IN from an address on. -/
def loadEvents : Nat → List Byte → List Event
  | _, [] => []
  | a, b :: bs => .host (.loadIn a b) :: loadEvents (a + 1) bs

/-- A register write as an event (R76). -/
def writeEvent (r : Reg) (v : Word) : Event := .host (.regWrite 4 r.offset v)

/-- A register read as an event (R76). -/
def readEvent (r : Reg) : Event := .host (.regRead 4 r.offset)

/-- `WAIT`: the sequencer's turn completes the pending command (R236), then the read of STATUS finds BUSY = 0 (log 15). -/
def waitEvents : List Event := [.sequencer, readEvent .status]

/-- The events of a statement (R108). -/
def HostStmt.events : HostStmt → List Event
  | .load addr bytes => loadEvents addr bytes
  | .wr r v => [writeEvent r v]
  | .rd r => [readEvent r]
  | .command w => writeEvent .cmd w :: waitEvents
  | .wait => waitEvents

/-- The events of a host program, one statement after another (R108). -/
def programEvents (p : List HostStmt) : List Event := p.flatMap HostStmt.events

/-- A host program waits to run on the machine: its events come next. -/
def State.withProgram (s : State) (p : List HostStmt) : State := { s with events := programEvents p ++ s.events }

/-! ## Pseudo-instructions (R109) -/

/-- The number a chunk of bits writes, c0 the most significant (R109). -/
def chunkValue (bits : List Bool) : Nat := bits.foldl (fun v b => 2 * v + b.toNat) 0

/-- A chunk of 1 to 16 bits as a BW_PUT. -/
def chunkStmt (bits : List Bool) : HostStmt :=
  .command (Sys2Proof.encode (.bwPut (BitVec.ofNat 5 bits.length) (BitVec.ofNat 16 (chunkValue bits))))

/-- `BW_PUTBITS`: the bit string split from the left into chunks of 16, the last 1 to 16 (R109). -/
def putBitsStmts : Nat → List Bool → List HostStmt
  | 0, _ => []
  | fuel + 1, bits => if bits.isEmpty then [] else chunkStmt (bits.take 16) :: putBitsStmts fuel (bits.drop 16)

/-- `BW_PUTBITS "b0 b1 ... bk"` (R109). -/
def pseudoBwPutBits (bits : List Bool) : List HostStmt := putBitsStmts bits.length bits

/-- `ENC_STR "text"` (R109). -/
def pseudoEncStr (text : List Byte) : List HostStmt := text.map fun c => .command (Sys2Proof.encode (.encSym c))

/-- `REWIND` (R109). -/
def pseudoRewind : List HostStmt := [.wr .inPos 0#32]

/-- `CLEAR_OUT` (R109). -/
def pseudoClearOut : List HostStmt := [.wr .outPos 0#32]

/-- `ACK` (R109): clears DONE. -/
def pseudoAck : List HostStmt := [.wr .status 0x2#32]

end Sys2Proof.Machine
end

