-- ==== Sys2Proof/Laws/Registers.lean ====
section
/-! SUPPORT. The laws of the register map (R23) and of a step: which register stands at an offset, and what the next event does. -/

namespace Sys2Proof.Machine

/-! ## A step takes the next event (R83) -/

theorem step_nil {s : State} (h : s.events = []) : step s = sequencerTurn s := by
  rw [step, nextEvent, h]

theorem step_cons {s : State} {e : Event} {rest : List Event} (h : s.events = e :: rest) :
    step s = takeEvent e { s with events := rest } := by
  rw [step, nextEvent, h]

/-- A register access with the right width and alignment reaches its register (R76). -/
theorem busAccess_ok {off : Nat} (access : Reg → State) (outside : State) (h : off < 0x5000) (h4 : off % 4 = 0) :
    busAccess 4 off access outside = .next (access (regAt off)) := by
  rw [busAccess, if_neg (by unfold Config.regSpaceBytes; omega), if_pos ⟨rfl, h4⟩]

/-- Below 0x5000 an access of another width or alignment is refused (R77). -/
theorem busAccess_bad {width off : Nat} (access : Reg → State) (outside : State) (h : off < 0x5000)
    (hbad : width ≠ 4 ∨ off % 4 ≠ 0) : busAccess width off access outside = .refused .badBusAccess := by
  rw [busAccess, if_neg (by unfold Config.regSpaceBytes; omega), if_neg (by omega)]

/-- An access at or above 0x5000 does not reach the HCC (R78). -/
theorem busAccess_outside {width off : Nat} (access : Reg → State) (outside : State) (h : 0x5000 ≤ off) :
    busAccess width off access outside = .next outside := by
  rw [busAccess, if_pos (by unfold Config.regSpaceBytes; omega)]

/-- What a sequencer's turn does with a pending word that decodes. -/
theorem sequencerTurn_legal {s : State} {w : Word} {i : Instr} (hp : s.pending = some w) (hd : Sys2Proof.decode w = some i) :
    sequencerTurn s = exec i s := by
  rw [sequencerTurn, hp]
  simp only [runWord, hd]

/-- What a sequencer's turn does with a pending word that does not decode (R103, R236). -/
theorem sequencerTurn_illegal {s : State} {w : Word} (hp : s.pending = some w) (hd : Sys2Proof.decode w = none) :
    sequencerTurn s = .next (s.takeError .illegalCmd w) := by
  rw [sequencerTurn, hp]
  simp only [runWord, hd]

/-! ## The windows of the map (R23) -/

theorem regAt_freq (b : Byte) : regAt (0x0400 + 4 * b.toNat) = .freq b := by
  have := b.isLt
  rw [regAt, if_neg (by omega), if_pos (by omega), show (0x0400 + 4 * b.toNat - 0x0400) / 4 = b.toNat by omega, BitVec.ofNat_toNat,
    BitVec.setWidth_eq]

theorem regAt_lutLen (b : Byte) : regAt (0x0800 + 4 * b.toNat) = .lutLen b := by
  have := b.isLt
  rw [regAt, if_neg (by omega), if_neg (by omega), if_pos (by omega), show (0x0800 + 4 * b.toNat - 0x0800) / 4 = b.toNat by omega,
    BitVec.ofNat_toNat, BitVec.setWidth_eq]

theorem regAt_heap (i : Byte) : regAt (0x0C00 + 4 * i.toNat) = .heap i := by
  have := i.isLt
  rw [regAt, if_neg (by omega), if_neg (by omega), if_neg (by omega), if_pos (by omega),
    show (0x0C00 + 4 * i.toNat - 0x0C00) / 4 = i.toNat by omega, BitVec.ofNat_toNat, BitVec.setWidth_eq]

theorem regAt_lutCode (b : Byte) (w : BitVec 3) : regAt (0x1000 + 32 * b.toNat + 4 * w.toNat) = .lutCode b w := by
  have hb := b.isLt
  have hw := w.isLt
  rw [regAt, if_neg (by omega), if_neg (by omega), if_neg (by omega), if_neg (by omega), if_pos (by omega),
    show (0x1000 + 32 * b.toNat + 4 * w.toNat - 0x1000) / 32 = b.toNat by omega,
    show (0x1000 + 32 * b.toNat + 4 * w.toNat - 0x1000) / 4 = 8 * b.toNat + w.toNat by omega]
  congr 1
  · simp
  · apply BitVec.eq_of_toNat_eq
    rw [BitVec.toNat_ofNat]
    omega

theorem regAt_node {n : NodeIdx} (k : BitVec 2) (h : n.toNat < 511) : regAt (0x3000 + 16 * n.toNat + 4 * k.toNat) = .node n k := by
  have hk := k.isLt
  rw [regAt, if_neg (by omega), if_neg (by omega), if_neg (by omega), if_neg (by omega), if_neg (by omega), if_pos (by omega),
    show (0x3000 + 16 * n.toNat + 4 * k.toNat - 0x3000) / 16 = n.toNat by omega,
    show (0x3000 + 16 * n.toNat + 4 * k.toNat - 0x3000) / 4 = 4 * n.toNat + k.toNat by omega]
  congr 1
  · simp
  · apply BitVec.eq_of_toNat_eq
    rw [BitVec.toNat_ofNat]
    omega

/-- Every offset from 0x0800 on is a register that a write does not change (R48, R265). -/
theorem hostWrite_readOnly {off : Nat} (h : 0x0800 ≤ off) (v : Word) (s : State) : hostWrite (regAt off) v s = s := by
  rw [regAt, if_neg (by omega), if_neg (by omega)]
  split
  · rfl
  · split
    · rfl
    · split
      · rfl
      · split <;> rfl

/-- The offsets of the reserved registers (R48). -/
theorem regAt_reserved {off : Nat} (h4 : off % 4 = 0) (h : 0x0054 ≤ off ∧ off < 0x0400 ∨ 0x4FF0 ≤ off) : regAt off = .reserved := by
  rcases h with ⟨h1, h2⟩ | h
  · rw [regAt, if_pos h2, List.getD_eq_default]
    show 21 ≤ off / 4
    omega
  · rw [regAt, if_neg (by omega), if_neg (by omega), if_neg (by omega), if_neg (by omega), if_neg (by omega), if_neg (by omega)]

/-- A register's own offset leads back to it. -/
theorem regAt_offset (r : Reg) (h : ∀ n k, r = .node n k → n.toNat < 511) : regAt r.offset = r := by
  cases r with
  | freq b => exact regAt_freq b
  | lutLen b => exact regAt_lutLen b
  | heap i => exact regAt_heap i
  | lutCode b w => exact regAt_lutCode b w
  | node n k => exact regAt_node k (h n k rfl)
  | id | cmd | status | ctrl | result | errInfo | inLen | inPos | outPos | inSize | outCap | totalLo | totalHi | symCntLo
  | symCntHi | heapSize | arenaCnt | root | nLeaf | bwState | brState | reserved => rfl

end Sys2Proof.Machine
end

