-- ==== Sys2Proof/Tests/Slice0.lean ====
section
/-! SUPPORT. Tests: the checks of WellFormed, words written out from spec/30_encoding.md, single steps with the values of
spec/95_test_vectors.md (the vector is named at each test), and for every obligation with hypotheses a witness that meets them. -/

namespace Sys2Proof.Tests

set_option Elab.async false

open Sys2Proof Sys2Proof.Machine

/-! ## Helpers -/

/-- The outcome is a next state with a property. -/
def thenHolds (o : Outcome) (p : State → Bool) : Bool :=
  match o with
  | .next t => p t
  | .fault _ => false
  | .refused _ => false

/-- The next state, or the state after reset when there is none. -/
def nextOf (o : Outcome) : State :=
  match o with
  | .next t => t
  | .fault _ => State.reset
  | .refused _ => State.reset

/-- Fresh, with bytes loaded into IN from address 0 and IN_LEN their number. -/
def loaded (bytes : List Byte) : State :=
  { State.reset with inMem := cellsFrom 0 bytes, inLen := BitVec.ofNat 32 bytes.length }

/-- "aaabbc". -/
def text : List Byte := [0x61#8, 0x61#8, 0x61#8, 0x62#8, 0x62#8, 0x63#8]

/-- FREQ with the given counters, every other one 0. -/
def freqOf (counts : List (Byte × Word)) : Vector Word 256 :=
  counts.foldl (fun t c => tableSet t c.1 c.2) (Vector.replicate 256 0#32)

/-- The counters of "aaabbc". -/
def textFreq : Vector Word 256 := freqOf [(0x61#8, 3#32), (0x62#8, 2#32), (0x63#8, 1#32)]

/-- The arena of V-TREE-1, worked by hand there. -/
def textArena : List Node :=
  [⟨3#64, 0x61#8, true, 0#9, 0#9⟩, ⟨2#64, 0x62#8, true, 0#9, 0#9⟩, ⟨1#64, 0x63#8, true, 0#9, 0#9⟩,
    ⟨3#64, 0#8, false, 2#9, 1#9⟩, ⟨6#64, 0#8, false, 0#9, 3#9⟩]

/-- The end of V-TREE-1. -/
def textTree : State :=
  { loaded text with
    freq := textFreq, arena := textArena, tree := .valid, root := 4#9, nLeaf := 3#9, total := 6#64, inPos := 6#32, result := 3#32 }

/-- The end of V-LUT-1: a = "0", b = "11", c = "10". -/
def textLut : State :=
  { textTree with
    lutLen := tableSet (tableSet (tableSet (Vector.replicate 256 0#8) 0x61#8 1#8) 0x62#8 2#8) 0x63#8 2#8
    lutCode := tableSet (tableSet (Vector.replicate 256 0#256) 0x62#8 3#256) 0x63#8 1#256
    lutValid := true, result := 2#32 }

/-- A state whose heap holds nodes of the given weights at slots 0, 1, ... (leaves of symbol 0). -/
def heapOf (weights : List Weight) (heap : List NodeIdx) : State :=
  { State.reset with arena := weights.map fun w => ⟨w, 0#8, true, 0#9, 0#9⟩, heap := heap }

/-! ## WellFormed: each check refuses an ill-formed term (R100) -/

theorem test_wellFormed_refuses_count_zero : (Instr.bwPut 0#5 0#16).wellFormed = false := by decide
theorem test_wellFormed_refuses_count_seventeen : (Instr.bwPut 17#5 0#16).wellFormed = false := by decide
theorem test_wellFormed_refuses_bit_at_count : (Instr.bwPut 3#5 8#16).wellFormed = false := by decide
theorem test_wellFormed_accepts_full_width : (Instr.bwPut 16#5 0xFFFF#16).wellFormed = true := by decide

/-! ## Decoding: a word for every constructor, from the formats R97 and the map R102 -/

theorem test_decode_control :
    decode 0b00000000_000000000000000000000000#32 = some .nop ∧ decode 0b00000001_000000000000000000000000#32 = some .softReset ∧
      decode 0b00000010_000000000000000000000000#32 = some .clrErr := by decide
theorem test_decode_frequency :
    decode 0b00010000_000000000000000000000000#32 = some .freqClear ∧ decode 0b00010001_000000000000000000000000#32 = some .freqScan ∧
      decode 0b00010010_000000000000000000000000#32 = some .freqHdrWr ∧
      decode 0b00010011_000000000000000000000000#32 = some .freqHdrRd := by decide
theorem test_decode_arena :
    decode 0b00100000_000000000000000000000000#32 = some .arenaClear ∧
      decode 0b00100001_0000000000000000_10000001#32 = some (.nodeLeaf 0x81#8) ∧
      decode 0b00100010_000000_100000010_000000001#32 = some (.nodeJoin 0x102#9 1#9) := by decide
theorem test_decode_heap :
    decode 0b00100100_000000000000000000000000#32 = some .heapClear ∧
      decode 0b00100101_000000000000000_100000011#32 = some (.heapInsert 0x103#9) ∧
      decode 0b00100110_000000000000000000000000#32 = some .heapExtract := by decide
theorem test_decode_tree :
    decode 0b00110000_000000000000000000000000#32 = some .treeBuild ∧ decode 0b00110001_000000000000000000000000#32 = some .codeGen := by
  decide
theorem test_decode_bit_writer :
    decode 0b01000000_000000000000000000000000#32 = some .bwReset ∧
      decode 0b01000001_000_00011_0000000000000101#32 = some (.bwPut 3#5 5#16) ∧
      decode 0b01000010_000000000000000000000000#32 = some .bwFinalize := by decide
theorem test_decode_bit_reader :
    decode 0b01000100_000000000000000000000000#32 = some .brReset ∧ decode 0b01000101_000000000000000000000000#32 = some .brGet := by
  decide
theorem test_decode_coder :
    decode 0b01010000_0000000000000000_01100010#32 = some (.encSym 0x62#8) ∧
      decode 0b01010001_000000000000000000000000#32 = some .encNext ∧ decode 0b01010010_000000000000000000000000#32 = some .decSym ∧
      decode 0b01100000_000000000000000000000000#32 = some .encode ∧ decode 0b01100001_000000000000000000000000#32 = some .decode := by
  decide

/-- The illegal words of V-WORD-1 to V-WORD-9, each refused under its name. -/
theorem test_decode_refuses_by_name :
    [0x00000001#32, 0x41000000#32, 0x41110000#32, 0x41030008#32, 0x41200001#32, 0x22040000#32, 0x25000200#32, 0x50000100#32].map
        (fun w => decide (decodeNamed w matches .error .reservedField)) = List.replicate 8 true ∧
      (decide (decodeNamed 0x03000000#32 matches .error .reservedOpcode)) = true := by decide

/-- The lines of R107's table, with a comment (R108), and an operand out of range, which is refused. -/
theorem test_assemble_lines :
    (assembleLine "ENC_SYM 'a'").map encode = some 0x50000061#32 ∧ (assembleLine "NODE_JOIN 2, 1").map encode = some 0x22000401#32 ∧
      (assembleLine "BW_PUT 3, 0b101 ; three bits").map encode = some 0x41030005#32 ∧ assembleLine "HEAP_INSERT 512" = none := by
  decide +kernel

/-! ## Single steps -/

/-- V-CTL-2: STATUS 0x222, nothing else changes. -/
theorem test_nop : exec .nop State.reset = .next { State.reset with done := true } := rfl
/-- V-CTL-3. -/
theorem test_softReset : thenHolds (exec .softReset { textLut with ieDone := true, err := true, errCode := 5#8 }) (fun t =>
    t.status == 0x222#32 && t.ctrl == 0#32 && t.result == 0#32 && t.inLen == 0#32 && t.inMem == textLut.inMem) = true := by
  decide +kernel
/-- V-CTL-4. -/
theorem test_clrErr : thenHolds (exec .clrErr { State.reset with err := true, errCode := 5#8, errInfo := 1#32, rej := true, ovr := true })
    (fun t => t.status == 0x222#32 && t.errInfo == 0#32) = true := by decide +kernel
/-- V-FREQ-7. -/
theorem test_freqClear : thenHolds (exec .freqClear textLut) (fun t =>
    t.status == 0x222#32 && tableGet t.freq 0x61#8 == 0#32 && t.arena == textArena && t.root == 0#9) = true := by decide +kernel
/-- V-FREQ-1. -/
theorem test_freqScan : thenHolds (exec .freqScan (loaded text)) (fun t =>
    [0x60#8, 0x61#8, 0x62#8, 0x63#8].map (tableGet t.freq) == [0#32, 3#32, 2#32, 1#32] && t.inPos == 6#32 &&
      t.status == 0x222#32) = true := by decide +kernel
/-- V-FREQ-2. -/
theorem test_freqScan_overflow :
    thenHolds (exec .freqScan { loaded [0x42#8, 0x41#8] with freq := freqOf [(0x41#8, 0xFFFFFFFF#32)] }) (fun t =>
      t.status == 0xA0026#32 && t.errInfo == 1#32 && t.inPos == 1#32 && tableGet t.freq 0x42#8 == 1#32) = true := by decide +kernel
/-- V-FREQ-3. -/
theorem test_freqHdrWr :
    thenHolds (exec .freqHdrWr { State.reset with freq := freqOf [(0x61#8, 0x01020304#32)] }) (fun t =>
      (t.outMem.drop 0x183).take 6 ==
        [(0x183, 0#8), (0x184, 1#8), (0x185, 2#8), (0x186, 3#8), (0x187, 4#8), (0x188, 0#8)] && t.outPos == 1024#32) = true := by
  decide +kernel
/-- V-FREQ-4. -/
theorem test_freqHdrWr_full : thenHolds (exec .freqHdrWr { State.reset with outCap := 1000#32 }) (fun t =>
    t.status == 0x20226#32 && t.errInfo == 1024#32 && t.outPos == 0#32 && t.outMem == []) = true := by decide +kernel
/-- V-FREQ-5, on the bytes of one counter. -/
theorem test_freqHdrRd :
    thenHolds (exec .freqHdrRd { loaded (List.replicate 0x184 0#8 ++ [1#8, 2#8, 3#8, 4#8] ++ List.replicate 636 0#8) with
        freq := freqOf [(5#8, 7#32)] })
      (fun t => tableGet t.freq 0x61#8 == 0x01020304#32 && tableGet t.freq 5#8 == 0#32 && t.inPos == 1024#32) = true := by
  decide +kernel
/-- V-FREQ-6, case b. -/
theorem test_freqHdrRd_truncated : thenHolds (exec .freqHdrRd { State.reset with inLen := 2000#32, inPos := 1000#32 }) (fun t =>
    t.errCode == 3#8 && t.errInfo == 1000#32 && t.inPos == 1000#32) = true := by decide +kernel
/-- V-HEAP-10. -/
theorem test_arenaClear : thenHolds (exec .arenaClear textLut) (fun t =>
    t.arena == [] && t.tree == .none && t.root == 0#9 && t.nLeaf == 3#9 && t.total == 6#64 && t.lutValid) = true := by
  decide +kernel
/-- V-HEAP-1. -/
theorem test_nodeLeaf : thenHolds (exec (.nodeLeaf 0x62#8) { State.reset with freq := textFreq, arena := textArena.take 1 }) (fun t =>
    t.result == 1#32 && t.arena == textArena.take 2) = true := by decide +kernel
/-- V-TREE-1, step 5 (program P3: NODE_JOIN 2, 1). -/
theorem test_nodeJoin : thenHolds (exec (.nodeJoin 2#9 1#9) { State.reset with arena := textArena.take 3 }) (fun t =>
    t.result == 3#32 && t.arena == textArena.take 4) = true := by decide +kernel
/-- V-HEAP-6, case c: IDXA is checked first. -/
theorem test_nodeJoin_bad : thenHolds (exec (.nodeJoin 3#9 0#9) { State.reset with arena := textArena.take 1 }) (fun t =>
    t.errCode == 8#8 && t.errInfo == 3#32 && t.arena.length == 1) = true := by decide +kernel
theorem test_heapClear : thenHolds (exec .heapClear (heapOf [3#64, 2#64] [1#9, 0#9])) (fun t =>
    t.heap == [] && t.arena.length == 2) = true := by decide +kernel
/-- V-HEAP-1: [1, 0], then 2 of weight 1 inserted. -/
theorem test_heapInsert : thenHolds (exec (.heapInsert 2#9) (heapOf [3#64, 2#64, 1#64] [1#9, 0#9])) (fun t =>
    t.heap == [2#9, 0#9, 1#9]) = true := by decide +kernel
/-- V-HEAP-5. -/
theorem test_heapInsert_full : thenHolds (exec (.heapInsert 0#9) (heapOf [0#64] (List.replicate 256 0#9))) (fun t =>
    t.errCode == 6#8 && t.errInfo == 0#32 && t.heap.length == 256) = true := by decide +kernel
/-- V-HEAP-3: the left child wins among equal children. -/
theorem test_heapExtract : thenHolds (exec .heapExtract (heapOf [1#64, 5#64, 5#64, 9#64] [0#9, 1#9, 2#9, 3#9])) (fun t =>
    t.result == 0#32 && t.heap == [1#9, 3#9, 2#9]) = true := by decide +kernel
/-- V-HEAP-4. -/
theorem test_heapExtract_empty : thenHolds (exec .heapExtract { State.reset with result := 3#32 }) (fun t =>
    t.status == 0x50226#32 && t.errInfo == 0#32 && t.result == 3#32) = true := by decide +kernel
/-- V-TREE-1. -/
theorem test_treeBuild : thenHolds (exec .treeBuild { loaded text with freq := textFreq, inPos := 6#32 }) (fun t =>
    t.arena == textArena && t.root == 4#9 && t.nLeaf == 3#9 && t.total == 6#64 && t.result == 3#32 && t.heap == [] &&
      t.status == 0x2A2#32) = true := by decide +kernel
/-- V-LUT-1. -/
theorem test_codeGen : thenHolds (exec .codeGen textTree) (fun t =>
    [0x60#8, 0x61#8, 0x62#8, 0x63#8].map (tableGet t.lutLen) == [0#8, 1#8, 2#8, 2#8] &&
      [0x61#8, 0x62#8, 0x63#8].map (tableGet t.lutCode) == [0#256, 3#256, 1#256] && t.result == 2#32 && t.status == 0x3A2#32) =
    true := by decide +kernel
/-- V-LUT-6, case a. -/
theorem test_codeGen_noTree : thenHolds (exec .codeGen State.reset) (fun t => t.status == 0xB0226#32) = true := by decide +kernel
/-- The example of R180. -/
theorem test_bwReset : thenHolds (exec .bwReset { State.reset with bwBuf := 0xA0#8, bwCnt := 3 }) (fun t =>
    t.bwBuf == 0#8 && t.bwCnt == 0 && t.outMem == []) = true := by decide +kernel
/-- V-BIT-1: BW_PUT 16, 0xFFFF with seven bits pending. -/
theorem test_bwPut : thenHolds (exec (.bwPut 16#5 0xFFFF#16) { State.reset with bwBuf := 0xAA#8, bwCnt := 7 }) (fun t =>
    t.outMem == [(0, 0xAB#8), (1, 0xFF#8)] && t.bwBuf == 0xFE#8 && t.bwCnt == 7 && t.outPos == 2#32) = true := by decide +kernel
/-- V-BIT-3. -/
theorem test_bwPut_full : thenHolds (exec (.bwPut 8#5 0xAA#16) { State.reset with outCap := 1#32, outPos := 1#32 }) (fun t =>
    t.status == 0x20226#32 && t.errInfo == 1#32 && t.bwCnt == 0) = true := by decide +kernel
/-- V-BIT-1, the finalize. -/
theorem test_bwFinalize : thenHolds (exec .bwFinalize { State.reset with bwBuf := 0xFE#8, bwCnt := 7, outPos := 2#32 }) (fun t =>
    t.result == 1#32 && t.outMem == [(2, 0xFE#8)] && t.outPos == 3#32 && t.bwBuf == 0#8 && t.bwCnt == 0) = true := by decide +kernel
/-- V-BIT-2. -/
theorem test_bwFinalize_nothing : thenHolds (exec .bwFinalize { State.reset with result := 9#32 }) (fun t =>
    t.result == 0#32 && t.outPos == 0#32 && t.outMem == []) = true := by decide +kernel
/-- V-BIT-5. -/
theorem test_brReset : thenHolds (exec .brReset { loaded [0xB3#8] with inPos := 1#32, brBuf := 0xB3#8, brCnt := 7 }) (fun t =>
    t.status == 0x222#32 && t.brBuf == 0#8 && t.brCnt == 0 && t.inPos == 1#32) = true := by decide +kernel
/-- V-BIT-4, the first bit. -/
theorem test_brGet : thenHolds (exec .brGet (loaded [0xB3#8])) (fun t =>
    t.result == 1#32 && t.brBuf == 0xB3#8 && t.brCnt == 7 && t.inPos == 1#32) = true := by decide +kernel
/-- V-BIT-4, end-of-source. -/
theorem test_brGet_eos : thenHolds (exec .brGet { loaded [0xB3#8] with inPos := 1#32, brBuf := 0xB3#8 }) (fun t =>
    t.result == 2#32 && t.status == 0x222#32 && t.inPos == 1#32) = true := by decide +kernel
/-- V-SYM-1. -/
theorem test_encSym : thenHolds (exec (.encSym 0x62#8) { textLut with outPos := 1024#32 }) (fun t =>
    t.bwBuf == 0xC0#8 && t.bwCnt == 2 && t.outPos == 1024#32 && t.result == 2#32 && t.symCnt == 1#64) = true := by decide +kernel
/-- V-SYM-2, case b. -/
theorem test_encSym_noCode : thenHolds (exec (.encSym 0x7A#8) textLut) (fun t =>
    t.status == 0xD03A6#32 && t.errInfo == 0x7A#32 && t.result == 2#32) = true := by decide +kernel
/-- V-SYM-3. -/
theorem test_encNext : thenHolds (exec .encNext { textLut with inPos := 4#32, bwCnt := 3 }) (fun t =>
    t.bwBuf == 0x18#8 && t.bwCnt == 5 && t.inPos == 5#32 && t.result == 2#32) = true := by decide +kernel
/-- V-SYM-3, end of source, checked before NO_LUT. -/
theorem test_encNext_eos : thenHolds (exec .encNext State.reset) (fun t => t.status == 0xE0226#32 && t.errInfo == 0#32) = true := by
  decide +kernel
/-- V-SYM-4. -/
theorem test_decSym :
    thenHolds (exec .decSym { textTree with inMem := [(1024, 0x1F#8)], inPos := 1024#32, inLen := 1026#32 }) (fun t =>
      t.result == 0x61#32 && t.outMem == [(0, 0x61#8)] && t.brBuf == 0x1F#8 && t.brCnt == 7 && t.inPos == 1025#32 &&
        t.outPos == 1#32) = true := by decide +kernel
/-- V-DEC-5, case a, the failing symbol: one bit 1 is left, IN_POS and BR are put back. -/
theorem test_decSym_truncated :
    thenHolds (exec .decSym { textTree with inPos := 1025#32, inLen := 1025#32, brBuf := 0x1F#8, brCnt := 1, symCnt := 5#64 })
      (fun t => t.errCode == 4#8 && t.errInfo == 5#32 && t.inPos == 1025#32 && t.brBuf == 0x1F#8 && t.brCnt == 1) = true := by
  decide +kernel
/-- V-ENC-1. -/
theorem test_encode : thenHolds (exec .encode (loaded text)) (fun t =>
    t.result == 1026#32 && t.status == 0x3A2#32 && t.outMem.drop 1024 == [(1024, 0x1F#8), (1025, 0x00#8)] &&
      (t.outMem.filter fun c => decide (c.2 ≠ 0#8)) == [(0x187, 3#8), (0x18B, 2#8), (0x18F, 1#8), (1024, 0x1F#8)] &&
      t.symCnt == 6#64 && t.root == 4#9) = true := by decide +kernel
/-- What a loaded IN holds. -/
theorem inByte_loaded (bytes : List Byte) (a : Nat) (h : a < bytes.length) : (loaded bytes).inByte a = bytes[a] := by
  simp [State.inByte, loaded, Memory.read?, lookup_cellsFrom, List.getElem?_eq_getElem h]

/-- A file: the header of a table, then payload bytes. -/
def fileOf (freq : Vector Word 256) (payload : List Byte) : List Byte := headerBytes freq ++ payload

/-- The state after DECODE's header step on a loaded file. -/
def afterHeader (freq : Vector Word 256) (payload : List Byte) : State :=
  { (loaded (fileOf freq payload)).startDecode with freq := freq, inPos := 1024#32, tree := .none, root := 0#9, lutValid := false }

/-- DECODE's header step on a loaded file. -/
theorem freqHdrRd_file (freq : Vector Word 256) (payload : List Byte) (h : payload.length ≤ 3072) :
    freqHdrRd (loaded (fileOf freq payload)).startDecode = .ok () (afterHeader freq payload) := by
  have hl : (fileOf freq payload).length = 1024 + payload.length := by simp [fileOf]
  have e : (loaded (fileOf freq payload)).startDecode.avail = 1024 + payload.length := by
    simp [State.avail, State.startDecode, loaded, hl, Nat.mod_eq_of_lt (show 1024 + payload.length < 4294967296 by omega)]
  have ht : (headerTable fun k => (loaded (fileOf freq payload)).startDecode.inByte
      ((loaded (fileOf freq payload)).startDecode.inPos.toNat + k)) = freq := by
    refine headerTable_headerBytes fun a ha => ?_
    have e2 : (loaded (fileOf freq payload)).startDecode.inByte ((loaded (fileOf freq payload)).startDecode.inPos.toNat + a) =
        (loaded (fileOf freq payload)).inByte a := by simp [State.startDecode, State.inByte]
    rw [e2, inByte_loaded _ a (by omega), ← List.getElem?_eq_getElem, fileOf, List.getElem?_append_left (by simpa using ha)]
  unfold freqHdrRd
  rw [e, if_neg (by simp [Config.hdrBytes]), if_neg (by
    simp [State.startDecode, loaded, Config.hdrBytes, State.reset, State.resetFor, Config.inSize]), ht]
  rfl

/-- DECODE of a loaded file, after its header step. -/
theorem exec_decode_file (freq : Vector Word 256) (payload : List Byte) (h : payload.length ≤ 3072) :
    exec .decode (loaded (fileOf freq payload)) =
      completeWith ((treeBuild (afterHeader freq payload)).effect.andThen fun _ s =>
        if s.tree = .empty then .ok 0#32 s
        else (decodeLoop (s.total - s.symCnt).toNat s).andThen fun _ s => .ok s.outPos s) := by
  simp only [exec, execDecode, decodeFile, freqHdrRd_file freq payload h, Run.ok_andThen]

/-- V-DEC-1. -/
theorem test_decode : thenHolds (exec .decode (loaded (fileOf textFreq [0x1F#8, 0x00#8]))) (fun t =>
    t.outMem.map (·.2) == text && t.result == 6#32 && t.inPos == 1026#32 && t.brBuf == 0#8 && t.brCnt == 7 &&
      t.status == 0xA2#32) = true := by
  rw [exec_decode_file _ _ (by decide)]
  decide +kernel
/-- V-DEC-5, case a: the payload ends inside the last symbol. -/
theorem test_decode_truncated : thenHolds (exec .decode (loaded (fileOf textFreq [0x1F#8]))) (fun t =>
    t.status == 0x400A6#32 && t.errInfo == 5#32 && t.inPos == 1025#32 && t.brBuf == 0x1F#8 && t.brCnt == 1) = true := by
  rw [exec_decode_file _ _ (by decide)]
  decide +kernel

/-! ## Acceptance, the bus and the port -/

/-- V-ERR-2: a second CMD write while BUSY is dropped. -/
theorem test_overrun : thenHolds (step { State.reset with pending := some 0#32, events := [.host (.regWrite 4 4 0#32)] }) (fun t =>
    t.status == 0x231#32 && t.pending == some 0#32) = true := by decide +kernel
/-- V-ERR-1: rejected while ERR = 1. -/
theorem test_rejected : thenHolds (step { State.reset with
      done := true, err := true, errCode := 5#8, events := [.host (.regWrite 4 4 0x10000000#32)] }) (fun t =>
    t.status == 0x5022E#32 && t.pending == none) = true := by decide +kernel
/-- V-WORD-3: an illegal word, at the sequencer's turn. -/
theorem test_illegal_word : thenHolds (step { State.reset with pending := some 0x41000000#32 }) (fun t =>
    t.status == 0x10226#32 && t.errInfo == 0x41000000#32) = true := by decide +kernel
/-- V-TREE-1: NODE[3].LINK reads 0x00010002. -/
theorem test_node_window : thenHolds (step { textTree with events := [.host (.regRead 4 0x303C)] }) (fun t =>
    t.hostData == 0x00010002#32) = true := by decide +kernel
/-- V-LUT-1: LUT_CODE['b'] word 0 reads 0xC0000000. -/
theorem test_code_window : thenHolds (step { textLut with events := [.host (.regRead 4 0x1C40)] }) (fun t =>
    t.hostData == 0xC0000000#32) = true := by decide +kernel
/-- R77: a byte access is refused. -/
theorem test_bad_width : step { State.reset with events := [.host (.regRead 1 0)] } = .refused .badBusAccess := rfl
/-- V-ERR-3: IRQ stays 1 after ACK while ERR = 1. -/
theorem test_irq : thenHolds (step { loaded [0#8] with
      done := true, err := true, errCode := 3#8, ieErr := true, events := [.host (.regWrite 4 8 2#32)] }) (fun t =>
    t.status == 0x30424#32) = true := by decide +kernel
/-- A word placed by withFetchWord runs at the very next step. -/
theorem test_withFetchWord : step (State.reset.withFetchWord 32 0x30000000) = exec .treeBuild { State.reset with
    pending := some 0x30000000#32 } := rfl

/-! ## Witnesses: for every obligation with hypotheses, states and operands that meet them, at the boundaries of each clause -/

/-- A next state is the one `nextOf` reads off. -/
theorem eq_next_nextOf {o : Outcome} (h : thenHolds o (fun _ => true) = true) : o = .next (nextOf o) := by
  cases o <;> simp_all [thenHolds, nextOf]

/-- Loaded states meet the invariants. -/
theorem loaded_inv {bytes : List Byte} (h : bytes.length ≤ 4096) : (loaded bytes).Inv := by
  have hb : bytes.length % 2 ^ 32 = bytes.length := Nat.mod_eq_of_lt (by omega)
  have hr : State.reset.SizesOk ∧ State.reset.BitsOk ∧ State.reset.CountsOk ∧ State.reset.HeapRefsOk ∧ ArenaOk State.reset.arena ∧
      State.reset.TreeOk ∧ State.reset.ErrorOk ∧ State.reset.outMem.wf ∧ HeapOrdered State.reset.arena State.reset.heap := by decide
  obtain ⟨h1, h2, h3, h4, h5, h6, h7, h8, h9⟩ := hr
  refine ⟨⟨h1, ⟨?_, Nat.zero_le _⟩, h2, h3, h4, h5, h6, h7, cellsFrom_wf bytes 0, h8, ?_, fun c hc => nomatch hc⟩, h9⟩
  · rw [show (loaded bytes).inLen = BitVec.ofNat 32 bytes.length from rfl, BitVec.toNat_ofNat, hb]
    exact h
  · intro c hc
    have := addr_of_mem_cellsFrom hc
    exact Nat.lt_of_lt_of_le this.2 (by rw [Nat.zero_add]; exact h)

/-- Fresh, with a coming event. -/
def facing (e : Event) : State := { State.reset with events := [e] }

theorem witness_DecodeAfterEncodeIsIdentity :
    (Instr.bwPut 1#5 1#16).wellFormed = true ∧ (Instr.bwPut 16#5 0xFFFF#16).wellFormed = true := by decide
theorem witness_EncodeAfterDecodeIsIdentity : decode 0x4110FFFF#32 = some (.bwPut 16#5 0xFFFF#16) := by decide
theorem witness_DecoderAcceptsExactlyTheTable :
    (decode 0x4110FFFF#32).isSome = true ∧ (decode 0x41110000#32).isSome = false ∧ (decode 0xFFFFFFFF#32).isSome = false := by decide
theorem witness_IllegalWordOnlyRaisesError :
    ({ State.reset with pending := some 5#32 }).pending = some 5#32 ∧ decode 5#32 = none ∧
      (0xFF000000#32).extractLsb' 24 8 = 0xFF#8 ∧ ¬ LegalWord 0x00000001#32 ∧ ¬ LegalWord 0x41000000#32 ∧
      ¬ LegalWord 0x41110000#32 ∧ ¬ LegalWord 0x41010002#32 := by
  unfold LegalWord
  decide
theorem witness_StepRunsTheDecodedCommand :
    ({ State.reset with pending := some 0x60000000#32 }).events = [] ∧ decode 0x60000000#32 = some .encode ∧
      (facing .sequencer).events = .sequencer :: [] ∧ decodeTableWord 32 0x4110FFFF = some (.bwPut 16#5 0xFFFF#16) ∧
      State.reset.pending = none := by decide
theorem witness_CmdWriteIsAcceptedDroppedOrRejected :
    (facing (.host (.regWrite 4 0x0004 0x10000000#32))).events = .host (.regWrite 4 0x0004 0x10000000#32) :: [] ∧
      (0x10000000#32).extractLsb' 24 8 ∉ [0x00#8, 0x01#8, 0x02#8] ∧ (0x02000001#32).extractLsb' 24 8 ∈ [0x00#8, 0x01#8, 0x02#8] ∧
      decode 0x02000001#32 = none := by
  decide
theorem witness_GuardedWritesAreDroppedWhileBusy :
    [0x0004, 0x0018, 0x001C, 0x0020, 0x0400, 0x07FC, 0x0008, 0x000C, 0x0000, 0x0010, 0x0014, 0x0024, 0x03FC, 0x0800, 0x4FFC].all
      (fun off => decide ((facing (.host (.regWrite 4 off 1#32))).events = .host (.regWrite 4 off 1#32) :: [] ∧ off % 4 = 0 ∧
        off < 0x5000)) = true := by decide
theorem witness_NamedRegistersReadAsMapped :
    ({ heapOf [1#64] (List.replicate 256 0#9) with bwCnt := 7, brCnt := 8 }).pending = none ∧
      (heapOf [1#64] (List.replicate 256 0#9)).heap.length ≤ 256 ∧ (heapOf (List.replicate 511 1#64) []).arena.length ≤ 511 ∧
      [0x0054, 0x03FC, 0x4FF0, 0x4FFC].all
        (fun off => decide (off % 4 = 0 ∧ (0x0054 ≤ off ∧ off < 0x0400 ∨ 0x4FF0 ≤ off ∧ off < 0x5000))) = true := by decide +kernel
theorem witness_WindowsReadTheArrays :
    (heapOf [1#64] (List.replicate 256 0#9)).pending = none ∧ (heapOf [1#64] (List.replicate 256 0#9)).heap[255]? = some 0#9 ∧
      (heapOf [1#64] (List.replicate 255 0#9)).heap.length ≤ 255 ∧
      (heapOf (List.replicate 511 1#64) []).arena[510]? = some ⟨1#64, 0#8, true, 0#9, 0#9⟩ ∧
      (heapOf (List.replicate 510 1#64) []).arena.length ≤ 510 := by decide +kernel
theorem witness_BusyReadsAreUnspecified :
    [0x0000, 0x0008, 0x000C, 0x0024, 0x0028, 0x0004, 0x0010, 0x0020, 0x002C, 0x0050, 0x0400, 0x4FEC].all (fun off =>
      decide (({ facing (.host (.regRead 4 off)) with pending := some 0#32 }).pending = some 0#32 ∧
        (facing (.host (.regRead 4 off))).events = .host (.regRead 4 off) :: [] ∧ off % 4 = 0)) = true := by decide
theorem witness_BadBusAccessesAreRefused :
    (facing (.host (.regWrite 2 0x4FFC 1#32))).events = .host (.regWrite 2 0x4FFC 1#32) :: [] ∧ (2 : Nat) ≠ 4 ∧
      (facing (.host (.regRead 4 0x4FFF))).events = .host (.regRead 4 0x4FFF) :: [] ∧ 0x4FFF % 4 ≠ 0 ∧
      (facing (.host (.regRead 4 0x5000))).events = .host (.regRead 4 0x5000) :: [] ∧
      (facing (.host (.regWrite 1 0x5001 1#32))).events = .host (.regWrite 1 0x5001 1#32) :: [] := by decide
/-- R78: at 0x5000 the platform answers, while BUSY = 1 too; at 0x4FFC the HCC does. -/
theorem test_platform_answers_from_0x5000 :
    step { facing (.host (.regRead 4 0x5000)) with pending := some 0#32 } =
        .next { State.reset with pending := some 0#32, hostData := Config.platformAnswer 0 4 0x5000, freeCnt := 1 } ∧
      step (facing (.host (.regRead 4 0x4FFC))) = .next State.reset := ⟨rfl, rfl⟩
theorem witness_PortMovesBytesOnlyWhenIdle :
    (facing (.host (.loadIn 4095 1#8))).events = .host (.loadIn 4095 1#8) :: [] ∧ 4095 < State.reset.inSize.toNat ∧
      ({ facing (.host (.readOut 0)) with outPos := 1#32 }).events = .host (.readOut 0) :: [] ∧ 0 < (1#32).toNat ∧
      0 < State.reset.outCap.toNat ∧ ({ State.reset with pending := some 0#32 }).pending ≠ none := by decide
theorem witness_FreqWriteInvalidatesDerived :
    (facing (.host (.regWrite 4 (0x0400 + 4 * (255#8).toNat) 7#32))).pending = none ∧
      (facing (.host (.regWrite 4 0x07FC 7#32))).events = .host (.regWrite 4 (0x0400 + 4 * (255#8).toNat) 7#32) :: [] := by decide
theorem witness_CursorWritesAreLimited :
    State.reset.pending = none ∧ (facing (.host (.regWrite 4 0x0018 4097#32))).events = .host (.regWrite 4 0x0018 4097#32) :: [] ∧
      (facing (.host (.regWrite 4 0x001C 9#32))).events = .host (.regWrite 4 0x001C 9#32) :: [] ∧
      (facing (.host (.regWrite 4 0x0020 4096#32))).events = .host (.regWrite 4 0x0020 4096#32) :: [] := by decide
theorem witness_ResetLeavesTheResetValues : (facing .reset).events = .reset :: [] := by decide
/-- The one counter of a table. -/
theorem tableGet_freqOf_one (b c : Byte) (v : Word) : tableGet (freqOf [(b, v)]) c = if c = b then v else 0#32 := by
  simp [freqOf, tableGet_tableSet]

theorem witness_FreqScanCountsTheInput :
    (loaded text).inLen.toNat ≤ (loaded text).inSize.toNat ∧
      ∀ b, (tableGet (freqOf [(0x62#8, 0xFFFFFFFD#32)]) b).toNat + (loaded text).inBytes.count b < 2 ^ 32 := by
  refine ⟨by decide, fun b => ?_⟩
  rw [show (loaded text).inBytes = text from rfl, tableGet_freqOf_one]
  split
  · rename_i h
    rw [h]
    decide
  · have := List.count_le_length (a := b) (l := text)
    rw [show text.length = 6 from rfl] at this
    simp only [BitVec.toNat_ofNat]
    omega
theorem witness_FreqScanStopsBeforeOverflow :
    (loaded [0x42#8, 0x41#8]).inLen.toNat ≤ (loaded [0x42#8, 0x41#8]).inSize.toNat ∧
      (loaded [0x42#8, 0x41#8]).inBytes[1]? = some 0x41#8 ∧
      (∀ b, (tableGet (freqOf [(0x41#8, 0xFFFFFFFF#32)]) b).toNat + ((loaded [0x42#8, 0x41#8]).inBytes.take 1).count b < 2 ^ 32) ∧
      (tableGet (freqOf [(0x41#8, 0xFFFFFFFF#32)]) 0x41#8).toNat + ((loaded [0x42#8, 0x41#8]).inBytes.take 1).count 0x41#8 =
        2 ^ 32 - 1 := by
  have e : (loaded [0x42#8, 0x41#8]).inBytes = [0x42#8, 0x41#8] := rfl
  rw [e]
  refine ⟨by decide, rfl, fun b => ?_, by rw [tableGet_freqOf_one]; decide⟩
  rw [tableGet_freqOf_one]
  split
  · rename_i h
    rw [h]
    decide
  · have := List.count_le_length (a := b) (l := [0x42#8, 0x41#8].take 1)
    rw [show ([0x42#8, 0x41#8].take 1).length = 1 from rfl] at this
    simp only [BitVec.toNat_ofNat]
    omega
theorem witness_HeaderWriteIsBigEndian :
    (3072#32).toNat + 1024 ≤ State.reset.outCap.toNat ∧ State.reset.outCap.toNat < (3073#32).toNat + 1024 := by decide
theorem witness_HeaderReadReplacesTheTable :
    (4096#32).toNat ≤ State.reset.inSize.toNat ∧ (3072#32).toNat + 1024 ≤ (4096#32).toNat ∧
      (4096#32).toNat < (3073#32).toNat + 1024 := by decide
theorem witness_NodeLeafAppendsALeaf :
    (heapOf (List.replicate 510 1#64) []).arena.length < 511 ∧ (heapOf (List.replicate 511 1#64) []).arena.length = 511 := by
  decide +kernel
/-- The clauses of NODE_JOIN, in order: a bad IDXA, a bad IDXB, a full arena, a sum of 2^64, a sum of 2^64 - 1. -/
theorem witness_NodeJoinAppendsAnInternalNode :
    (heapOf [1#64] []).arena.length ≤ (1#9).toNat ∧
      ((0#9).toNat < (heapOf [1#64] []).arena.length ∧ (heapOf [1#64] []).arena.length ≤ (511#9).toNat) ∧
      ((510#9).toNat < (heapOf (List.replicate 511 1#64) []).arena.length ∧
        (heapOf (List.replicate 511 1#64) []).arena.length = 511) ∧
      (heapOf [0xFFFFFFFFFFFFFFFF#64, 1#64, 0#64] []).arena.length < 511 ∧
      2 ^ 64 ≤ (weightAt (heapOf [0xFFFFFFFFFFFFFFFF#64, 1#64, 0#64] []).arena 0#9).toNat +
        (weightAt (heapOf [0xFFFFFFFFFFFFFFFF#64, 1#64, 0#64] []).arena 1#9).toNat ∧
      (weightAt (heapOf [0xFFFFFFFFFFFFFFFF#64, 1#64, 0#64] []).arena 0#9).toNat +
        (weightAt (heapOf [0xFFFFFFFFFFFFFFFF#64, 1#64, 0#64] []).arena 2#9).toNat < 2 ^ 64 := by decide +kernel
theorem witness_HeapInsertAddsTheNode :
    (heapOf [1#64] []).arena.length ≤ (1#9).toNat ∧ (0#9).toNat < (heapOf [1#64] []).arena.length ∧
      (heapOf [1#64] (List.replicate 256 0#9)).heap.length = 256 ∧ (heapOf [1#64] (List.replicate 255 0#9)).heap.length < 256 ∧
      HeapOrdered (heapOf [1#64] (List.replicate 3 0#9)).arena (heapOf [1#64] (List.replicate 3 0#9)).heap := by decide +kernel
theorem witness_HeapExtractRemovesALightestNode :
    State.reset.heap = [] ∧ (heapOf [1#64, 5#64] [0#9, 1#9]).heap = 0#9 :: [1#9] ∧
      HeapOrdered (heapOf [1#64, 5#64] [0#9, 1#9]).arena (heapOf [1#64, 5#64] [0#9, 1#9]).heap := by decide +kernel
theorem witness_EqualWeightsAreNotFirstInFirstOut :
    let s := heapOf [4#64, 4#64, 4#64] []
    weightAt s.arena 0#9 = weightAt s.arena 1#9 ∧ weightAt s.arena 1#9 = weightAt s.arena 2#9 ∧ 2 < s.arena.length ∧ s.heap = [] := by
  decide
theorem witness_TreeBuildLayout : presentSymbols textFreq ≠ [] := by
  have h : tableGet textFreq 0x61#8 ≠ 0#32 := by decide +kernel
  exact List.ne_nil_of_mem (mem_presentSymbols.2 h)
theorem witness_TreeBuildOfZeroSymbolsAndOfOne :
    (∀ b, tableGet State.reset.freq b = 0#32) ∧ tableGet (freqOf [(0x41#8, 1#32)]) 0x41#8 ≠ 0#32 ∧
      ∀ c, c ≠ 0x41#8 → tableGet (freqOf [(0x41#8, 1#32)]) c = 0#32 := by
  refine ⟨fun b => tableGet_replicate _ b, ?_, fun c hc => ?_⟩
  · rw [tableGet_freqOf_one]
    decide
  · rw [tableGet_freqOf_one, if_neg hc]

/-- What TREE_BUILD makes of the counters of "aaabbc", over any state. -/
def builtOver (s : State) : State :=
  { s with
    arena := textArena, heap := [], tree := .valid, root := 4#9, nLeaf := 3#9, total := 6#64, lutValid := false, result := 3#32,
    pending := none, done := true }

/-- The fields TREE_BUILD writes, as V-TREE-1 has them. -/
def isTextTree (t : State) : Bool :=
  t.arena == textArena && t.tree == .valid && t.root == 4#9 && t.nLeaf == 3#9 && t.total == 6#64 && t.result == 3#32

theorem built_of {s : State} (h : thenHolds (exec .treeBuild s) isTextTree = true) : exec .treeBuild s = .next (builtOver s) := by
  obtain ⟨v, t, h1, h2⟩ := treeBuild_frame s
  have e : exec .treeBuild s = .next { t with result := v }.finish := by
    show completeWith (treeBuild s) = _
    rw [h1]
    rfl
  rw [e] at h ⊢
  simp only [thenHolds, isTextTree, Bool.and_eq_true, beq_iff_eq] at h
  obtain ⟨⟨⟨⟨⟨a1, a2⟩, a3⟩, a4⟩, a5⟩, a6⟩ := h
  simp only [State.finish_arena, State.finish_tree, State.finish_root, State.finish_nLeaf, State.finish_total,
    State.finish_result] at a1 a2 a3 a4 a5 a6
  rw [a1, a2, a3, a4, a5] at h2
  rw [h2, a6]
  rfl

/-- TREE_BUILD on the counters of "aaabbc". -/
def built : State := builtOver { loaded text with freq := textFreq }

theorem built_eq : exec .treeBuild { loaded text with freq := textFreq } = .next built := built_of (by decide +kernel)

/-- Two internal nodes, the first and the last, with an earlier one before the last. -/
theorem witness_TreeBuildLayout_internal_nodes :
    exec .treeBuild { loaded text with freq := textFreq } = .next built ∧ (presentSymbols textFreq).length = 3 ∧
      built.arena[3]?.isSome = true ∧ built.arena[4]?.isSome = true ∧ 3 ≤ 3 ∧ 3 < 4 :=
  ⟨built_eq, by decide +kernel, rfl, rfl, by decide, by decide⟩

theorem witness_TreeBuildDependsOnFreqAlone :
    ({ loaded text with freq := textFreq }).freq = ({ textLut with heap := [0#9] }).freq ∧
      exec .treeBuild { loaded text with freq := textFreq } = .next built := ⟨rfl, built_eq⟩
theorem witness_CodeGenWithoutInternalNodes :
    State.reset.tree = .none ∧ ({ State.reset with tree := .empty }).tree = .empty ∧
      ({ heapOf [9#64] [] with tree := .valid }).tree = .valid ∧ (nodeAt (heapOf [9#64] []).arena (0#9)).leaf = true := by decide
theorem witness_CodeGenWritesOnlyTheCodeTable : textTree.Bounded ∧ textTree.tree ≠ .none := by decide +kernel

/-- CODE_GEN after that. -/
def coded : State := nextOf (exec .codeGen built)

theorem coded_eq : exec .codeGen built = .next coded := eq_next_nextOf (by decide +kernel)

theorem witness_CodesLeadToTheirLeaves :
    exec .treeBuild { loaded text with freq := textFreq } = .next built ∧ exec .codeGen built = .next coded ∧
      presentSymbols textFreq ≠ [] := ⟨built_eq, coded_eq, witness_TreeBuildLayout⟩
theorem witness_CodesArePrefixFreeAndComplete :
    exec .treeBuild { loaded text with freq := textFreq } = .next built ∧ exec .codeGen built = .next coded ∧ 2 ≤ coded.nLeaf.toNat :=
  ⟨built_eq, coded_eq, by decide +kernel⟩
theorem witness_BwPutSendsItsBits :
    bwPutLegal 16#5 0xFFFF#16 = true ∧ ({ State.reset with bwBuf := 0xAA#8, bwCnt := 7 }).BitsOk ∧ (7 + (16#5).toNat) / 8 = 2 ∧
      (4094#32).toNat + 2 ≤ State.reset.outCap.toNat ∧ State.reset.outCap.toNat - (4095#32).toNat < 2 := by decide +kernel
theorem witness_BwFinalizeFlushesAPartialByte :
    ({ State.reset with bwBuf := 0xFE#8, bwCnt := 7 }).BitsOk ∧ (7 : Nat) ≠ 0 ∧ (4095#32).toNat < State.reset.outCap.toNat ∧
      State.reset.outCap.toNat ≤ (4096#32).toNat := by decide +kernel
theorem witness_BrGetDeliversTheNextBit :
    State.reset.brCnt = 0 ∧ State.reset.inLen.toNat ≤ State.reset.inPos.toNat ∧
      (loaded [0xB3#8]).inPos.toNat < (loaded [0xB3#8]).inLen.toNat ∧ (loaded [0xB3#8]).inLen.toNat ≤ (loaded [0xB3#8]).inSize.toNat ∧
      ({ State.reset with brCnt := 8 }).brCnt ≠ 0 := by decide
theorem witness_EncSymSendsTheCode :
    textLut.BitsOk ∧ textLut.lutValid = true ∧ tableGet textLut.lutLen 0x62#8 ≠ 0#8 ∧
      (4095#32).toNat + (7 + (tableGet textLut.lutLen 0x62#8).toNat) / 8 ≤ textLut.outCap.toNat := by decide +kernel
theorem witness_EncNextSendsTheNextByte :
    let s := { textLut with inPos := 5#32 }
    s.BitsOk ∧ s.inPos.toNat < s.inLen.toNat ∧ s.inLen.toNat ≤ s.inSize.toNat ∧ s.lutValid = true ∧
      tableGet s.lutLen (s.inByte s.inPos.toNat) ≠ 0#8 ∧
      s.outPos.toNat + (s.bwCnt + (tableGet s.lutLen (s.inByte s.inPos.toNat)).toNat) / 8 ≤ s.outCap.toNat := by decide +kernel
/-- The clauses of the encoding errors, in order: no table, no code, no room (seven bits pending, OUT full), end of source. -/
theorem witness_EncodingErrorsInOrder :
    (Instr.encSym 0x7A#8 = .encSym 0x7A#8) ∧ ({ textLut with lutValid := false }).lutValid = false ∧
      (textLut.lutValid = true ∧ tableGet textLut.lutLen 0x7A#8 = 0#8) ∧
      (tableGet textLut.lutLen 0x62#8 ≠ 0#8 ∧
        textLut.outCap.toNat - (4096#32).toNat < (7 + (tableGet textLut.lutLen 0x62#8).toNat) / 8) ∧
      textLut.inLen.toNat ≤ textLut.inPos.toNat ∧
      (({ textLut with inPos := 5#32 }).inPos.toNat < textLut.inLen.toNat ∧ textLut.inLen.toNat ≤ textLut.inSize.toNat ∧
        0x63#8 = textLut.inByte 5) := by decide +kernel

/-- The tree of "aaabbc" with the file's payload 1F 00 at IN address 0. -/
def reading : State := { textTree with inMem := cellsFrom 0 [0x1F#8, 0x00#8], inPos := 0#32, inLen := 2#32 }

theorem witness_DecSymDecodesOneSymbol :
    reading.tree = .valid ∧ reading.outPos.toNat < reading.outCap.toNat ∧ reading.inLen.toNat ≤ reading.inSize.toNat ∧
      [false].IsPrefix reading.readerBits ∧ reading.decodesTo [false] = some 0x61#8 := by decide +kernel
theorem witness_DecSymErrorsChangeNothing :
    State.reset.tree ≠ .valid ∧ textTree.tree = .valid ∧ textTree.outCap.toNat ≤ (4096#32).toNat ∧
      textTree.outPos.toNat < textTree.outCap.toNat ∧ textTree.inLen.toNat ≤ textTree.inSize.toNat ∧
      ∀ path, path.IsPrefix textTree.readerBits → textTree.decodesTo path = none := by
  refine ⟨by decide, by decide, by decide, by decide, by decide, fun path h => ?_⟩
  have e : textTree.readerBits = [] := by decide +kernel
  rw [e] at h
  rw [List.prefix_nil.1 h]
  decide +kernel
theorem witness_EncodeWritesTheFile :
    (loaded text).Inv ∧ (loaded text).err = false ∧ (loaded text).outCap.toNat ≥ 1024 + 32 * (loaded text).inLen.toNat :=
  ⟨loaded_inv (by decide), rfl, by decide⟩

/-- The end of V-ENC-1. -/
def encoded : State := nextOf (exec .encode (loaded text))

/-- A property of the next state holds of the state `nextOf` reads off. -/
theorem holds_nextOf {o : Outcome} {p : State → Bool} (h : thenHolds o p = true) : o = .next (nextOf o) ∧ p (nextOf o) = true := by
  cases o <;> simp_all [thenHolds, nextOf]

theorem encoded_run : exec .encode (loaded text) = .next encoded ∧
    (!encoded.err && encoded.payloadBits == 9 && encoded.outMem == cellsFrom 0 (fileOf textFreq [0x1F#8, 0x00#8])) = true :=
  holds_nextOf (p := fun t => !t.err && t.payloadBits == 9 && t.outMem == cellsFrom 0 (fileOf textFreq [0x1F#8, 0x00#8]))
    (by decide +kernel)

theorem encoded_eq : exec .encode (loaded text) = .next encoded := encoded_run.1
theorem encoded_err : encoded.err = false := by
  have h := encoded_run.2
  simp only [Bool.and_eq_true, Bool.not_eq_true'] at h
  exact h.1.1

theorem witness_EncodeIsDeterministic :
    (loaded text).Inv ∧ textLut.Inv ∧ (loaded text).err = false ∧ textLut.err = false ∧ (loaded text).inLen = textLut.inLen ∧
      (loaded text).outCap = textLut.outCap ∧ (∀ a, a < (loaded text).inLen.toNat → (loaded text).inByte a = textLut.inByte a) ∧
      exec .encode (loaded text) = .next encoded ∧ encoded.err = false :=
  ⟨loaded_inv (by decide), by decide +kernel, rfl, rfl, rfl, rfl, fun _ _ => rfl, encoded_eq, encoded_err⟩

/-- IN holding the file of V-ENC-1. -/
def holdingFile : State := loaded (fileOf textFreq [0x1F#8, 0x00#8])

theorem encoded_outMem : encoded.outMem = holdingFile.inMem := by
  have h := encoded_run.2
  simp only [Bool.and_eq_true, beq_iff_eq] at h
  exact h.2
theorem length_file : (fileOf textFreq [0x1F#8, 0x00#8]).length = 1026 := by simp [fileOf]

/-- OUT after ENCODE and IN loaded with the file hold the same bytes. -/
theorem holdingFile_inByte {a : Nat} (h : a < 1026) : holdingFile.inByte a = encoded.outByte a := by
  have e : holdingFile.inMem.read? a = some ((fileOf textFreq [0x1F#8, 0x00#8])[a]'(by rw [length_file]; exact h)) := by
    have h2 := length_file
    show (cellsFrom 0 (fileOf textFreq [0x1F#8, 0x00#8])).lookup a = _
    rw [lookup_cellsFrom, if_pos (Nat.zero_le a), Nat.sub_zero, List.getElem?_eq_getElem (by omega)]
  rw [State.inByte, State.outByte, encoded_outMem, e]
  rfl

theorem encoded_payloadBits : encoded.payloadBits = 9 := by
  have h := encoded_run.2
  simp only [Bool.and_eq_true, beq_iff_eq] at h
  exact h.1.2
theorem holdingFile_inv : holdingFile.Inv := loaded_inv (by rw [length_file]; decide)

theorem witness_DecodeInvertsEncode :
    (loaded text).Inv ∧ (loaded text).err = false ∧ exec .encode (loaded text) = .next encoded ∧ encoded.err = false ∧
      holdingFile.Inv ∧ holdingFile.err = false ∧ 1024 + (encoded.payloadBits + 7) / 8 ≤ holdingFile.inLen.toNat ∧
      (loaded text).inLen.toNat ≤ holdingFile.outCap.toNat ∧ (∀ a, a < 1024 → holdingFile.inByte a = encoded.outByte a) ∧
      ∀ k, k < encoded.payloadBits → payloadBit holdingFile.inByte k = payloadBit encoded.outByte k := by
  have hl : holdingFile.inLen = 1026#32 := by
    show BitVec.ofNat 32 (fileOf textFreq [0x1F#8, 0x00#8]).length = _
    rw [length_file]
  refine ⟨loaded_inv (by decide), rfl, encoded_eq, encoded_err, holdingFile_inv, rfl, ?_, by decide, ?_, ?_⟩
  · rw [encoded_payloadBits, hl]
    decide
  · intro a ha
    exact holdingFile_inByte (by omega)
  · intro k hk
    rw [encoded_payloadBits] at hk
    rw [payloadBit, payloadBit, holdingFile_inByte (by omega)]

theorem holdingFile_header : headerTable holdingFile.inByte = textFreq :=
  headerTable_headerBytes fun a ha => by
    rw [holdingFile, inByte_loaded _ a (by rw [length_file]; omega), ← List.getElem?_eq_getElem, fileOf,
      List.getElem?_append_left (by simpa using ha)]

/-- DECODE's tree for the file, and its codes. -/
def fileTree : State := builtOver { holdingFile with freq := textFreq }
def fileCodes : State := nextOf (exec .codeGen fileTree)

theorem witness_DecodeReadsTheCodesOfItsHeader :
    holdingFile.inLen.toNat ≤ holdingFile.inSize.toNat ∧ 1024 ≤ holdingFile.inLen.toNat ∧
      exec .treeBuild { holdingFile with freq := headerTable holdingFile.inByte } = .next fileTree ∧
      exec .codeGen fileTree = .next fileCodes ∧ text.length = tableSum (headerTable holdingFile.inByte) ∧
      text.length ≤ holdingFile.outCap.toNat ∧ (∀ b ∈ text, fileCodes.codeOf b ≠ []) ∧
      (text.flatMap fileCodes.codeOf).IsPrefix
        ((List.range (holdingFile.inLen.toNat - 1024)).flatMap fun i => byteBits (holdingFile.inByte (1024 + i))) := by
  rw [holdingFile_header]
  refine ⟨holdingFile_inv.1.2.1.1, ?_, built_of (by decide +kernel), eq_next_nextOf (by decide +kernel), by decide +kernel,
    by decide, by decide +kernel, by decide +kernel⟩
  show 1024 ≤ (BitVec.ofNat 32 (fileOf textFreq [0x1F#8, 0x00#8]).length).toNat
  rw [length_file]
  decide

/-- A header of zeros. -/
def zeroFile : State := loaded (fileOf (Vector.replicate 256 0#32) [])

theorem witness_DecodeOfEmptyAndTruncatedHeaders :
    zeroFile.inLen.toNat ≤ zeroFile.inSize.toNat ∧ 1024 ≤ zeroFile.inLen.toNat ∧ (∀ a, a < 1024 → zeroFile.inByte a = 0#8) ∧
      ({ State.reset with inLen := 1023#32 }).inLen.toNat < 1024 := by
  have hl : (fileOf (Vector.replicate 256 0#32) []).length = 1024 := by simp [fileOf]
  have hb : fileOf (Vector.replicate 256 0#32) [] = List.replicate 1024 0#8 := by decide +kernel
  have h1 : 1024 ≤ zeroFile.inLen.toNat := by
    show 1024 ≤ (BitVec.ofNat 32 (fileOf (Vector.replicate 256 0#32) []).length).toNat
    rw [hl]
    decide
  refine ⟨(loaded_inv (by rw [hl]; decide)).1.2.1.1, h1, fun a ha => ?_, by decide⟩
  rw [zeroFile, inByte_loaded _ a (by omega)]
  have e : (fileOf (Vector.replicate 256 0#32) [])[a]? = some 0#8 := by
    rw [hb, List.getElem?_replicate, if_pos ha]
  rw [List.getElem?_eq_getElem (by omega)] at e
  exact Option.some.inj e
theorem witness_ResultIsWrittenOnlyOnNamedSuccess :
    exec .nop State.reset = .next (nextOf (exec .nop State.reset)) ∧ keepsResult .nop = true ∧
      exec .heapExtract State.reset = .next (nextOf (exec .heapExtract State.reset)) ∧ State.reset.err = false ∧
      (nextOf (exec .heapExtract State.reset)).err = true :=
  ⟨eq_next_nextOf (by decide +kernel), rfl, eq_next_nextOf (by decide +kernel), rfl, by decide +kernel⟩
theorem witness_CommandsRaiseOnlyListedErrors :
    State.reset.Bounded ∧ State.reset.err = false ∧
      exec .heapExtract State.reset = .next (nextOf (exec .heapExtract State.reset)) ∧
      (nextOf (exec .heapExtract State.reset)).err = true :=
  ⟨by decide +kernel, rfl, eq_next_nextOf (by decide +kernel), by decide +kernel⟩
theorem witness_CommandsKeepInputAndParameters : exec .codeGen built = .next coded := coded_eq
theorem witness_OutIsWrittenOnlyAtOutPos : exec .encode (loaded text) = .next encoded := encoded_eq
theorem witness_OutContentsNeverInfluenceACommand :
    exec .encode (loaded text) = .next encoded ∧
      exec .codeGen { State.reset with tree := .valid } = .fault .walkDiverges ∧ (loaded text).storesFrom .encode = 0 ∧
      ({ State.reset with outPos := 7#32 }).storesFrom .bwFinalize = 7 := ⟨encoded_eq, rfl, rfl, rfl⟩
theorem witness_PendingCommandAlwaysCompletes :
    ({ State.reset with pending := some 0x30000000#32 }).Bounded ∧ ({ State.reset with pending := some 0x30000000#32 }).pending ≠ none := by
  decide +kernel
theorem witness_StepKeepsTheBounds :
    (facing .sequencer).Bounded ∧ step (facing .sequencer) = .next (nextOf (step (facing .sequencer))) :=
  ⟨by decide +kernel, eq_next_nextOf (by decide +kernel)⟩
theorem witness_StepKeepsTheInvariants :
    ({ heapOf [1#64, 5#64, 5#64] [0#9, 1#9, 2#9] with pending := some 0x26000000#32 }).Inv ∧
      step { heapOf [1#64, 5#64, 5#64] [0#9, 1#9, 2#9] with pending := some 0x26000000#32 } =
        .next (nextOf (step { heapOf [1#64, 5#64, 5#64] [0#9, 1#9, 2#9] with pending := some 0x26000000#32 })) :=
  ⟨by decide +kernel, eq_next_nextOf (by decide +kernel)⟩

end Sys2Proof.Tests
end

section
/-! SUPPORT. The invariants of R60, kept by every update, every primitive and every command. -/

namespace Sys2Proof.Machine

/-! ## The invariants by name -/

/-- The invariants of R60 by name. The heap property is asked for only where `ordered` holds: with `False` these are the bounds, with
`True` all the invariants, so that what keeps them is proved once for both. -/
structure State.Sound (ordered : Prop) (s : State) : Prop where
  sizes : s.SizesOk
  cursors : s.CursorsOk
  bits : s.BitsOk
  counts : s.CountsOk
  refs : s.HeapRefsOk
  shapes : ArenaOk s.arena
  tree : s.TreeOk
  error : s.ErrorOk
  memory : s.MemoryOk
  order : ordered → HeapOrdered s.arena s.heap

theorem State.sound_false_iff {s : State} : s.Sound False ↔ s.Bounded := by
  constructor
  · rintro ⟨h1, h2, h3, h4, h5, h6, h7, h8, h9, -⟩
    exact ⟨h1, h2, h3, h4, h5, h6, h7, h8, h9⟩
  · rintro ⟨h1, h2, h3, h4, h5, h6, h7, h8, h9⟩
    exact ⟨h1, h2, h3, h4, h5, h6, h7, h8, h9, False.elim⟩

theorem State.sound_true_iff {s : State} : s.Sound True ↔ s.Inv := by
  constructor
  · rintro ⟨h1, h2, h3, h4, h5, h6, h7, h8, h9, h10⟩
    exact ⟨⟨h1, h2, h3, h4, h5, h6, h7, h8, h9⟩, h10 trivial⟩
  · rintro ⟨⟨h1, h2, h3, h4, h5, h6, h7, h8, h9⟩, h10⟩
    exact ⟨h1, h2, h3, h4, h5, h6, h7, h8, h9, fun _ => h10⟩

/-! ## Updates of the state -/

/-- The state after reset is sound for legal sizes (R61). -/
theorem State.resetFor_sound {ordered : Prop} {inSize outCap : Word} (h : 0 < inSize.toNat ∧ 0 < outCap.toNat) :
    (State.resetFor inSize outCap).Sound ordered where
  sizes := h
  cursors := ⟨Nat.zero_le _, Nat.zero_le _⟩
  bits := ⟨Nat.zero_le _, Nat.zero_le _, fun _ _ => BitVec.getLsbD_zero⟩
  counts := ⟨Nat.zero_le _, Nat.zero_le _, Nat.zero_le _⟩
  refs := fun _ hi => absurd hi List.not_mem_nil
  shapes := fun _ hn => absurd hn (Nat.not_lt_zero _)
  tree := ⟨nofun, fun _ => rfl⟩
  error := ⟨fun _ => ⟨rfl, rfl, rfl⟩, nofun⟩
  memory := ⟨.nil, .nil, nofun, nofun⟩
  order := fun _ _ hk => absurd hk (Nat.not_lt_zero _)

section
variable {ordered : Prop} {s : State}

theorem State.Sound.hardReset (h : s.Sound ordered) : s.hardReset.Sound ordered := { State.resetFor_sound h.sizes with }

theorem State.Sound.softReset (h : s.Sound ordered) : s.softReset.Sound ordered :=
  { State.resetFor_sound h.sizes with memory := h.memory }

theorem State.Sound.finish (h : s.Sound ordered) : s.finish.Sound ordered := { h with }

/-- Every code of R230 is one of 1 to 14. -/
theorem ErrKind.code_range (k : ErrKind) : 1 ≤ k.code.toNat ∧ k.code.toNat ≤ 14 := by cases k <;> decide

theorem State.Sound.takeError (h : s.Sound ordered) (k : ErrKind) (info : Word) : (s.takeError k info).Sound ordered :=
  { h with error := ⟨nofun, fun _ => k.code_range⟩ }

theorem State.Sound.clearError (h : s.Sound ordered) : s.clearError.Sound ordered :=
  { h with error := ⟨fun _ => ⟨rfl, rfl, rfl⟩, nofun⟩ }

theorem State.Sound.invalidateDerived (h : s.Sound ordered) : s.invalidateDerived.Sound ordered :=
  { h with tree := ⟨nofun, fun _ => rfl⟩ }

/-- Emptying the heap keeps the invariants (R145). -/
theorem State.Sound.clearHeap (h : s.Sound ordered) : ({ s with heap := [] }).Sound ordered :=
  { h with
    counts := ⟨Nat.zero_le _, h.counts.2⟩, refs := fun _ hi => absurd hi List.not_mem_nil
    order := fun _ _ hk => absurd hk (Nat.not_lt_zero _) }

/-- Emptying the arena, and with it heap and tree, keeps the invariants (R140). -/
theorem State.Sound.clearArena (h : s.Sound ordered) :
    ({ s with arena := [], heap := [], tree := .none, root := 0#9 }).Sound ordered :=
  { h.clearHeap with
    counts := ⟨Nat.zero_le _, Nat.zero_le _, h.counts.2.2⟩, refs := fun _ hi => absurd hi List.not_mem_nil
    shapes := fun _ hn => absurd hn (Nat.not_lt_zero _), tree := ⟨nofun, fun _ => rfl⟩
    order := fun _ _ hk => absurd hk (Nat.not_lt_zero _) }

/-- Emptying the BitWriter keeps the invariants (R180). -/
theorem State.Sound.clearWriter (h : s.Sound ordered) : ({ s with bwBuf := 0#8, bwCnt := 0 }).Sound ordered :=
  { h with bits := ⟨Nat.zero_le _, h.bits.2.1, fun _ _ => BitVec.getLsbD_zero⟩ }

/-- A BitReader count of at most 8 keeps the invariants (R56). -/
theorem State.Sound.setReader (h : s.Sound ordered) (buf : Byte) (pos : Word) {cnt : Nat} (hc : cnt ≤ 8) :
    ({ s with brBuf := buf, inPos := pos, brCnt := cnt }).Sound ordered :=
  { h with bits := ⟨h.bits.1, hc, h.bits.2.2⟩ }

theorem State.Sound.startEncode (h : s.Sound ordered) : s.startEncode.Sound ordered :=
  { h.clearWriter with cursors := ⟨h.cursors.1, Nat.zero_le _⟩ }

theorem State.Sound.startDecode (h : s.Sound ordered) : s.startDecode.Sound ordered :=
  { h.setReader 0#8 0#32 (Nat.zero_le 8) with cursors := ⟨h.cursors.1, Nat.zero_le _⟩ }

/-! ## OUT and the bits -/

/-- Writing a block at OUT_POS that OUT has room for, and moving OUT_POS past it, keeps the invariants (R75). -/
theorem State.Sound.writeOut (h : s.Sound ordered) {bs : List Byte} (hroom : s.outPos.toNat + bs.length ≤ s.outCap.toNat) :
    ({ s with
      outMem := s.outMem.writeBlock s.outPos.toNat bs, outPos := s.outPos + BitVec.ofNat 32 bs.length }).Sound ordered := by
  obtain ⟨hin, hout, hinLt, houtLt⟩ := h.memory
  have hpos : (s.outPos + BitVec.ofNat 32 bs.length).toNat ≤ s.outPos.toNat + bs.length := by
    rw [BitVec.toNat_add, BitVec.toNat_ofNat]
    omega
  exact { h with
    cursors := ⟨h.cursors.1, hpos.trans hroom⟩
    memory := ⟨hin, Memory.writeBlock_wf hout _ _, hinLt, Memory.writeBlock_lt houtLt hroom⟩ }

theorem memWriteOut_sound (h : s.Sound ordered) (b : Byte) : (memWriteOut b s).Ends (State.Sound ordered) := by
  unfold memWriteOut
  split
  · rename_i hlt
    exact h.writeOut (bs := [b]) hlt
  · trivial

theorem checkRoom_sound (h : s.Sound ordered) (k : Nat) : (checkRoom k s).Ends (State.Sound ordered) :=
  (checkRoom_ends k s).mono fun _ ht => ht ▸ h

theorem memReadIn_sound (h : s.Sound ordered) : (memReadIn s).Ends (State.Sound ordered) :=
  (memReadIn_ends s).mono fun _ ht => ht ▸ h

theorem putBit_sound (h : s.Sound ordered) (b : Bool) : (putBit b s).Ends (State.Sound ordered) := by
  cases hr : putBit b s with
  | ok u t =>
    have hbits := putBit_bitsOk h.bits hr
    unfold putBit at hr
    split at hr
    · obtain ⟨_, m, h1, h2⟩ := Run.andThen_eq_ok.1 hr
      rw [(Run.ok_eq_ok.1 h2).2]
      exact ((memWriteOut_sound h _).of_ok h1).clearWriter
    · rw [(Run.ok_eq_ok.1 hr).2] at hbits ⊢
      exact { h with bits := hbits }
  | err k info t => exact absurd hr (putBit_ne_err _ _ _ _ _)
  | fault f => trivial

theorem putBits_sound (h : s.Sound ordered) (bits : List Bool) : (putBits bits s).Ends (State.Sound ordered) := by
  induction bits generalizing s with
  | nil => exact h
  | cons b bs ih => exact (putBit_sound h b).andThen fun _ _ hm => ih hm

theorem bwFinalize_sound (h : s.Sound ordered) : (bwFinalize s).Ends (State.Sound ordered) := by
  unfold bwFinalize
  split
  · exact h
  · exact (checkRoom_sound h 1).andThen fun _ m hm => (memWriteOut_sound hm m.bwBuf).andThen fun _ _ ht => ht.clearWriter

theorem takeBit_sound (h : s.Sound ordered) : (takeBit s).Ends (State.Sound ordered) :=
  h.setReader s.brBuf s.inPos ((Nat.sub_le _ _).trans h.bits.2.1)

theorem getBit_sound (h : s.Sound ordered) : (getBit s).Ends (State.Sound ordered) := by
  unfold getBit
  split
  · split
    · exact h
    · exact (memReadIn_sound h).andThen fun b m hm => takeBit_sound (hm.setReader b (m.inPos + 1#32) (Nat.le_refl 8))
  · exact takeBit_sound h

end

end Sys2Proof.Machine
end

section
/-! SUPPORT. The invariants of R60 under the arena, the heap, the tree builder and the code table. -/

namespace Sys2Proof.Machine

section
variable {ordered : Prop} {s : State}

/-! ## Arena and heap -/

/-- Appending a node of the right shape to an arena keeps its shape (R52). -/
theorem ArenaOk.append {arena : List Node} (h : ArenaOk arena) {node : Node} (hn : Node.ShapeOk arena.length node) :
    ArenaOk (arena ++ [node]) := by
  intro n hlt
  rw [List.length_append, List.length_singleton] at hlt
  by_cases hlast : n < arena.length
  · rw [List.getD_append _ _ _ _ hlast]
    exact h n hlast
  · obtain rfl : n = arena.length := by omega
    simpa using hn

/-- Appending a node of the right shape to an arena with room keeps the invariants (R141, R143). -/
theorem State.Sound.appendNode (h : s.Sound ordered) {node : Node} (hroom : s.arena.length < 511)
    (hn : Node.ShapeOk s.arena.length node) : ({ s with arena := s.arena ++ [node] }).Sound ordered := by
  have hlen : (s.arena ++ [node]).length = s.arena.length + 1 := by simp
  exact { h with
    counts := ⟨h.counts.1, hlen.trans_le hroom, h.counts.2.2⟩
    refs := fun i hi => hlen ▸ Nat.lt_succ_of_lt (h.refs i hi)
    shapes := h.shapes.append hn
    tree := ⟨fun hv => hlen ▸ Nat.lt_succ_of_lt (h.tree.1 hv), h.tree.2⟩
    order := fun ho => (h.order ho).append _ h.refs }

theorem newLeaf_sound (h : s.Sound ordered) (b : Byte) : (newLeaf b s).Ends (State.Sound ordered) := by
  unfold newLeaf
  split
  · rename_i hroom
    exact h.appendNode hroom ⟨rfl, rfl⟩
  · trivial

theorem newJoin_sound (h : s.Sound ordered) {a b : NodeIdx} (ha : a.toNat < s.arena.length) (hb : b.toNat < s.arena.length) :
    (newJoin a b s).Ends (State.Sound ordered) := by
  unfold newJoin
  split
  · rename_i hroom
    exact h.appendNode hroom.1 ⟨rfl, ha, hb⟩
  · trivial

theorem heapInsert_sound (h : s.Sound ordered) (i : NodeIdx) : (heapInsert i s).Ends (State.Sound ordered) := by
  unfold heapInsert
  split
  · rename_i hi
    refine { h with
      counts := ⟨(length_insertSlot ..).trans_le hi.1, h.counts.2⟩, refs := fun j hj => ?_
      order := fun ho => insertSlot_ordered (h.order ho) i }
    rcases List.mem_cons.1 ((insertSlot_perm _ _ _).mem_iff.1 hj) with rfl | hj
    · exact hi.2
    · exact h.refs j hj
  · trivial

/-- HeapExtract leaves no node in the heap that was not there before. -/
theorem mem_of_mem_removeTop {arena : List Node} {heap : List NodeIdx} {i : NodeIdx} (hi : i ∈ removeTop arena heap) :
    i ∈ heap := by
  cases heap with
  | nil => exact absurd hi (by simp [List.eq_nil_of_length_eq_zero (length_removeTop arena [])])
  | cons top others => exact List.mem_cons_of_mem _ ((removeTop_perm arena top others).mem_iff.1 hi)

theorem heapExtract_sound (h : s.Sound ordered) : (heapExtract s).Ends (State.Sound ordered) := by
  unfold heapExtract
  split
  · exact { h with
      counts := ⟨(length_removeTop ..).trans_le ((Nat.sub_le _ _).trans h.counts.1), h.counts.2⟩
      refs := fun i hi => h.refs i (mem_of_mem_removeTop hi)
      order := fun ho => removeTop_ordered (h.order ho) }
  · trivial

/-! ## Tree and code table -/

/-- The leaves of a frequency table, followed by internal nodes with their children below them, are an arena in shape (R52, R164). -/
theorem arenaOk_of_joinedAt {freq : Vector Word 256} {bs : List Byte} {arena more : List Node}
    (he : arena = bs.map (leafNode freq) ++ more)
    (hj : ∀ n node, bs.length ≤ n → arena[n]? = some node → JoinedAt arena n node) : ArenaOk arena := by
  intro n hn
  have hget : arena[n]? = some (arena.getD n absentNode) := by
    rw [List.getD_eq_getElem _ _ hn, List.getElem?_eq_getElem hn]
  by_cases hleaf : n < bs.length
  · have hnode : arena.getD n absentNode = leafNode freq bs[n] := by
      rw [he, List.getD_append _ _ _ _ (by simpa using hleaf)]
      simp [hleaf]
    rw [hnode]
    exact ⟨rfl, rfl⟩
  · obtain ⟨hl, hsym, hleft, hright, -⟩ := hj n _ (Nat.le_of_not_lt hleaf) hget
    rw [Node.ShapeOk, hl]
    exact ⟨hsym, hleft, hright⟩

/-- A tree over an arena in shape, with the heap empty, keeps the invariants (R160). -/
theorem State.Sound.setTree (h : s.Sound ordered) {arena : List Node} {root : NodeIdx} {nLeaf : BitVec 9}
    (hlen : arena.length ≤ 511) (hleaves : nLeaf.toNat ≤ 256) (hshapes : ArenaOk arena) (hroot : root.toNat < arena.length)
    (total : Weight) :
    ({ s with
      arena := arena, heap := [], tree := .valid, root := root, nLeaf := nLeaf, total := total,
      lutValid := false }).Sound ordered :=
  { h with
    counts := ⟨Nat.zero_le _, hlen, hleaves⟩, refs := fun _ hi => absurd hi List.not_mem_nil
    shapes := hshapes, tree := ⟨fun _ => hroot, fun hv => absurd rfl hv⟩
    order := fun _ _ hk => absurd hk (Nat.not_lt_zero _) }

/-- TREE_BUILD makes the shape, the counts and the root anew and leaves the heap empty (R160, R162, R164). -/
theorem treeBuild_sound (h : s.Sound ordered) : (treeBuild s).Ends (State.Sound ordered) := by
  by_cases hnone : presentSymbols s.freq = []
  · rw [treeBuild_empty hnone]
    exact { h.clearArena with counts := ⟨Nat.zero_le _, Nat.zero_le _, Nat.zero_le _⟩, tree := ⟨nofun, fun _ => rfl⟩ }
  · obtain ⟨t, codes, more, hrun, ht, hmore, -, hcodes, -, hjoined⟩ := treeBuild_spec hnone
    have hle := length_presentSymbols s.freq
    have harena : t.arena = (presentSymbols s.freq).map (leafNode s.freq) ++ more := by rw [ht]
    have hlen : t.arena.length ≤ 511 := by
      rw [harena, List.length_append, List.length_map]
      omega
    have hshapes := arenaOk_of_joinedAt harena hjoined
    have hleaves : (BitVec.ofNat 9 (presentSymbols s.freq).length).toNat ≤ 256 := by
      rw [BitVec.toNat_ofNat]
      exact (Nat.mod_le _ _).trans hle
    rw [hrun, Run.ok_ends, ht, ← harena]
    exact h.setTree hlen hleaves hshapes hcodes.lt _

theorem codeGen_sound (h : s.Sound ordered) : (codeGen s).Ends (State.Sound ordered) :=
  (codeGen_ends s).mono fun t ht => by
    rw [ht]
    exact { h with }

end

end Sys2Proof.Machine
end

section
/-! SUPPORT. The invariants of R60 under the symbol coder and the whole-file runs, then under every command and every step. -/

namespace Sys2Proof.Machine

/-- A sequence ends with a property when its first part does and its second part does wherever the first succeeds. -/
theorem Run.Ends.andThen_of_ok {α β : Type} {r : Run α} {f : α → State → Run β} {p : State → Prop} (h : r.Ends p)
    (hf : ∀ a t, r = .ok a t → (f a t).Ends p) : (r.andThen f).Ends p := by
  cases r with
  | ok a t => exact hf a t rfl
  | err k info t => exact h
  | fault e => trivial

section
variable {ordered : Prop} {s : State}

theorem State.Sound.setInPos (h : s.Sound ordered) (pos : Word) : ({ s with inPos := pos }).Sound ordered := { h with }

/-! ## Frequency table -/

theorem freqClear_sound (h : s.Sound ordered) : (freqClear s).Ends (State.Sound ordered) := { h.invalidateDerived with }

theorem State.Sound.writeFreq (h : s.Sound ordered) (b : Byte) (v : Word) : (s.writeFreq b v).Sound ordered :=
  { h.invalidateDerived with }

theorem freqScan_sound (h : s.Sound ordered) : (freqScan s).Ends (State.Sound ordered) :=
  (freqScan_ends s).mono fun t ht => by
    rw [ht]
    exact { h.invalidateDerived with }

theorem freqHdrWr_sound (h : s.Sound ordered) : (freqHdrWr s).Ends (State.Sound ordered) := by
  unfold freqHdrWr checkRoom
  split
  · exact h
  · rename_i hroom
    have hlen := length_headerBytes s.freq
    have hfits : s.outPos.toNat + (headerBytes s.freq).length ≤ s.outCap.toNat := by
      have hpos := h.cursors.2
      unfold State.room Config.hdrBytes at hroom
      omega
    have hwritten := h.writeOut hfits
    rw [hlen] at hwritten
    exact hwritten

theorem freqHdrRd_sound (h : s.Sound ordered) : (freqHdrRd s).Ends (State.Sound ordered) :=
  (freqHdrRd_ends s).mono fun t ht => by
    obtain rfl | ht := ht
    · exact h
    · rw [ht]
      exact { h.invalidateDerived with }

/-! ## Symbol coder -/

theorem checkCode_sound (h : s.Sound ordered) (b : Byte) : (checkCode b s).Ends (State.Sound ordered) :=
  (checkCode_ends b s).mono fun _ ht => ht ▸ h

theorem emitSymbol_sound (h : s.Sound ordered) (b : Byte) : (emitSymbol b s).Ends (State.Sound ordered) :=
  (putBits_sound h _).andThen fun _ _ hm => { hm with }

theorem encNext_sound (h : s.Sound ordered) : (encNext s).Ends (State.Sound ordered) := by
  unfold encNext
  split
  · exact h
  · exact (memReadIn_sound h).andThen fun b _ hm => (checkCode_sound hm b).andThen fun _ _ ht => emitSymbol_sound (ht.setInPos _) b

theorem encodeLoop_sound (fuel : Nat) (h : s.Sound ordered) : (encodeLoop fuel s).Ends (State.Sound ordered) := by
  induction fuel generalizing s with
  | zero => exact h
  | succ fuel ih =>
    unfold encodeLoop
    split
    · exact (encNext_sound h).andThen fun _ _ hm => ih hm
    · exact h

theorem descend_sound (fuel : Nat) (n : NodeIdx) (h : s.Sound ordered) : (descend fuel n s).Ends (State.Sound ordered) := by
  induction fuel generalizing n s with
  | zero =>
    unfold descend
    split <;> exact h
  | succ fuel ih =>
    unfold descend
    split
    · exact h
    · refine (getBit_sound h).andThen fun r m hm => ?_
      cases r with
      | none => exact hm
      | some c => exact ih _ hm

theorem reachLeaf_sound (h : s.Sound ordered) : (reachLeaf s).Ends (State.Sound ordered) := by
  unfold reachLeaf
  split
  · exact (getBit_sound h).andThen fun _ _ hm => hm
  · exact descend_sound _ _ h

theorem emitLeaf_sound (h : s.Sound ordered) (n : NodeIdx) : (emitLeaf n s).Ends (State.Sound ordered) :=
  (memWriteOut_sound h _).andThen fun _ _ hm => { hm with }

theorem decSym_sound (h : s.Sound ordered) : (decSym s).Ends (State.Sound ordered) := by
  unfold decSym
  split
  · exact h
  · refine (checkRoom_sound h 1).andThen fun _ m hm => (reachLeaf_sound hm).andThen fun leaf t ht => ?_
    cases leaf with
    | none => exact hm
    | some n => exact emitLeaf_sound ht n

theorem decodeLoop_sound (fuel : Nat) (h : s.Sound ordered) : (decodeLoop fuel s).Ends (State.Sound ordered) := by
  induction fuel generalizing s with
  | zero => exact h
  | succ fuel ih =>
    unfold decodeLoop
    split
    · exact (decSym_sound h).andThen fun _ _ hm => ih hm
    · exact h

/-! ## Whole files -/

theorem encodeFile_sound (h : s.Sound ordered) : (encodeFile s).Ends (State.Sound ordered) := by
  unfold encodeFile
  exact (freqClear_sound h.startEncode).andThen fun _ _ h1 =>
    (freqScan_sound h1).andThen fun _ _ h2 =>
    (freqHdrWr_sound h2).andThen fun _ _ h3 =>
    (Run.effect_ends.2 (treeBuild_sound h3)).andThen fun _ _ h4 =>
    (Run.effect_ends.2 (codeGen_sound h4)).andThen fun _ _ h5 =>
    (encodeLoop_sound _ (h5.setInPos _)).andThen fun _ _ h6 =>
    (Run.effect_ends.2 (bwFinalize_sound h6)).andThen fun _ _ h7 => h7

theorem decodeFile_sound (h : s.Sound ordered) : (decodeFile s).Ends (State.Sound ordered) := by
  refine (freqHdrRd_sound h.startDecode).andThen fun _ _ h1 => (Run.effect_ends.2 (treeBuild_sound h1)).andThen fun _ m h2 => ?_
  split
  · exact h2
  · exact (decodeLoop_sound _ h2).andThen fun _ _ h3 => h3

/-! ## Every command -/

theorem complete_sound {r : Run Unit} {t : State} (he : complete r = .next t) (h : r.Ends (State.Sound ordered)) :
    t.Sound ordered := by
  obtain ⟨m, hr, rfl⟩ | ⟨k, info, m, hr, rfl⟩ := complete_eq_next.1 he
  · exact (h.of_ok hr).finish
  · exact (h.of_err hr).takeError k info

theorem completeWith_sound {r : Run Word} {t : State} (he : completeWith r = .next t) (h : r.Ends (State.Sound ordered)) :
    t.Sound ordered := by
  obtain ⟨v, m, hr, rfl⟩ | ⟨k, info, m, hr, rfl⟩ := completeWith_eq_next.1 he
  · exact { (h.of_ok hr).finish with }
  · exact (h.of_err hr).takeError k info

theorem execNodeJoin_sound (h : s.Sound ordered) {a b : NodeIdx} {t : State} (he : execNodeJoin a b s = .next t) :
    t.Sound ordered := by
  refine completeWith_sound he (((checkNode_ends a s).mono fun _ ht => ht ▸ h).andThen_of_ok fun _ m hm => ?_)
  obtain ⟨ha, rfl⟩ := checkNode_eq_ok.1 hm
  refine ((checkNode_ends b m).mono fun _ ht => ht ▸ h).andThen_of_ok fun _ m' hm => ?_
  obtain ⟨hb, rfl⟩ := checkNode_eq_ok.1 hm
  refine ((checkArena_ends m').mono fun _ ht => ht ▸ h).andThen_of_ok fun _ m hm => ?_
  obtain ⟨-, rfl⟩ := checkArena_eq_ok.1 hm
  split
  · exact h
  · exact (newJoin_sound h ha hb).andThen fun _ _ ht => ht

/-- Every command keeps the invariants (R60). -/
theorem exec_sound {i : Instr} {t : State} (h : s.Sound ordered) (he : exec i s = .next t) : t.Sound ordered := by
  cases i with
  | nop => exact complete_sound (r := .ok () s) he h
  | softReset => exact complete_sound (r := .ok () s.softReset) he h.softReset
  | clrErr => exact complete_sound (r := .ok () s.clearError) he h.clearError
  | freqClear => exact complete_sound (r := freqClear s) he (freqClear_sound h)
  | freqScan => exact complete_sound he (freqScan_sound h)
  | freqHdrWr => exact complete_sound he (freqHdrWr_sound h)
  | freqHdrRd => exact complete_sound he (freqHdrRd_sound h)
  | arenaClear => exact complete_sound (r := .ok () _) he h.clearArena
  | nodeLeaf sym =>
    exact completeWith_sound he <| ((checkArena_ends s).mono fun _ ht => ht ▸ h).andThen fun _ _ hm =>
      (newLeaf_sound hm sym).andThen fun _ _ ht => ht
  | nodeJoin a b => exact execNodeJoin_sound h he
  | heapClear => exact complete_sound (r := .ok () _) he h.clearHeap
  | heapInsert i =>
    refine complete_sound he (((checkNode_ends i s).mono fun _ ht => ht ▸ h).andThen fun _ m hm => ?_)
    split
    · exact hm
    · exact heapInsert_sound hm i
  | heapExtract =>
    refine completeWith_sound he ?_
    split
    · exact h
    · exact (heapExtract_sound h).andThen fun _ _ hm => hm
  | treeBuild => exact completeWith_sound he (treeBuild_sound h)
  | codeGen => exact completeWith_sound he (codeGen_sound h)
  | bwReset => exact complete_sound (r := .ok () _) he h.clearWriter
  | bwPut n val => exact complete_sound he ((checkRoom_sound h _).andThen fun _ _ hm => putBits_sound hm _)
  | bwFinalize => exact completeWith_sound he (bwFinalize_sound h)
  | brReset => exact complete_sound (r := .ok () _) he (h.setReader 0#8 s.inPos (Nat.zero_le 8))
  | brGet => exact completeWith_sound he ((getBit_sound h).andThen fun _ _ hm => hm)
  | encSym sym => exact completeWith_sound he ((checkCode_sound h sym).andThen fun _ _ hm => emitSymbol_sound hm sym)
  | encNext => exact completeWith_sound he (encNext_sound h)
  | decSym => exact completeWith_sound he (decSym_sound h)
  | encode => exact completeWith_sound he (encodeFile_sound h)
  | decode => exact completeWith_sound he (decodeFile_sound h)

/-! ## The host -/

/-- The lesser of two words is one of them and no greater than the second. -/
theorem wordMin_le (v w : Word) : (wordMin v w).toNat ≤ w.toNat := by
  unfold wordMin
  split
  · assumption
  · exact Nat.le_refl _

theorem present_sound (h : s.Sound ordered) (w : Word) : (present w s).Sound ordered := by
  unfold present
  split
  · exact { h with }
  · split
    · rename_i herr
      obtain ⟨herr, -⟩ := Bool.and_eq_true_iff.1 herr
      exact { h with error := ⟨fun hf => absurd (herr.symm.trans hf) (by decide), h.error.2⟩ }
    · exact { h with }

theorem guarded_sound {taken : State} (h : s.Sound ordered) (ht : taken.Sound ordered) : (guarded s taken).Sound ordered := by
  unfold guarded
  split
  · exact { h with }
  · exact ht

theorem hostWrite_sound (h : s.Sound ordered) (r : Reg) (v : Word) : (hostWrite r v s).Sound ordered := by
  cases r with
  | cmd => exact present_sound h v
  | status =>
    show (if v.getLsbD 1 then { s with done := false } else s).Sound ordered
    split
    · exact { h with }
    · exact h
  | ctrl => exact { h with }
  | inLen => exact guarded_sound h { h with cursors := ⟨wordMin_le _ _, h.cursors.2⟩ }
  | inPos => exact guarded_sound h (h.setInPos v)
  | outPos => exact guarded_sound h { h with cursors := ⟨h.cursors.1, wordMin_le _ _⟩ }
  | freq b => exact guarded_sound h (h.writeFreq b v)
  | id | result | errInfo | inSize | outCap | totalLo | totalHi | symCntLo | symCntHi | heapSize | arenaCnt | root | nLeaf
  | bwState | brState | lutLen _ | heap _ | lutCode _ _ | node _ _ | reserved => exact h

theorem hostRead_sound (h : s.Sound ordered) (r : Reg) : (hostRead r s).Sound ordered := by
  unfold hostRead
  split <;> exact { h with }

theorem busAccess_sound {width off : Nat} {access : Reg → State} {outside t : State} (he : busAccess width off access outside = .next t)
    (ha : ∀ r, (access r).Sound ordered) (ho : outside.Sound ordered) : t.Sound ordered := by
  unfold busAccess at he
  split at he
  · cases he
    exact ho
  · split at he <;> cases he
    exact ha _

theorem portLoad_sound {addr : Nat} {b : Byte} {t : State} (h : s.Sound ordered) (he : portLoad addr b s = .next t) :
    t.Sound ordered := by
  unfold portLoad at he
  split at he
  · cases he
  · split at he <;> cases he
    rename_i haddr
    obtain ⟨hin, hout, hinLt, houtLt⟩ := h.memory
    exact { h with memory := ⟨Memory.write_wf hin _ _, hout, Memory.write_lt hinLt haddr, houtLt⟩ }

theorem portRead_sound {addr : Nat} {t : State} (h : s.Sound ordered) (he : portRead addr s = .next t) : t.Sound ordered := by
  unfold portRead at he
  split at he
  · cases he
  · split at he
    · cases he
    · split at he <;> cases he <;> exact { h with }

theorem hostStep_sound {a : HostAction} {t : State} (h : s.Sound ordered) (he : hostStep a s = .next t) : t.Sound ordered := by
  cases a with
  | regWrite width off v => exact busAccess_sound (access := fun r => hostWrite r v s) he (fun r => hostWrite_sound h r v) h
  | regRead width off =>
    exact busAccess_sound (access := fun r => hostRead r s) (outside := platformRead width off s) he (hostRead_sound h) { h with }
  | loadIn addr b => exact portLoad_sound h he
  | readOut addr => exact portRead_sound h he

/-! ## Every step -/

theorem sequencerTurn_sound {t : State} (h : s.Sound ordered) (he : sequencerTurn s = .next t) : t.Sound ordered := by
  cases hp : s.pending with
  | none =>
    rw [sequencerTurn, hp] at he
    cases he
    exact h
  | some w =>
    cases hd : Sys2Proof.decode w with
    | none =>
      rw [sequencerTurn_illegal hp hd] at he
      cases he
      exact h.takeError .illegalCmd w
    | some i =>
      rw [sequencerTurn_legal hp hd] at he
      exact exec_sound h he

/-- Every step keeps the invariants (R60). -/
theorem step_sound {t : State} (h : s.Sound ordered) (he : step s = .next t) : t.Sound ordered := by
  cases hev : s.events with
  | nil => exact sequencerTurn_sound h (step_nil hev ▸ he)
  | cons e rest =>
    rw [step_cons hev] at he
    have h' : ({ s with events := rest }).Sound ordered := { h with }
    cases e with
    | host a => exact hostStep_sound h' he
    | reset =>
      cases he
      exact h'.hardReset
    | sequencer => exact sequencerTurn_sound h' he

end

/-- Settles O59: every event keeps each invariant by name. -/
theorem stepKeepsTheBounds : Obligations.StepKeepsTheBounds := fun _ _ h he =>
  State.sound_false_iff.1 (step_sound (State.sound_false_iff.2 h) he)

/-- Settles O60: the same with the heap property, which HeapInsert and HeapExtract keep (R146, R149) and TREE_BUILD leaves with an
empty heap. -/
theorem stepKeepsTheInvariants : Obligations.StepKeepsTheInvariants := fun _ _ h he =>
  State.sound_true_iff.1 (step_sound (State.sound_true_iff.2 h) he)

end Sys2Proof.Machine
end

section
/-! SUPPORT. What the host reads of the state and what its writes leave: the registers, the windows, STATUS, the cursors, reset. -/

namespace Sys2Proof.Machine

/-! ## Accesses of an idle machine -/

/-- A host read of an idle machine gives the register's value and changes nothing else (R81). -/
theorem step_regRead {s : State} (hp : s.pending = none) {off : Nat} (hoff : off < 0x5000) (halign : off % 4 = 0) :
    step { s with events := .host (.regRead 4 off) :: s.events } = .next { s with hostData := s.readReg (regAt off) } := by
  have hidle : s.busy = false := by rw [State.busy, hp]; rfl
  rw [step_cons rfl]
  show busAccess 4 off (fun r => hostRead r s) _ = _
  rw [busAccess_ok _ _ hoff halign, hostRead, hidle]
  rfl

/-- A host write reaches its register (R76). -/
theorem step_regWrite {s : State} {off : Nat} {v : Word} {rest : List Event}
    (hev : s.events = .host (.regWrite 4 off v) :: rest) (hoff : off < 0x5000) (halign : off % 4 = 0) :
    step s = .next (hostWrite (regAt off) v { s with events := rest }) := by
  rw [step_cons hev]
  exact busAccess_ok (fun r => hostWrite r v { s with events := rest }) _ hoff halign

/-- A guarded write of an idle machine is taken (R265). -/
theorem guarded_idle {s : State} (hp : s.pending = none) (taken : State) : guarded s taken = taken := by
  rw [guarded, State.busy, hp]
  rfl

/-! ## Values of the registers -/

/-- Two words side by side, as a number. -/
theorem toNat_append_add {m n : Nat} (x : BitVec m) (y : BitVec n) : (x ++ y).toNat = x.toNat * 2 ^ n + y.toNat := by
  rw [BitVec.toNat_append, ← Nat.shiftLeft_add_eq_or_of_lt y.isLt, Nat.shiftLeft_eq]

/-- A count below 2^9 keeps its value through its 9-bit register (R37, R38). -/
theorem setWidth_ofNat_nine {n : Nat} (h : n < 512) : (BitVec.ofNat 9 n).setWidth 32 = BitVec.ofNat 32 n := by
  apply BitVec.eq_of_toNat_eq
  simp only [BitVec.toNat_setWidth, BitVec.toNat_ofNat]
  omega

/-- The low word of a 64-bit value (R35, R36). -/
theorem extractLsb'_low (x : Weight) : x.extractLsb' 0 32 = x.setWidth 32 := (BitVec.setWidth_eq_extractLsb' (by decide)).symm

/-- BW_STATE and BR_STATE: the count in bits 11 to 8, the buffer in bits 7 to 0 (R41, R42). -/
theorem bufferWord_eq (buf : Byte) {cnt : Nat} (h : cnt < 16) :
    (0#20 ++ BitVec.ofNat 4 cnt ++ buf : Word) = BitVec.ofNat 32 (cnt * 256 + buf.toNat) := by
  apply BitVec.eq_of_toNat_eq
  have hbuf := buf.isLt
  rw [toNat_append_add, toNat_append_add, BitVec.toNat_ofNat, BitVec.toNat_ofNat, BitVec.toNat_ofNat]
  omega

/-- NODE[n].2: LEAF in bit 31, SYM in bits 7 to 0 (R47). -/
theorem nodeWord_info (node : Node) :
    nodeWord node 2#2 = BitVec.ofNat 32 ((if node.leaf then 2 ^ 31 else 0) + node.sym.toNat) := by
  apply BitVec.eq_of_toNat_eq
  have hsym := node.sym.isLt
  show (bit node.leaf ++ 0#23 ++ node.sym).toNat = _
  rw [toNat_append_add, toNat_append_add, BitVec.toNat_ofNat, BitVec.toNat_ofNat]
  cases node.leaf <;> simp [bit] <;> omega

/-- NODE[n].3: R in bits 24 to 16, L in bits 8 to 0 (R47). -/
theorem nodeWord_link (node : Node) : nodeWord node 3#2 = BitVec.ofNat 32 (node.r.toNat * 2 ^ 16 + node.l.toNat) := by
  apply BitVec.eq_of_toNat_eq
  have hl := node.l.isLt
  have hr := node.r.isLt
  show (0#7 ++ node.r ++ 0#7 ++ node.l).toNat = _
  rw [toNat_append_add, toNat_append_add, toNat_append_add]
  simp only [BitVec.toNat_ofNat]
  omega

/-- The words of an absent node are 0 (R47). -/
theorem nodeWord_absentNode (k : BitVec 2) : nodeWord absentNode k = 0#32 := by
  revert k
  decide

/-- Bit `j` of word `w` of a code is code bit c(32·w + 31 - j) (R46). -/
theorem codeWord_getLsbD (code : CodeBits) (w : BitVec 3) {j : Nat} (hj : j < 32) :
    (codeWord code w).getLsbD j = code.getLsbD (32 * w.toNat + 31 - j) := by
  rw [codeWord, BitVec.getLsbD_reverse, BitVec.getMsbD_eq_getLsbD, BitVec.getLsbD_extractLsb', decide_eq_true hj,
    decide_eq_true (show 32 - 1 - j < 32 by omega), Bool.true_and, Bool.true_and]
  congr 1
  omega

/-! ## STATUS (R26) -/

@[simp] theorem getLsbD_bit (b : Bool) : (bit b).getLsbD 0 = b := by cases b <;> rfl

/-- The low eleven bits of STATUS are its flags and TREE. -/
theorem status_getLsbD (s : State) {i : Nat} (h : i < 11) :
    s.status.getLsbD i = [s.busy, s.done, s.err, s.rej, s.ovr, s.heapEmpty, s.tree.code.getLsbD 0, s.tree.code.getLsbD 1,
      s.lutValid, s.brEos, s.irq].getD i false := by
  rw [State.status]
  iterate 10 rw [BitVec.getLsbD_append]
  match i, h with
  | 0, _ | 1, _ | 2, _ | 3, _ | 4, _ | 5, _ | 6, _ | 7, _ | 8, _ | 9, _ | 10, _ => simp [-BitVec.getLsbD_eq_getElem]

theorem status_tree (s : State) : s.status.extractLsb' 6 2 = s.tree.code := by
  rw [State.status]
  iterate 6 rw [BitVec.extractLsb'_append_eq_of_le (by decide)]
  exact BitVec.extractLsb'_append_eq_right

theorem status_low_reserved (s : State) : s.status.extractLsb' 11 5 = 0#5 := by
  rw [State.status]
  iterate 10 rw [BitVec.extractLsb'_append_eq_of_le (by decide)]
  exact BitVec.extractLsb'_append_eq_right

theorem status_errCode (s : State) : s.status.extractLsb' 16 8 = s.errCode := by
  rw [State.status]
  iterate 11 rw [BitVec.extractLsb'_append_eq_of_le (by decide)]
  exact BitVec.extractLsb'_append_eq_right

theorem status_high_reserved (s : State) : s.status.extractLsb' 24 8 = 0#8 := by
  rw [State.status]
  iterate 11 rw [BitVec.extractLsb'_append_eq_of_le (by decide)]
  exact BitVec.extractLsb'_append_eq_left

theorem busy_iff (s : State) : s.busy = true ↔ s.pending ≠ none := Option.isSome_iff_ne_none

theorem heapEmpty_iff (s : State) : s.heapEmpty = true ↔ s.heap.length = 0 :=
  List.isEmpty_iff.trans List.length_eq_zero_iff.symm

theorem brEos_iff (s : State) : s.brEos = true ↔ s.brCnt = 0 ∧ s.inLen.toNat ≤ s.inPos.toNat := by
  rw [State.brEos, Bool.and_eq_true, beq_iff_eq, decide_eq_true_eq, BitVec.le_def]

theorem irq_iff (s : State) : s.irq = true ↔ (s.done = true ∧ s.ieDone = true) ∨ (s.err = true ∧ s.ieErr = true) := by
  rw [State.irq, Bool.or_eq_true, Bool.and_eq_true, Bool.and_eq_true]

/-! ## The obligations -/

/-- Settles O9: the map gives each offset its register, whose value the lemmas above put as the rule words it. -/
theorem namedRegistersReadAsMapped : Obligations.NamedRegistersReadAsMapped := by
  intro s hp reads
  have named : ∀ {off : Nat} (r : Reg) {v : Word}, regAt off = r ∧ off < 0x5000 ∧ off % 4 = 0 → s.readReg r = v →
      reads off v := by
    rintro off r v ⟨rfl, hoff, halign⟩ rfl
    exact step_regRead hp hoff halign
  refine ⟨named .id (by decide) rfl, named .cmd (by decide) rfl, named .status (by decide) rfl, named .ctrl (by decide) rfl,
    named .result (by decide) rfl, named .errInfo (by decide) rfl, named .inLen (by decide) rfl, named .inPos (by decide) rfl,
    named .outPos (by decide) rfl, named .inSize (by decide) rfl, named .outCap (by decide) rfl,
    named .totalLo (by decide) (extractLsb'_low _), named .totalHi (by decide) rfl,
    named .symCntLo (by decide) (extractLsb'_low _), named .symCntHi (by decide) rfl,
    fun h => named .heapSize (by decide) (setWidth_ofNat_nine (by omega)),
    fun h => named .arenaCnt (by decide) (setWidth_ofNat_nine (by omega)),
    named .root (by decide) rfl, named .nLeaf (by decide) rfl,
    fun h => named .bwState (by decide) (bufferWord_eq _ (by omega)),
    fun h => named .brState (by decide) (bufferWord_eq _ (by omega)), fun off halign hoff => ?_⟩
  exact named .reserved ⟨regAt_reserved halign (by omega), by omega, halign⟩ rfl

/-- Settles O10: the map gives each window's offset its entry, whose word the lemmas above give bit for bit. -/
theorem windowsReadTheArrays : Obligations.WindowsReadTheArrays := by
  intro s hp reads
  have read : ∀ {off : Nat} {r : Reg} {v : Word}, regAt off = r → off < 0x5000 → off % 4 = 0 → s.readReg r = v → reads off v := by
    rintro off r v rfl hoff halign rfl
    exact step_regRead hp hoff halign
  have node : ∀ {n : Nat} (k : BitVec 2) {off : Nat} {v : Word}, n < 511 → off = 0x3000 + 16 * n + 4 * k.toNat →
      nodeWord (s.arena.getD n absentNode) k = v → reads off v := by
    rintro n k off v hn rfl hv
    have hidx : (BitVec.ofNat 9 n).toNat = n := Nat.mod_eq_of_lt (by omega)
    have hreg := regAt_node (n := BitVec.ofNat 9 n) k (by omega)
    rw [hidx] at hreg
    exact read hreg (by omega) (by omega) (by rw [State.readReg, nodeAt, hidx, hv])
  refine ⟨fun b => ⟨read (regAt_freq b) (by omega) (by omega) rfl, read (regAt_lutLen b) (by omega) (by omega) rfl⟩,
    fun i hi x => ?_, fun b w hw => ?_, fun n hn nd hnd => ?_, fun n k hn hk hlen => ?_⟩
  · obtain ⟨b, rfl⟩ : ∃ b : Byte, b.toNat = i := ⟨BitVec.ofNat 8 i, Nat.mod_eq_of_lt hi⟩
    refine ⟨fun hx => read (regAt_heap b) (by omega) (by omega) ?_, fun hlen => read (regAt_heap b) (by omega) (by omega) ?_⟩
    · rw [State.readReg, slot, List.getD_eq_getElem?_getD, hx, Option.getD_some]
    · rw [State.readReg, slot_of_le hlen]
      rfl
  · obtain ⟨w, rfl⟩ : ∃ u : BitVec 3, u.toNat = w := ⟨BitVec.ofNat 3 w, Nat.mod_eq_of_lt hw⟩
    exact ⟨_, read (regAt_lutCode b w) (by omega) (by omega) rfl, fun j hj => codeWord_getLsbD _ w hj⟩
  · have hget : s.arena.getD n absentNode = nd := by rw [List.getD_eq_getElem?_getD, hnd, Option.getD_some]
    subst hget
    exact ⟨node 0#2 hn rfl (extractLsb'_low _), node 1#2 hn (Nat.add_right_comm 0x3000 4 _) rfl,
      node 2#2 hn (Nat.add_right_comm 0x3000 8 _) (nodeWord_info _), node 3#2 hn (Nat.add_right_comm 0x3000 12 _) (nodeWord_link _)⟩
  · have hword : (BitVec.ofNat 2 k).toNat = k := Nat.mod_eq_of_lt hk
    exact node (BitVec.ofNat 2 k) hn (by rw [hword]) (by rw [List.getD_eq_default _ _ hlen, nodeWord_absentNode])

/-- Settles O14: the write reaches FREQ[b] and is the model's `writeFreq`. -/
theorem freqWriteInvalidatesDerived : Obligations.FreqWriteInvalidatesDerived := by
  intro s b v rest hp hev
  have hb := b.isLt
  refine ⟨{ s with events := rest }.writeFreq b v, ?_, rfl, fun c => tableGet_tableSet s.freq b c v⟩
  rw [step_regWrite hev (by omega) (by omega), regAt_freq]
  exact congrArg _ (guarded_idle (s := { s with events := rest }) hp _)

/-- The lesser of two words, as a number (R32, R34). -/
theorem wordMin_eq (v w : Word) : wordMin v w = BitVec.ofNat 32 (min v.toNat w.toNat) := by
  rw [wordMin]
  split
  · rename_i h
    rw [Nat.min_eq_left h, BitVec.ofNat_toNat, BitVec.setWidth_eq]
  · rename_i h
    rw [Nat.min_eq_right (Nat.le_of_not_le h), BitVec.ofNat_toNat, BitVec.setWidth_eq]

/-- Settles O15: each write reaches its cursor, is taken while idle, and stores the limited value. -/
theorem cursorWritesAreLimited : Obligations.CursorWritesAreLimited := by
  intro s v rest hp
  refine ⟨fun hev => ?_, fun hev => ?_, fun hev => ?_⟩ <;> rw [step_regWrite hev (by decide) (by decide)]
  · rw [← wordMin_eq]
    exact congrArg _ (guarded_idle (s := { s with events := rest }) hp _)
  · exact congrArg _ (guarded_idle (s := { s with events := rest }) hp _)
  · rw [← wordMin_eq]
    exact congrArg _ (guarded_idle (s := { s with events := rest }) hp _)

/-- Settles O16: STATUS is its fields side by side. -/
theorem statusFieldsAndIrq : Obligations.StatusFieldsAndIrq := by
  intro s
  have flag : ∀ i, i < 11 → s.status.getLsbD i = _ := fun i h => status_getLsbD s h
  refine ⟨?_, flag 1 (by decide), flag 2 (by decide), flag 3 (by decide), flag 4 (by decide), ?_, ?_, flag 8 (by decide), ?_, ?_,
    status_low_reserved s, status_errCode s, status_high_reserved s⟩
  · rw [flag 0 (by decide)]
    exact busy_iff s
  · rw [flag 5 (by decide)]
    exact heapEmpty_iff s
  · rw [status_tree]
    cases s.tree <;> rfl
  · rw [flag 9 (by decide)]
    exact brEos_iff s
  · rw [flag 10 (by decide)]
    exact irq_iff s

/-- STATUS after reset: HEAP_EMPTY and BR_EOS (R61). -/
theorem status_reset : State.reset.status = 0x00000220#32 := by decide

/-- Settles O17: a reset event is the model's `hardReset`, which starts from the values of R61. -/
theorem resetLeavesTheResetValues : Obligations.ResetLeavesTheResetValues := by
  refine ⟨fun s rest hev => ⟨_, step_cons hev, status_reset, rfl, rfl⟩, ?_⟩
  exact ⟨rfl, rfl, rfl, rfl, rfl, rfl, rfl, rfl, rfl, rfl, rfl, rfl, rfl, rfl, rfl, tableGet_replicate _, rfl, rfl, rfl, rfl, rfl,
    tableGet_replicate _, tableGet_replicate _, rfl, rfl, rfl, rfl, rfl, rfl, rfl⟩

/-- Settles O58: the sizes of `Config` are legal. -/
theorem resetMeetsTheInvariants : Obligations.ResetMeetsTheInvariants :=
  State.sound_true_iff.1 (State.resetFor_sound (by decide))

end Sys2Proof.Machine
end

section
/-! SUPPORT. What no step of a command writes, that none but ENCODE and DECODE moves IN_POS backwards, and what completion then
writes. -/

namespace Sys2Proof.Machine

/-! ## The two frames -/

/-- `t` is `s` but for the data state: no step of a command writes anything else. The parameters, the host's side and the error state
stay, and so does RESULT, which completion alone writes (R29, R236). -/
def DataFrame (s t : State) : Prop :=
  t = { s with
    inPos := t.inPos, outPos := t.outPos, total := t.total, symCnt := t.symCnt, freq := t.freq, heap := t.heap,
    arena := t.arena, tree := t.tree, root := t.root, nLeaf := t.nLeaf, lutLen := t.lutLen, lutCode := t.lutCode,
    lutValid := t.lutValid, bwBuf := t.bwBuf, bwCnt := t.bwCnt, brBuf := t.brBuf, brCnt := t.brCnt, outMem := t.outMem }

theorem DataFrame.trans {s m t : State} (h1 : DataFrame s m) (h2 : DataFrame m t) : DataFrame s t := by
  unfold DataFrame at h1 h2
  rw [h1] at h2
  exact h2

/-- A sequence stays in the frame when its parts do. -/
theorem Run.Ends.frame {α β : Type} {s : State} {r : Run α} {f : α → State → Run β} (h : r.Ends (DataFrame s))
    (hf : ∀ a m, (f a m).Ends (DataFrame m)) : (r.andThen f).Ends (DataFrame s) :=
  h.andThen fun a m hm => (hf a m).mono fun _ ht => hm.trans ht

/-- `t` is `s` but for the data state, and IN_POS did not move backwards. -/
structure Onward (s t : State) : Prop where
  frame : DataFrame s t
  inPos_le : s.inPos.toNat ≤ t.inPos.toNat

theorem Onward.trans {s m t : State} (h1 : Onward s m) (h2 : Onward m t) : Onward s t :=
  ⟨h1.frame.trans h2.frame, h1.inPos_le.trans h2.inPos_le⟩

theorem Onward.of_eq {s t : State} (h : t = s) : Onward s t := h ▸ ⟨rfl, Nat.le_refl _⟩

/-- A step that leaves IN_POS is onward. -/
theorem DataFrame.onward {s t : State} (h : DataFrame s t) (hp : t.inPos = s.inPos) : Onward s t :=
  ⟨h, Nat.le_of_eq (congrArg _ hp.symm)⟩

/-- A sequence goes onward when its parts do. -/
theorem Run.Ends.onward {α β : Type} {s : State} {r : Run α} {f : α → State → Run β} (h : r.Ends (Onward s))
    (hf : ∀ a m, (f a m).Ends (Onward m)) : (r.andThen f).Ends (Onward s) :=
  h.andThen fun a m hm => (hf a m).mono fun _ ht => hm.trans ht

/-- Going onward stays in the frame. -/
theorem Run.Ends.frame_of_onward {α : Type} {s : State} {r : Run α} (h : r.Ends (Onward s)) : r.Ends (DataFrame s) :=
  h.mono fun _ ht => ht.frame

/-- Below IN_LEN, IN_POS has a successor: it does not wrap (R71). -/
theorem inPos_le_succ {s : State} (h : s.inPos < s.inLen) : s.inPos.toNat ≤ (s.inPos + 1#32).toNat := by
  have hlen := s.inLen.isLt
  rw [BitVec.lt_def] at h
  rw [BitVec.toNat_add, BitVec.toNat_ofNat]
  omega

/-! ## Steps that go onward -/

theorem checkRoom_onward (k : Nat) (s : State) : (checkRoom k s).Ends (Onward s) :=
  (checkRoom_ends k s).mono fun _ => Onward.of_eq

theorem checkNode_onward (i : NodeIdx) (s : State) : (checkNode i s).Ends (Onward s) :=
  (checkNode_ends i s).mono fun _ => Onward.of_eq

theorem checkArena_onward (s : State) : (checkArena s).Ends (Onward s) := (checkArena_ends s).mono fun _ => Onward.of_eq

theorem checkCode_onward (b : Byte) (s : State) : (checkCode b s).Ends (Onward s) :=
  (checkCode_ends b s).mono fun _ => Onward.of_eq

theorem memReadIn_onward (s : State) : (memReadIn s).Ends (Onward s) := (memReadIn_ends s).mono fun _ => Onward.of_eq

theorem memWriteOut_onward (b : Byte) (s : State) : (memWriteOut b s).Ends (Onward s) :=
  (memWriteOut_ends b s).mono fun t ht => DataFrame.onward (by rw [DataFrame, ht]) (by rw [ht])

theorem putBits_onward (bits : List Bool) (s : State) : (putBits bits s).Ends (Onward s) :=
  (putBits_ends bits s).mono fun t ht => DataFrame.onward (by rw [DataFrame, ht]) (by rw [ht])

theorem bwFinalize_onward (s : State) : (bwFinalize s).Ends (Onward s) := by
  unfold bwFinalize
  split
  · exact .of_eq rfl
  · exact (checkRoom_onward 1 s).onward fun _ m => (memWriteOut_onward m.bwBuf m).onward fun _ _ => DataFrame.onward rfl rfl

theorem newLeaf_onward (b : Byte) (s : State) : (newLeaf b s).Ends (Onward s) := by
  unfold newLeaf
  split
  · exact DataFrame.onward rfl rfl
  · trivial

theorem newJoin_onward (a b : NodeIdx) (s : State) : (newJoin a b s).Ends (Onward s) := by
  unfold newJoin
  split
  · exact DataFrame.onward rfl rfl
  · trivial

theorem heapInsert_onward (i : NodeIdx) (s : State) : (heapInsert i s).Ends (Onward s) := by
  unfold heapInsert
  split
  · exact DataFrame.onward rfl rfl
  · trivial

theorem heapExtract_onward (s : State) : (heapExtract s).Ends (Onward s) := by
  unfold heapExtract
  split
  · exact DataFrame.onward rfl rfl
  · trivial

theorem treeBuild_onward (s : State) : (treeBuild s).Ends (Onward s) := by
  obtain ⟨v, t, hrun, ht⟩ := treeBuild_frame s
  rw [hrun]
  exact DataFrame.onward (by rw [DataFrame, ht]) (by rw [ht])

theorem codeGen_onward (s : State) : (codeGen s).Ends (Onward s) :=
  (codeGen_ends s).mono fun t ht => DataFrame.onward (by rw [DataFrame, ht]) (by rw [ht])

theorem freqHdrWr_onward (s : State) : (freqHdrWr s).Ends (Onward s) :=
  (freqHdrWr_ends s).mono fun t ht => DataFrame.onward (by rw [DataFrame, ht]) (by rw [ht])

theorem scanByte_onward {s : State} (h : s.inPos < s.inLen) : (scanByte s).Ends (Onward s) := by
  unfold scanByte
  refine (memReadIn_onward s).andThen_of_ok fun b m hm => ?_
  obtain ⟨-, -, rfl⟩ := memReadIn_eq_ok.1 hm
  split
  · exact .of_eq rfl
  · exact ⟨rfl, inPos_le_succ h⟩

theorem scanLoop_onward (fuel : Nat) (s : State) : (scanLoop fuel s).Ends (Onward s) := by
  induction fuel generalizing s with
  | zero => exact .of_eq rfl
  | succ fuel ih =>
    unfold scanLoop
    split
    · rename_i hlt
      exact (scanByte_onward hlt).onward fun _ m => ih m
    · exact .of_eq rfl

theorem freqScan_onward (s : State) : (freqScan s).Ends (Onward s) :=
  have hstart : Onward s s.invalidateDerived := DataFrame.onward rfl rfl
  (scanLoop_onward s.avail s.invalidateDerived).mono fun _ ht => hstart.trans ht

theorem freqHdrRd_onward (s : State) : (freqHdrRd s).Ends (Onward s) := by
  unfold freqHdrRd
  split
  · exact .of_eq rfl
  · rename_i havail
    split
    · trivial
    · have hlen := s.inLen.isLt
      have hpos : s.inPos.toNat ≤ (s.inPos + BitVec.ofNat 32 Config.hdrBytes).toNat := by
        unfold State.avail Config.hdrBytes at havail
        rw [BitVec.toNat_add, BitVec.toNat_ofNat, Config.hdrBytes]
        omega
      exact ⟨rfl, hpos⟩

theorem getBit_onward (s : State) : (getBit s).Ends (Onward s) := by
  unfold getBit
  split
  · split
    · exact .of_eq rfl
    · rename_i hlt
      refine (memReadIn_onward s).andThen_of_ok fun b m hm => ?_
      obtain ⟨-, -, rfl⟩ := memReadIn_eq_ok.1 hm
      exact ⟨rfl, inPos_le_succ (BitVec.not_le.1 hlt)⟩
  · exact DataFrame.onward rfl rfl

theorem descend_onward (fuel : Nat) (n : NodeIdx) (s : State) : (descend fuel n s).Ends (Onward s) := by
  induction fuel generalizing n s with
  | zero =>
    unfold descend
    split <;> exact .of_eq rfl
  | succ fuel ih =>
    unfold descend
    split
    · exact .of_eq rfl
    · refine (getBit_onward s).onward fun r m => ?_
      cases r with
      | none => exact .of_eq rfl
      | some c => exact ih _ m

theorem reachLeaf_onward (s : State) : (reachLeaf s).Ends (Onward s) := by
  unfold reachLeaf
  split
  · exact (getBit_onward s).onward fun _ _ => .of_eq rfl
  · exact descend_onward _ _ s

theorem emitLeaf_onward (n : NodeIdx) (s : State) : (emitLeaf n s).Ends (Onward s) :=
  (memWriteOut_onward _ s).onward fun _ _ => DataFrame.onward rfl rfl

theorem decSym_onward (s : State) : (decSym s).Ends (Onward s) := by
  unfold decSym
  split
  · exact .of_eq rfl
  · refine (checkRoom_onward 1 s).onward fun _ m => (reachLeaf_onward m).andThen fun leaf t ht => ?_
    cases leaf with
    | none => exact .of_eq rfl
    | some n => exact (emitLeaf_onward n t).mono fun _ hu => ht.trans hu

theorem emitSymbol_onward (b : Byte) (s : State) : (emitSymbol b s).Ends (Onward s) :=
  (putBits_onward _ s).onward fun _ _ => DataFrame.onward rfl rfl

theorem encNext_onward (s : State) : (encNext s).Ends (Onward s) := by
  unfold encNext
  split
  · exact .of_eq rfl
  · rename_i hlt
    refine (memReadIn_onward s).andThen_of_ok fun b m hm => ?_
    obtain ⟨-, -, rfl⟩ := memReadIn_eq_ok.1 hm
    refine (checkCode_onward b m).andThen_of_ok fun _ m' hm => ?_
    obtain rfl := (checkCode_ends b m).of_ok hm
    have hadvance : Onward m' { m' with inPos := m'.inPos + 1#32 } := ⟨rfl, inPos_le_succ (BitVec.not_le.1 hlt)⟩
    exact (emitSymbol_onward b _).mono fun _ ht => hadvance.trans ht

/-! ## Whole files: the frame alone, since their start sets IN_POS to 0 -/

theorem encodeFile_frame (s : State) : (encodeFile s).Ends (DataFrame s) := by
  refine Run.Ends.frame (r := freqClear s.startEncode) rfl fun _ m => (freqScan_onward m).frame_of_onward.frame fun _ m =>
    (freqHdrWr_onward m).frame_of_onward.frame fun _ m =>
    (Run.effect_ends.2 (treeBuild_onward m).frame_of_onward).frame fun _ m =>
    (Run.effect_ends.2 (codeGen_onward m).frame_of_onward).frame fun _ m => ?_
  have hloop : (encodeLoop m.inLen.toNat { m with inPos := 0#32 }).Ends (DataFrame m) :=
    (encodeLoop_ends _ _).mono fun t ht => by rw [DataFrame, ht]
  exact hloop.frame fun _ m => (Run.effect_ends.2 (bwFinalize_onward m).frame_of_onward).frame fun _ _ => rfl

theorem decodeFile_frame (s : State) : (decodeFile s).Ends (DataFrame s) := by
  refine Run.Ends.frame ((freqHdrRd_onward s.startDecode).mono fun _ ht => ht.frame) fun _ m =>
    (Run.effect_ends.2 (treeBuild_onward m).frame_of_onward).frame fun _ m => ?_
  split
  · rfl
  · have hloop : (decodeLoop (m.total - m.symCnt).toNat m).Ends (DataFrame m) :=
      (decodeLoop_ends _ _).mono fun t ht => by rw [DataFrame, ht]
    exact hloop.frame fun _ _ => rfl

/-! ## Completion (R236) -/

/-- How a command completes from the state `m` its steps left: it succeeds and RESULT takes its value, the old one if the command
names none (`keep`); or it takes an error, which leaves RESULT (R29, R236). -/
inductive Completed (keep : Bool) (m t : State) : Prop
  | success (v : Word) (hv : keep = true → v = m.result) (ht : t = { m with result := v }.finish)
  | failure (k : ErrKind) (info : Word) (ht : t = m.takeError k info)

theorem complete_completed {r : Run Unit} {p : State → Prop} {t : State} (he : complete r = .next t) (h : r.Ends p) :
    ∃ m, p m ∧ Completed true m t := by
  obtain ⟨m, hr, rfl⟩ | ⟨k, info, m, hr, rfl⟩ := complete_eq_next.1 he
  · exact ⟨m, h.of_ok hr, .success m.result (fun _ => rfl) rfl⟩
  · exact ⟨m, h.of_err hr, .failure k info rfl⟩

theorem completeWith_completed {r : Run Word} {p : State → Prop} {t : State} (he : completeWith r = .next t) (h : r.Ends p) :
    ∃ m, p m ∧ Completed false m t := by
  obtain ⟨v, m, hr, rfl⟩ | ⟨k, info, m, hr, rfl⟩ := completeWith_eq_next.1 he
  · exact ⟨m, h.of_ok hr, .success v nofun rfl⟩
  · exact ⟨m, h.of_err hr, .failure k info rfl⟩

/-- Completion writes only PENDING, DONE, RESULT and the error. -/
theorem Completed.frame {keep : Bool} {m t : State} (h : Completed keep m t) :
    t = { m with
      pending := none, done := true, err := t.err, errCode := t.errCode, errInfo := t.errInfo, result := t.result } := by
  cases h with
  | success v _ ht => rw [ht]; rfl
  | failure k info ht => rw [ht]; rfl

/-- Completion clears no error. -/
theorem Completed.err {keep : Bool} {m t : State} (h : Completed keep m t) (hm : m.err = true) : t.err = true := by
  cases h with
  | success v _ ht => rw [ht]; exact hm
  | failure k info ht => rw [ht]; rfl

/-- A command that names no result, and one that took an error, leaves RESULT. -/
theorem Completed.result {keep : Bool} {m t : State} (h : Completed keep m t) :
    (keep = true → t.result = m.result) ∧ (m.err = false → t.err = true → t.result = m.result) := by
  cases h with
  | success v hv ht =>
    subst ht
    exact ⟨hv, fun hm he => absurd (hm.symm.trans he) (by decide)⟩
  | failure k info ht =>
    subst ht
    exact ⟨fun _ => rfl, fun _ _ => rfl⟩

/-- Every command but the two resetting ones and the two whole-file ones goes onward and then completes. -/
theorem exec_onward {i : Instr} {s t : State} (hsoft : i ≠ .softReset) (hclr : i ≠ .clrErr) (henc : i ≠ .encode)
    (hdec : i ≠ .decode) (he : exec i s = .next t) : ∃ m, Onward s m ∧ Completed (keepsResult i) m t := by
  cases i with
  | nop => exact complete_completed (r := .ok () s) he (.of_eq rfl)
  | softReset => exact absurd rfl hsoft
  | clrErr => exact absurd rfl hclr
  | freqClear => exact complete_completed (r := freqClear s) he (DataFrame.onward rfl rfl)
  | freqScan => exact complete_completed he (freqScan_onward s)
  | freqHdrWr => exact complete_completed he (freqHdrWr_onward s)
  | freqHdrRd => exact complete_completed he (freqHdrRd_onward s)
  | arenaClear => exact complete_completed (r := .ok () _) he (DataFrame.onward rfl rfl)
  | nodeLeaf sym =>
    exact completeWith_completed he <| (checkArena_onward s).onward fun _ m => (newLeaf_onward sym m).onward fun _ _ => .of_eq rfl
  | nodeJoin a b =>
    refine completeWith_completed he <| (checkNode_onward a s).onward fun _ m => (checkNode_onward b m).onward fun _ m =>
      (checkArena_onward m).onward fun _ m => ?_
    split
    · exact .of_eq rfl
    · exact (newJoin_onward a b m).onward fun _ _ => .of_eq rfl
  | heapClear => exact complete_completed (r := .ok () _) he (DataFrame.onward rfl rfl)
  | heapInsert i =>
    refine complete_completed he <| (checkNode_onward i s).onward fun _ m => ?_
    split
    · exact .of_eq rfl
    · exact heapInsert_onward i m
  | heapExtract =>
    refine completeWith_completed he (p := Onward s) ?_
    split
    · exact .of_eq rfl
    · exact (heapExtract_onward s).onward fun _ _ => .of_eq rfl
  | treeBuild => exact completeWith_completed he (treeBuild_onward s)
  | codeGen => exact completeWith_completed he (codeGen_onward s)
  | bwReset => exact complete_completed (r := .ok () _) he (DataFrame.onward rfl rfl)
  | bwPut n val => exact complete_completed he <| (checkRoom_onward _ s).onward fun _ m => putBits_onward _ m
  | bwFinalize => exact completeWith_completed he (bwFinalize_onward s)
  | brReset => exact complete_completed (r := .ok () _) he (DataFrame.onward rfl rfl)
  | brGet => exact completeWith_completed he <| (getBit_onward s).onward fun _ _ => .of_eq rfl
  | encSym sym => exact completeWith_completed he <| (checkCode_onward sym s).onward fun _ m => emitSymbol_onward sym m
  | encNext => exact completeWith_completed he (encNext_onward s)
  | decSym => exact completeWith_completed he (decSym_onward s)
  | encode => exact absurd rfl henc
  | decode => exact absurd rfl hdec

/-- Every command but SOFT_RESET and CLR_ERR writes only the data state and then completes; only ENCODE and DECODE may leave IN_POS
before where it was. -/
theorem exec_completed {i : Instr} {s t : State} (hsoft : i ≠ .softReset) (hclr : i ≠ .clrErr) (he : exec i s = .next t) :
    ∃ m, (DataFrame s m ∧ (i ≠ .encode → i ≠ .decode → s.inPos.toNat ≤ m.inPos.toNat)) ∧ Completed (keepsResult i) m t := by
  by_cases henc : i = .encode
  · subst henc
    exact completeWith_completed he ((encodeFile_frame s).mono fun _ hm => ⟨hm, fun h => absurd rfl h⟩)
  · by_cases hdec : i = .decode
    · subst hdec
      exact completeWith_completed he ((decodeFile_frame s).mono fun _ hm => ⟨hm, fun _ h => absurd rfl h⟩)
    · obtain ⟨m, hm, hend⟩ := exec_onward hsoft hclr henc hdec he
      exact ⟨m, ⟨hm.frame, fun _ _ => hm.inPos_le⟩, hend⟩

/-! ## The obligations -/

/-- Settles O52: no step writes RESULT, and completion writes it on a named success only. SOFT_RESET and CLR_ERR leave ERR = 0. -/
theorem resultIsWrittenOnlyOnNamedSuccess : Obligations.ResultIsWrittenOnlyOnNamedSuccess := by
  intro i s t he
  by_cases hsoft : i = .softReset
  · subst hsoft
    cases he
    exact ⟨nofun, fun _ => nofun⟩
  · by_cases hclr : i = .clrErr
    · subst hclr
      cases he
      exact ⟨fun _ => rfl, fun _ => nofun⟩
    · obtain ⟨m, ⟨hframe, -⟩, hend⟩ := exec_completed hsoft hclr he
      have herr : m.err = s.err := by rw [hframe]
      have hresult : m.result = s.result := by rw [hframe]
      rw [← herr, ← hresult]
      exact hend.result

/-- Settles O54: the steps' frame and completion's together name every field a command may change. -/
theorem commandsKeepInputAndParameters : Obligations.CommandsKeepInputAndParameters := by
  intro i s t he
  by_cases hsoft : i = .softReset
  · subst hsoft
    cases he
    exact ⟨rfl, rfl, rfl, rfl, rfl, rfl, rfl, fun h => absurd rfl h, fun h => absurd rfl h, fun h => absurd rfl h⟩
  · by_cases hclr : i = .clrErr
    · subst hclr
      cases he
      exact ⟨rfl, rfl, rfl, rfl, rfl, rfl, rfl, fun _ => ⟨rfl, rfl, rfl⟩, fun _ h => absurd rfl h, fun _ _ _ => Nat.le_refl _⟩
    · obtain ⟨m, ⟨hframe, hpos⟩, hend⟩ := exec_completed hsoft hclr he
      have herr : m.err = s.err := by rw [hframe]
      have hinPos : t.inPos = m.inPos := by rw [hend.frame]
      have ht := hend.frame
      rw [hframe] at ht
      refine ⟨?_, ?_, ?_, ?_, ?_, ?_, ?_, fun _ => ⟨?_, ?_, ?_⟩, fun _ _ => ⟨?_, ?_, fun h => hend.err (herr.trans h)⟩,
        fun _ henc hdec => hinPos ▸ hpos henc hdec⟩ <;> rw [ht]

end Sys2Proof.Machine
end

section
/-! SUPPORT. No command reads OUT (R70, R75): two runs that differ in what OUT holds go alike and store the same bytes from the same
OUT_POS on. -/

namespace Sys2Proof.Machine

/-! ## Two states that differ in what OUT holds -/

/-- `s` with OUT holding `m`. -/
def State.withOut (s : State) (m : Memory) : State := { s with outMem := m }

/-- From `s` to `t` the bytes `bs` were stored at OUT_POS, which moved past them; the same bytes at the same addresses turn another
OUT, `m`, into `m'`. -/
structure Stored (s : State) (m : Memory) (bs : List Byte) (t : State) (m' : Memory) : Prop where
  outPos_eq : t.outPos.toNat = s.outPos.toNat + bs.length
  own : ∀ a, t.outMem.read? a = (s.outMem.writeBlock s.outPos.toNat bs).read? a
  other : ∀ a, m'.read? a = (m.writeBlock s.outPos.toNat bs).read? a

/-- From `s` to `t` some bytes were stored, and the same ones with OUT holding `m`, which then holds `m'`. -/
def StoredAlike (s : State) (m : Memory) (t : State) (m' : Memory) : Prop := ∃ bs, Stored s m bs t m'

/-- Writing no byte changes no byte. -/
theorem Memory.read?_writeBlock_nil (m : Memory) (p a : Nat) : (m.writeBlock p []).read? a = m.read? a := by
  rw [Memory.read?_writeBlock, if_neg (by simp)]

/-- Writing a block where the last one ended is writing both as one block. -/
theorem Memory.read?_writeBlock_append {m m' m'' : Memory} {p : Nat} {bs cs : List Byte}
    (h1 : ∀ a, m'.read? a = (m.writeBlock p bs).read? a)
    (h2 : ∀ a, m''.read? a = (m'.writeBlock (p + bs.length) cs).read? a) (a : Nat) :
    m''.read? a = (m.writeBlock p (bs ++ cs)).read? a := by
  rw [h2, Memory.read?_writeBlock, h1, Memory.read?_writeBlock, Memory.read?_writeBlock, List.length_append]
  by_cases hcs : p + bs.length ≤ a
  · by_cases hend : a < p + bs.length + cs.length
    · rw [if_pos (by omega), if_pos (by omega), List.getElem?_append_right (by omega), Nat.sub_sub]
    · rw [if_neg (by omega), if_neg (by omega), if_neg (by omega)]
  · by_cases hbs : p ≤ a
    · rw [if_neg (by omega), if_pos (by omega), if_pos (by omega), List.getElem?_append_left (by omega)]
    · rw [if_neg (by omega), if_neg (by omega), if_neg (by omega)]

/-- A step that leaves OUT and OUT_POS stores nothing. -/
theorem StoredAlike.of_eq {s t : State} {m : Memory} (hpos : t.outPos = s.outPos) (hmem : t.outMem = s.outMem) :
    StoredAlike s m t m :=
  ⟨[], by rw [hpos]; rfl, fun a => by rw [hmem, Memory.read?_writeBlock_nil], fun a => (Memory.read?_writeBlock_nil m _ a).symm⟩

/-- Storing a block that OUT has room for, so that OUT_POS does not wrap (R75). -/
theorem StoredAlike.writeBlock {s t : State} {bs : List Byte} (hroom : s.outPos.toNat + bs.length ≤ s.outCap.toNat) (m : Memory)
    (hpos : t.outPos = s.outPos + BitVec.ofNat 32 bs.length) (hmem : t.outMem = s.outMem.writeBlock s.outPos.toNat bs) :
    StoredAlike s m t (m.writeBlock s.outPos.toNat bs) := by
  refine ⟨bs, ?_, fun a => by rw [hmem], fun a => rfl⟩
  have hcap := s.outCap.isLt
  rw [hpos, BitVec.toNat_add, BitVec.toNat_ofNat]
  omega

theorem StoredAlike.trans {s t u : State} {m m' m'' : Memory} (h1 : StoredAlike s m t m') (h2 : StoredAlike t m' u m'') :
    StoredAlike s m u m'' := by
  obtain ⟨bs, hpos, hown, hother⟩ := h1
  obtain ⟨cs, hpos', hown', hother'⟩ := h2
  rw [hpos] at hpos' hown' hother'
  exact ⟨bs ++ cs, by rw [hpos', List.length_append, Nat.add_assoc], Memory.read?_writeBlock_append hown hown',
    Memory.read?_writeBlock_append hother hother'⟩

/-! ## Two runs -/

/-- The run `r` from `s` and the run `r'` from `s` with OUT holding `m` come to the same, but for what OUT held before. -/
def Run.Alike {α : Type} (s : State) (m : Memory) (r r' : Run α) : Prop :=
  match r with
  | .ok a t => ∃ m', r' = .ok a (t.withOut m') ∧ StoredAlike s m t m'
  | .err k info t => ∃ m', r' = .err k info (t.withOut m') ∧ StoredAlike s m t m'
  | .fault f => r' = .fault f

/-- A part of a command that does not read OUT: from every state it runs alike whatever OUT holds. -/
def BlindToOut {α : Type} (f : State → Run α) : Prop := ∀ s m, Run.Alike s m (f s) (f (s.withOut m))

/-- A success that leaves OUT and OUT_POS. -/
theorem Run.Alike.ok {α : Type} {s t : State} {m : Memory} {a : α} (hpos : t.outPos = s.outPos) (hmem : t.outMem = s.outMem) :
    Run.Alike s m (.ok a t) (.ok a (t.withOut m)) :=
  ⟨m, rfl, .of_eq hpos hmem⟩

/-- An error raised where the run began. -/
theorem Run.Alike.err {α : Type} {s : State} {m : Memory} {k : ErrKind} {info : Word} :
    Run.Alike s m (.err k info s : Run α) (.err k info (s.withOut m)) :=
  ⟨m, rfl, .of_eq rfl rfl⟩

theorem Run.Alike.fault {α : Type} {s : State} {m : Memory} {f : Fault} : Run.Alike s m (.fault f : Run α) (.fault f) := rfl

/-- Both runs take the same branch when the condition is the same. -/
theorem Run.Alike.ite {α : Type} {s : State} {m : Memory} {c : Prop} [Decidable c] {r1 r1' r2 r2' : Run α}
    (h1 : c → Run.Alike s m r1 r1') (h2 : ¬ c → Run.Alike s m r2 r2') :
    Run.Alike s m (if c then r1 else r2) (if c then r1' else r2') := by
  split
  · exact h1 ‹_›
  · exact h2 ‹_›

/-- Runs that go alike after storing alike. -/
theorem StoredAlike.andThen {α : Type} {s t : State} {m m' : Memory} {r r' : Run α} (h : StoredAlike s m t m')
    (hr : Run.Alike t m' r r') : Run.Alike s m r r' := by
  cases r with
  | ok a u =>
    obtain ⟨m'', hr', hu⟩ := hr
    exact ⟨m'', hr', h.trans hu⟩
  | err k info u =>
    obtain ⟨m'', hr', hu⟩ := hr
    exact ⟨m'', hr', h.trans hu⟩
  | fault f => exact hr

/-- Where a run is said to start matters only for OUT and OUT_POS. -/
theorem Run.Alike.of_start {α : Type} {s t : State} {m : Memory} {r r' : Run α} (h : Run.Alike t m r r')
    (hpos : t.outPos = s.outPos) (hmem : t.outMem = s.outMem) : Run.Alike s m r r' :=
  (StoredAlike.of_eq hpos hmem).andThen h

/-- A sequence goes alike when its first part does and its second part does from every success of the first. -/
theorem Run.Alike.bind {α β : Type} {s : State} {m : Memory} {r r' : Run α} {f f' : α → State → Run β}
    (h : Run.Alike s m r r')
    (hf : ∀ a t m', r = .ok a t → StoredAlike s m t m' → Run.Alike s m (f a t) (f' a (t.withOut m'))) :
    Run.Alike s m (r.andThen f) (r'.andThen f') := by
  cases r with
  | ok a t =>
    obtain ⟨m', rfl, ht⟩ := h
    exact hf a t m' rfl ht
  | err k info t =>
    obtain ⟨m', rfl, ht⟩ := h
    exact ⟨m', rfl, ht⟩
  | fault f => exact congrArg (·.andThen f') h

/-- A sequence goes alike when its parts do. -/
theorem Run.Alike.andThen {α β : Type} {s : State} {m : Memory} {r r' : Run α} {f f' : α → State → Run β}
    (h : Run.Alike s m r r') (hf : ∀ a t m', Run.Alike t m' (f a t) (f' a (t.withOut m'))) :
    Run.Alike s m (r.andThen f) (r'.andThen f') :=
  h.bind fun a t m' _ ht => ht.andThen (hf a t m')

theorem Run.Alike.effect {α : Type} {s : State} {m : Memory} {r r' : Run α} (h : Run.Alike s m r r') :
    Run.Alike s m r.effect r'.effect :=
  h.andThen fun _ _ _ => .ok rfl rfl

/-! ## The shared operations -/

theorem checkRoom_blind (k : Nat) : BlindToOut (checkRoom k) := fun _ _ => .ite (fun _ => .err) fun _ => .ok rfl rfl

theorem checkNode_blind (i : NodeIdx) : BlindToOut (checkNode i) := fun _ _ => .ite (fun _ => .err) fun _ => .ok rfl rfl

theorem checkArena_blind : BlindToOut checkArena := fun _ _ => .ite (fun _ => .err) fun _ => .ok rfl rfl

theorem checkCode_blind (b : Byte) : BlindToOut (checkCode b) := fun s m =>
  .ite (fun _ => .err) fun _ => .ite (fun _ => .err) fun _ => checkRoom_blind _ s m

theorem memReadIn_blind : BlindToOut memReadIn := fun _ _ => .ite (fun _ => .ok rfl rfl) fun _ => .fault

theorem memWriteOut_blind (b : Byte) : BlindToOut (memWriteOut b) := fun _ m =>
  .ite (fun hroom => ⟨_, rfl, .writeBlock (bs := [b]) hroom m rfl rfl⟩) fun _ => .fault

/-! ## Bits -/

theorem putBit_blind (b : Bool) : BlindToOut (putBit b) := fun s m =>
  .ite (fun _ => (memWriteOut_blind _ s m).andThen fun _ _ _ => .ok rfl rfl) fun _ => .ok rfl rfl

theorem putBits_blind (bits : List Bool) : BlindToOut (putBits bits) := by
  induction bits with
  | nil => exact fun _ _ => .ok rfl rfl
  | cons b bs ih => exact fun s m => (putBit_blind b s m).andThen fun _ t m' => ih t m'

theorem bwFinalize_blind : BlindToOut bwFinalize := fun s m =>
  .ite (fun _ => .ok rfl rfl) fun _ => (checkRoom_blind 1 s m).andThen fun _ t m' =>
    (memWriteOut_blind t.bwBuf t m').andThen fun _ _ _ => .ok rfl rfl

theorem getBit_blind : BlindToOut getBit := fun s m =>
  .ite (fun _ => .ite (fun _ => .ok rfl rfl) fun _ => (memReadIn_blind s m).andThen fun _ _ _ => .ok rfl rfl) fun _ => .ok rfl rfl

/-! ## Arena, heap, tree and code table -/

theorem newLeaf_blind (b : Byte) : BlindToOut (newLeaf b) := fun _ _ => .ite (fun _ => .ok rfl rfl) fun _ => .fault

theorem newJoin_blind (a b : NodeIdx) : BlindToOut (newJoin a b) := fun _ _ => .ite (fun _ => .ok rfl rfl) fun _ => .fault

theorem heapInsert_blind (i : NodeIdx) : BlindToOut (heapInsert i) := fun _ _ => .ite (fun _ => .ok rfl rfl) fun _ => .fault

theorem heapExtract_blind : BlindToOut heapExtract := fun _ _ => .ite (fun _ => .ok rfl rfl) fun _ => .fault

theorem nodeResult_alike {s : State} {m : Memory} {r r' : Run NodeIdx} (h : Run.Alike s m r r') :
    Run.Alike s m (nodeResult r) (nodeResult r') :=
  h.andThen fun _ _ _ => .ok rfl rfl

theorem addLeaves_blind (bs : List Byte) : BlindToOut (addLeaves bs) := by
  induction bs with
  | nil => exact fun _ _ => .ok rfl rfl
  | cons b bs ih =>
    refine fun s m => .ite (fun _ => ?_) fun _ => ih s m
    exact (newLeaf_blind b s m).andThen fun n t m => (heapInsert_blind n t m).andThen fun _ t m => ih t m

theorem mergeLoop_blind (fuel : Nat) : BlindToOut (mergeLoop fuel) := by
  induction fuel with
  | zero => exact fun _ _ => .fault
  | succ fuel ih =>
    refine fun s m => (heapExtract_blind s m).andThen fun a t m => ?_
    refine .ite (fun _ => .ok rfl rfl) fun _ => ?_
    exact (heapExtract_blind t m).andThen fun b t m => (newJoin_blind a b t m).andThen fun n t m =>
      (heapInsert_blind n t m).andThen fun _ t m => ih t m

theorem treeBuild_blind : BlindToOut treeBuild := by
  intro s m
  have hleaves : Run.Alike s m _ _ :=
    (addLeaves_blind allBytes { s with arena := [], heap := [], lutValid := false } m).of_start rfl rfl
  refine hleaves.andThen fun _ t m => ?_
  refine .ite (fun _ => .ok rfl rfl) fun _ => ?_
  have hmerge : Run.Alike t m _ _ := (mergeLoop_blind t.heap.length t.setNLeaf m).of_start rfl rfl
  exact hmerge.andThen fun _ _ _ => .ok rfl rfl

/-- Recording codes leaves OUT alone. -/
theorem writeCodes_withOut (codes : List (Byte × List Bool)) (s : State) (m : Memory) :
    writeCodes codes (s.withOut m) = (writeCodes codes s).withOut m := by
  induction codes generalizing s with
  | nil => rfl
  | cons c codes ih => exact ih (s.writeCode c.1 c.2)

theorem codeGen_blind : BlindToOut codeGen := by
  intro s m
  have htree : (s.withOut m).tree = s.tree := rfl
  have hcodes : treeCodes (s.withOut m) = treeCodes s := rfl
  unfold codeGen
  rw [htree, hcodes]
  cases s.tree with
  | none => exact .err
  | empty => exact .ok rfl rfl
  | valid =>
    cases treeCodes s with
    | none => exact .fault
    | some codes =>
      have hrec : writeCodes codes (s.withOut m).clearLut = (writeCodes codes s.clearLut).withOut m :=
        writeCodes_withOut codes s.clearLut m
      simp only [hrec]
      exact .ok (by rw [writeCodes_frame]; rfl) (by rw [writeCodes_frame]; rfl)

/-! ## Frequency table -/

theorem scanByte_blind : BlindToOut scanByte := fun s m =>
  (memReadIn_blind s m).andThen fun _ _ _ => .ite (fun _ => .err) fun _ => .ok rfl rfl

theorem scanLoop_blind (fuel : Nat) : BlindToOut (scanLoop fuel) := by
  induction fuel with
  | zero => exact fun _ _ => .ok rfl rfl
  | succ fuel ih =>
    exact fun s m => .ite (fun _ => (scanByte_blind s m).andThen fun _ t m' => ih t m') fun _ => .ok rfl rfl

theorem freqClear_blind : BlindToOut freqClear := fun _ _ => .ok rfl rfl

theorem freqScan_blind : BlindToOut freqScan := fun s m =>
  (scanLoop_blind s.avail s.invalidateDerived m).of_start rfl rfl

theorem freqHdrWr_blind : BlindToOut freqHdrWr := by
  intro s m
  refine (checkRoom_blind Config.hdrBytes s m).bind fun _ t m' hcheck ht => ht.andThen ?_
  obtain ⟨hroom, rfl⟩ := checkRoom_eq_ok.1 hcheck
  have hlen := length_headerBytes t.freq
  have hfits : t.outPos.toNat + (headerBytes t.freq).length ≤ t.outCap.toNat := by
    unfold State.room Config.hdrBytes at hroom
    omega
  exact ⟨_, rfl, .writeBlock hfits m' (by rw [hlen]; rfl) rfl⟩

theorem freqHdrRd_blind : BlindToOut freqHdrRd := by
  intro s m
  have havail : (s.withOut m).avail = s.avail := rfl
  unfold freqHdrRd
  rw [havail]
  exact .ite (fun _ => .err) fun _ => .ite (fun _ => .fault) fun _ =>
    .ok (State.invalidateDerived_outPos _) (State.invalidateDerived_outMem _)

/-! ## Symbol coder -/

theorem emitSymbol_blind (b : Byte) : BlindToOut (emitSymbol b) := fun s m =>
  (putBits_blind _ s m).andThen fun _ _ _ => .ok rfl rfl

theorem encNext_blind : BlindToOut encNext := fun s m =>
  .ite (fun _ => .err) fun _ => (memReadIn_blind s m).andThen fun b t m => (checkCode_blind b t m).andThen fun _ t m =>
    (emitSymbol_blind b { t with inPos := t.inPos + 1#32 } m).of_start rfl rfl

theorem encodeLoop_blind (fuel : Nat) : BlindToOut (encodeLoop fuel) := by
  induction fuel with
  | zero => exact fun _ _ => .ok rfl rfl
  | succ fuel ih =>
    exact fun s m => .ite (fun _ => (encNext_blind s m).andThen fun _ t m' => ih t m') fun _ => .ok rfl rfl

theorem descend_blind (fuel : Nat) (n : NodeIdx) : BlindToOut (descend fuel n) := by
  induction fuel generalizing n with
  | zero => exact fun _ _ => .ite (fun _ => .ok rfl rfl) fun _ => .ok rfl rfl
  | succ fuel ih =>
    refine fun s m => .ite (fun _ => .ok rfl rfl) fun _ => (getBit_blind s m).andThen fun r t m' => ?_
    cases r with
    | none => exact .ok rfl rfl
    | some b => exact ih _ t m'

theorem reachLeaf_blind : BlindToOut reachLeaf := fun s m =>
  .ite (fun _ => (getBit_blind s m).andThen fun _ _ _ => .ok rfl rfl) fun _ => descend_blind s.bitsLeft s.root s m

theorem emitLeaf_blind (n : NodeIdx) : BlindToOut (emitLeaf n) := fun s m =>
  (memWriteOut_blind _ s m).andThen fun _ _ _ => .ok rfl rfl

theorem decSym_blind : BlindToOut decSym := by
  refine fun s m => .ite (fun _ => .err) fun _ => (checkRoom_blind 1 s m).andThen fun _ t m =>
    (reachLeaf_blind t m).bind fun leaf u m' _ hu => ?_
  cases leaf with
  | none => exact .err
  | some n => exact hu.andThen (emitLeaf_blind n u m')

theorem decodeLoop_blind (fuel : Nat) : BlindToOut (decodeLoop fuel) := by
  induction fuel with
  | zero => exact fun _ _ => .ok rfl rfl
  | succ fuel ih =>
    exact fun s m => .ite (fun _ => (decSym_blind s m).andThen fun _ t m' => ih t m') fun _ => .ok rfl rfl

/-! ## Whole files: alike from their start, which sets OUT_POS to 0 -/

theorem encodeFile_alike (s : State) (m : Memory) : Run.Alike s.startEncode m (encodeFile s) (encodeFile (s.withOut m)) := by
  refine (freqClear_blind s.startEncode m).andThen fun _ t m => (freqScan_blind t m).andThen fun _ t m =>
    (freqHdrWr_blind t m).andThen fun _ t m => (treeBuild_blind t m).effect.andThen fun _ t m =>
    (codeGen_blind t m).effect.andThen fun _ t m => ?_
  have hloop : Run.Alike t m _ _ := (encodeLoop_blind t.inLen.toNat { t with inPos := 0#32 } m).of_start rfl rfl
  exact hloop.andThen fun _ t m => (bwFinalize_blind t m).effect.andThen fun _ _ _ => .ok rfl rfl

theorem decodeFile_alike (s : State) (m : Memory) : Run.Alike s.startDecode m (decodeFile s) (decodeFile (s.withOut m)) :=
  (freqHdrRd_blind s.startDecode m).andThen fun _ t m => (treeBuild_blind t m).effect.andThen fun _ t m =>
  .ite (fun _ => .ok rfl rfl) fun _ => (decodeLoop_blind (t.total - t.symCnt).toNat t m).andThen fun _ _ _ => .ok rfl rfl

/-! ## Every command -/

/-- The outcome `o` from `s` and the outcome `o'` from `s` with OUT holding `m` are the same, but for what OUT held before. -/
def CompletesAlike (s : State) (m : Memory) (o o' : Outcome) : Prop :=
  match o with
  | .next t => ∃ m', o' = .next (t.withOut m') ∧ StoredAlike s m t m'
  | .fault f => o' = .fault f
  | .refused x => o' = .refused x

/-- Completion leaves OUT and OUT_POS (R236). -/
theorem complete_alike {s : State} {m : Memory} {r r' : Run Unit} (h : Run.Alike s m r r') :
    CompletesAlike s m (complete r) (complete r') := by
  cases r with
  | ok a t =>
    obtain ⟨m', rfl, ht⟩ := h
    exact ⟨m', rfl, ht.trans (.of_eq rfl rfl)⟩
  | err k info t =>
    obtain ⟨m', rfl, ht⟩ := h
    exact ⟨m', rfl, ht.trans (.of_eq rfl rfl)⟩
  | fault f => exact congrArg complete h

/-- Completion with a result value leaves OUT and OUT_POS (R236). -/
theorem completeWith_alike {s : State} {m : Memory} {r r' : Run Word} (h : Run.Alike s m r r') :
    CompletesAlike s m (completeWith r) (completeWith r') := by
  cases r with
  | ok a t =>
    obtain ⟨m', rfl, ht⟩ := h
    exact ⟨m', rfl, ht.trans (.of_eq rfl rfl)⟩
  | err k info t =>
    obtain ⟨m', rfl, ht⟩ := h
    exact ⟨m', rfl, ht.trans (.of_eq rfl rfl)⟩
  | fault f => exact congrArg completeWith h

/-- Completion after updates that leave OUT and OUT_POS. -/
theorem complete_ok_alike {s t : State} {m : Memory} (hpos : t.outPos = s.outPos) (hmem : t.outMem = s.outMem) :
    CompletesAlike s m (complete (.ok () t)) (complete (.ok () (t.withOut m))) :=
  complete_alike (.ok hpos hmem)

/-- The state a command's stores start from: SOFT_RESET, ENCODE and DECODE set OUT_POS to 0 first (R116, R203, R204). -/
def State.startOf (s : State) : Instr → State
  | .softReset => s.softReset
  | .encode => s.startEncode
  | .decode => s.startDecode
  | _ => s

theorem State.startOf_outMem (s : State) (i : Instr) : (s.startOf i).outMem = s.outMem := by cases i <;> rfl

theorem State.startOf_outPos (s : State) {i : Instr} (hsoft : i ≠ .softReset) : (s.startOf i).outPos.toNat = s.storesFrom i := by
  cases i with
  | softReset => exact absurd rfl hsoft
  | _ => rfl

/-- No command reads OUT: from two states that differ in what OUT holds it completes alike (R70, R75). -/
theorem exec_alike (i : Instr) (s : State) (m : Memory) : CompletesAlike (s.startOf i) m (exec i s) (exec i (s.withOut m)) := by
  cases i with
  | nop => exact complete_ok_alike rfl rfl
  | softReset => exact complete_ok_alike rfl rfl
  | clrErr => exact complete_ok_alike rfl rfl
  | freqClear => exact complete_alike (freqClear_blind s m)
  | freqScan => exact complete_alike (freqScan_blind s m)
  | freqHdrWr => exact complete_alike (freqHdrWr_blind s m)
  | freqHdrRd => exact complete_alike (freqHdrRd_blind s m)
  | arenaClear => exact complete_ok_alike rfl rfl
  | nodeLeaf sym =>
    exact completeWith_alike <| (checkArena_blind s m).andThen fun _ t m => nodeResult_alike (newLeaf_blind sym t m)
  | nodeJoin a b =>
    refine completeWith_alike <| (checkNode_blind a s m).andThen fun _ t m => (checkNode_blind b t m).andThen fun _ t m =>
      (checkArena_blind t m).andThen fun _ t m => ?_
    exact .ite (fun _ => .err) fun _ => nodeResult_alike (newJoin_blind a b t m)
  | heapClear => exact complete_ok_alike rfl rfl
  | heapInsert i =>
    refine complete_alike <| (checkNode_blind i s m).andThen fun _ t m => ?_
    exact .ite (fun _ => .err) fun _ => heapInsert_blind i t m
  | heapExtract => exact completeWith_alike <| .ite (fun _ => .err) fun _ => nodeResult_alike (heapExtract_blind s m)
  | treeBuild => exact completeWith_alike (treeBuild_blind s m)
  | codeGen => exact completeWith_alike (codeGen_blind s m)
  | bwReset => exact complete_ok_alike rfl rfl
  | bwPut n val => exact complete_alike <| (checkRoom_blind _ s m).andThen fun _ t m => putBits_blind _ t m
  | bwFinalize => exact completeWith_alike (bwFinalize_blind s m)
  | brReset => exact complete_ok_alike rfl rfl
  | brGet => exact completeWith_alike <| (getBit_blind s m).andThen fun _ _ _ => .ok rfl rfl
  | encSym sym => exact completeWith_alike <| (checkCode_blind sym s m).andThen fun _ t m => emitSymbol_blind sym t m
  | encNext => exact completeWith_alike (encNext_blind s m)
  | decSym => exact completeWith_alike (decSym_blind s m)
  | encode => exact completeWith_alike (encodeFile_alike s m)
  | decode => exact completeWith_alike (decodeFile_alike s m)

/-! ## The obligations about OUT -/

/-- Where OUT_POS passed, the other OUT holds the bytes stored; elsewhere what it held before. -/
theorem Stored.other_read {s t : State} {m m' : Memory} {bs : List Byte} (h : Stored s m bs t m') (a : Nat) :
    m'.read? a = if s.outPos.toNat ≤ a ∧ a < t.outPos.toNat then t.outMem.read? a else m.read? a := by
  rw [h.other, h.own, h.outPos_eq, Memory.read?_writeBlock, Memory.read?_writeBlock]
  split <;> rfl

/-- Outside the stretch OUT_POS passed over, OUT holds what it held. -/
theorem Stored.own_read {s t : State} {m m' : Memory} {bs : List Byte} (h : Stored s m bs t m') {a : Nat}
    (ha : a < s.outPos.toNat ∨ t.outPos.toNat ≤ a) : t.outMem.read? a = s.outMem.read? a := by
  have hend := h.outPos_eq
  rw [h.own, Memory.read?_writeBlock, if_neg (by omega)]

/-- Settles O56: the two runs store the same bytes from the same OUT_POS on. SOFT_RESET stores none. -/
theorem outContentsNeverInfluenceACommand : Obligations.OutContentsNeverInfluenceACommand := by
  intro i s m
  by_cases hsoft : i = .softReset
  · subst hsoft
    refine ⟨fun t he => ?_, fun f he => nomatch he⟩
    cases he
    exact ⟨m, rfl, fun a => (if_neg fun h => absurd h.2 (Nat.not_lt_zero a)).symm⟩
  · have halike := exec_alike i s m
    refine ⟨fun t he => ?_, fun f he => ?_⟩ <;> rw [he] at halike
    · obtain ⟨m', he', bs, hstored⟩ := halike
      exact ⟨m', he', fun a => by rw [hstored.other_read, State.startOf_outPos s hsoft]⟩
    · exact halike

/-- Settles O55: the command stores its bytes where OUT_POS passes, and no step changes which unwritten contents OUT has. -/
theorem outIsWrittenOnlyAtOutPos : Obligations.OutIsWrittenOnlyAtOutPos := by
  intro i s t he
  obtain ⟨-, hepoch, -⟩ := commandsKeepInputAndParameters i s t he
  have halike := exec_alike i s s.outMem
  rw [he] at halike
  obtain ⟨_, _, bs, hstored⟩ := halike
  have hkept : ∀ a, a < (s.startOf i).outPos.toNat ∨ t.outPos.toNat ≤ a → t.outByte a = s.outByte a := fun a ha => by
    rw [State.outByte, State.outByte, hstored.own_read ha, State.startOf_outMem, hepoch]
  refine ⟨?_, fun _ a ha => hkept a (.inr ha), fun hsoft henc hdec => ?_⟩
  · rintro rfl
    cases he
    rfl
  · have hstart : (s.startOf i).outPos.toNat = s.outPos.toNat := by
      rw [State.startOf_outPos s hsoft, State.storesFrom, if_neg (by simp [henc, hdec])]
    have hend := hstored.outPos_eq
    exact ⟨by omega, fun a ha => hkept a (.inl (by omega))⟩

end Sys2Proof.Machine
end

section
/-! SUPPORT. The host's port (R70, R267), the edge of the register space (R77, R78), the step that runs a command (R236), and the
bits BW_PUT sends (R183). -/

namespace Sys2Proof.Machine

/-! ## The port -/

theorem busy_of_pending {s : State} (hp : s.pending ≠ none) : s.busy = true := (busy_iff s).2 hp

theorem idle_of_pending {s : State} (hp : s.pending = none) : s.busy = false := by rw [State.busy, hp]; rfl

/-- While BUSY = 1 the port refuses to write IN (R267). -/
theorem portLoad_busy {s : State} (hp : s.pending ≠ none) (addr : Nat) (b : Byte) :
    portLoad addr b s = .refused .portWhileBusy := by
  rw [portLoad, if_pos (busy_of_pending hp)]

/-- While BUSY = 0 the port writes the byte at its address, which is one of IN (R70). -/
theorem portLoad_idle {s : State} (hp : s.pending = none) {addr : Nat} (haddr : addr < s.inSize.toNat) (b : Byte) :
    portLoad addr b s = .next { s with inMem := s.inMem.write addr b } := by
  rw [portLoad, idle_of_pending hp, if_neg (by decide), if_pos haddr]

/-- While BUSY = 1 the port refuses to read OUT (R267). -/
theorem portRead_busy {s : State} (hp : s.pending ≠ none) (addr : Nat) : portRead addr s = .refused .portWhileBusy := by
  rw [portRead, if_pos (busy_of_pending hp)]

/-- While BUSY = 0 the port gives the byte OUT holds at an address below OUT_POS (R75). -/
theorem portRead_idle {s : State} (hp : s.pending = none) {addr : Nat} (hpos : addr < s.outPos.toNat)
    (hcap : addr < s.outCap.toNat) : portRead addr s = .next { s with hostByte := s.outByte addr } := by
  rw [portRead, idle_of_pending hp, if_neg (by decide), if_neg (Nat.not_le.2 hcap), if_pos hpos]

/-- What IN holds after one byte was written. -/
theorem inByte_write (s : State) (events : List Event) (addr a : Nat) (b : Byte) :
    ({ s with events := events, inMem := s.inMem.write addr b }).inByte a = if a = addr then b else s.inByte a := by
  unfold State.inByte
  simp only [Memory.read?_write]
  split <;> rfl

/-- Settles O13: a step takes the port's access, which a pending command refuses. -/
theorem portMovesBytesOnlyWhenIdle : Obligations.PortMovesBytesOnlyWhenIdle := by
  refine ⟨fun s addr b rest hev => ?_, fun s addr rest hev => ?_⟩ <;> rw [step_cons hev]
  · refine ⟨fun hp => portLoad_busy (s := { s with events := rest }) hp addr b, fun hp haddr => ?_⟩
    refine ⟨_, portLoad_idle (s := { s with events := rest }) hp haddr b, rfl, ?_, fun a ha => ?_⟩
    · exact (inByte_write s rest addr addr b).trans (if_pos rfl)
    · exact (inByte_write s rest addr a b).trans (if_neg ha)
  · exact ⟨fun hp => portRead_busy (s := { s with events := rest }) hp addr,
      fun hp hpos hcap => portRead_idle (s := { s with events := rest }) hp hpos hcap⟩

/-! ## The bus -/

theorem takeEvent_regWrite (width off : Nat) (v : Word) (s : State) :
    takeEvent (.host (.regWrite width off v)) s = busAccess width off (fun r => hostWrite r v s) s := rfl

theorem takeEvent_regRead (width off : Nat) (s : State) :
    takeEvent (.host (.regRead width off)) s = busAccess width off (fun r => hostRead r s) (platformRead width off s) := rfl

/-- Settles O12: both accesses go through `busAccess`, which tests the offset first. -/
theorem badBusAccessesAreRefused : Obligations.BadBusAccessesAreRefused := by
  intro s width off v rest hev
  refine ⟨fun hoff hbad => ?_, fun hoff => ⟨fun hwrite => ?_, fun hread => ?_⟩⟩
  · obtain hwrite | hread := hev
    · rw [step_cons hwrite, takeEvent_regWrite, busAccess_bad _ _ hoff hbad]
    · rw [step_cons hread, takeEvent_regRead, busAccess_bad _ _ hoff hbad]
  · rw [step_cons hwrite, takeEvent_regWrite, busAccess_outside _ _ hoff]
  · rw [step_cons hread, takeEvent_regRead, busAccess_outside _ _ hoff, platformRead]

/-! ## The step -/

/-- A sequencer's turn with nothing pending is idle (R246). -/
theorem sequencerTurn_idle {s : State} (hp : s.pending = none) : sequencerTurn s = .next s := by rw [sequencerTurn, hp]

/-- A 32-bit word of the table is its number (R95). -/
theorem tableWord_of_lt {w : Nat} (h : w < 2 ^ 32) : Sys2Proof.tableWord 32 w = BitVec.ofNat 32 w := by
  rw [tableWord, Nat.mod_eq_of_lt h]

/-- Settles O6: the step is a sequencer's turn, which executes the pending word's command. -/
theorem stepRunsTheDecodedCommand : Obligations.StepRunsTheDecodedCommand := by
  refine ⟨fun s w i hp hd => ⟨fun hev => ?_, fun rest hev => ?_⟩, fun s w i hw hd => ?_, fun s hp hev => ?_⟩
  · rw [step_nil hev]
    exact sequencerTurn_legal hp hd
  · rw [step_cons hev]
    exact sequencerTurn_legal (s := { s with events := rest }) hp hd
  · rw [← tableWord_of_lt hw]
    exact sequencerTurn_legal (s := { s with pending := some (tableWord 32 w) }) rfl hd
  · rw [step_nil hev]
    exact sequencerTurn_idle hp

/-! ## BW_PUT -/

/-- BW_PUT sends its bits when OUT has room for the bytes they complete (R182, R183). -/
theorem execBwPut_sent {s : State} (h : s.BitsOk) (n : BitVec 5) (val : BitVec 16)
    (hroom : s.outPos.toNat + s.bytesCompleted n.toNat ≤ s.outCap.toNat) :
    ∃ m, putBits (putBitsOf n val) s = .ok () m ∧ execBwPut n val s = .next m.finish := by
  have hlen : (putBitsOf n val).length = n.toNat := by simp [putBitsOf]
  obtain ⟨m, hm⟩ := putBits_ok (bits := putBitsOf n val) h (by rw [hlen]; exact hroom)
  have hcheck : checkRoom (s.bytesCompleted n.toNat) s = .ok () s := checkRoom_eq_ok.2 ⟨by unfold State.room; omega, rfl⟩
  exact ⟨m, hm, by rw [execBwPut, hcheck, Run.ok_andThen, hm]; rfl⟩

/-- BW_PUT without the room raises ERR_SINK_FULL and sends nothing (R183, R233). -/
theorem execBwPut_sinkFull {s : State} (n : BitVec 5) (val : BitVec 16) (hroom : s.room < s.bytesCompleted n.toNat) :
    execBwPut n val s = .next (s.takeError .sinkFull (BitVec.ofNat 32 (s.bytesCompleted n.toNat))) := by
  rw [execBwPut, checkRoom_eq_err.2 ⟨hroom, rfl, rfl, rfl⟩, Run.err_andThen, complete]

/-- Settles O39: the room check decides between the bits sent, with the frame of putting bits, and the error. -/
theorem bwPutSendsItsBits : Obligations.BwPutSendsItsBits := by
  intro s n val _ hbits
  refine ⟨fun hroom => ?_, fun hfull => execBwPut_sinkFull n val hfull⟩
  obtain ⟨m, hput, hexec⟩ := execBwPut_sent hbits n val hroom
  have hsent : Sent s m (putBitsOf n val) := putBits_sent hbits hput
  have hframe := putBits_frame hput
  refine ⟨m.finish, hexec, hsent, ?_⟩
  rw [State.finish, hframe]

end Sys2Proof.Machine
end

section
/-! SUPPORT. The decoder and the encoder undo each other (R97, R106), and the decoder's words are those of the opcode table (R102).
A word is read as a number: its opcode times 2^24, then the reserved bits and the operands. -/

namespace Sys2Proof

open Sys2Proof.Machine

/-! ## Words as numbers -/

/-- A field of a word, as a number (R95, R97). -/
theorem toNat_field (w : Word) (start len : Nat) : (w.extractLsb' start len).toNat = w.toNat / 2 ^ start % 2 ^ len := by
  rw [BitVec.extractLsb'_toNat, Nat.shiftRight_eq_div_pow]

theorem toNat_lowField (w : Word) (len : Nat) : (w.extractLsb' 0 len).toNat = w.toNat % 2 ^ len := by
  rw [toNat_field, Nat.pow_zero, Nat.div_one]

theorem toNat_opcodeOf (w : Word) : (opcodeOf w).toNat = w.toNat / 2 ^ 24 := by
  have hw := w.isLt
  rw [opcodeOf, toNat_field]
  omega

theorem toNat_encodeN (opc : BitVec 8) : (encodeN opc).toNat = opc.toNat * 2 ^ 24 := by
  rw [encodeN, toNat_append_add, BitVec.toNat_ofNat]
  omega

theorem toNat_encodeS (opc : BitVec 8) (sym : Byte) : (encodeS opc sym).toNat = opc.toNat * 2 ^ 24 + sym.toNat := by
  rw [encodeS, toNat_append_add, toNat_append_add, BitVec.toNat_ofNat]
  omega

theorem toNat_encodeI (opc : BitVec 8) (idx : NodeIdx) : (encodeI opc idx).toNat = opc.toNat * 2 ^ 24 + idx.toNat := by
  rw [encodeI, toNat_append_add, toNat_append_add, BitVec.toNat_ofNat]
  omega

theorem toNat_encodeJ (opc : BitVec 8) (idxa idxb : NodeIdx) :
    (encodeJ opc idxa idxb).toNat = opc.toNat * 2 ^ 24 + idxa.toNat * 2 ^ 9 + idxb.toNat := by
  rw [encodeJ, toNat_append_add, toNat_append_add, toNat_append_add, BitVec.toNat_ofNat]
  omega

theorem toNat_encodeB (opc : BitVec 8) (n : BitVec 5) (val : BitVec 16) :
    (encodeB opc n val).toNat = opc.toNat * 2 ^ 24 + n.toNat * 2 ^ 16 + val.toNat := by
  rw [encodeB, toNat_append_add, toNat_append_add, toNat_append_add, BitVec.toNat_ofNat]
  omega

/-! ## The opcode of an encoding -/

/-- How many low bits of a command's word its operands fill (R97); the bits from there up to the opcode are reserved. -/
def Instr.operandBits : Instr → Nat
  | .nodeLeaf _ | .encSym _ => 8
  | .heapInsert _ => 9
  | .nodeJoin _ _ => 18
  | .bwPut _ _ => 21
  | .nop | .softReset | .clrErr | .freqClear | .freqScan | .freqHdrWr | .freqHdrRd | .arenaClear | .heapClear | .heapExtract
  | .treeBuild | .codeGen | .bwReset | .bwFinalize | .brReset | .brGet | .encNext | .decSym | .encode | .decode => 0

/-- A command's word is its opcode, then only operands (R97, R106). -/
theorem toNat_encode (i : Instr) : ∃ r < 2 ^ i.operandBits, (encode i).toNat = i.opcode.toNat * 2 ^ 24 + r := by
  cases i with
  | nodeLeaf sym => exact ⟨_, sym.isLt, toNat_encodeS _ sym⟩
  | encSym sym => exact ⟨_, sym.isLt, toNat_encodeS _ sym⟩
  | heapInsert idx => exact ⟨_, idx.isLt, toNat_encodeI _ idx⟩
  | nodeJoin idxa idxb =>
    have ha := idxa.isLt
    have hb := idxb.isLt
    exact ⟨idxa.toNat * 2 ^ 9 + idxb.toNat, by rw [Instr.operandBits]; omega, (toNat_encodeJ _ idxa idxb).trans (Nat.add_assoc ..)⟩
  | bwPut n val =>
    have hn := n.isLt
    have hv := val.isLt
    exact ⟨n.toNat * 2 ^ 16 + val.toNat, by rw [Instr.operandBits]; omega, (toNat_encodeB _ n val).trans (Nat.add_assoc ..)⟩
  | nop | softReset | clrErr | freqClear | freqScan | freqHdrWr | freqHdrRd | arenaClear | heapClear | heapExtract | treeBuild
  | codeGen | bwReset | bwFinalize | brReset | brGet | encNext | decSym | encode | decode =>
    exact ⟨0, by decide, toNat_encodeN _⟩

theorem Instr.operandBits_le (i : Instr) : i.operandBits ≤ 21 := by cases i <;> simp [Instr.operandBits]

/-- Bits [31:24] of a command's word are its opcode (R96). -/
theorem opcodeOf_encode (i : Instr) : opcodeOf (encode i) = i.opcode := by
  obtain ⟨r, hr, hw⟩ := toNat_encode i
  have hlt : r < 2 ^ 21 := hr.trans_le (Nat.pow_le_pow_right (by decide) i.operandBits_le)
  refine BitVec.eq_of_toNat_eq ?_
  rw [toNat_opcodeOf, hw]
  omega

/-! ## Each format's decoder (R97) -/

section
variable {w : Word} {opc : BitVec 8} {i : Instr}

theorem decodeN_eq_some (hopc : opcodeOf w = opc) {j : Instr} : decodeN w i = some j ↔ encodeN opc = w ∧ i = j := by
  have hreserved : w.extractLsb' 0 24 = 0#24 ↔ encodeN opc = w := by
    rw [← hopc, ← BitVec.toNat_inj, ← BitVec.toNat_inj, toNat_encodeN, toNat_opcodeOf, toNat_field, BitVec.toNat_ofNat]
    omega
  rw [decodeN, Option.ite_none_right_eq_some, hreserved, Option.some_inj]

theorem decodeS_eq_some (hopc : opcodeOf w = opc) {f : Byte → Instr} :
    decodeS w f = some i ↔ ∃ sym, encodeS opc sym = w ∧ f sym = i := by
  have hfields : ∀ sym, encodeS opc sym = w ↔ w.extractLsb' 8 16 = 0#16 ∧ w.extractLsb' 0 8 = sym := fun sym => by
    have hsym := sym.isLt
    simp only [← hopc, ← BitVec.toNat_inj, toNat_encodeS, toNat_opcodeOf, toNat_field, BitVec.toNat_ofNat]
    omega
  simp only [decodeS, hfields, Option.ite_none_right_eq_some, Option.some_inj, and_assoc, exists_and_left, exists_eq_left']

theorem decodeI_eq_some (hopc : opcodeOf w = opc) {f : NodeIdx → Instr} :
    decodeI w f = some i ↔ ∃ idx, encodeI opc idx = w ∧ f idx = i := by
  have hfields : ∀ idx, encodeI opc idx = w ↔ w.extractLsb' 9 15 = 0#15 ∧ w.extractLsb' 0 9 = idx := fun idx => by
    have hidx := idx.isLt
    simp only [← hopc, ← BitVec.toNat_inj, toNat_encodeI, toNat_opcodeOf, toNat_field, BitVec.toNat_ofNat]
    omega
  simp only [decodeI, hfields, Option.ite_none_right_eq_some, Option.some_inj, and_assoc, exists_and_left, exists_eq_left']

theorem decodeJ_eq_some (hopc : opcodeOf w = opc) {f : NodeIdx → NodeIdx → Instr} :
    decodeJ w f = some i ↔ ∃ idxa idxb, encodeJ opc idxa idxb = w ∧ f idxa idxb = i := by
  have hfields : ∀ idxa idxb, encodeJ opc idxa idxb = w ↔
      w.extractLsb' 18 6 = 0#6 ∧ w.extractLsb' 9 9 = idxa ∧ w.extractLsb' 0 9 = idxb := fun idxa idxb => by
    have ha := idxa.isLt
    have hb := idxb.isLt
    simp only [← hopc, ← BitVec.toNat_inj, toNat_encodeJ, toNat_opcodeOf, toNat_field, BitVec.toNat_ofNat]
    omega
  simp only [decodeJ, hfields, Option.ite_none_right_eq_some, Option.some_inj, and_assoc, exists_and_left, exists_eq_left']

theorem decodeB_eq_some (hopc : opcodeOf w = opc) {f : BitVec 5 → BitVec 16 → Instr} :
    decodeB w f = some i ↔ ∃ n val, encodeB opc n val = w ∧ bwPutLegal n val = true ∧ f n val = i := by
  have hfields : ∀ n val, encodeB opc n val = w ↔
      w.extractLsb' 21 3 = 0#3 ∧ w.extractLsb' 16 5 = n ∧ w.extractLsb' 0 16 = val := fun n val => by
    have hn := n.isLt
    have hv := val.isLt
    simp only [← hopc, ← BitVec.toNat_inj, toNat_encodeB, toNat_opcodeOf, toNat_field, BitVec.toNat_ofNat]
    omega
  simp only [decodeB, hfields, Option.ite_none_right_eq_some, Option.some_inj, and_assoc, exists_and_left, exists_eq_left',
    Bool.and_eq_true, decide_eq_true_eq]

end

/-! ## The decoder and the encoder -/

/-- A word that decodes is the encoding of a well-formed command, the one it decodes to. -/
theorem encode_of_decode {w : Word} {i : Instr} (h : decode w = some i) : encode i = w ∧ i.wellFormed = true := by
  unfold decode at h
  split at h
  case h_9 hopc | h_21 hopc =>
    obtain ⟨sym, hw, rfl⟩ := (decodeS_eq_some hopc).1 h
    exact ⟨hw, rfl⟩
  case h_10 hopc =>
    obtain ⟨idxa, idxb, hw, rfl⟩ := (decodeJ_eq_some hopc).1 h
    exact ⟨hw, rfl⟩
  case h_12 hopc =>
    obtain ⟨idx, hw, rfl⟩ := (decodeI_eq_some hopc).1 h
    exact ⟨hw, rfl⟩
  case h_17 hopc =>
    obtain ⟨n, val, hw, hlegal, rfl⟩ := (decodeB_eq_some hopc).1 h
    exact ⟨hw, hlegal⟩
  case h_26 => cases h
  all_goals
    rename_i hopc
    obtain ⟨hw, rfl⟩ := (decodeN_eq_some hopc).1 h
    exact ⟨hw, rfl⟩

/-- A well-formed command is read back from its word: the word's opcode selects the command's format, and the format's decoder reads
the operands. -/
theorem decode_encode {i : Instr} (h : i.wellFormed = true) : decode (encode i) = some i := by
  have hopc := opcodeOf_encode i
  unfold decode
  rw [hopc]
  cases i with
  | nodeLeaf sym => exact (decodeS_eq_some hopc).2 ⟨sym, rfl, rfl⟩
  | encSym sym => exact (decodeS_eq_some hopc).2 ⟨sym, rfl, rfl⟩
  | heapInsert idx => exact (decodeI_eq_some hopc).2 ⟨idx, rfl, rfl⟩
  | nodeJoin idxa idxb => exact (decodeJ_eq_some hopc).2 ⟨idxa, idxb, rfl, rfl⟩
  | bwPut n val => exact (decodeB_eq_some hopc).2 ⟨n, val, rfl, h, rfl⟩
  | nop | softReset | clrErr | freqClear | freqScan | freqHdrWr | freqHdrRd | arenaClear | heapClear | heapExtract | treeBuild
  | codeGen | bwReset | bwFinalize | brReset | brGet | encNext | decSym | encode | decode => rfl

/-- Settles O1: each format's decoder reads its encoder's operands back. -/
theorem decodeAfterEncodeIsIdentity : Obligations.DecodeAfterEncodeIsIdentity := fun _ => decode_encode

/-- Settles O2: in each format the reserved bits are 0, so the opcode and the operands make the whole word. -/
theorem encodeAfterDecodeIsIdentity : Obligations.EncodeAfterDecodeIsIdentity := fun _ _ => encode_of_decode

/-- Settles O3: each of the six words is the encoding of its well-formed command. -/
theorem writtenOutWordsDecode : Obligations.WrittenOutWordsDecode :=
  ⟨decode_encode (i := .encode) rfl, decode_encode (i := .encSym 0x61#8) rfl, decode_encode (i := .heapInsert 3#9) rfl,
    decode_encode (i := .nodeJoin 2#9 1#9) rfl, decode_encode (i := .bwPut 3#5 5#16) (by decide), decode_encode (i := .nop) rfl⟩

/-- The decoder accepts exactly the encodings of the well-formed commands. -/
theorem decode_isSome_iff {w : Word} : (decode w).isSome = true ↔ ∃ i, encode i = w ∧ i.wellFormed = true := by
  rw [Option.isSome_iff_exists]
  refine exists_congr fun i => ⟨encode_of_decode, ?_⟩
  rintro ⟨rfl, h⟩
  exact decode_encode h

/-! ## The opcode table (R102) -/

/-- A command with its operands 0. -/
def Instr.clearOperands : Instr → Instr
  | .nodeLeaf _ => .nodeLeaf 0
  | .nodeJoin _ _ => .nodeJoin 0 0
  | .heapInsert _ => .heapInsert 0
  | .bwPut _ _ => .bwPut 0 0
  | .encSym _ => .encSym 0
  | i => i

theorem Instr.opcode_clearOperands (i : Instr) : i.clearOperands.opcode = i.opcode := by cases i <;> rfl

theorem Instr.operandBits_clearOperands (i : Instr) : i.clearOperands.operandBits = i.operandBits := by cases i <;> rfl

/-- One command for each row of the table, in the table's order, with its operands 0. -/
def rowCommands : List Instr :=
  [.nop, .softReset, .clrErr, .freqClear, .freqScan, .freqHdrWr, .freqHdrRd, .arenaClear, .nodeLeaf 0, .nodeJoin 0 0, .heapClear,
    .heapInsert 0, .heapExtract, .treeBuild, .codeGen, .bwReset, .bwPut 0 0, .bwFinalize, .brReset, .brGet, .encSym 0, .encNext,
    .decSym, .encode, .decode]

theorem clearOperands_mem_rowCommands (i : Instr) : i.clearOperands ∈ rowCommands := by
  cases i <;> simp [Instr.clearOperands, rowCommands]

/-- A row matches the opcode and masks the operands away. -/
theorem tableRows_eq :
    tableRows = rowCommands.map fun i => (i.opcode ++ 0#24, BitVec.allOnes 32 <<< i.operandBits) := by decide

/-- A word matches a command's row when below its opcode it holds nothing but operand bits. -/
theorem matches_row_iff (w : Word) (i : Instr) :
    w &&& BitVec.allOnes 32 <<< i.operandBits = i.opcode ++ 0#24 ↔
      w.toNat = i.opcode.toNat * 2 ^ 24 + w.toNat % 2 ^ i.operandBits := by
  have hsplit := Nat.div_add_mod' w.toNat (2 ^ i.operandBits)
  have hlt : w.toNat / 2 ^ i.operandBits * 2 ^ i.operandBits < 2 ^ 32 := (Nat.div_mul_le_self _ _).trans_lt w.isLt
  rw [← BitVec.shiftLeft_ushiftRight, ← BitVec.toNat_inj, BitVec.toNat_shiftLeft, BitVec.toNat_ushiftRight, Nat.shiftLeft_eq,
    Nat.shiftRight_eq_div_pow, Nat.mod_eq_of_lt hlt, toNat_append_add, BitVec.toNat_ofNat, Nat.zero_mod, Nat.add_zero]
  omega

/-- The word of every command matches the command's row. -/
theorem encode_matches_row (i : Instr) :
    (encode i).toNat = i.opcode.toNat * 2 ^ 24 + (encode i).toNat % 2 ^ i.operandBits := by
  obtain ⟨r, hr, hw⟩ := toNat_encode i
  have hdvd : 2 ^ i.operandBits ∣ i.opcode.toNat * 2 ^ 24 :=
    Dvd.dvd.mul_left (Nat.pow_dvd_pow 2 (i.operandBits_le.trans (by decide))) _
  rw [hw, Nat.add_mod, Nat.mod_eq_zero_of_dvd hdvd, Nat.zero_add, Nat.mod_mod, Nat.mod_eq_of_lt hr]

/-- A word that matches a command's row is the encoding of that command with the operands its low bits hold. -/
theorem exists_encode_of_matches_row {w : Word} (i : Instr)
    (h : w.toNat = i.opcode.toNat * 2 ^ 24 + w.toNat % 2 ^ i.operandBits) : ∃ j, encode j = w := by
  have hrow := encode_matches_row i
  cases i with
  | nodeLeaf _ =>
    refine ⟨.nodeLeaf (w.extractLsb' 0 8), BitVec.eq_of_toNat_eq (.trans ?_ h.symm)⟩
    rw [encode, toNat_encodeS, toNat_lowField]
    rfl
  | encSym _ =>
    refine ⟨.encSym (w.extractLsb' 0 8), BitVec.eq_of_toNat_eq (.trans ?_ h.symm)⟩
    rw [encode, toNat_encodeS, toNat_lowField]
    rfl
  | heapInsert _ =>
    refine ⟨.heapInsert (w.extractLsb' 0 9), BitVec.eq_of_toNat_eq (.trans ?_ h.symm)⟩
    rw [encode, toNat_encodeI, toNat_lowField]
    rfl
  | nodeJoin _ _ =>
    have hfields : w.toNat / 2 ^ 9 % 2 ^ 9 * 2 ^ 9 + w.toNat % 2 ^ 9 = w.toNat % 2 ^ 18 := by omega
    refine ⟨.nodeJoin (w.extractLsb' 9 9) (w.extractLsb' 0 9), BitVec.eq_of_toNat_eq (.trans ?_ h.symm)⟩
    rw [encode, toNat_encodeJ, toNat_field, toNat_lowField, Nat.add_assoc, hfields]
    rfl
  | bwPut _ _ =>
    have hfields : w.toNat / 2 ^ 16 % 2 ^ 5 * 2 ^ 16 + w.toNat % 2 ^ 16 = w.toNat % 2 ^ 21 := by omega
    refine ⟨.bwPut (w.extractLsb' 16 5) (w.extractLsb' 0 16), BitVec.eq_of_toNat_eq (.trans ?_ h.symm)⟩
    rw [encode, toNat_encodeB, toNat_field, toNat_lowField, Nat.add_assoc, hfields]
    rfl
  | nop | softReset | clrErr | freqClear | freqScan | freqHdrWr | freqHdrRd | arenaClear | heapClear | heapExtract | treeBuild
  | codeGen | bwReset | bwFinalize | brReset | brGet | encNext | decSym | encode | decode =>
    rw [Instr.operandBits, Nat.pow_zero, Nat.mod_one] at h hrow
    exact ⟨_, BitVec.eq_of_toNat_eq (hrow.trans h.symm)⟩

/-- The words that match a row of the table are the encodings of the commands, well formed or not. -/
theorem exists_row_iff {w : Word} : (∃ row ∈ tableRows, w &&& row.2 = row.1) ↔ ∃ i, encode i = w := by
  simp only [tableRows_eq, List.mem_map, exists_exists_and_eq_and, matches_row_iff]
  constructor
  · rintro ⟨i, -, h⟩
    exact exists_encode_of_matches_row i h
  · rintro ⟨i, rfl⟩
    refine ⟨i.clearOperands, clearOperands_mem_rowCommands i, ?_⟩
    rw [i.opcode_clearOperands, i.operandBits_clearOperands]
    exact encode_matches_row i

/-- R100's condition, in numbers. -/
theorem bwPutLegal_iff {n : BitVec 5} {val : BitVec 16} :
    bwPutLegal n val = true ↔ 1 ≤ n.toNat ∧ n.toNat ≤ 16 ∧ val.toNat < 2 ^ n.toNat := by
  have hval : val >>> n.toNat = 0#16 ↔ val.toNat < 2 ^ n.toNat := by
    rw [← BitVec.toNat_inj, BitVec.toNat_ushiftRight, Nat.shiftRight_eq_div_pow, BitVec.toNat_ofNat, Nat.zero_mod,
      Nat.div_eq_zero_iff_lt (Nat.two_pow_pos _)]
  rw [bwPutLegal, Bool.and_eq_true, Bool.and_eq_true, decide_eq_true_eq, decide_eq_true_eq, beq_iff_eq, hval, and_assoc]

/-- A command is well formed when its word meets the table's condition on N and VAL, which is one on BW_PUT alone (R100). -/
theorem wellFormed_iff (i : Instr) :
    i.wellFormed = true ↔ (encode i >>> 24 = 0x41#32 →
      1 ≤ (encode i).toNat / 2 ^ 16 % 32 ∧ (encode i).toNat / 2 ^ 16 % 32 ≤ 16 ∧
        (encode i).toNat % 2 ^ 16 < 2 ^ ((encode i).toNat / 2 ^ 16 % 32)) := by
  have hopc : encode i >>> 24 = 0x41#32 ↔ i.opcode = 0x41#8 := by
    rw [← opcodeOf_encode, ← BitVec.toNat_inj, ← BitVec.toNat_inj, BitVec.toNat_ushiftRight, Nat.shiftRight_eq_div_pow,
      toNat_opcodeOf, BitVec.toNat_ofNat, BitVec.toNat_ofNat]
  rw [hopc]
  cases i with
  | bwPut n val =>
    have hn : (encode (.bwPut n val)).toNat / 2 ^ 16 % 32 = n.toNat := by
      have hv := val.isLt
      rw [encode, toNat_encodeB]
      omega
    have hv : (encode (.bwPut n val)).toNat % 2 ^ 16 = val.toNat := by
      rw [encode, toNat_encodeB]
      omega
    rw [hn, hv, ← bwPutLegal_iff]
    exact ⟨fun h _ => h, fun h => h rfl⟩
  | _ => exact iff_of_true rfl fun h => by simp [Instr.opcode] at h

/-- Settles O4: the legal words are the encodings of the well-formed commands, the words the decoder accepts. -/
theorem decoderAcceptsExactlyTheTable : Obligations.DecoderAcceptsExactlyTheTable := by
  intro w
  rw [decode_isSome_iff, LegalWord, exists_row_iff]
  constructor
  · rintro ⟨i, rfl, h⟩
    exact ⟨⟨i, rfl⟩, (wellFormed_iff i).1 h⟩
  · rintro ⟨⟨i, rfl⟩, h⟩
    exact ⟨i, rfl, (wellFormed_iff i).2 h⟩

/-- Settles O5: the word of every command has an opcode of the table, so a word with a reserved opcode is no command's. -/
theorem illegalWordOnlyRaisesError : Obligations.IllegalWordOnlyRaisesError := by
  refine ⟨fun s w hp hd => sequencerTurn_illegal hp hd, fun w h => Option.eq_none_iff_forall_ne_some.2 fun i hd => ?_⟩
  obtain hopc | hlegal := h
  · obtain ⟨rfl, -⟩ := encode_of_decode hd
    rw [← opcodeOf, opcodeOf_encode] at hopc
    cases i <;> simp [Instr.opcode] at hopc
  · exact hlegal ((decoderAcceptsExactlyTheTable w).1 (by rw [hd]; rfl))

end Sys2Proof
end

section
/-! SUPPORT. The errors a command reports (R230): which errors each step can raise, and why ENCODE, which counts its whole input
first, raises none but ERR_SINK_FULL (R102, R203). -/

namespace Sys2Proof.Machine

/-! ## What a run reports -/

/-- A run from `s` raises none but the errors `ks`, and leaves ERR where it succeeds: completion alone writes it (R236). -/
def Run.Reports {α : Type} (s : State) (ks : List ErrKind) (r : Run α) : Prop :=
  match r with
  | .ok _ t => t.err = s.err
  | .err k _ _ => k ∈ ks
  | .fault _ => True

section
variable {α β : Type} {s : State} {ks : List ErrKind}

theorem Run.err_reports {k : ErrKind} {info : Word} {t : State} : (Run.err k info t : Run α).Reports s ks ↔ k ∈ ks := Iff.rfl

/-- The second part of a sequence reports from where the first succeeded. -/
theorem Run.Reports.andThen_of_ok {r : Run α} {f : α → State → Run β} (h : r.Reports s ks)
    (hf : ∀ a m, r = .ok a m → (f a m).Reports m ks) : (r.andThen f).Reports s ks := by
  cases r with
  | ok a m =>
    have hrest := hf a m rfl
    rw [Run.ok_andThen]
    cases hfm : f a m <;> rw [hfm] at hrest
    case ok b t => exact Eq.trans hrest h
    case err k info t => exact hrest
    case fault e => trivial
  | err k info m => exact h
  | fault e => trivial

theorem Run.Reports.andThen {r : Run α} {f : α → State → Run β} (h : r.Reports s ks)
    (hf : ∀ a m, (f a m).Reports m ks) : (r.andThen f).Reports s ks := h.andThen_of_ok fun a m _ => hf a m

theorem Run.Reports.effect {r : Run α} (h : r.Reports s ks) : r.effect.Reports s ks := h.andThen fun _ _ => rfl

/-- A run that stays in the data state reports the errors it raises. -/
theorem Run.Ends.reports {r : Run α} (h : r.Ends (Onward s)) (hk : ∀ k info t, r = .err k info t → k ∈ ks) : r.Reports s ks := by
  cases r with
  | ok a t =>
    have ht : Onward s t := h
    show t.err = s.err
    rw [ht.frame]
  | err k info t => exact hk k info t rfl
  | fault e => trivial

theorem Run.Ends.reports_of_ne_err {r : Run α} (h : r.Ends (Onward s)) (hne : ∀ k info t, r ≠ .err k info t) : r.Reports s ks :=
  h.reports fun k info t he => absurd he (hne k info t)

/-- A command without a result value that sets ERR reports one of its run's errors. -/
theorem complete_reports {r : Run Unit} {t : State} (he : complete r = .next t) (h : r.Reports s ks) (hs : s.err = false)
    (ht : t.err = true) : ∃ k ∈ ks, t.errCode = k.code := by
  obtain ⟨m, rfl, rfl⟩ | ⟨k, info, m, rfl, rfl⟩ := complete_eq_next.1 he
  · exact absurd (ht.symm.trans (Eq.trans h hs)) (by decide)
  · exact ⟨k, h, rfl⟩

/-- A command with a result value that sets ERR reports one of its run's errors. -/
theorem completeWith_reports {r : Run Word} {t : State} (he : completeWith r = .next t) (h : r.Reports s ks) (hs : s.err = false)
    (ht : t.err = true) : ∃ k ∈ ks, t.errCode = k.code := by
  obtain ⟨v, m, rfl, rfl⟩ | ⟨k, info, m, rfl, rfl⟩ := completeWith_eq_next.1 he
  · exact absurd (ht.symm.trans (Eq.trans h hs)) (by decide)
  · exact ⟨k, h, rfl⟩

/-! ## The shared operations -/

theorem memReadIn_reports : (memReadIn s).Reports s ks :=
  (memReadIn_onward s).reports_of_ne_err (memReadIn_ne_err s)

theorem memWriteOut_reports (b : Byte) : (memWriteOut b s).Reports s ks :=
  (memWriteOut_onward b s).reports_of_ne_err (memWriteOut_ne_err b s)

theorem putBits_reports (bits : List Bool) : (putBits bits s).Reports s ks :=
  (putBits_onward bits s).reports_of_ne_err (putBits_ne_err bits s)

theorem getBit_reports : (getBit s).Reports s ks :=
  (getBit_onward s).reports_of_ne_err (getBit_ne_err s)

theorem newLeaf_reports (b : Byte) : (newLeaf b s).Reports s ks :=
  (newLeaf_onward b s).reports_of_ne_err (newLeaf_ne_err b s)

theorem newJoin_reports (a b : NodeIdx) : (newJoin a b s).Reports s ks :=
  (newJoin_onward a b s).reports_of_ne_err (newJoin_ne_err a b s)

theorem heapInsert_reports (i : NodeIdx) : (heapInsert i s).Reports s ks :=
  (heapInsert_onward i s).reports_of_ne_err (heapInsert_ne_err i s)

theorem heapExtract_reports : (heapExtract s).Reports s ks :=
  (heapExtract_onward s).reports_of_ne_err (heapExtract_ne_err s)

theorem treeBuild_reports : (treeBuild s).Reports s ks :=
  (treeBuild_onward s).reports fun k info t he => by
    obtain ⟨v, m, hrun, -⟩ := treeBuild_frame s
    rw [hrun] at he
    cases he

theorem checkRoom_reports (k : Nat) (hfull : .sinkFull ∈ ks) : (checkRoom k s).Reports s ks :=
  (checkRoom_onward k s).reports fun _ _ _ he => by
    obtain ⟨-, rfl, -⟩ := checkRoom_eq_err.1 he
    exact hfull

theorem checkNode_reports (i : NodeIdx) (hbad : .badNode ∈ ks) : (checkNode i s).Reports s ks :=
  (checkNode_onward i s).reports fun _ _ _ he => by
    obtain ⟨-, rfl, -⟩ := checkNode_eq_err.1 he
    exact hbad

theorem checkArena_reports (hfull : .arenaFull ∈ ks) : (checkArena s).Reports s ks :=
  (checkArena_onward s).reports fun _ _ _ he => by
    obtain ⟨-, rfl, -⟩ := checkArena_eq_err.1 he
    exact hfull

theorem bwFinalize_reports (hfull : .sinkFull ∈ ks) : (bwFinalize s).Reports s ks := by
  unfold bwFinalize
  split
  · rfl
  · exact (checkRoom_reports 1 hfull).andThen fun _ m => (memWriteOut_reports _).andThen fun _ _ => rfl

theorem codeGen_reports (htree : s.tree = .none → .noTree ∈ ks) : (codeGen s).Reports s ks :=
  (codeGen_onward s).reports fun k info t he => by
    unfold codeGen at he
    split at he
    · rename_i hnone
      cases he
      exact htree hnone
    · cases he
    · split at he <;> cases he

theorem freqHdrWr_reports (hfull : .sinkFull ∈ ks) : (freqHdrWr s).Reports s ks :=
  (checkRoom_reports _ hfull).andThen fun _ _ => rfl

theorem freqHdrRd_reports (htrunc : .hdrTrunc ∈ ks) : (freqHdrRd s).Reports s ks :=
  (freqHdrRd_onward s).reports fun k info t he => by
    unfold freqHdrRd at he
    split at he
    · cases he
      exact htrunc
    · split at he <;> cases he

theorem scanByte_reports (hovf : tableGet s.freq (s.inByte s.inPos.toNat) = 0xFFFFFFFF#32 → .freqOvf ∈ ks) :
    (scanByte s).Reports s ks := by
  refine memReadIn_reports.andThen_of_ok fun b m hm => ?_
  obtain ⟨-, rfl, rfl⟩ := memReadIn_eq_ok.1 hm
  split
  · rename_i hfull
    exact hovf hfull
  · rfl

theorem scanLoop_reports (hovf : .freqOvf ∈ ks) (fuel : Nat) : (scanLoop fuel s).Reports s ks := by
  induction fuel generalizing s with
  | zero => rfl
  | succ fuel ih =>
    unfold scanLoop
    split
    · exact (scanByte_reports fun _ => hovf).andThen fun _ _ => ih
    · rfl

/-! ## The symbol coder -/

theorem checkCode_reports (b : Byte) (hlut : s.lutValid = false → .noLut ∈ ks) (hcode : tableGet s.lutLen b = 0#8 → .noCode ∈ ks)
    (hfull : .sinkFull ∈ ks) : (checkCode b s).Reports s ks := by
  unfold checkCode
  split
  · rename_i hinvalid
    exact hlut hinvalid
  · split
    · rename_i hzero
      exact hcode hzero
    · exact checkRoom_reports _ hfull

theorem emitSymbol_reports (b : Byte) : (emitSymbol b s).Reports s ks := (putBits_reports _).andThen fun _ _ => rfl

theorem encNext_reports (heos : s.inLen ≤ s.inPos → .inEos ∈ ks) (hlut : s.lutValid = false → .noLut ∈ ks)
    (hcode : tableGet s.lutLen (s.inByte s.inPos.toNat) = 0#8 → .noCode ∈ ks) (hfull : .sinkFull ∈ ks) :
    (encNext s).Reports s ks := by
  unfold encNext
  split
  · rename_i hend
    exact heos hend
  · refine memReadIn_reports.andThen_of_ok fun b m hm => ?_
    obtain ⟨-, rfl, rfl⟩ := memReadIn_eq_ok.1 hm
    exact (checkCode_reports _ hlut hcode hfull).andThen fun _ m' => emitSymbol_reports (s := { m' with inPos := _ }) _

theorem descend_reports (fuel : Nat) (n : NodeIdx) : (descend fuel n s).Reports s ks := by
  induction fuel generalizing n s with
  | zero =>
    unfold descend
    split <;> rfl
  | succ fuel ih =>
    unfold descend
    split
    · rfl
    · refine getBit_reports.andThen fun r m => ?_
      cases r with
      | none => rfl
      | some c => exact ih _

theorem reachLeaf_reports : (reachLeaf s).Reports s ks := by
  unfold reachLeaf
  split
  · exact getBit_reports.andThen fun _ _ => rfl
  · exact descend_reports _ _

theorem emitLeaf_reports (n : NodeIdx) : (emitLeaf n s).Reports s ks := (memWriteOut_reports _).andThen fun _ _ => rfl

theorem decSym_reports (htree : s.tree ≠ .valid → .noTree ∈ ks) (hfull : .sinkFull ∈ ks) (htrunc : .payloadTrunc ∈ ks) :
    (decSym s).Reports s ks := by
  unfold decSym
  split
  · rename_i hnot
    exact htree hnot
  · refine (checkRoom_reports 1 hfull).andThen fun _ m => reachLeaf_reports.andThen fun leaf t => ?_
    cases leaf with
    | none => exact htrunc
    | some n => exact emitLeaf_reports n

theorem decodeLoop_reports (fuel : Nat) (hvalid : s.tree = .valid) (hfull : .sinkFull ∈ ks) (htrunc : .payloadTrunc ∈ ks) :
    (decodeLoop fuel s).Reports s ks := by
  induction fuel generalizing s with
  | zero => rfl
  | succ fuel ih =>
    unfold decodeLoop
    split
    · refine (decSym_reports (fun h => absurd hvalid h) hfull htrunc).andThen_of_ok fun _ m hm => ih ?_
      rw [(decSym_ends s).of_ok hm]
      exact hvalid
    · rfl

/-! ## DECODE: its tree is built -/

/-- TREE_BUILD leaves a tree, or the mark of an all-zero table (R53, R160). -/
theorem treeBuild_tree {s t : State} {v : Word} (h : treeBuild s = .ok v t) : t.tree = .empty ∨ t.tree = .valid := by
  by_cases hnone : presentSymbols s.freq = []
  · rw [treeBuild_empty hnone] at h
    cases h
    exact .inl rfl
  · obtain ⟨t', codes, more, hrun, ht', -⟩ := treeBuild_spec hnone
    rw [hrun] at h
    cases h
    rw [ht']
    exact .inr rfl

theorem decodeFile_reports : (decodeFile s).Reports s [.hdrTrunc, .sinkFull, .payloadTrunc] := by
  refine Run.Reports.andThen (freqHdrRd_reports (s := s.startDecode) (by decide)) fun _ m =>
    treeBuild_reports.effect.andThen_of_ok fun _ m' hm => ?_
  obtain ⟨v, hm⟩ := Run.effect_eq_ok.1 hm
  split
  · rfl
  · rename_i hne
    exact (decodeLoop_reports _ ((treeBuild_tree hm).resolve_left hne) (by decide) (by decide)).andThen fun _ _ => rfl

end

/-! ## ENCODE: its scan cannot overflow -/

/-- Every counter is at most the number of bytes read, and that of each byte read is not 0. -/
structure CountsRead (s : State) : Prop where
  le (b : Byte) : (tableGet s.freq b).toNat ≤ s.inPos.toNat
  ne_zero (a : Nat) (ha : a < s.inPos.toNat) : tableGet s.freq (s.inByte a) ≠ 0#32

section
variable {s t : State}

/-- Below IN_LEN, IN_POS does not wrap (R71). -/
theorem toNat_inPos_succ (h : s.inPos.toNat < s.inLen.toNat) : (s.inPos + 1#32).toNat = s.inPos.toNat + 1 := by
  have hlen := s.inLen.isLt
  rw [BitVec.toNat_add, BitVec.toNat_ofNat]
  omega

/-- With fewer than 2^32 - 1 bytes read no counter is full. -/
theorem CountsRead.not_full (h : CountsRead s) (hlt : s.inPos.toNat < s.inLen.toNat) (b : Byte) :
    tableGet s.freq b ≠ 0xFFFFFFFF#32 := by
  intro hfull
  have hle := h.le b
  have hlen := s.inLen.isLt
  rw [hfull, BitVec.toNat_ofNat] at hle
  omega

/-- Reading and counting the byte at IN_POS (R126). -/
theorem CountsRead.count (h : CountsRead s) (hlt : s.inPos.toNat < s.inLen.toNat) :
    CountsRead { s with
      freq := tableSet s.freq (s.inByte s.inPos.toNat) (tableGet s.freq (s.inByte s.inPos.toNat) + 1#32),
      inPos := s.inPos + 1#32 } := by
  have hpos := toNat_inPos_succ hlt
  have hcount : (tableGet s.freq (s.inByte s.inPos.toNat) + 1#32).toNat = (tableGet s.freq (s.inByte s.inPos.toNat)).toNat + 1 := by
    have hle := h.le (s.inByte s.inPos.toNat)
    have hlen := s.inLen.isLt
    rw [BitVec.toNat_add, BitVec.toNat_ofNat]
    omega
  constructor
  · intro b
    have hle := h.le b
    show BitVec.toNat (tableGet (tableSet _ _ _) b) ≤ (s.inPos + 1#32).toNat
    rw [tableGet_tableSet, hpos]
    split
    · rename_i hb
      rw [hcount, ← hb]
      omega
    · omega
  · intro a ha
    show tableGet (tableSet _ _ _) (s.inByte a) ≠ 0#32
    rw [tableGet_tableSet]
    split
    · intro hzero
      rw [hzero] at hcount
      cases hcount
    · rename_i hne
      have hle : a < s.inPos.toNat + 1 := hpos ▸ ha
      exact h.ne_zero a (Nat.lt_of_le_of_ne (Nat.le_of_lt_succ hle) fun heq => hne (congrArg s.inByte heq))

/-- A scan that counts from the start of the input reaches its end: no counter overflows (R126). -/
theorem scanLoop_counts (fuel : Nat) (hsize : s.inLen.toNat ≤ s.inSize.toNat) (hfuel : s.avail ≤ fuel) (h : CountsRead s) :
    ∃ t, scanLoop fuel s = .ok () t ∧ CountsRead t ∧ t.inLen.toNat ≤ t.inPos.toNat := by
  unfold State.avail at hfuel
  induction fuel generalizing s with
  | zero => exact ⟨s, rfl, h, by omega⟩
  | succ fuel ih =>
    unfold scanLoop
    split
    · rename_i hlt
      rw [BitVec.lt_def] at hlt
      have hpos := toNat_inPos_succ hlt
      rw [scanByte_ok (hlt.trans_le hsize) (h.not_full hlt _), Run.ok_andThen]
      exact ih hsize (by simp only [hpos]; omega) (h.count hlt)
    · rename_i hge
      exact ⟨s, rfl, h, BitVec.not_lt.1 hge⟩

/-! ## ENCODE: every byte of the input gets a code -/

/-- Every byte of the input has a nonzero counter. -/
def InputCounted (s : State) : Prop := ∀ a, a < s.inLen.toNat → tableGet s.freq (s.inByte a) ≠ 0#32

/-- The code table is valid, and every byte of the input has a code in it. -/
def InputCoded (s : State) : Prop := s.lutValid = true ∧ ∀ a, a < s.inLen.toNat → tableGet s.lutLen (s.inByte a) ≠ 0#8

/-- A scan from a cleared table counts every byte of the input. -/
theorem freqScan_counts (hsize : s.inLen.toNat ≤ s.inSize.toNat) (hfreq : s.freq = Vector.replicate 256 0#32)
    (hpos : s.inPos = 0#32) : ∃ t, freqScan s = .ok () t ∧ InputCounted t := by
  have hstart : CountsRead s.invalidateDerived := by
    refine ⟨fun b => ?_, fun a ha => ?_⟩
    · rw [State.invalidateDerived_freq, hfreq, tableGet_replicate]
      exact Nat.zero_le _
    · rw [State.invalidateDerived_inPos, hpos] at ha
      exact absurd ha (Nat.not_lt_zero a)
  obtain ⟨t, hrun, hcounts, hend⟩ := scanLoop_counts s.avail (s := s.invalidateDerived) hsize (Nat.le_refl _) hstart
  exact ⟨t, hrun, fun a ha => hcounts.ne_zero a (ha.trans_le hend)⟩

/-- The codes stored for a tree are of the symbols of its leaves, each code at least one bit long and at most 255 (R171, R172). -/
theorem effectiveCodes_spec {codes : List (Byte × List Bool)} (hc : HasCodes s.arena s.root codes) (hlen : codes.length ≤ 256) :
    (effectiveCodes s codes).map Prod.fst = codes.map Prod.fst ∧
      ∀ c ∈ effectiveCodes s codes, 0 < c.2.length ∧ c.2.length ≤ 255 := by
  unfold effectiveCodes
  split
  · rename_i hleaf
    rw [hc.leaf_codes hleaf]
    exact ⟨rfl, by simp⟩
  · rename_i hnode
    refine ⟨rfl, fun c hmem => ⟨List.length_pos_iff.2 ((hc.node_codes (Bool.eq_false_iff.2 hnode)).2 c hmem), ?_⟩⟩
    have hlt := hc.length_lt c hmem
    omega

/-- CODE_GEN after TREE_BUILD gives every counted symbol a code (R170, R172). -/
theorem codeGen_codes_counted {m : State} {v w : Word} (htree : treeBuild s = .ok v m) (hcode : codeGen m = .ok w t) {b : Byte}
    (hb : tableGet s.freq b ≠ 0#32) : tableGet t.lutLen b ≠ 0#8 := by
  have hmem := mem_presentSymbols.2 hb
  obtain ⟨m', codes, more, hrun, hm', -, -, hcodes, hperm, -⟩ := treeBuild_spec (List.ne_nil_of_mem hmem)
  obtain ⟨-, rfl⟩ := Run.ok_eq_ok.1 (hrun.symm.trans htree)
  have hvalid : m.tree = .valid := by rw [hm']
  have hlen : codes.length = (presentSymbols s.freq).length := by simpa using hperm.length_eq
  have harena : codes.length ≤ m.arena.length := by
    rw [hlen, hm']
    simp
  obtain ⟨hsyms, hbits⟩ := effectiveCodes_spec hcodes (hlen ▸ length_presentSymbols s.freq)
  obtain ⟨-, rfl⟩ := Run.ok_eq_ok.1 ((codeGen_spec hvalid hcodes harena).symm.trans hcode)
  rw [← hsyms] at hperm
  obtain ⟨⟨b', path⟩, hpath, rfl⟩ := List.mem_map.1 (hperm.mem_iff.2 hmem)
  have hstored := (writeCodes_mem m.clearLut (hperm.nodup_iff.2 (nodup_presentSymbols s.freq)) hpath).1
  have hlength : 0 < path.length ∧ path.length ≤ 255 := hbits _ hpath
  intro hzero
  have hnum := congrArg BitVec.toNat (hstored.symm.trans hzero)
  rw [BitVec.toNat_ofNat, BitVec.toNat_ofNat] at hnum
  omega

theorem codeGen_lutValid {w : Word} (h : codeGen s = .ok w t) : t.lutValid = true := by
  unfold codeGen at h
  split at h
  · cases h
  · cases h
    rfl
  · split at h <;> cases h
    rfl

/-- After TREE_BUILD and CODE_GEN over counts of the whole input, the whole input has codes. -/
theorem inputCoded_of_counted {m : State} {v w : Word} (h : InputCounted s) (htree : treeBuild s = .ok v m)
    (hcode : codeGen m = .ok w t) : InputCoded t := by
  obtain ⟨v', m', hrun, hm⟩ := treeBuild_frame s
  obtain ⟨-, rfl⟩ := Run.ok_eq_ok.1 (hrun.symm.trans htree)
  have ht := (codeGen_ends m).of_ok hcode
  have hlen : t.inLen = s.inLen := by rw [ht, hm]
  have hbyte : ∀ a, t.inByte a = s.inByte a := fun a => by
    unfold State.inByte
    rw [ht, hm]
  refine ⟨codeGen_lutValid hcode, fun a ha => codeGen_codes_counted htree hcode ?_⟩
  rw [hbyte]
  exact h a (hlen ▸ ha)

theorem encodeLoop_reports (fuel : Nat) (h : InputCoded s) : (encodeLoop fuel s).Reports s [.sinkFull] := by
  induction fuel generalizing s with
  | zero => rfl
  | succ fuel ih =>
    unfold encodeLoop
    split
    · rename_i hlt
      obtain ⟨hvalid, hcoded⟩ := h
      have hnext : (encNext s).Reports s [.sinkFull] :=
        encNext_reports (fun hend => absurd hlt (BitVec.not_lt.2 hend)) (fun hf => absurd (hvalid.symm.trans hf) (by decide))
          (fun hz => absurd hz (hcoded _ hlt)) (by decide)
      refine hnext.andThen_of_ok fun _ m hm => ih ?_
      rw [(encNext_ends s).of_ok hm]
      exact ⟨hvalid, hcoded⟩
    · rfl

theorem encodeFile_reports (hsize : s.inLen.toNat ≤ s.inSize.toNat) : (encodeFile s).Reports s [.sinkFull] := by
  refine Run.Reports.andThen_of_ok (r := freqClear s.startEncode) rfl fun _ m0 h0 => ?_
  have hclear : m0.inLen.toNat ≤ m0.inSize.toNat ∧ m0.freq = Vector.replicate 256 0#32 ∧ m0.inPos = 0#32 := by
    cases h0
    exact ⟨hsize, rfl, rfl⟩
  obtain ⟨hsize, hfreq, hpos⟩ := hclear
  obtain ⟨m1, h1, hcounted⟩ := freqScan_counts hsize hfreq hpos
  have hscan : (freqScan m0).Reports m0 [.sinkFull] := (freqScan_onward m0).reports_of_ne_err (by simp [h1])
  refine hscan.andThen_of_ok fun _ m h => ?_
  obtain ⟨-, rfl⟩ := Run.ok_eq_ok.1 (h1.symm.trans h)
  refine (freqHdrWr_reports (by decide)).andThen_of_ok fun _ m2 h2 => ?_
  have hcounted2 : InputCounted m2 := by
    rw [(freqHdrWr_ends _).of_ok h2]
    exact hcounted
  refine treeBuild_reports.effect.andThen_of_ok fun _ m3 h3 => ?_
  obtain ⟨v, h3⟩ := Run.effect_eq_ok.1 h3
  have htree : m3.tree ≠ .none := by rcases treeBuild_tree h3 with h | h <;> rw [h] <;> decide
  refine (codeGen_reports fun h => absurd h htree).effect.andThen_of_ok fun _ m4 h4 => ?_
  obtain ⟨w, h4⟩ := Run.effect_eq_ok.1 h4
  have hcoded : InputCoded m4 := inputCoded_of_counted hcounted2 h3 h4
  exact (encodeLoop_reports (s := { m4 with inPos := 0#32 }) _ hcoded).andThen fun _ _ =>
    (bwFinalize_reports (by decide)).effect.andThen fun _ _ => rfl

end

/-- Settles O53: each step of a command raises only errors the table lists for the command. ENCODE's steps raise only ERR_SINK_FULL
because its scan counts the whole input into a cleared table, so no counter overflows and every byte gets a code. -/
theorem commandsRaiseOnlyListedErrors : Obligations.CommandsRaiseOnlyListedErrors := by
  intro i s t hb hs he ht
  cases i with
  | nop => exact complete_reports (r := .ok () s) he rfl hs ht
  | softReset =>
    cases he
    cases ht
  | clrErr =>
    cases he
    cases ht
  | freqClear => exact complete_reports (r := freqClear s) he rfl hs ht
  | freqScan => exact complete_reports he (scanLoop_reports (s := s.invalidateDerived) (by decide) _) hs ht
  | freqHdrWr => exact complete_reports he (freqHdrWr_reports (by decide)) hs ht
  | freqHdrRd => exact complete_reports he (freqHdrRd_reports (by decide)) hs ht
  | arenaClear => exact complete_reports (r := .ok () _) he (s := s) rfl hs ht
  | nodeLeaf sym =>
    exact completeWith_reports (ks := [.arenaFull]) he
      ((checkArena_reports (by decide)).andThen fun _ _ => (newLeaf_reports _).andThen fun _ _ => rfl) hs ht
  | nodeJoin a b =>
    refine completeWith_reports (ks := [.badNode, .arenaFull, .weightOvf]) he ((checkNode_reports _ (by decide)).andThen fun _ _ =>
      (checkNode_reports _ (by decide)).andThen fun _ _ => (checkArena_reports (by decide)).andThen fun _ m => ?_) hs ht
    split
    · exact Run.err_reports.2 (by decide)
    · exact (newJoin_reports _ _).andThen fun _ _ => rfl
  | heapClear => exact complete_reports (r := .ok () _) he (s := s) rfl hs ht
  | heapInsert i =>
    refine complete_reports (ks := [.badNode, .heapFull]) he ((checkNode_reports _ (by decide)).andThen fun _ m => ?_) hs ht
    split
    · exact Run.err_reports.2 (by decide)
    · exact heapInsert_reports _
  | heapExtract =>
    refine completeWith_reports (s := s) (ks := [.heapUnderflow]) he ?_ hs ht
    split
    · exact Run.err_reports.2 (by decide)
    · exact heapExtract_reports.andThen fun _ _ => rfl
  | treeBuild => exact completeWith_reports he treeBuild_reports hs ht
  | codeGen => exact completeWith_reports he (codeGen_reports fun _ => by decide) hs ht
  | bwReset => exact complete_reports (r := .ok () _) he (s := s) rfl hs ht
  | bwPut n val =>
    exact complete_reports (ks := [.sinkFull]) he ((checkRoom_reports _ (by decide)).andThen fun _ _ => putBits_reports _) hs ht
  | bwFinalize => exact completeWith_reports he (bwFinalize_reports (by decide)) hs ht
  | brReset => exact complete_reports (r := .ok () _) he (s := s) rfl hs ht
  | brGet => exact completeWith_reports he (getBit_reports.andThen fun _ _ => rfl) hs ht
  | encSym sym =>
    exact completeWith_reports (ks := [.noLut, .noCode, .sinkFull]) he
      ((checkCode_reports _ (fun _ => by decide) (fun _ => by decide) (by decide)).andThen fun _ _ => emitSymbol_reports _) hs ht
  | encNext =>
    exact completeWith_reports he (encNext_reports (fun _ => by decide) (fun _ => by decide) (fun _ => by decide) (by decide)) hs ht
  | decSym => exact completeWith_reports he (decSym_reports (fun _ => by decide) (by decide) (by decide)) hs ht
  | encode =>
    obtain ⟨-, ⟨hsize, -⟩, -⟩ := hb
    exact completeWith_reports he (encodeFile_reports hsize) hs ht
  | decode => exact completeWith_reports he decodeFile_reports hs ht

end Sys2Proof.Machine
end

section
/-! SUPPORT. The control commands NOP, SOFT_RESET and CLR_ERR (R115 to R117): each is one update of the state, then completion
(R236). -/

namespace Sys2Proof.Machine

/-! ## SOFT_RESET (R116) -/

/-- A completed SOFT_RESET leaves the machine of `State.reset` with DONE set, but for the memories, the sizes and the model's own
fields. -/
theorem softReset_finish (s : State) :
    s.softReset.finish = { State.reset with
      done := true, inSize := s.inSize, outCap := s.outCap, inMem := s.inMem, outMem := s.outMem, events := s.events,
      epoch := s.epoch, freeCnt := s.freeCnt, hostData := s.hostData, hostByte := s.hostByte } := rfl

/-- STATUS reads nothing that SOFT_RESET keeps, so it is the reset machine's with DONE added: DONE, HEAP_EMPTY and BR_EOS. -/
theorem status_softReset_finish (s : State) : s.softReset.finish.status = 0x00000222#32 := by
  have hkept : s.softReset.finish.status = { State.reset with done := true }.status := rfl
  rw [hkept]
  decide

/-! ## The obligations about the control commands -/

/-- Settles O18: NOP is a run that succeeds where it starts, and completion writes PENDING and DONE. -/
theorem nopOnlyCompletes : Obligations.NopOnlyCompletes := fun _ => rfl

/-- Settles O19: the machine after SOFT_RESET is the reset one but for what R116 keeps, none of which STATUS shows. -/
theorem softResetKeepsOnlyTheMemories : Obligations.SoftResetKeepsOnlyTheMemories := fun s =>
  ⟨s.softReset.finish, rfl, status_softReset_finish s, softReset_finish s⟩

/-- Settles O20: CLR_ERR is the model's `clearError`, then completion. -/
theorem clrErrClearsOnlyErrorState : Obligations.ClrErrClearsOnlyErrorState := fun _ => rfl

end Sys2Proof.Machine
end

section
/-! SUPPORT. The frequency commands (R125 to R128): which counters FREQ_SCAN leaves after a stretch of the input, what the two header
commands do with room and without, and the obligations about them. -/

namespace Sys2Proof.Machine

/-! ## A stretch of the scan (R126) -/

section
variable {s t : State}

/-- When a byte is left to read it is the one at IN_POS, below IN_LEN, and the others are left after it. -/
theorem inBytes_eq_cons {x : Byte} {bs : List Byte} (h : s.inBytes = x :: bs) :
    s.inPos.toNat < s.inLen.toNat ∧ s.inByte s.inPos.toNat = x ∧ ({ s with inPos := s.inPos + 1#32 }).inBytes = bs := by
  have hlt : s.inPos.toNat < s.inLen.toNat := by
    by_contra hge
    simp [State.inBytes, State.avail, Nat.sub_eq_zero_of_le (Nat.le_of_not_lt hge)] at h
  rw [inBytes_cons hlt] at h
  obtain ⟨hhead, htail⟩ := List.cons.inj h
  exact ⟨hlt, hhead, htail⟩

theorem length_inBytes (s : State) : s.inBytes.length = s.avail := by simp [State.inBytes]

/-- Counting a byte whose counter is not full adds its one occurrence to the table. -/
theorem toNat_tableGet_counted {freq : Vector Word 256} {b : Byte} (hfits : (tableGet freq b).toNat + 1 < 2 ^ 32) (c : Byte) :
    (tableGet (tableSet freq b (tableGet freq b + 1#32)) c).toNat = (tableGet freq c).toNat + [b].count c := by
  rw [tableGet_tableSet, List.count_singleton]
  by_cases hc : c = b
  · rw [if_pos hc, if_pos (beq_iff_eq.2 hc.symm), BitVec.toNat_add, hc]
    exact Nat.mod_eq_of_lt hfits
  · rw [if_neg hc, if_neg (by simpa using Ne.symm hc), Nat.add_zero]

/-- From `s` to `t` the scan read and counted the bytes `bs`, and `rest` is left to read. -/
structure Scanned (s : State) (bs rest : List Byte) (t : State) : Prop where
  frame : t = { s with freq := t.freq, inPos := t.inPos }
  count (b : Byte) : (tableGet t.freq b).toNat = (tableGet s.freq b).toNat + bs.count b
  inPos_eq : t.inPos.toNat = s.inPos.toNat + bs.length
  left : t.inBytes = rest

/-- Reading one byte, then the others. -/
theorem Scanned.cons {m : State} {b : Byte} {bs mid rest : List Byte} (h1 : Scanned s [b] mid m) (h2 : Scanned m bs rest t) :
    Scanned s (b :: bs) rest t where
  frame := by
    have hm := h1.frame
    have ht := h2.frame
    rw [hm] at ht
    exact ht
  count c := by rw [h2.count, h1.count, Nat.add_assoc, ← List.count_append, List.singleton_append]
  inPos_eq := by rw [h2.inPos_eq, h1.inPos_eq, List.length_singleton, List.length_cons]; omega
  left := h2.left

/-- One step of the scan at a byte whose counter is not full (R126). -/
theorem scanByte_scanned {x : Byte} {rest : List Byte} (hsize : s.inLen.toNat ≤ s.inSize.toNat) (hin : s.inBytes = x :: rest)
    (hfits : (tableGet s.freq x).toNat + 1 < 2 ^ 32) : ∃ t, scanByte s = .ok () t ∧ Scanned s [x] rest t := by
  obtain ⟨hlt, rfl, hrest⟩ := inBytes_eq_cons hin
  have hnotFull : tableGet s.freq (s.inByte s.inPos.toNat) ≠ 0xFFFFFFFF#32 := fun hfull => by
    rw [hfull, BitVec.toNat_ofNat] at hfits
    omega
  exact ⟨_, scanByte_ok (hlt.trans_le hsize) hnotFull, rfl, toNat_tableGet_counted hfits, toNat_inPos_succ hlt, hrest⟩

/-- A pass of the loop while a byte is left. -/
theorem scanLoop_succ {x : Byte} {rest : List Byte} (hin : s.inBytes = x :: rest) (fuel : Nat) :
    scanLoop (fuel + 1) s = (scanByte s).andThen fun _ m => scanLoop fuel m := by
  rw [scanLoop, if_pos (BitVec.lt_def.2 (inBytes_eq_cons hin).1)]

/-- While no counter overflows, the loop makes one pass for each byte and counts it. -/
theorem scanLoop_scanned {bs rest : List Byte} (hsize : s.inLen.toNat ≤ s.inSize.toNat) (hin : s.inBytes = bs ++ rest)
    (hfits : ∀ b, (tableGet s.freq b).toNat + bs.count b < 2 ^ 32) :
    ∃ t, Scanned s bs rest t ∧ ∀ fuel, scanLoop (fuel + bs.length) s = scanLoop fuel t := by
  induction bs generalizing s with
  | nil => exact ⟨s, ⟨rfl, fun _ => rfl, rfl, hin⟩, fun _ => rfl⟩
  | cons b bs ih =>
    have hb := hfits b
    rw [List.count_cons_self] at hb
    obtain ⟨m, hstep, hm⟩ := scanByte_scanned hsize hin (by omega)
    have hsize' : m.inLen.toNat ≤ m.inSize.toNat := by rw [hm.frame]; exact hsize
    have hfits' : ∀ c, (tableGet m.freq c).toNat + bs.count c < 2 ^ 32 := fun c => by
      rw [hm.count, Nat.add_assoc, ← List.count_append]
      exact hfits c
    obtain ⟨t, ht, hloop⟩ := ih hsize' hm.left hfits'
    refine ⟨t, hm.cons ht, fun fuel => ?_⟩
    rw [List.length_cons, ← Nat.add_assoc, scanLoop_succ hin, hstep, Run.ok_andThen, hloop]

/-- FREQ_SCAN reads all that is left when no counter passes 2^32 - 1. -/
theorem freqScan_scanned (hsize : s.inLen.toNat ≤ s.inSize.toNat)
    (hfits : ∀ b, (tableGet s.freq b).toNat + s.inBytes.count b < 2 ^ 32) :
    ∃ t, freqScan s = .ok () t ∧ Scanned s.invalidateDerived s.inBytes [] t := by
  obtain ⟨t, ht, hloop⟩ := scanLoop_scanned (s := s.invalidateDerived) hsize (List.append_nil s.inBytes).symm hfits
  refine ⟨t, ?_, ht⟩
  have hrun := hloop 0
  rw [Nat.zero_add, length_inBytes] at hrun
  exact hrun

/-- FREQ_SCAN stops at the first byte whose counter is full, where the bytes `bs` before it are counted. -/
theorem freqScan_overflow {x : Byte} {bs rest : List Byte} (hsize : s.inLen.toNat ≤ s.inSize.toNat)
    (hin : s.inBytes = bs ++ x :: rest) (hfits : ∀ b, (tableGet s.freq b).toNat + bs.count b < 2 ^ 32)
    (hfull : (tableGet s.freq x).toNat + bs.count x = 2 ^ 32 - 1) :
    ∃ t, freqScan s = .err .freqOvf t.inPos t ∧ Scanned s.invalidateDerived bs (x :: rest) t := by
  obtain ⟨t, ht, hloop⟩ := scanLoop_scanned (s := s.invalidateDerived) hsize hin hfits
  refine ⟨t, ?_, ht⟩
  obtain ⟨hlt, hx, -⟩ := inBytes_eq_cons ht.left
  have hbound : t.inPos.toNat < t.inSize.toNat := by
    refine hlt.trans_le ?_
    rw [ht.frame]
    exact hsize
  have hcounter : tableGet t.freq (t.inByte t.inPos.toNat) = 0xFFFFFFFF#32 := by
    rw [hx]
    exact BitVec.eq_of_toNat_eq ((ht.count x).trans hfull)
  have havail : s.avail = rest.length + 1 + bs.length := by
    rw [← length_inBytes, hin, List.length_append, List.length_cons, Nat.add_comm]
  calc freqScan s = scanLoop (rest.length + 1 + bs.length) s.invalidateDerived := by rw [freqScan, havail]
    _ = scanLoop (rest.length + 1) t := hloop _
    _ = (scanByte t).andThen fun _ m => scanLoop rest.length m := scanLoop_succ ht.left _
    _ = .err .freqOvf t.inPos t := by rw [scanByte_err hbound hcounter, Run.err_andThen]

/-! ## The header commands (R127, R128) -/

/-- A cursor with 1024 bytes left before a limit does not wrap when it moves past them. -/
theorem toNat_add_hdrBytes {pos limit : Word} (h : pos.toNat + 1024 ≤ limit.toNat) :
    (pos + BitVec.ofNat 32 Config.hdrBytes).toNat = pos.toNat + 1024 := by
  have hlimit := limit.isLt
  rw [BitVec.toNat_add, Config.hdrBytes, BitVec.toNat_ofNat]
  omega

/-- What OUT holds where a block was written. -/
theorem outByte_writeBlock_inside {p k : Nat} {bs : List Byte} {b : Byte} (hmem : t.outMem = s.outMem.writeBlock p bs)
    (hb : bs[k]? = some b) : t.outByte (p + k) = b := by
  obtain ⟨hk, -⟩ := List.getElem?_eq_some_iff.1 hb
  rw [State.outByte, hmem, Memory.read?_writeBlock, if_pos (by omega), Nat.add_sub_cancel_left, hb, Option.getD_some]

/-- What OUT holds where no block was written is what it held. -/
theorem outByte_writeBlock_outside {p a : Nat} {bs : List Byte} (hmem : t.outMem = s.outMem.writeBlock p bs)
    (hepoch : t.epoch = s.epoch) (ha : a < p ∨ p + bs.length ≤ a) : t.outByte a = s.outByte a := by
  rw [State.outByte, State.outByte, hmem, hepoch, Memory.read?_writeBlock, if_neg (by omega)]

/-- FREQ_HDR_WR with room for the header writes it as one block. -/
theorem freqHdrWr_ok (hroom : s.outPos.toNat + 1024 ≤ s.outCap.toNat) :
    freqHdrWr s = .ok () { s with
      outMem := s.outMem.writeBlock s.outPos.toNat (headerBytes s.freq), outPos := s.outPos + BitVec.ofNat 32 Config.hdrBytes } := by
  rw [freqHdrWr, (checkRoom_eq_ok (u := ())).2 ⟨by unfold Config.hdrBytes State.room; omega, rfl⟩, Run.ok_andThen]

/-- FREQ_HDR_WR without the room raises ERR_SINK_FULL and writes nothing. -/
theorem freqHdrWr_err (hfull : s.outCap.toNat < s.outPos.toNat + 1024) : freqHdrWr s = .err .sinkFull 1024#32 s := by
  rw [freqHdrWr, checkRoom_eq_err.2 ⟨by unfold Config.hdrBytes State.room; omega, rfl, rfl, rfl⟩, Run.err_andThen, Config.hdrBytes]

/-- FREQ_HDR_RD with a whole header left reads the table from it. -/
theorem freqHdrRd_ok (hsize : s.inLen.toNat ≤ s.inSize.toNat) (hleft : s.inPos.toNat + 1024 ≤ s.inLen.toNat) :
    freqHdrRd s = .ok () { s with
      freq := headerTable fun k => s.inByte (s.inPos.toNat + k),
      inPos := s.inPos + BitVec.ofNat 32 Config.hdrBytes }.invalidateDerived := by
  have havail : ¬ s.avail < Config.hdrBytes := by unfold Config.hdrBytes State.avail; omega
  have hbound : ¬ s.inSize.toNat < s.inPos.toNat + Config.hdrBytes := by unfold Config.hdrBytes; omega
  rw [freqHdrRd, if_neg havail, if_neg hbound]

/-- FREQ_HDR_RD with less than a header left raises ERR_HDR_TRUNC and changes nothing. -/
theorem freqHdrRd_err (hshort : s.inLen.toNat < s.inPos.toNat + 1024) :
    freqHdrRd s = .err .hdrTrunc (BitVec.ofNat 32 (s.inLen.toNat - s.inPos.toNat)) s := by
  have havail : s.avail < Config.hdrBytes := by unfold Config.hdrBytes State.avail; omega
  rw [freqHdrRd, if_pos havail, State.avail]

end

/-! ## The obligations about the frequency table -/

/-- Settles O23: the scan reads and counts all of the input left. -/
theorem freqScanCountsTheInput : Obligations.FreqScanCountsTheInput := by
  intro s hsize hfits
  obtain ⟨t, hrun, ht⟩ := freqScan_scanned hsize hfits
  have hpos : t.inPos.toNat = s.inPos.toNat + (s.inLen.toNat - s.inPos.toNat) := ht.inPos_eq.trans (by rw [length_inBytes]; rfl)
  refine ⟨t.finish, congrArg complete hrun, ht.count, ?_, ?_⟩
  · apply BitVec.eq_of_toNat_eq
    rw [State.finish_inPos, hpos]
    split <;> omega
  · have hframe := (freqScan_ends s).of_ok hrun
    rw [State.finish, hframe]

/-- Settles O24: the bytes before the full counter's byte are counted, and its step raises the error with IN_POS at it. -/
theorem freqScanStopsBeforeOverflow : Obligations.FreqScanStopsBeforeOverflow := by
  intro s k x hsize hx hfits hfull
  obtain ⟨hk, hget⟩ := List.getElem?_eq_some_iff.1 hx
  have hin : s.inBytes = s.inBytes.take k ++ x :: s.inBytes.drop (k + 1) := by
    rw [← hget, ← List.drop_eq_getElem_cons hk, List.take_append_drop]
  obtain ⟨t, hrun, ht⟩ := freqScan_overflow hsize hin hfits hfull
  refine ⟨t.takeError .freqOvf t.inPos, congrArg complete hrun, ht.count, ?_, ?_⟩
  · have hpos := ht.inPos_eq
    rw [List.length_take_of_le hk.le] at hpos
    exact hpos
  · have hframe := (freqScan_ends s).of_err hrun
    rw [State.takeError, hframe]
    rfl

/-- Settles O25: the room check decides between the header's block, with the frame of one block written, and the error. -/
theorem headerWriteIsBigEndian : Obligations.HeaderWriteIsBigEndian := by
  intro s
  refine ⟨fun hroom => ?_, fun hfull => congrArg complete (freqHdrWr_err hfull)⟩
  refine ⟨_, congrArg complete (freqHdrWr_ok hroom), toNat_add_hdrBytes hroom, fun b k hk => ?_,
    fun a ha => ?_, rfl⟩
  · rw [Nat.add_assoc]
    exact outByte_writeBlock_inside rfl (headerBytes_getElem? s.freq b hk)
  · exact outByte_writeBlock_outside rfl rfl (by rwa [length_headerBytes])

/-- Settles O26: the length check decides between the table read from the header's bytes and the error. -/
theorem headerReadReplacesTheTable : Obligations.HeaderReadReplacesTheTable := by
  intro s hsize
  refine ⟨fun hleft => ?_, fun hshort => congrArg complete (freqHdrRd_err hshort)⟩
  refine ⟨_, congrArg complete (freqHdrRd_ok hsize hleft), toNat_add_hdrBytes hleft, fun b k hk => ?_,
    by rw [State.finish, State.invalidateDerived]⟩
  rw [Nat.add_assoc, State.finish_freq, State.invalidateDerived_freq, tableGet_headerTable]
  exact fromBigEndian_extract (fun j => s.inByte (s.inPos.toNat + j)) (4 * b.toNat) hk

/-- Settles O22: the model's table of zeros reads 0 at every byte; the rest is `invalidateDerived`, then completion. -/
theorem freqClearZeroesEveryCounter : Obligations.FreqClearZeroesEveryCounter := fun _ =>
  ⟨_, rfl, tableGet_replicate 0#32, rfl⟩

end Sys2Proof.Machine
end

section
/-! SUPPORT. The arena and heap commands (R140 to R152): the completed state of each branch of a command, when a sift stops at once,
and the obligations about them. -/

namespace Sys2Proof.Machine

section
variable {s : State}

/-! ## The checks that pass (R142, R144, R147) -/

theorem checkNode_pass {i : NodeIdx} (hi : i.toNat < s.arena.length) : checkNode i s = .ok () s := checkNode_eq_ok.2 ⟨hi, rfl⟩

theorem checkArena_pass (hroom : s.arena.length < 511) : checkArena s = .ok () s := checkArena_eq_ok.2 ⟨hroom.ne, rfl⟩

/-! ## NODE_LEAF and NODE_JOIN (R141 to R144) -/

/-- The RESULT word of the next node's index is ARENA_CNT. -/
theorem setWidth_nextNode (h : s.arena.length < 512) : s.nextNode.setWidth 32 = BitVec.ofNat 32 s.arena.length := by
  apply BitVec.eq_of_toNat_eq
  rw [BitVec.toNat_setWidth, nextNode_toNat h, BitVec.toNat_ofNat]

/-- The weight of a join is the exact sum, cut to 64 bits. -/
theorem joinOf_eq_exactSum (s : State) (a b : NodeIdx) :
    joinOf s a b = ⟨BitVec.ofNat 64 (exactSum s a b), 0#8, false, a, b⟩ := by
  rw [joinOf, exactSum, BitVec.ofNat_add, BitVec.ofNat_toNat, BitVec.ofNat_toNat, BitVec.setWidth_eq, BitVec.setWidth_eq]

/-- NODE_LEAF with room in the arena. -/
theorem execNodeLeaf_ok (sym : Byte) (hroom : s.arena.length < 511) : execNodeLeaf sym s =
    .next { s with arena := s.arena ++ [leafOf s sym], result := BitVec.ofNat 32 s.arena.length }.finish := by
  rw [execNodeLeaf, checkArena_pass hroom, Run.ok_andThen, nodeResult, newLeaf_eq_ok.2 ⟨hroom, rfl, rfl⟩,
    Run.ok_andThen, setWidth_nextNode (by omega), completeWith]

/-- NODE_LEAF on a full arena. -/
theorem execNodeLeaf_arenaFull (sym : Byte) (hfull : s.arena.length = 511) :
    execNodeLeaf sym s = .next (s.takeError .arenaFull 0#32) := by
  rw [execNodeLeaf, checkArena_eq_err.2 ⟨hfull, rfl, rfl, rfl⟩, Run.err_andThen, completeWith]

/-- The first check of NODE_JOIN fails. -/
theorem execNodeJoin_badLeft {a : NodeIdx} (b : NodeIdx) (ha : s.arena.length ≤ a.toNat) :
    execNodeJoin a b s = .next (s.takeError .badNode (a.setWidth 32)) := by
  rw [execNodeJoin, checkNode_eq_err.2 ⟨ha, rfl, rfl, rfl⟩, Run.err_andThen, completeWith]

/-- NODE_JOIN past its first check. -/
theorem execNodeJoin_of_left {a : NodeIdx} (b : NodeIdx) (ha : a.toNat < s.arena.length) : execNodeJoin a b s =
    completeWith ((checkNode b s).andThen fun _ s => (checkArena s).andThen fun _ s =>
      if 2 ^ 64 ≤ exactSum s a b then .err .weightOvf 0#32 s else nodeResult (newJoin a b s)) := by
  rw [execNodeJoin, checkNode_pass ha, Run.ok_andThen]

/-- The second check of NODE_JOIN fails. -/
theorem execNodeJoin_badRight {a b : NodeIdx} (ha : a.toNat < s.arena.length) (hb : s.arena.length ≤ b.toNat) :
    execNodeJoin a b s = .next (s.takeError .badNode (b.setWidth 32)) := by
  rw [execNodeJoin_of_left b ha, checkNode_eq_err.2 ⟨hb, rfl, rfl, rfl⟩, Run.err_andThen, completeWith]

/-- NODE_JOIN of two nodes of the arena: what is left are the arena's room and the sum. -/
theorem execNodeJoin_of_nodes {a b : NodeIdx} (ha : a.toNat < s.arena.length) (hb : b.toNat < s.arena.length) :
    execNodeJoin a b s = completeWith ((checkArena s).andThen fun _ s =>
      if 2 ^ 64 ≤ exactSum s a b then .err .weightOvf 0#32 s else nodeResult (newJoin a b s)) := by
  rw [execNodeJoin_of_left b ha, checkNode_pass hb, Run.ok_andThen]

/-- NODE_JOIN on a full arena. -/
theorem execNodeJoin_arenaFull {a b : NodeIdx} (ha : a.toNat < s.arena.length) (hb : b.toNat < s.arena.length)
    (hfull : s.arena.length = 511) : execNodeJoin a b s = .next (s.takeError .arenaFull 0#32) := by
  rw [execNodeJoin_of_nodes ha hb, checkArena_eq_err.2 ⟨hfull, rfl, rfl, rfl⟩, Run.err_andThen, completeWith]

/-- NODE_JOIN of weights whose sum does not fit. -/
theorem execNodeJoin_weightOvf {a b : NodeIdx} (ha : a.toNat < s.arena.length) (hb : b.toNat < s.arena.length)
    (hroom : s.arena.length < 511) (hsum : 2 ^ 64 ≤ exactSum s a b) :
    execNodeJoin a b s = .next (s.takeError .weightOvf 0#32) := by
  rw [execNodeJoin_of_nodes ha hb, checkArena_pass hroom, Run.ok_andThen, if_pos hsum, completeWith]

/-- NODE_JOIN past all its checks. -/
theorem execNodeJoin_ok {a b : NodeIdx} (ha : a.toNat < s.arena.length) (hb : b.toNat < s.arena.length)
    (hroom : s.arena.length < 511) (hsum : exactSum s a b < 2 ^ 64) : execNodeJoin a b s =
      .next { s with arena := s.arena ++ [joinOf s a b], result := BitVec.ofNat 32 s.arena.length }.finish := by
  rw [execNodeJoin_of_nodes ha hb, checkArena_pass hroom, Run.ok_andThen, if_neg hsum.not_ge, nodeResult,
    newJoin_eq_ok.2 ⟨⟨hroom, hsum⟩, rfl, rfl⟩, Run.ok_andThen, setWidth_nextNode (by omega), completeWith]

/-! ## HEAP_INSERT and HEAP_EXTRACT (R147, R150) -/

/-- HEAP_INSERT of an index that is no node's. -/
theorem execHeapInsert_badNode {i : NodeIdx} (hi : s.arena.length ≤ i.toNat) :
    execHeapInsert i s = .next (s.takeError .badNode (i.setWidth 32)) := by
  rw [execHeapInsert, checkNode_eq_err.2 ⟨hi, rfl, rfl, rfl⟩, Run.err_andThen, complete]

/-- HEAP_INSERT of a node into a full heap. -/
theorem execHeapInsert_heapFull {i : NodeIdx} (hi : i.toNat < s.arena.length) (hfull : s.heap.length = 256) :
    execHeapInsert i s = .next (s.takeError .heapFull (i.setWidth 32)) := by
  rw [execHeapInsert, checkNode_pass hi, Run.ok_andThen, Config.heapCap, if_pos hfull, complete]

/-- HEAP_INSERT of a node with room in the heap. -/
theorem execHeapInsert_ok {i : NodeIdx} {before after : List NodeIdx} (hi : i.toNat < s.arena.length) (hheap : s.heap = before)
    (hroom : before.length < 256) (hafter : insertSlot s.arena before i = after) :
    execHeapInsert i s = .next { s with heap := after }.finish := by
  subst hheap hafter
  have hrun : heapInsert i s = .ok () { s with heap := insertSlot s.arena s.heap i } := heapInsert_eq_ok.2 ⟨⟨hroom, hi⟩, rfl⟩
  rw [execHeapInsert, checkNode_pass hi, Run.ok_andThen, Config.heapCap, if_neg hroom.ne, hrun, complete]

/-- HEAP_EXTRACT on an empty heap. -/
theorem execHeapExtract_underflow (hempty : s.heap = []) :
    execHeapExtract s = .next (s.takeError .heapUnderflow 0#32) := by
  rw [execHeapExtract, if_pos (List.length_eq_zero_iff.2 hempty), completeWith]

/-- HEAP_EXTRACT on an occupied heap. -/
theorem execHeapExtract_ok {top : NodeIdx} {others after : List NodeIdx} (hheap : s.heap = top :: others)
    (hafter : removeTop s.arena (top :: others) = after) :
    execHeapExtract s = .next { s with heap := after, result := top.setWidth 32 }.finish := by
  have hpos : 0 < s.heap.length := by rw [hheap, List.length_cons]; omega
  have hrun : heapExtract s = .ok top { s with heap := after } :=
    heapExtract_eq_ok.2 ⟨hpos, by rw [hheap]; rfl, by rw [hheap, hafter]⟩
  rw [execHeapExtract, if_neg hpos.ne', nodeResult, hrun, Run.ok_andThen, completeWith]

end

/-! ## Sifts that stop at once (R146, R148) -/

section
variable {arena : List Node}

/-- The up-sift stops below a parent that is no heavier. -/
theorem siftUp_of_parent_le (fuel : Nat) {heap : List NodeIdx} {k : Nat}
    (hle : weightAt arena (slot heap ((k - 1) / 2)) ≤ weightAt arena (slot heap k)) : siftUp arena fuel heap k = heap := by
  cases fuel with
  | zero => rfl
  | succ fuel => rw [siftUp, if_pos hle, ite_self]

/-- The down-sift stops above children that are no lighter. -/
theorem siftDown_of_lightest (fuel : Nat) {heap : List NodeIdx} {k : Nat} (hk : lightest arena heap k = k) :
    siftDown arena fuel heap k = heap := by
  cases fuel with
  | zero => rfl
  | succ fuel => rw [siftDown, if_pos hk]

/-- A node no lighter than the root stays in slot 1 or 2, where it joins (the `<=` of R146). -/
theorem insertSlot_below_root {root i : NodeIdx} {others : List NodeIdx} (hsmall : others.length < 2)
    (hle : weightAt arena root ≤ weightAt arena i) : insertSlot arena (root :: others) i = root :: others ++ [i] := by
  have hparent : (others.length + 1 - 1) / 2 = 0 := by omega
  refine siftUp_of_parent_le _ ?_
  rw [List.length_cons, hparent]
  simpa [slot] using hle

/-- Of three nodes the last moves to the root and stays above a child of the same weight (the strict `<` of R148). -/
theorem removeTop_of_weight_eq {a b c : NodeIdx} (heq : weightAt arena b = weightAt arena c) :
    removeTop arena [a, b, c] = [c, b] := by
  refine siftDown_of_lightest _ ?_
  simp [lightest, slot, heq]

end

/-! ## The obligations about the arena and the heap -/

/-- Settles O29: the two checks in order, then the up-sift, which only reorders and keeps the heap property. -/
theorem heapInsertAddsTheNode : Obligations.HeapInsertAddsTheNode := fun s i =>
  ⟨execHeapInsert_badNode, execHeapInsert_heapFull, fun hi hroom =>
    ⟨_, execHeapInsert_ok hi rfl hroom rfl, insertSlot_perm s.arena s.heap i, fun hord => insertSlot_ordered hord i, rfl⟩⟩

/-- Settles O30: the root is returned, and the down-sift only reorders the others and keeps the heap property. -/
theorem heapExtractRemovesALightestNode : Obligations.HeapExtractRemovesALightestNode := by
  refine fun s => ⟨execHeapExtract_underflow, fun top others hheap => ?_⟩
  refine ⟨_, execHeapExtract_ok hheap rfl, rfl, removeTop_perm s.arena top others, fun hord => ?_, rfl⟩
  rw [hheap] at hord ⊢
  exact ⟨removeTop_ordered hord, fun i hi => hord.head_le hi⟩

/-- Settles O31: each insertion stays where it joins, and the first extraction moves the last node to the root, where it stays. -/
theorem equalWeightsAreNotFirstInFirstOut : Obligations.EqualWeightsAreNotFirstInFirstOut := by
  intro s h01 h12 hlen hempty
  have hinsert1 : insertSlot s.arena [0#9] 1#9 = [0#9, 1#9] := insertSlot_below_root (by decide) (BitVec.le_of_eq h01)
  have hinsert2 : insertSlot s.arena [0#9, 1#9] 2#9 = [0#9, 1#9, 2#9] :=
    insertSlot_below_root (by decide) (BitVec.le_of_eq (h01.trans h12))
  have hextract : removeTop s.arena [0#9, 1#9, 2#9] = [2#9, 1#9] := removeTop_of_weight_eq h12
  have hstep0 : execHeapInsert 0#9 s = .next { s with heap := [0#9] }.finish :=
    execHeapInsert_ok (Nat.zero_lt_of_lt hlen) hempty (by decide) rfl
  have hstep1 : execHeapInsert 1#9 { s with heap := [0#9] }.finish = .next { s with heap := [0#9, 1#9] }.finish :=
    execHeapInsert_ok (before := [0#9]) (Nat.lt_of_succ_lt hlen) rfl (by decide) hinsert1
  have hstep2 : execHeapInsert 2#9 { s with heap := [0#9, 1#9] }.finish =
      .next { s with heap := [0#9, 1#9, 2#9] }.finish :=
    execHeapInsert_ok (before := [0#9, 1#9]) hlen rfl (by decide) hinsert2
  have hstep3 : execHeapExtract { s with heap := [0#9, 1#9, 2#9] }.finish =
      .next { s with heap := [2#9, 1#9], result := 0#32 }.finish :=
    execHeapExtract_ok (top := 0#9) rfl hextract
  have hstep4 : execHeapExtract { s with heap := [2#9, 1#9], result := 0#32 }.finish =
      .next { s with heap := removeTop s.arena [2#9, 1#9], result := 2#32 }.finish :=
    execHeapExtract_ok (top := 2#9) rfl rfl
  exact ⟨_, _, _, _, _, hstep0, hstep1, hstep2, rfl, hstep3, rfl, rfl, hstep4, rfl⟩

/-- Settles O21: each of the four is one update of the state, then completion. -/
theorem clearingCommandsClearOnlyTheirs : Obligations.ClearingCommandsClearOnlyTheirs := fun _ => ⟨rfl, rfl, rfl, rfl⟩

/-- Settles O27: the arena check decides between the leaf appended and the error. -/
theorem nodeLeafAppendsALeaf : Obligations.NodeLeafAppendsALeaf := fun _ sym =>
  ⟨execNodeLeaf_ok sym, execNodeLeaf_arenaFull sym⟩

/-- Settles O28: the four checks in order, then the node whose weight is the exact sum. -/
theorem nodeJoinAppendsAnInternalNode : Obligations.NodeJoinAppendsAnInternalNode := fun s a b =>
  ⟨execNodeJoin_badLeft b, execNodeJoin_badRight, execNodeJoin_arenaFull, execNodeJoin_weightOvf, fun ha hb hroom hsum =>
    joinOf_eq_exactSum s a b ▸ execNodeJoin_ok ha hb hroom hsum⟩

end Sys2Proof.Machine
end

section
/-! SUPPORT. The codes of a tree that TREE_BUILD made (R170, R173), and the obligations about them and about a TREE_BUILD that joins
no nodes (R161, R162). -/

namespace Sys2Proof.Machine

/-! ## What the code table holds (R46, R170) -/

section
variable {s : State} {codes : List (Byte × List Bool)} {b : Byte}

/-- A recorded code reads back from the table. -/
theorem codeOf_writeCodes_mem (hn : (codes.map Prod.fst).Nodup) {path : List Bool} (h : (b, path) ∈ codes)
    (hlen : path.length ≤ 255) : (writeCodes codes s).codeOf b = path := by
  obtain ⟨hl, hc⟩ := writeCodes_mem s hn h
  rw [State.codeOf, hl, hc, codeBitsOf_codeStore hlen]

/-- A symbol without a recorded code has none in a table cleared before. -/
theorem codeOf_writeCodes_other (h : b ∉ codes.map Prod.fst) : (writeCodes codes s.clearLut).codeOf b = [] := by
  have hzero : tableGet s.clearLut.lutLen b = 0#8 := tableGet_replicate _ _
  rw [State.codeOf, (writeCodes_other s.clearLut h).1, hzero]
  rfl

/-- The symbols that have a code, and their codes, are those recorded. -/
theorem codeOf_writeCodes_iff (hn : (codes.map Prod.fst).Nodup) (hlen : ∀ c ∈ codes, 0 < c.2.length ∧ c.2.length ≤ 255) :
    (b, (writeCodes codes s.clearLut).codeOf b) ∈ codes ↔ (writeCodes codes s.clearLut).codeOf b ≠ [] := by
  refine ⟨fun h => List.length_pos_iff.1 (hlen _ h).1, fun hne => ?_⟩
  have hmem : b ∈ codes.map Prod.fst := Decidable.not_imp_comm.1 codeOf_writeCodes_other hne
  obtain ⟨⟨b, path⟩, hpath, rfl⟩ := List.mem_map.1 hmem
  rwa [codeOf_writeCodes_mem hn hpath (hlen _ hpath).2]

end

section
variable {s t u : State} {v : Word}

theorem exec_treeBuild_of_ok (h : treeBuild s = .ok v t) : exec .treeBuild s = .next { t with result := v }.finish :=
  congrArg completeWith h

theorem exec_codeGen_of_ok (h : codeGen s = .ok v t) : exec .codeGen s = .next { t with result := v }.finish :=
  congrArg completeWith h

/-- CODE_GEN after TREE_BUILD of a table with a nonzero counter: the symbols that have a code, and their codes, are the effective
codes of the tree at ROOT, whose leaves are of the counted symbols (R160, R170, R171). -/
theorem codes_of_built (hne : presentSymbols s.freq ≠ []) (htree : exec .treeBuild s = .next t)
    (hcode : exec .codeGen t = .next u) :
    ∃ codes, HasCodes t.arena t.root codes ∧ (codes.map Prod.fst).Perm (presentSymbols s.freq) ∧
      u.nLeaf = BitVec.ofNat 9 codes.length ∧ (∀ b, (b, u.codeOf b) ∈ effectiveCodes t codes ↔ u.codeOf b ≠ []) ∧
      ∀ c ∈ effectiveCodes t codes, u.codeOf c.1 = c.2 := by
  obtain ⟨m, codes, more, hrun, hm, -, -, hcodes, hperm, -⟩ := treeBuild_spec hne
  have hlen : codes.length = (presentSymbols s.freq).length := by simpa using hperm.length_eq
  have ht : { m with result := BitVec.ofNat 32 (presentSymbols s.freq).length }.finish = t :=
    Host.Outcome.next.inj ((exec_treeBuild_of_ok hrun).symm.trans htree)
  replace hcodes : HasCodes t.arena t.root codes := by
    rw [← ht]
    exact hcodes
  obtain ⟨hvalid, hleaves, hfit⟩ :
      t.tree = .valid ∧ t.nLeaf = BitVec.ofNat 9 codes.length ∧ codes.length ≤ t.arena.length := by
    rw [← ht, hlen, hm]
    exact ⟨rfl, rfl, by simp [State.finish]⟩
  obtain rfl := Host.Outcome.next.inj ((exec_codeGen_of_ok (codeGen_spec hvalid hcodes hfit)).symm.trans hcode)
  obtain ⟨hsyms, hbits⟩ := effectiveCodes_spec hcodes (hlen ▸ length_presentSymbols s.freq)
  have hnodup : ((effectiveCodes t codes).map Prod.fst).Nodup := hsyms ▸ hperm.nodup_iff.2 (nodup_presentSymbols s.freq)
  refine ⟨codes, hcodes, hperm, ?_, fun b => codeOf_writeCodes_iff hnodup hbits, fun c hc =>
    codeOf_writeCodes_mem hnodup hc (hbits c hc).2⟩
  rw [State.finish, writeCodes_frame]
  exact hleaves

end

/-- TREE_BUILD of an all-zero table (R162). -/
theorem exec_treeBuild_of_absent {s : State} (h : presentSymbols s.freq = []) : exec .treeBuild s =
    .next { s with
      arena := [], heap := [], tree := .empty, root := 0#9, nLeaf := 0#9, total := 0#64, lutValid := false,
      result := 0#32, pending := none, done := true } :=
  exec_treeBuild_of_ok (treeBuild_empty h)

/-- With two or more leaves the codes of the table are those of ROOT's subtree (R170). -/
theorem effectiveCodes_of_two {s : State} {codes : List (Byte × List Bool)} (hc : HasCodes s.arena s.root codes)
    (h2 : 2 ≤ codes.length) : effectiveCodes s codes = codes := by
  refine if_neg fun hleaf => ?_
  rw [hc.leaf_codes hleaf, List.length_singleton] at h2
  omega

/-- The symbols that have a code are those recorded, each once. -/
theorem coded_perm {u : State} {codes : List (Byte × List Bool)} (hn : (codes.map Prod.fst).Nodup)
    (hmem : ∀ b, (b, u.codeOf b) ∈ codes ↔ u.codeOf b ≠ []) (hcode : ∀ c ∈ codes, u.codeOf c.1 = c.2) :
    (allBytes.filter fun b => decide (u.codeOf b ≠ [])).Perm (codes.map Prod.fst) := by
  refine (List.perm_ext_iff_of_nodup (nodup_allBytes.filter _) hn).2 fun b => ?_
  rw [List.mem_filter, decide_eq_true_eq, ← hmem]
  constructor
  · exact fun h => List.mem_map.2 ⟨_, h.2, rfl⟩
  · intro h
    obtain ⟨c, hc, rfl⟩ := List.mem_map.1 h
    exact ⟨mem_allBytes _, by rwa [hcode c hc]⟩

/-- Settles O38: the codes are the paths of a strict binary tree: none begins another, and they meet the Kraft equality. -/
theorem codesArePrefixFreeAndComplete : Obligations.CodesArePrefixFreeAndComplete := by
  intro s t u htree hcode htwo
  by_cases hne : presentSymbols s.freq = []
  · rw [exec_treeBuild_of_absent hne] at htree
    cases htree
    cases hcode
    exact absurd htwo (by decide : ¬ 2 ≤ (0#9).toNat)
  obtain ⟨codes, hcodes, hperm, hleaves, hmem, hcode⟩ := codes_of_built hne htree hcode
  have h2 : 2 ≤ codes.length := by
    rw [hleaves, BitVec.toNat_ofNat] at htwo
    exact htwo.trans (Nat.mod_le _ _)
  rw [effectiveCodes_of_two hcodes h2] at hmem hcode
  constructor
  · intro b c hbc hb hc hprefix
    have heq := hcodes.eq_of_prefix ((hmem b).2 hb) ((hmem c).2 hc) hprefix
    exact hbc (congrArg Prod.fst heq)
  · have hcoded := coded_perm (hperm.nodup_iff.2 (nodup_presentSymbols _)) hmem hcode
    have hshort : ∀ c ∈ codes, c.2.length ≤ 255 := fun c hc => by
      have hlt := hcodes.length_lt c hc
      have hle := hperm.length_eq ▸ length_presentSymbols s.freq
      rw [List.length_map] at hle
      omega
    calc _ = ((codes.map Prod.fst).map fun b => 2 ^ (255 - (u.codeOf b).length)).sum := (hcoded.map _).sum_nat
      _ = (codes.map fun c => 2 ^ (255 - c.2.length)).sum := by
        rw [List.map_map]
        congr 1
        exact List.map_congr_left fun c hc => by rw [Function.comp_apply, hcode c hc]
      _ = 2 ^ 255 := hcodes.kraft hshort

/-- When a single counter is nonzero, its symbol is the only one present. -/
theorem presentSymbols_eq_singleton {freq : Vector Word 256} {b : Byte} (hb : tableGet freq b ≠ 0#32)
    (hothers : ∀ c, c ≠ b → tableGet freq c = 0#32) : presentSymbols freq = [b] := by
  refine List.perm_singleton.1 ((List.perm_ext_iff_of_nodup (nodup_presentSymbols _) (List.nodup_singleton b)).2 fun c => ?_)
  rw [mem_presentSymbols, List.mem_singleton]
  exact ⟨Decidable.not_imp_comm.1 (hothers c), fun h => h ▸ hb⟩

/-- Settles O33: an all-zero table has no present symbol; with one nonzero counter the leaf of its symbol is the whole arena. -/
theorem treeBuildOfZeroSymbolsAndOfOne : Obligations.TreeBuildOfZeroSymbolsAndOfOne := by
  refine fun s => ⟨fun hzero => exec_treeBuild_of_absent ?_, fun b hb hothers => ?_⟩
  · exact List.eq_nil_iff_forall_not_mem.2 fun b hmem => mem_presentSymbols.1 hmem (hzero b)
  · have hone := presentSymbols_eq_singleton hb hothers
    have htotal : BitVec.ofNat 64 (tableSum s.freq) = (tableGet s.freq b).setWidth 64 := by
      rw [← sum_presentSymbols, hone]
      simp
    obtain ⟨t, codes, more, hrun, ht, hmore, hroot, -⟩ := treeBuild_spec (s := s) (by simp [hone])
    rw [hone] at hrun ht hmore hroot
    obtain rfl : more = [] := List.eq_nil_of_length_eq_zero hmore
    rw [exec_treeBuild_of_ok hrun, ht, hroot, htotal]
    rfl

end Sys2Proof.Machine
end

section
/-! SUPPORT. The tree of a frequency table (R160, R163 to R165): TREE_BUILD's two loops as rounds that read FREQ, the arena and the
heap alone, the same rounds by single commands, and the obligations about the tree they make. -/

namespace Sys2Proof.Machine

/-! ## The leaves, one at a time -/

/-- One round of the first loop: the leaf of a symbol joins the arena, and its index the heap (R160). -/
def leafPass (s : State) (b : Byte) : State :=
  { s with arena := s.arena ++ [leafOf s b], heap := insertSlot (s.arena ++ [leafOf s b]) s.heap s.nextNode }

/-- The first loop makes a round for each present symbol. -/
theorem addLeaves_passes (bs : List Byte) {s t : State} (h : addLeaves bs s = .ok () t) :
    t = (bs.filter (isPresent s.freq)).foldl leafPass s := by
  induction bs generalizing s with
  | nil => exact (Run.ok_eq_ok.1 h).2
  | cons b bs ih =>
    rw [addLeaves] at h
    split at h
    · rename_i hb
      obtain ⟨n, m, hleaf, h⟩ := Run.andThen_eq_ok.1 h
      obtain ⟨_, m', hinsert, h⟩ := Run.andThen_eq_ok.1 h
      obtain ⟨-, rfl, rfl⟩ := newLeaf_eq_ok.1 hleaf
      obtain ⟨-, rfl⟩ := heapInsert_eq_ok.1 hinsert
      have hp : isPresent s.freq b = true := decide_eq_true hb
      rw [List.filter_cons_of_pos hp, List.foldl_cons]
      exact ih h
    · rename_i hb
      rw [List.filter_cons_of_neg (by simpa [isPresent] using hb)]
      exact ih h

/-! ## The passes, until one entry is left -/

/-- What `n` passes of the merge loop need: one entry more than passes, and room for a node each. -/
structure MergesReady (n : Nat) (s : State) : Prop where
  entries : s.heap.length = n + 1
  room : s.arena.length + n ≤ 511
  mergeable : n ≠ 0 → Mergeable s

section
variable {n : Nat} {s u : State} {r : Word}

theorem MergesReady.pass (h : MergesReady (n + 1) s) : Mergeable s ∧ MergesReady n (mergePass s) := by
  have hm := h.mergeable n.succ_ne_zero
  obtain ⟨hentries, hroom, -⟩ := h
  have hheap : (mergePass s).heap.length = n + 1 := by simp [mergePass, hentries]
  have harena : (mergePass s).arena.length = s.arena.length + 1 := by simp [mergePass]
  exact ⟨hm, hheap, by omega, fun hn => mergePass_mergeable hm (by omega) (by omega)⟩

/-- After the passes one entry is left. -/
theorem MergesReady.passes (h : MergesReady n s) : MergesReady 0 (mergePass^[n] s) := by
  induction n generalizing s with
  | zero => exact h
  | succ n ih => exact ih h.pass.2

/-- What holds before the passes and is kept by each pass holds after them. -/
theorem MergesReady.passes_induct {P : State → Prop} (h : MergesReady n s) (h0 : P s)
    (hpass : ∀ m, Mergeable m → P m → P (mergePass m)) : P (mergePass^[n] s) := by
  induction n generalizing s with
  | zero => exact h0
  | succ n ih => exact ih h.pass.2 (hpass s h.pass.1 h0)

/-- The merge loop is its passes, then the extraction of the root (R160). -/
theorem mergeLoop_passes (h : MergesReady n s) : mergeLoop (n + 1) s = heapExtract (mergePass^[n] s) := by
  induction n generalizing s with
  | zero =>
    have hrun : heapExtract s = .ok (slot s.heap 0) { s with heap := removeTop s.arena s.heap } :=
      heapExtract_eq_ok.2 ⟨by rw [h.entries]; omega, rfl, rfl⟩
    have hempty : (removeTop s.arena s.heap).length = 0 := by rw [length_removeTop, h.entries]
    rw [mergeLoop, Function.iterate_zero_apply, hrun, Run.ok_andThen]
    exact if_pos hempty
  | succ n ih => rw [mergeLoop_pass _ h.pass.1, ih h.pass.2, Function.iterate_succ_apply]

/-- The extraction that leaves the heap empty. -/
theorem heapExtract_last (h : MergesReady 0 s) : heapExtract s = .ok (slot s.heap 0) { s with heap := [] } := by
  have hempty : removeTop s.arena s.heap = [] := List.eq_nil_of_length_eq_zero (by rw [length_removeTop, h.entries])
  exact heapExtract_eq_ok.2 ⟨by rw [h.entries]; omega, rfl, by rw [hempty]⟩

/-! ## The children of the nodes made -/

/-- The internal nodes from index `start` on have two different children. -/
def ChildrenDiffer (start : Nat) (arena : List Node) : Prop :=
  ∀ k node, start ≤ k → arena[k]? = some node → node.l ≠ node.r

/-- A pass joins two entries of a heap that holds no node twice, and such a heap it leaves. -/
theorem mergePass_childrenDiffer {start : Nat} (hm : Mergeable s) (h : s.heap.Nodup ∧ ChildrenDiffer start s.arena) :
    (mergePass s).heap.Nodup ∧ ChildrenDiffer start (mergePass s).arena := by
  obtain ⟨hnodup, hdiffer⟩ := h
  obtain ⟨a, b, rest, -, -, pall, -, earena, pnew, -⟩ := mergePass_spec hm
  obtain ⟨ha, hb⟩ := List.nodup_cons.1 (pall.nodup_iff.1 hnodup)
  have hroom := hm.room
  constructor
  · refine pnew.nodup_iff.2 (List.nodup_cons.2 ⟨fun hnext => ?_, (List.nodup_cons.1 hb).2⟩)
    have hlt := hm.inside _ (pall.mem_iff.2 (List.mem_cons_of_mem _ (List.mem_cons_of_mem _ hnext)))
    rw [nextNode_toNat (by omega)] at hlt
    omega
  · intro k node hk hnode
    rw [earena] at hnode
    by_cases hold : k < s.arena.length
    · rw [List.getElem?_append_left hold] at hnode
      exact hdiffer k node hk hnode
    · rw [List.getElem?_append_right (by omega), List.getElem?_singleton] at hnode
      split at hnode
      · obtain rfl := Option.some.inj hnode
        exact fun hab : a = b => ha (hab ▸ List.mem_cons_self)
      · cases hnode

/-! ## The same by single commands -/

/-- The state a command that succeeds with RESULT `r` leaves, where its effect is `s` (R29, R236). -/
def State.returning (s : State) (r : Word) : State := { s with result := r }.finish

/-- NODE_LEAF and HEAP_INSERT make the round of the first loop. -/
theorem leafByCommands_pass (b : Byte) (hroom : s.arena.length < 511) (hslots : s.heap.length < 256) (f : State → Outcome) :
    (afterwards (exec (.nodeLeaf b) (s.returning r)) fun t => afterwards (exec (.heapInsert t.resultNode) t) f) =
      f ((leafPass s b).returning (s.nextNode.setWidth 32)) := by
  have hleaf : exec (.nodeLeaf b) (s.returning r) =
      .next (({ s with arena := s.arena ++ [leafOf s b] }).returning (BitVec.ofNat 32 s.arena.length)) :=
    execNodeLeaf_ok (s := s.returning r) b hroom
  have hinside : s.nextNode.toNat < (s.arena ++ [leafOf s b]).length := by
    rw [nextNode_toNat (by omega), List.length_append, List.length_singleton]
    omega
  have hinsert := execHeapInsert_ok (i := s.nextNode)
    (s := ({ s with arena := s.arena ++ [leafOf s b] }).returning (s.nextNode.setWidth 32)) hinside rfl hslots rfl
  rw [hleaf, ← setWidth_nextNode (by omega), afterwards_next]
  simp only [State.resultNode, State.returning, State.finish, setWidth_resultNode]
  exact congrArg (afterwards · f) hinsert

/-- The HEAP_EXTRACT that returns the root. -/
theorem execHeapExtract_last (h : MergesReady 0 s) : exec .heapExtract (s.returning r) =
    .next (({ s with heap := [] }).returning ((slot s.heap 0).setWidth 32)) := by
  obtain ⟨top, hheap⟩ := List.length_eq_one_iff.1 h.entries
  have hempty : removeTop s.arena [top] = [] := List.eq_nil_of_length_eq_zero (length_removeTop ..)
  rw [hheap]
  exact execHeapExtract_ok (s := s.returning r) hheap hempty

/-- The leaves by single commands are the rounds of the first loop. -/
theorem leavesByCommands_passes (bs : List Byte) (hroom : s.arena.length + bs.length ≤ 511)
    (hslots : s.heap.length + bs.length ≤ 256) :
    ∃ r', leavesByCommands bs (s.returning r) = .next ((bs.foldl leafPass s).returning r') := by
  induction bs generalizing s r with
  | nil => exact ⟨r, rfl⟩
  | cons b bs ih =>
    rw [List.length_cons] at hroom hslots
    have harena : (leafPass s b).arena.length = s.arena.length + 1 := by simp [leafPass]
    have hheap : (leafPass s b).heap.length = s.heap.length + 1 := by simp [leafPass]
    rw [leavesByCommands, leafByCommands_pass b (by omega) (by omega)]
    exact ih (by omega) (by omega)

/-- The merges by single commands are the passes of the merge loop. -/
theorem mergesByCommands_passes (h : MergesReady n s) :
    ∃ r', mergesByCommands n (s.returning r) = .next ((mergePass^[n] s).returning r') := by
  induction n generalizing s r with
  | zero => exact ⟨r, rfl⟩
  | succ n ih =>
    obtain ⟨hm, hready⟩ := h.pass
    have hpass : mergeByCommands (s.returning r) = .next ((mergePass s).returning (s.nextNode.setWidth 32)) :=
      mergeByCommands_pass (s := s.returning r) { hm with }
    rw [mergesByCommands, hpass, afterwards_next]
    exact ih hready

end

/-! ## The loops read FREQ, the arena and the heap alone -/

/-- The machine `u` with the arena and the heap of `m`. -/
def State.withTreeOf (u m : State) : State := { u with arena := m.arena, heap := m.heap }

section
variable {n : Nat} {u m : State}

theorem leafPasses_withTreeOf (bs : List Byte) (h : u.freq = m.freq) :
    bs.foldl leafPass (u.withTreeOf m) = u.withTreeOf (bs.foldl leafPass m) := by
  induction bs generalizing m with
  | nil => rfl
  | cons b bs ih =>
    have hpass : leafPass (u.withTreeOf m) b = u.withTreeOf (leafPass m b) := by
      simp only [leafPass, State.withTreeOf, leafOf, State.nextNode, h]
    rw [List.foldl_cons, hpass]
    exact ih h

theorem mergePasses_withTreeOf : mergePass^[n] (u.withTreeOf m) = u.withTreeOf (mergePass^[n] m) := by
  have hpass : Function.Semiconj u.withTreeOf mergePass mergePass := fun _ => rfl
  exact (hpass.iterate_right n m).symm

theorem MergesReady.withTreeOf (h : MergesReady n m) : MergesReady n (u.withTreeOf m) :=
  { h with mergeable := fun hn => { h.mergeable hn with } }

end

/-! ## The tree of a frequency table -/

/-- The reset machine with a frequency table. -/
def freshTree (freq : Vector Word 256) : State := { State.reset with freq := freq }

/-- The machine with the leaves of a frequency table, all in the heap. -/
def leavesOf (freq : Vector Word 256) : State := (presentSymbols freq).foldl leafPass (freshTree freq)

/-- The machine with the tree of a frequency table, before the root is extracted. -/
def mergedOf (freq : Vector Word 256) : State := mergePass^[(presentSymbols freq).length - 1] (leavesOf freq)

section
variable (freq : Vector Word 256) (u : State)

/-- From an empty arena and heap the first loop leaves the leaves of the table, in symbol order (R160, R164). -/
theorem addLeaves_leavesOf :
    addLeaves allBytes (u.withTreeOf (freshTree u.freq)) = .ok () (u.withTreeOf (leavesOf u.freq)) ∧
      (leavesOf u.freq).arena = (presentSymbols u.freq).map (leafNode u.freq) ∧
      (leavesOf u.freq).heap.Perm (indicesFrom 0 (presentSymbols u.freq).length) := by
  have hlen := length_presentSymbols u.freq
  obtain ⟨t, hrun, -, harena, hheap⟩ := addLeaves_spec allBytes (s := u.withTreeOf (freshTree u.freq))
    (by show 0 + (presentSymbols u.freq).length ≤ 511; omega) (by show 0 + (presentSymbols u.freq).length ≤ 256; omega)
  obtain rfl : t = u.withTreeOf (leavesOf u.freq) := (addLeaves_passes allBytes hrun).trans (leafPasses_withTreeOf _ rfl)
  exact ⟨hrun, harena, hheap.trans (List.Perm.of_eq (List.append_nil _))⟩

theorem leavesOf_arena : (leavesOf freq).arena = (presentSymbols freq).map (leafNode freq) :=
  (addLeaves_leavesOf (freshTree freq)).2.1

theorem leavesOf_heap : (leavesOf freq).heap.Perm (indicesFrom 0 (presentSymbols freq).length) :=
  (addLeaves_leavesOf (freshTree freq)).2.2

@[simp] theorem length_leavesOf_arena : (leavesOf freq).arena.length = (presentSymbols freq).length := by
  rw [leavesOf_arena, List.length_map]

@[simp] theorem length_leavesOf_heap : (leavesOf freq).heap.length = (presentSymbols freq).length := by
  rw [(leavesOf_heap freq).length_eq]
  simp [indicesFrom]

theorem leavesOf_inside : ∀ i ∈ (leavesOf freq).heap, i.toNat < (leavesOf freq).arena.length := fun i hi => by
  have hlen := length_presentSymbols freq
  have hmem := (mem_indicesFrom (by omega)).1 ((leavesOf_heap freq).mem_iff.1 hi)
  rw [length_leavesOf_arena]
  omega

theorem leavesOf_heap_nodup : (leavesOf freq).heap.Nodup := by
  have hlen := length_presentSymbols freq
  refine (leavesOf_heap freq).nodup_iff.2 (List.Nodup.map_on (fun x hx y hy h => ?_) List.nodup_range')
  rw [List.mem_range'_1] at hx hy
  have hnat := congrArg BitVec.toNat h
  rwa [BitVec.toNat_ofNat, BitVec.toNat_ofNat, Nat.mod_eq_of_lt (by omega), Nat.mod_eq_of_lt (by omega)] at hnat

theorem leavesOf_ordered : HeapOrdered (leavesOf freq).arena (leavesOf freq).heap :=
  addLeaves_ordered allBytes (t := (freshTree freq).withTreeOf (leavesOf freq)) (fun _ hk => absurd hk (Nat.not_lt_zero _))
    (fun _ hi => absurd hi List.not_mem_nil) (addLeaves_leavesOf (freshTree freq)).1

/-- The weights of the leaves sum to all counts of the table (R163). -/
theorem leavesOf_heapWeight : heapWeight (leavesOf freq).arena (leavesOf freq).heap = tableSum freq := by
  have hlen := length_presentSymbols freq
  have hperm := leavesOf_heap freq
  rw [← length_leavesOf_arena] at hperm
  calc _ = heapWeight (leavesOf freq).arena (indicesFrom 0 (leavesOf freq).arena.length) := heapWeight_perm hperm
    _ = ((leavesOf freq).arena.map fun node => node.weight.toNat).sum :=
      congrArg List.sum (map_indicesFrom_zero _ (fun node => node.weight.toNat) (by rw [length_leavesOf_arena]; omega))
    _ = tableSum freq := by
      rw [leavesOf_arena, List.map_map, ← sum_presentSymbols]
      congr 1

theorem leavesOf_heapWeight_lt : heapWeight (leavesOf freq).arena (leavesOf freq).heap < 2 ^ 64 := by
  rw [leavesOf_heapWeight]
  exact (tableSum_lt freq).trans (by decide)

end

section
variable {freq : Vector Word 256} {s : State}

/-- The leaves are ready for one pass less than there are leaves (R163). -/
theorem leavesOf_ready (hne : presentSymbols freq ≠ []) :
    MergesReady ((presentSymbols freq).length - 1) (leavesOf freq) := by
  have hpos := List.length_pos_iff.2 hne
  have hlen := length_presentSymbols freq
  refine ⟨?_, ?_, fun hn => ⟨?_, ?_, ?_, leavesOf_inside freq, leavesOf_heapWeight_lt freq⟩⟩ <;>
    simp only [length_leavesOf_arena, length_leavesOf_heap] <;> omega

theorem mergedOf_ready (hne : presentSymbols freq ≠ []) : MergesReady 0 (mergedOf freq) :=
  (leavesOf_ready hne).passes

/-- The merge loop turns the leaves into the tree and returns its root (R160). -/
theorem mergeLoop_leavesOf (hne : presentSymbols freq ≠ []) (u : State) :
    mergeLoop (presentSymbols freq).length (u.withTreeOf (leavesOf freq)) =
      .ok (slot (mergedOf freq).heap 0) { u.withTreeOf (mergedOf freq) with heap := [] } := by
  have hlen : (presentSymbols freq).length - 1 + 1 = (presentSymbols freq).length :=
    Nat.sub_add_cancel (List.length_pos_iff.2 hne)
  rw [← hlen, mergeLoop_passes ((leavesOf_ready hne).withTreeOf (u := u)), mergePasses_withTreeOf]
  exact heapExtract_last ((mergedOf_ready hne).withTreeOf (u := u))

/-- TREE_BUILD makes the tree of the table, whatever else the machine holds (R165). -/
theorem treeBuild_mergedOf (hne : presentSymbols s.freq ≠ []) {v : Word} {t : State} (h : treeBuild s = .ok v t) :
    t.arena = (mergedOf s.freq).arena ∧ t.root = slot (mergedOf s.freq).heap 0 := by
  have hleaves : addLeaves allBytes { s with arena := [], heap := [], lutValid := false } = _ :=
    (addLeaves_leavesOf { s with lutValid := false }).1
  have hsome : (leavesOf s.freq).heap.length ≠ 0 := by
    rw [length_leavesOf_heap]
    exact (List.length_pos_iff.2 hne).ne'
  have hmerge := mergeLoop_leavesOf hne { s with lutValid := false, nLeaf := BitVec.ofNat 9 (leavesOf s.freq).arena.length }
  rw [← length_leavesOf_heap] at hmerge
  rw [treeBuild, hleaves, Run.ok_andThen] at h
  obtain ⟨_, _, hrun, hend⟩ := Run.andThen_eq_ok.1 ((if_neg hsome).symm.trans h)
  obtain ⟨rfl, rfl⟩ := Run.ok_eq_ok.1 (hmerge.symm.trans hrun)
  obtain ⟨-, rfl⟩ := Run.ok_eq_ok.1 hend
  exact ⟨rfl, rfl⟩

/-- From an empty arena and heap the single commands make the same tree (R160). -/
theorem leavesAndMergesByCommands {u : State} (hne : presentSymbols u.freq ≠ []) (r : Word) :
    (afterwards (leavesByCommands (presentSymbols u.freq) ((u.withTreeOf (freshTree u.freq)).returning r)) fun s2 =>
      afterwards (mergesByCommands ((presentSymbols u.freq).length - 1) s2) (exec .heapExtract)) =
      .next (({ u.withTreeOf (mergedOf u.freq) with heap := [] }).returning ((slot (mergedOf u.freq).heap 0).setWidth 32)) := by
  have hlen := length_presentSymbols u.freq
  obtain ⟨r', hleaves⟩ := leavesByCommands_passes (s := u.withTreeOf (freshTree u.freq)) (r := r) (presentSymbols u.freq)
    (by show 0 + _ ≤ 511; omega) (by show 0 + _ ≤ 256; omega)
  rw [leafPasses_withTreeOf (u := u) (m := freshTree u.freq) _ rfl] at hleaves
  obtain ⟨r'', hmerges⟩ := mergesByCommands_passes (r := r') ((leavesOf_ready hne).withTreeOf (u := u))
  rw [mergePasses_withTreeOf] at hmerges
  rw [hleaves, afterwards_next]
  refine (congrArg (afterwards · _) hmerges).trans ?_
  exact execHeapExtract_last ((mergedOf_ready hne).withTreeOf (u := u))

/-- The single commands make the same tree (R160). -/
theorem buildByCommands_mergedOf (hne : presentSymbols s.freq ≠ []) : buildByCommands s =
    .next { s with
      arena := (mergedOf s.freq).arena, heap := [], tree := .none, root := 0#9,
      result := (slot (mergedOf s.freq).heap 0).setWidth 32, pending := none, done := true } :=
  leavesAndMergesByCommands (u := { s with tree := .none, root := 0#9 }) hne s.result

theorem mergedOf_childrenDiffer (hne : presentSymbols freq ≠ []) :
    ChildrenDiffer (presentSymbols freq).length (mergedOf freq).arena := by
  have hnone : ChildrenDiffer (presentSymbols freq).length (leavesOf freq).arena := fun k node hk hnode => by
    rw [List.getElem?_eq_none (by simpa using hk)] at hnode
    cases hnode
  exact ((leavesOf_ready hne).passes_induct ⟨leavesOf_heap_nodup freq, hnone⟩ fun _ => mergePass_childrenDiffer).2

theorem mergedOf_weightsRise (hne : presentSymbols freq ≠ []) :
    WeightsRise (presentSymbols freq).length (mergedOf freq).arena := by
  have hlen := length_presentSymbols freq
  have hrise := (mergeLoop_rises _ (s := leavesOf freq) (y := 0)
    (by rw [length_leavesOf_arena, length_leavesOf_heap]; omega) (by rwa [length_leavesOf_heap]) (leavesOf_inside freq)
    (leavesOf_heapWeight_lt freq) (leavesOf_ordered freq) (fun _ _ => Nat.zero_le _)
    (mergeLoop_leavesOf hne (leavesOf freq))).2.1
  rwa [length_leavesOf_arena] at hrise

/-- The tree's layout (R164): the leaves, then the joins, the last of which is the root. -/
theorem mergedOf_layout (hne : presentSymbols freq ≠ []) :
    ∃ more, (mergedOf freq).arena = (presentSymbols freq).map (leafNode freq) ++ more ∧
      more.length = (presentSymbols freq).length - 1 ∧
      slot (mergedOf freq).heap 0 = BitVec.ofNat 9 (2 * (presentSymbols freq).length - 2) ∧
      ∀ n node, (presentSymbols freq).length ≤ n → (mergedOf freq).arena[n]? = some node →
        JoinedAt (mergedOf freq).arena n node := by
  obtain ⟨t, codes, more, hrun, ht, hmore, hroot, -, -, hjoined⟩ := treeBuild_spec (s := freshTree freq) hne
  obtain ⟨harena, hslot⟩ := treeBuild_mergedOf (s := freshTree freq) hne hrun
  rw [harena] at hjoined
  refine ⟨more, ?_, hmore, hslot.symm.trans hroot, hjoined⟩
  exact harena.symm.trans (congrArg State.arena ht)

/-- EVERYTHING TREE_BUILD writes on a table with a nonzero counter is a function of the table (R160, R165). -/
theorem exec_treeBuild_of_present (hne : presentSymbols s.freq ≠ []) : exec .treeBuild s =
    .next { s with
      arena := (mergedOf s.freq).arena, heap := [], tree := .valid, root := slot (mergedOf s.freq).heap 0,
      nLeaf := BitVec.ofNat 9 (presentSymbols s.freq).length, total := BitVec.ofNat 64 (tableSum s.freq), lutValid := false,
      result := BitVec.ofNat 32 (presentSymbols s.freq).length, pending := none, done := true } := by
  obtain ⟨t, codes, more, hrun, ht, -⟩ := treeBuild_spec hne
  obtain ⟨harena, hslot⟩ := treeBuild_mergedOf hne hrun
  have hbuilt : (presentSymbols s.freq).map (leafNode s.freq) ++ more = (mergedOf s.freq).arena :=
    (congrArg State.arena ht).symm.trans harena
  rw [exec_treeBuild_of_ok hrun, ht, hbuilt, hslot]
  rfl

end

/-- Settles O34: TREE_BUILD makes the tree of the table, and every other value it writes is a function of the table too. -/
theorem treeBuildDependsOnFreqAlone : Obligations.TreeBuildDependsOnFreqAlone := by
  intro s s' t hfreq hrun
  by_cases hne : presentSymbols s.freq = []
  · obtain rfl := Host.Outcome.next.inj ((exec_treeBuild_of_absent hne).symm.trans hrun)
    exact ⟨_, exec_treeBuild_of_absent (hfreq ▸ hne), rfl, rfl, rfl, rfl, rfl, rfl, rfl⟩
  · obtain rfl := Host.Outcome.next.inj ((exec_treeBuild_of_present hne).symm.trans hrun)
    refine ⟨_, exec_treeBuild_of_present (hfreq ▸ hne), ?_⟩
    rw [hfreq]
    exact ⟨rfl, rfl, rfl, rfl, rfl, rfl, rfl⟩

/-- Settles O32: TREE_BUILD and the single commands both make the tree of the table, whose nodes are the leaves and then the joins
of two different entries of an ordered heap, the lighter of them on the left. -/
theorem treeBuildLayout : Obligations.TreeBuildLayout := by
  intro s hne
  obtain ⟨more, harena, hmore, hroot, hjoined⟩ := mergedOf_layout hne
  have hpos := List.length_pos_iff.2 hne
  have hcommands := buildByCommands_mergedOf hne
  refine ⟨_, exec_treeBuild_of_present hne, rfl, rfl, rfl, ?_, hroot, ?_, ?_, fun n node hn hnode => ?_, hcommands, rfl⟩
  · show (mergedOf s.freq).arena.length = 2 * (presentSymbols s.freq).length - 1
    rw [harena, List.length_append, List.length_map, hmore]
    omega
  · have hsum := tableSum_lt s.freq
    exact (BitVec.toNat_ofNat ..).trans (Nat.mod_eq_of_lt (by omega))
  · show (mergedOf s.freq).arena.take _ = _
    rw [harena, List.take_left' (List.length_map _)]
    rfl
  · obtain ⟨hleaf, hsym, hleft, hright, hweight⟩ := hjoined n node hn hnode
    obtain ⟨hlighter, hrise⟩ := mergedOf_weightsRise hne n node hn hnode
    exact ⟨hleaf, hsym, hleft, hright, mergedOf_childrenDiffer hne n node hn hnode, hweight, hlighter, hrise⟩

end Sys2Proof.Machine
end

section
/-! SUPPORT. The state a successful CODE_GEN completes in (R170, R171), why CODE_GEN's walk ends on an arena in shape (R52), and the
obligations about the code table. -/

namespace Sys2Proof.Machine

/-! ## The completed CODE_GEN (R170, R236) -/

/-- The machine that a CODE_GEN which found the leaves and codes `codes` completes in. -/
def State.recorded (s : State) (codes : List (Byte × List Bool)) : State :=
  { writeCodes codes s.clearLut with lutValid := true, result := BitVec.ofNat 32 (longest codes) }.finish

section
variable {s : State} {codes : List (Byte × List Bool)} {b : Byte}

/-- Recording codes writes only the code table, LUT_VALID, RESULT and what completion writes. -/
theorem State.recorded_frame (s : State) (codes : List (Byte × List Bool)) : s.recorded codes =
    { s with
      lutLen := (s.recorded codes).lutLen, lutCode := (s.recorded codes).lutCode, lutValid := true,
      result := BitVec.ofNat 32 (longest codes), pending := none, done := true } := by
  rw [State.recorded, writeCodes_frame]
  rfl

theorem State.recorded_nLeaf (s : State) (codes : List (Byte × List Bool)) : (s.recorded codes).nLeaf = s.nLeaf := by
  rw [State.recorded_frame]

theorem State.recorded_decodesTo (s : State) (codes : List (Byte × List Bool)) (path : List Bool) :
    (s.recorded codes).decodesTo path = s.decodesTo path := by
  rw [State.recorded_frame]
  rfl

theorem exec_codeGen (s : State) : exec .codeGen s = completeWith (codeGen s) := rfl

theorem exec_codeGen_of_none (h : s.tree = .none) : exec .codeGen s = .next (s.takeError .noTree 0#32) := by
  rw [exec_codeGen, codeGen, h]
  rfl

theorem exec_codeGen_of_empty (h : s.tree = .empty) : exec .codeGen s = .next (s.recorded []) := by
  rw [exec_codeGen, codeGen, h]
  rfl

theorem exec_codeGen_of_treeCodes (hv : s.tree = .valid) (h : treeCodes s = some codes) :
    exec .codeGen s = .next (s.recorded codes) := by
  rw [exec_codeGen, codeGen, hv]
  simp only [h]
  rfl

/-! ## What the table holds then (R46) -/

/-- LUT_LEN is the length of the code. -/
theorem State.length_codeOf (s : State) (b : Byte) : (s.codeOf b).length = (tableGet s.lutLen b).toNat := length_codeBitsOf _ _

/-- No bit of a code store is set past the path. -/
theorem codeStore_getLsbD_of_le {path : List Bool} {j : Nat} (h : path.length ≤ j) : (codeStore path).getLsbD j = false := by
  by_cases hj : j < 256
  · rw [codeStore_getLsbD path hj, List.getD_eq_default _ _ h]
  · exact BitVec.getLsbD_of_ge _ _ (Nat.le_of_not_lt hj)

/-- A symbol that is not among the codes has an empty entry. -/
theorem recorded_other (h : b ∉ codes.map Prod.fst) :
    tableGet (s.recorded codes).lutLen b = 0#8 ∧ tableGet (s.recorded codes).lutCode b = 0#256 := by
  obtain ⟨hlen, hcode⟩ := writeCodes_other s.clearLut h
  exact ⟨hlen.trans (tableGet_replicate _ _), hcode.trans (tableGet_replicate _ _)⟩

/-- RESULT is the length of the longest code (R170). -/
theorem result_recorded_toNat (hbits : ∀ c ∈ codes, 0 < c.2.length ∧ c.2.length ≤ 255) :
    (s.recorded codes).result.toNat = longest codes := by
  have hle : longest codes ≤ 255 := by
    by_cases hnil : codes = []
    · rw [hnil]
      exact Nat.zero_le _
    · obtain ⟨c, hc, hlen⟩ := (longest_spec codes).2 hnil
      exact hlen ▸ (hbits c hc).2
  exact (BitVec.toNat_ofNat ..).trans (Nat.mod_eq_of_lt (by omega))

end

section
variable {s : State} {codes : List (Byte × List Bool)} {b : Byte} (hn : (codes.map Prod.fst).Nodup)
  (hbits : ∀ c ∈ codes, 0 < c.2.length ∧ c.2.length ≤ 255)
include hn hbits

theorem codeOf_recorded_mem {c : Byte × List Bool} (hc : c ∈ codes) : (s.recorded codes).codeOf c.1 = c.2 :=
  codeOf_writeCodes_mem hn hc (hbits c hc).2

theorem codeOf_recorded_iff : (b, (s.recorded codes).codeOf b) ∈ codes ↔ (s.recorded codes).codeOf b ≠ [] :=
  codeOf_writeCodes_iff hn hbits

/-- Exactly the symbols among the codes have a code. -/
theorem codeOf_recorded_ne_nil_iff : (s.recorded codes).codeOf b ≠ [] ↔ b ∈ codes.map Prod.fst := by
  rw [← codeOf_recorded_iff hn hbits]
  refine ⟨fun h => List.mem_map.2 ⟨_, h, rfl⟩, fun h => ?_⟩
  obtain ⟨c, hc, rfl⟩ := List.mem_map.1 h
  rwa [codeOf_recorded_mem hn hbits hc]

/-- A bound on the length of the codes is a bound on LUT_LEN. -/
theorem lutLen_recorded_le {n : Nat} (h : ∀ c ∈ codes, c.2.length ≤ n) : (tableGet (s.recorded codes).lutLen b).toNat ≤ n := by
  rw [← State.length_codeOf]
  by_cases hnone : (s.recorded codes).codeOf b = []
  · rw [hnone]
    exact Nat.zero_le n
  · exact h _ ((codeOf_recorded_iff hn hbits).2 hnone)

/-- No bit of LUT_CODE is set past LUT_LEN (R46). -/
theorem lutCode_recorded_getLsbD {j : Nat} (hj : (tableGet (s.recorded codes).lutLen b).toNat ≤ j) :
    (tableGet (s.recorded codes).lutCode b).getLsbD j = false := by
  by_cases hb : b ∈ codes.map Prod.fst
  · obtain ⟨c, hc, rfl⟩ := List.mem_map.1 hb
    have hstore : tableGet (s.recorded codes).lutCode c.1 = codeStore c.2 := (writeCodes_mem s.clearLut hn hc).2
    rw [← State.length_codeOf, codeOf_recorded_mem hn hbits hc] at hj
    rw [hstore]
    exact codeStore_getLsbD_of_le hj
  · rw [(recorded_other hb).2]
    exact BitVec.getLsbD_zero

end

/-! ## The codes of a tree -/

/-- From the bits of a recorded code DEC_SYM decodes its symbol (R170, R171, R202). -/
theorem decodesTo_of_mem_effectiveCodes {s : State} {codes : List (Byte × List Bool)} (hc : HasCodes s.arena s.root codes)
    {c : Byte × List Bool} (h : c ∈ effectiveCodes s codes) : s.decodesTo c.2 = some c.1 := by
  unfold effectiveCodes at h
  unfold State.decodesTo
  split at h
  · rename_i hleaf
    rw [List.mem_singleton.1 h, if_pos hleaf]
    rfl
  · rename_i hnode
    rw [if_neg hnode]
    exact hc.symbolAt_eq h

/-- TREE_BUILD then CODE_GEN: one code for each counted symbol, which is 1 to 255 bits long, leads to the symbol's leaf and, with
two or more leaves, is shorter than their number (R170 to R172). An all-zero table has no codes. -/
theorem recorded_of_built {s t u : State} (htree : exec .treeBuild s = .next t) (hcode : exec .codeGen t = .next u) :
    ∃ codes, u = t.recorded codes ∧ (codes.map Prod.fst).Perm (presentSymbols s.freq) ∧
      (∀ c ∈ codes, 0 < c.2.length ∧ c.2.length ≤ 255) ∧ (∀ c ∈ codes, t.decodesTo c.2 = some c.1) ∧
      (2 ≤ t.nLeaf.toNat → ∀ c ∈ codes, c.2.length ≤ t.nLeaf.toNat - 1) := by
  by_cases hne : presentSymbols s.freq = []
  · have hempty : t.tree = .empty := by
      rw [← Host.Outcome.next.inj ((exec_treeBuild_of_absent hne).symm.trans htree)]
    have hu := Host.Outcome.next.inj ((exec_codeGen_of_empty hempty).symm.trans hcode)
    exact ⟨[], hu.symm, by simp [hne], nofun, nofun, fun _ => nofun⟩
  · obtain ⟨t', hrun, hvalid, hleaves, -, harena, -⟩ := treeBuildLayout s hne
    obtain rfl := Host.Outcome.next.inj (hrun.symm.trans htree)
    obtain ⟨codes, hcodes, hperm, -⟩ := codes_of_built hne htree hcode
    have hle := length_presentSymbols s.freq
    have hlen : codes.length = (presentSymbols s.freq).length := by simpa using hperm.length_eq
    have hnum : t'.nLeaf.toNat = codes.length := by
      rw [hleaves, BitVec.toNat_ofNat, hlen]
      exact Nat.mod_eq_of_lt (by omega)
    have hgen := exec_codeGen_of_ok (codeGen_spec hvalid hcodes (by omega))
    obtain ⟨hsyms, hbits⟩ := effectiveCodes_spec hcodes (by omega)
    refine ⟨effectiveCodes t' codes, (Host.Outcome.next.inj (hgen.symm.trans hcode)).symm, hsyms ▸ hperm, hbits,
      fun c => decodesTo_of_mem_effectiveCodes hcodes, fun htwo c hc => ?_⟩
    rw [effectiveCodes_of_two hcodes (hnum ▸ htwo)] at hc
    have hlt := hcodes.length_lt c hc
    omega

/-- Settles O37: the table holds the codes of the tree's leaves, one for each counted symbol, and nothing else. -/
theorem codesLeadToTheirLeaves : Obligations.CodesLeadToTheirLeaves := by
  intro s t u htree hcode
  obtain ⟨codes, rfl, hperm, hbits, hleaf, hshort⟩ := recorded_of_built htree hcode
  have hn : (codes.map Prod.fst).Nodup := hperm.nodup_iff.2 (nodup_presentSymbols s.freq)
  rw [result_recorded_toNat hbits, State.recorded_nLeaf]
  obtain ⟨hlongest, hattained⟩ := longest_spec codes
  refine ⟨rfl, fun b => ⟨?_, fun hb => ?_, fun j hj => lutCode_recorded_getLsbD hn hbits hj, lutLen_recorded_le hn hbits hlongest,
    fun htwo => lutLen_recorded_le hn hbits (hshort htwo)⟩, fun hne => ?_⟩
  · rw [codeOf_recorded_ne_nil_iff hn hbits, hperm.mem_iff, mem_presentSymbols]
  · rw [State.recorded_decodesTo]
    exact hleaf _ ((codeOf_recorded_iff hn hbits).2 hb)
  · obtain ⟨c, hc, hlen⟩ := hattained fun hnil => hne (by simpa [hnil] using hperm)
    refine ⟨c.1, ?_⟩
    rw [← State.length_codeOf, codeOf_recorded_mem hn hbits hc, hlen]

/-! ## CODE_GEN on a lone root (R171) -/

/-- A lone root's symbol has the code "0", and no other symbol has one. -/
theorem codeOf_recorded_zero (s : State) (sym b : Byte) :
    (s.recorded [(sym, [false])]).codeOf b = if b = sym then [false] else [] := by
  split
  · rename_i hb
    rw [hb]
    exact codeOf_writeCodes_mem (by simp) (List.mem_singleton_self _) (by simp)
  · rename_i hb
    exact codeOf_writeCodes_other (by simpa using hb)

/-- The code "0" sets no bit of the table. -/
theorem lutCode_recorded_zero (s : State) (sym b : Byte) : tableGet (s.recorded [(sym, [false])]).lutCode b = 0#256 := by
  by_cases hb : b = sym
  · have hstore : tableGet (s.recorded [(sym, [false])]).lutCode sym = codeStore [false] :=
      (writeCodes_mem s.clearLut (by simp) (List.mem_singleton_self _)).2
    rw [hb, hstore]
    rfl
  · exact (recorded_other (by simpa using hb)).2

/-- Settles O35: without a tree CODE_GEN takes the error; an empty tree records no code, a lone root the code "0". -/
theorem codeGenWithoutInternalNodes : Obligations.CodeGenWithoutInternalNodes := by
  refine fun s => ⟨exec_codeGen_of_none, exec_codeGen_of_empty, fun hv hleaf => ?_⟩
  have hlone : treeCodes s = some [((nodeAt s.arena s.root).sym, [false])] := if_pos hleaf
  exact ⟨_, exec_codeGen_of_treeCodes hv hlone, rfl, codeOf_recorded_zero s _, lutCode_recorded_zero s _, State.recorded_frame s _⟩

/-! ## The walk ends (R52, R170) -/

/-- The children of an internal node of an arena in shape stand below it (R52). -/
theorem ArenaOk.children_lt {arena : List Node} (h : ArenaOk arena) {n : NodeIdx} (hn : n.toNat < arena.length)
    (hnode : (nodeAt arena n).leaf = false) : (nodeAt arena n).l.toNat < n.toNat ∧ (nodeAt arena n).r.toNat < n.toNat := by
  have hshape : Node.ShapeOk n.toNat (nodeAt arena n) := h n.toNat hn
  rw [Node.ShapeOk, hnode] at hshape
  exact hshape.2

/-- Every step of the walk goes to a smaller index, so the walk from node `n` is at most `n` steps deep. -/
theorem ArenaOk.walk_ends {arena : List Node} (h : ArenaOk arena) {fuel : Nat} {n : NodeIdx} (hn : n.toNat < arena.length)
    (hfuel : n.toNat ≤ fuel) (path : List Bool) : ∃ codes, walk arena fuel n path = some codes := by
  induction fuel generalizing n path with
  | zero =>
    unfold walk
    split
    · exact ⟨_, rfl⟩
    · rename_i hnode
      have hlt := (h.children_lt hn (Bool.eq_false_iff.2 hnode)).1
      omega
  | succ fuel ih =>
    unfold walk
    split
    · exact ⟨_, rfl⟩
    · rename_i hnode
      obtain ⟨hl, hr⟩ := h.children_lt hn (Bool.eq_false_iff.2 hnode)
      obtain ⟨left, hleft⟩ := ih (hl.trans hn) (by omega) (path ++ [false])
      obtain ⟨right, hright⟩ := ih (hr.trans hn) (by omega) (path ++ [true])
      simp only [hleft, hright]
      exact ⟨_, rfl⟩

/-- CODE_GEN on a built tree finds some codes and records them (R170). -/
theorem exec_codeGen_recorded {s : State} (harena : ArenaOk s.arena) (htree : s.TreeOk) (hne : s.tree ≠ .none) :
    ∃ codes, exec .codeGen s = .next (s.recorded codes) := by
  cases hs : s.tree with
  | none => exact absurd hs hne
  | empty => exact ⟨[], exec_codeGen_of_empty hs⟩
  | valid =>
    have hroot := htree.1 hs
    obtain ⟨codes, hcodes⟩ : ∃ codes, treeCodes s = some codes := by
      unfold treeCodes
      split
      · exact ⟨_, rfl⟩
      · exact harena.walk_ends hroot hroot.le []
    exact ⟨codes, exec_codeGen_of_treeCodes hs hcodes⟩

/-- Settles O36: CODE_GEN on a built tree records codes, which writes only the code table, LUT_VALID and RESULT. -/
theorem codeGenWritesOnlyTheCodeTable : Obligations.CodeGenWritesOnlyTheCodeTable := by
  intro s hbounded hne
  have hsound := State.sound_false_iff.2 hbounded
  obtain ⟨codes, hrun⟩ := exec_codeGen_recorded hsound.shapes hsound.tree hne
  exact ⟨_, hrun, State.recorded_frame s codes⟩

end Sys2Proof.Machine
end

section
/-! SUPPORT. BW_FINALIZE (R184, R185), BR_GET (R187, R188) and a DEC_SYM that finds a symbol (R202), each by the run it comes to. -/

namespace Sys2Proof.Machine

section
variable {s t : State}

/-! ## One byte to OUT (R75) -/

/-- OUT_POS below OUT_CAP does not wrap when it moves on. -/
theorem toNat_outPos_succ (h : s.outPos.toNat < s.outCap.toNat) : (s.outPos + 1#32).toNat = s.outPos.toNat + 1 := by
  have hcap := s.outCap.isLt
  rw [BitVec.toNat_add, BitVec.toNat_ofNat]
  omega

/-- What OUT holds where one byte was written. -/
theorem outByte_write_same {p : Nat} {b : Byte} (hmem : t.outMem = s.outMem.write p b) : t.outByte p = b :=
  outByte_writeBlock_inside (k := 0) hmem rfl

/-- What OUT holds at every other address is what it held. -/
theorem outByte_write_other {p a : Nat} {b : Byte} (hmem : t.outMem = s.outMem.write p b) (hepoch : t.epoch = s.epoch)
    (ha : a ≠ p) : t.outByte a = s.outByte a :=
  outByte_writeBlock_outside hmem hepoch (Nat.lt_or_gt_of_ne ha)

theorem checkRoom_one_ok (h : s.outPos.toNat < s.outCap.toNat) : checkRoom 1 s = .ok () s :=
  checkRoom_eq_ok.2 ⟨Nat.sub_pos_of_lt h, rfl⟩

theorem checkRoom_one_err (h : s.outCap.toNat ≤ s.outPos.toNat) : checkRoom 1 s = .err .sinkFull 1#32 s :=
  checkRoom_eq_err.2 ⟨by rw [State.room, Nat.sub_eq_zero_of_le h]; exact Nat.one_pos, rfl, rfl, rfl⟩

theorem memWriteOut_ok (h : s.outPos.toNat < s.outCap.toNat) (b : Byte) :
    memWriteOut b s = .ok () { s with outMem := s.outMem.write s.outPos.toNat b, outPos := s.outPos + 1#32 } :=
  memWriteOut_eq_ok.2 ⟨h, rfl⟩

/-! ## BW_FINALIZE (R184) -/

theorem bwFinalize_none_pending (h : s.bwCnt = 0) : bwFinalize s = .ok 0#32 s := if_pos h

/-- With bits pending and room for a byte, the buffer goes out as it is and the BitWriter is empty. -/
theorem bwFinalize_flush (hbits : s.bwCnt ≠ 0) (hroom : s.outPos.toNat < s.outCap.toNat) :
    bwFinalize s = .ok (BitVec.ofNat 32 (8 - s.bwCnt)) { s with
      outMem := s.outMem.write s.outPos.toNat s.bwBuf, outPos := s.outPos + 1#32, bwBuf := 0#8, bwCnt := 0 } := by
  rw [bwFinalize, if_neg hbits, checkRoom_one_ok hroom, Run.ok_andThen, memWriteOut_ok hroom, Run.ok_andThen]

theorem bwFinalize_sinkFull (hbits : s.bwCnt ≠ 0) (hfull : s.outCap.toNat ≤ s.outPos.toNat) :
    bwFinalize s = .err .sinkFull 1#32 s := by
  rw [bwFinalize, if_neg hbits, checkRoom_one_err hfull, Run.err_andThen]

/-! ## BR_GET (R188) -/

theorem bitResult_some (b : Bool) : bitResult (some b) = if b then 1#32 else 0#32 := by cases b <;> rfl

/-- BR_GET returns what GetBit delivers and completes in the state GetBit leaves. -/
theorem exec_brGet_of_getBit {r : Option Bool} (h : getBit s = .ok r t) :
    exec .brGet s = .next { t with result := bitResult r }.finish := by
  rw [exec, execBrGet, h, Run.ok_andThen, completeWith]

/-! ## DEC_SYM (R202) -/

/-- EVERYTHING the way to a leaf does when the reader's bits start with those of a symbol: it ends at a leaf of that symbol, takes
exactly those bits, fetches the fewest bytes that hold them, and changes only IN_POS and the BitReader. -/
theorem reachLeaf_spec {path : List Bool} {sym : Byte} (hsize : s.inLen.toNat ≤ s.inSize.toNat)
    (hprefix : path.IsPrefix s.readerBits) (hsym : s.decodesTo path = some sym) :
    ∃ n t, reachLeaf s = .ok (some n) t ∧ (nodeAt s.arena n).sym = sym ∧ t.readerBits = s.readerBits.drop path.length ∧
      t.inPos.toNat = s.inPos.toNat + (path.length - s.brCnt + 7) / 8 ∧
      t = { s with inPos := t.inPos, brBuf := t.brBuf, brCnt := t.brCnt } := by
  unfold State.decodesTo at hsym
  unfold reachLeaf
  by_cases hleaf : (nodeAt s.arena s.root).leaf = true
  · rw [if_pos hleaf, Option.ite_none_right_eq_some, Option.some.injEq] at hsym
    obtain ⟨hone, hsym⟩ := hsym
    rw [if_pos hleaf, hone]
    obtain ⟨hnone, -⟩ | ⟨b, rest, t, hbits, hget, hrest, hframe⟩ := getBit_readerBits hsize
    · rw [hnone, List.prefix_nil] at hprefix
      simp [hprefix] at hone
    · have hroot : t.root = s.root := by rw [hframe]
      have hpos := getBit_inPos hget 0
      exact ⟨s.root, t, by rw [hget, Run.ok_andThen, hroot]; rfl, hsym, by rw [hrest, hbits]; rfl, by omega, hframe⟩
  · rw [if_neg hleaf] at hsym ⊢
    have hfuel : path.length ≤ s.bitsLeft := length_readerBits s ▸ hprefix.length_le
    exact descend_spec hsize hfuel hprefix hsym

/-- A leaf's symbol goes to OUT and is counted. -/
theorem emitLeaf_ok (h : s.outPos.toNat < s.outCap.toNat) (n : NodeIdx) :
    emitLeaf n s = .ok ((nodeAt s.arena n).sym.setWidth 32) { s with
      outMem := s.outMem.write s.outPos.toNat (nodeAt s.arena n).sym, outPos := s.outPos + 1#32, symCnt := s.symCnt + 1#64 } := by
  rw [emitLeaf, memWriteOut_ok h, Run.ok_andThen, State.countSymbol]

/-- With a tree and room in OUT, DEC_SYM emits the leaf it reaches. -/
theorem decSym_of_reachLeaf {n : NodeIdx} (htree : s.tree = .valid) (hroom : s.outPos.toNat < s.outCap.toNat)
    (hleaf : reachLeaf s = .ok (some n) t) : decSym s = emitLeaf n t := by
  rw [decSym, if_neg (not_not.2 htree), checkRoom_one_ok hroom, Run.ok_andThen, hleaf, Run.ok_andThen]

end

/-! ## The obligations about bit input and output -/

/-- Settles O40: pending bits and room select one of BW_FINALIZE's three runs; the pad bits are the buffer's unwritten bits, which
`BitsOk` has as 0 (R55). -/
theorem bwFinalizeFlushesAPartialByte : Obligations.BwFinalizeFlushesAPartialByte := by
  refine fun s => ⟨fun hnone => congrArg completeWith (bwFinalize_none_pending hnone), fun hok hbits hroom => ?_,
    fun hbits hfull => congrArg completeWith (bwFinalize_sinkFull hbits hfull)⟩
  refine ⟨_, congrArg completeWith (bwFinalize_flush hbits hroom), toNat_outPos_succ hroom, outByte_write_same (s := s) rfl,
    fun i hi => ?_, fun a ha => outByte_write_other rfl rfl ha, rfl⟩
  obtain ⟨-, -, hpad⟩ := hok
  have hlt : i < 8 - s.bwCnt := hi.trans_le (Nat.mod_le _ _)
  exact (congrArg (BitVec.getLsbD · i) (outByte_write_same (s := s) rfl)).trans (hpad i hlt)

/-- Settles O41: BR_GET returns GetBit's value in each of its three cases: end of source, a byte fetched, a bit buffered. -/
theorem brGetDeliversTheNextBit : Obligations.BrGetDeliversTheNextBit := by
  refine fun s => ⟨fun hcnt heos => exec_brGet_of_getBit (getBit_eos hcnt heos), fun hcnt hlt hsize => ?_, fun hcnt => ?_⟩
  · rw [exec_brGet_of_getBit (getBit_fetch hcnt hlt hsize), bitResult_some]
    rfl
  · rw [exec_brGet_of_getBit (getBit_buffered hcnt), bitResult_some]
    rfl

/-- Settles O45: DEC_SYM reaches a leaf of the symbol by the path's bits alone, then writes the symbol at OUT_POS. -/
theorem decSymDecodesOneSymbol : Obligations.DecSymDecodesOneSymbol := by
  intro s path sym htree hroom hsize hprefix hsym
  obtain ⟨n, m, hreach, rfl, hbits, hpos, hframe⟩ := reachLeaf_spec hsize hprefix hsym
  have hroom' : m.outPos.toNat < m.outCap.toNat := by
    rw [hframe]
    exact hroom
  have hrun : decSym s = _ := (decSym_of_reachLeaf htree hroom hreach).trans (emitLeaf_ok hroom' n)
  have hmem : m.outMem.write m.outPos.toNat (nodeAt m.arena n).sym = s.outMem.write s.outPos.toNat (nodeAt s.arena n).sym := by
    rw [hframe]
  have hepoch : m.epoch = s.epoch := by rw [hframe]
  refine ⟨_, congrArg completeWith hrun, hbits, hpos, outByte_write_same hmem, fun a ha => outByte_write_other hmem hepoch ha, ?_⟩
  rw [hframe]
  rfl

end Sys2Proof.Machine
end

section
/-! SUPPORT. The per-symbol steps of the coder (R199 to R202): the three checks of a code, what sending a code leaves, and the
obligations about ENC_SYM, ENC_NEXT and the errors of DEC_SYM. -/

namespace Sys2Proof.Machine

section
variable {s m t : State} {b : Byte}

/-! ## The checks of a code (R200, R233) -/

theorem checkCode_noLut (hlut : s.lutValid = false) : checkCode b s = .err .noLut 0#32 s := if_pos hlut

theorem checkCode_noCode (hlut : s.lutValid = true) (hlen : tableGet s.lutLen b = 0#8) :
    checkCode b s = .err .noCode (b.setWidth 32) s := by
  rw [checkCode, if_neg (by simp [hlut]), if_pos hlen]

/-- For a symbol with a code the room is left to check. -/
theorem checkCode_of_coded (hlut : s.lutValid = true) (hlen : tableGet s.lutLen b ≠ 0#8) :
    checkCode b s = checkRoom (s.bytesCompleted (tableGet s.lutLen b).toNat) s := by
  rw [checkCode, if_neg (by simp [hlut]), if_neg hlen]

theorem checkCode_sinkFull (hlut : s.lutValid = true) (hlen : tableGet s.lutLen b ≠ 0#8)
    (hfull : s.room < s.bytesCompleted (tableGet s.lutLen b).toNat) :
    checkCode b s = .err .sinkFull (BitVec.ofNat 32 (s.bytesCompleted (tableGet s.lutLen b).toNat)) s := by
  rw [checkCode_of_coded hlut hlen]
  exact checkRoom_eq_err.2 ⟨hfull, rfl, rfl, rfl⟩

theorem checkCode_pass (hlut : s.lutValid = true) (hlen : tableGet s.lutLen b ≠ 0#8)
    (hroom : s.outPos.toNat + s.bytesCompleted (tableGet s.lutLen b).toNat ≤ s.outCap.toNat) : checkCode b s = .ok () s := by
  rw [checkCode_of_coded hlut hlen]
  exact checkRoom_eq_ok.2 ⟨by unfold State.room; omega, rfl⟩

/-! ## A code sent (R199) -/

/-- From `s` to `t` the code of `b` was sent and the symbol counted; IN_POS came to `pos`, and nothing else changed. -/
structure Emitted (s : State) (b : Byte) (pos : Word) (t : State) : Prop where
  sent : Sent s t (s.codeOf b)
  bitsOk : t.BitsOk
  frame : t = { s with
    outMem := t.outMem, outPos := t.outPos, bwBuf := t.bwBuf, bwCnt := t.bwCnt, symCnt := s.symCnt + 1#64, inPos := pos }

/-- With room for the bytes it completes, a symbol's code is sent; the value is the code's length (R199, R200). -/
theorem emitSymbol_emitted (hbits : s.BitsOk) (pos : Word)
    (hroom : s.outPos.toNat + s.bytesCompleted (tableGet s.lutLen b).toNat ≤ s.outCap.toNat) :
    ∃ t, emitSymbol b { s with inPos := pos } = .ok ((tableGet s.lutLen b).setWidth 32) t ∧ Emitted s b pos t := by
  obtain ⟨m, hput⟩ := putBits_ok (s := { s with inPos := pos }) (bits := s.codeOf b) hbits
    (by rw [State.length_codeOf]; exact hroom)
  have hsent : Sent s m (s.codeOf b) := putBits_sent (s := { s with inPos := pos }) hbits hput
  have hbits' : m.BitsOk := putBits_bitsOk (s := { s with inPos := pos }) hbits hput
  have hframe := putBits_frame hput
  have hlen : m.lutLen = s.lutLen := by rw [hframe]
  refine ⟨m.countSymbol, ?_, hsent, hbits', ?_⟩
  · have hemit : emitCode b { s with inPos := pos } = .ok () m := hput
    rw [emitSymbol, hemit, Run.ok_andThen, hlen]
  · rw [State.countSymbol, hframe]

/-- While a byte is left, ENC_NEXT checks and emits the byte at IN_POS (R201). -/
theorem encNext_of_input (hlt : s.inPos.toNat < s.inLen.toNat) (hsize : s.inLen.toNat ≤ s.inSize.toNat) :
    encNext s = (checkCode (s.inByte s.inPos.toNat) s).andThen fun _ m =>
      emitSymbol (s.inByte s.inPos.toNat) { m with inPos := m.inPos + 1#32 } := by
  have hread : memReadIn s = .ok (s.inByte s.inPos.toNat) s := memReadIn_eq_ok.2 ⟨hlt.trans_le hsize, rfl, rfl⟩
  rw [encNext, if_neg (BitVec.not_le.2 hlt), hread, Run.ok_andThen]

theorem encNext_inEos (hend : s.inLen.toNat ≤ s.inPos.toNat) : encNext s = .err .inEos s.inPos s := if_pos hend

/-- ENC_NEXT with a code for the byte at IN_POS and room for it sends that code (R201). -/
theorem encNext_emitted (hbits : s.BitsOk) (hlt : s.inPos.toNat < s.inLen.toNat) (hsize : s.inLen.toNat ≤ s.inSize.toNat)
    (hlut : s.lutValid = true) (hlen : tableGet s.lutLen (s.inByte s.inPos.toNat) ≠ 0#8)
    (hroom : s.outPos.toNat + s.bytesCompleted (tableGet s.lutLen (s.inByte s.inPos.toNat)).toNat ≤ s.outCap.toNat) :
    ∃ t, encNext s = .ok ((tableGet s.lutLen (s.inByte s.inPos.toNat)).setWidth 32) t ∧
      Emitted s (s.inByte s.inPos.toNat) (s.inPos + 1#32) t := by
  obtain ⟨t, hemit, ht⟩ := emitSymbol_emitted hbits (s.inPos + 1#32) hroom
  exact ⟨t, by rw [encNext_of_input hlt hsize, checkCode_pass hlut hlen hroom, Run.ok_andThen, hemit], ht⟩

/-- ENC_NEXT with a code for the byte at IN_POS and no room for it changes nothing (R201, R233). -/
theorem encNext_sinkFull (hlt : s.inPos.toNat < s.inLen.toNat) (hsize : s.inLen.toNat ≤ s.inSize.toNat) (hlut : s.lutValid = true)
    (hlen : tableGet s.lutLen (s.inByte s.inPos.toNat) ≠ 0#8)
    (hfull : s.room < s.bytesCompleted (tableGet s.lutLen (s.inByte s.inPos.toNat)).toNat) : encNext s =
      .err .sinkFull (BitVec.ofNat 32 (s.bytesCompleted (tableGet s.lutLen (s.inByte s.inPos.toNat)).toNat)) s := by
  rw [encNext_of_input hlt hsize, checkCode_sinkFull hlut hlen hfull, Run.err_andThen]

/-! ## DEC_SYM without a symbol (R202) -/

/-- When no beginning of the reader's bits decodes to a symbol, the way to a leaf finds end-of-source. -/
theorem reachLeaf_none (hsize : s.inLen.toNat ≤ s.inSize.toNat)
    (hnone : ∀ path, path.IsPrefix s.readerBits → s.decodesTo path = none) : ∃ t, reachLeaf s = .ok none t := by
  unfold reachLeaf
  by_cases hleaf : (nodeAt s.arena s.root).leaf = true
  · rw [if_pos hleaf]
    obtain ⟨-, hget⟩ | ⟨c, rest, t, hbits, -⟩ := getBit_readerBits hsize
    · exact ⟨s, by rw [hget, Run.ok_andThen]; rfl⟩
    · have hone := hnone [c] ⟨rest, hbits.symm⟩
      rw [State.decodesTo, if_pos hleaf] at hone
      cases hone
  · rw [if_neg hleaf]
    refine descend_none hsize fun path hpath => ?_
    have hpathNone := hnone path hpath
    rwa [State.decodesTo, if_neg hleaf] at hpathNone

theorem decSym_noTree (htree : s.tree ≠ .valid) : decSym s = .err .noTree 0#32 s := if_pos htree

theorem decSym_sinkFull (htree : s.tree = .valid) (hfull : s.outCap.toNat ≤ s.outPos.toNat) :
    decSym s = .err .sinkFull 1#32 s := by
  rw [decSym, if_neg (not_not.2 htree), checkRoom_one_err hfull, Run.err_andThen]

/-- At end-of-source DEC_SYM keeps the state it began in. -/
theorem decSym_payloadTrunc (htree : s.tree = .valid) (hroom : s.outPos.toNat < s.outCap.toNat)
    (hend : reachLeaf s = .ok none t) : decSym s = .err .payloadTrunc (s.symCnt.setWidth 32) s := by
  rw [decSym, if_neg (not_not.2 htree), checkRoom_one_ok hroom, Run.ok_andThen, hend, Run.ok_andThen]

end

/-! ## The obligations about the per-symbol steps -/

/-- Settles O42: the three checks pass, and the code is sent from where the command began. -/
theorem encSymSendsTheCode : Obligations.EncSymSendsTheCode := by
  intro s sym hbits hlut hlen hroom
  obtain ⟨t, hemit, ht⟩ := emitSymbol_emitted hbits s.inPos hroom
  have hrun : ((checkCode sym s).andThen fun _ m => emitSymbol sym m) = emitSymbol sym s := by
    rw [checkCode_pass hlut hlen hroom, Run.ok_andThen]
  refine ⟨_, congrArg completeWith (hrun.trans hemit), ht.sent, ?_⟩
  rw [State.finish, ht.frame]

/-- Settles O43: as ENC_SYM, for the byte at IN_POS, which IN_POS then leaves behind. -/
theorem encNextSendsTheNextByte : Obligations.EncNextSendsTheNextByte := by
  intro s hbits hlt hsize hlut sym hlen hroom
  obtain ⟨t, hrun, ht⟩ := encNext_emitted hbits hlt hsize hlut hlen hroom
  refine ⟨_, congrArg completeWith hrun, ht.sent, ?_⟩
  rw [State.finish, ht.frame]

/-- An error of the checks is the command's: ENC_SYM and ENC_NEXT take it in the state they began in. -/
theorem exec_of_checkCode_err {s : State} {i : Instr} {sym : Byte} {k : ErrKind} {info : Word}
    (hi : i = .encSym sym ∨
      i = .encNext ∧ s.inPos.toNat < s.inLen.toNat ∧ s.inLen.toNat ≤ s.inSize.toNat ∧ sym = s.inByte s.inPos.toNat)
    (hcheck : checkCode sym s = .err k info s) : exec i s = .next (s.takeError k info) := by
  obtain rfl | ⟨rfl, hlt, hsize, rfl⟩ := hi
  · rw [exec, execEncSym, hcheck, Run.err_andThen, completeWith]
  · rw [exec, execEncNext, encNext_of_input hlt hsize, hcheck, Run.err_andThen, completeWith]

/-- Settles O44: the end of the input is checked first, then come the three checks of a code. -/
theorem encodingErrorsInOrder : Obligations.EncodingErrorsInOrder := fun _ _ _ hi =>
  ⟨fun hlut => exec_of_checkCode_err hi (checkCode_noLut hlut),
    fun hlut hlen => exec_of_checkCode_err hi (checkCode_noCode hlut hlen),
    fun hlut hlen hfull => exec_of_checkCode_err hi (checkCode_sinkFull hlut hlen hfull),
    fun hend => congrArg completeWith (encNext_inEos hend)⟩

/-- Settles O46: the tree is checked, then the room, and last the way to a leaf, whose end-of-source gives back the state the
command began in. -/
theorem decSymErrorsChangeNothing : Obligations.DecSymErrorsChangeNothing := by
  refine fun s => ⟨fun htree => congrArg completeWith (decSym_noTree htree),
    fun htree hfull => congrArg completeWith (decSym_sinkFull htree hfull), fun htree hroom hsize hnone => ?_⟩
  obtain ⟨t, hend⟩ := reachLeaf_none hsize hnone
  exact congrArg completeWith (decSym_payloadTrunc htree hroom hend)

end Sys2Proof.Machine
end

section
/-! SUPPORT. The tree and the code table of a frequency table: TREE_BUILD and then CODE_GEN leave the same ones in every machine
that holds the table (R165, R170). -/

namespace Sys2Proof.Machine

/-! ## CODE_GEN reads the tree alone (R170) -/

/-- What is recorded depends on the codes and on the table they are recorded in. -/
theorem writeCodes_congr (codes : List (Byte × List Bool)) {s s' : State} (hlen : s'.lutLen = s.lutLen)
    (hcode : s'.lutCode = s.lutCode) :
    (writeCodes codes s').lutLen = (writeCodes codes s).lutLen ∧
      (writeCodes codes s').lutCode = (writeCodes codes s).lutCode := by
  induction codes generalizing s s' with
  | nil => exact ⟨hlen, hcode⟩
  | cons c codes ih => exact ih (by simp only [State.writeCode, hlen]) (by simp only [State.writeCode, hcode])

/-- The machine `m` with the tree of `w` over its arena, as TREE_BUILD leaves it: the heap empty and the code table stale. -/
def State.withTree (m w : State) : State :=
  { m with
    arena := w.arena, heap := [], tree := w.tree, root := w.root, nLeaf := w.nLeaf, total := w.total, lutValid := false }

/-- The machine `m` with the code table of `w`, valid. -/
def State.withCode (m w : State) : State := { m with lutLen := w.lutLen, lutCode := w.lutCode, lutValid := true }

section
variable {freq : Vector Word 256} {u v w m : State}

/-- Over the tree of `v` CODE_GEN makes the code table that it makes in `v`. -/
theorem codeGen_withTree {r : Word} (h : codeGen v = .ok r w) : codeGen (m.withTree v) = .ok r ((m.withTree v).withCode w) := by
  have hcodes : treeCodes (m.withTree v) = treeCodes v := rfl
  unfold codeGen at h ⊢
  rw [show (m.withTree v).tree = v.tree from rfl]
  cases htree : v.tree with
  | none =>
    rw [htree] at h
    cases h
  | empty =>
    rw [htree] at h
    cases h
    rfl
  | valid =>
    rw [htree] at h
    simp only [hcodes] at h ⊢
    cases hv : treeCodes v with
    | none =>
      rw [hv] at h
      cases h
    | some codes =>
      rw [hv] at h
      cases h
      obtain ⟨hlen, hcode⟩ := writeCodes_congr codes (s := v.clearLut) (s' := (m.withTree v).clearLut) rfl rfl
      simp only [State.withCode]
      rw [writeCodes_frame, hlen, hcode]
      rfl

/-- TREE_BUILD makes the tree of the table, whatever else the machine holds (R165). -/
theorem treeBuild_of_exec (hfreq : u.freq = m.freq) (h : exec .treeBuild u = .next v) :
    ∃ r, treeBuild m = .ok r (m.withTree v) := by
  obtain ⟨r, t, hrun, hframe⟩ := treeBuild_frame m
  obtain ⟨t', hexec, harena, -, htree, hroot, hleaves, htotal, -⟩ := treeBuildDependsOnFreqAlone u m v hfreq h
  obtain rfl := Host.Outcome.next.inj ((exec_treeBuild_of_ok hrun).symm.trans hexec)
  refine ⟨r, hrun.trans ?_⟩
  rw [State.withTree, ← harena, ← htree, ← hroot, ← hleaves, ← htotal]
  exact congrArg (Run.ok r) hframe

/-- TREE_BUILD completes with a tree, whose TOTAL is the sum of the counts, or with TREE = EMPTY when all are 0 (R160, R162). -/
theorem exec_treeBuild_total (h : exec .treeBuild u = .next v) :
    v.total.toNat = tableSum u.freq ∧ (v.tree = .valid ∨ v.tree = .empty ∧ tableSum u.freq = 0) := by
  by_cases hne : presentSymbols u.freq = []
  · have hsum : tableSum u.freq = 0 := by rw [← sum_presentSymbols, hne]; rfl
    obtain rfl := Host.Outcome.next.inj ((exec_treeBuild_of_absent hne).symm.trans h)
    exact ⟨hsum.symm, .inr ⟨rfl, hsum⟩⟩
  · obtain ⟨t, hrun, hvalid, -, -, -, -, htotal, -⟩ := treeBuildLayout u hne
    obtain rfl := Host.Outcome.next.inj (hrun.symm.trans h)
    exact ⟨htotal, .inl hvalid⟩

/-- CODE_GEN after TREE_BUILD succeeds; it sets the code table, and completion writes RESULT. -/
theorem codeGen_of_built (htree : exec .treeBuild u = .next v) (hcode : exec .codeGen v = .next w) :
    ∃ r, codeGen v = .ok r (v.withCode w) ∧ w = { v.withCode w with result := r }.finish := by
  have hbuilt : v.tree ≠ .none := by
    obtain ⟨-, hv | ⟨hv, -⟩⟩ := exec_treeBuild_total htree <;> rw [hv] <;> decide
  obtain ⟨r, t, hrun, rfl⟩ | ⟨k, info, t, hrun, -⟩ := completeWith_eq_next.1 hcode
  · have hframe := (codeGen_ends v).of_ok hrun
    rw [codeGen_lutValid hrun] at hframe
    have ht : t = v.withCode { t with result := r }.finish := hframe
    rw [← ht]
    exact ⟨r, hrun, rfl⟩
  · have hreports := codeGen_reports (ks := []) fun hnone => absurd hnone hbuilt
    rw [hrun, Run.err_reports] at hreports
    exact absurd hreports List.not_mem_nil

/-! ## The tables of the counts -/

/-- `w` is the machine that TREE_BUILD and then CODE_GEN come to from some machine with the counts `freq`. -/
def CodedFrom (freq : Vector Word 256) (w : State) : Prop :=
  ∃ u v, u.freq = freq ∧ exec .treeBuild u = .next v ∧ exec .codeGen v = .next w

/-- TREE_BUILD leaves the tree of `w` in every machine with the counts. -/
theorem CodedFrom.treeBuild_eq (h : CodedFrom m.freq w) : ∃ r, treeBuild m = .ok r (m.withTree w) := by
  obtain ⟨u, v, hfreq, htree, hcode⟩ := h
  obtain ⟨r, -, hw⟩ := codeGen_of_built htree hcode
  have hsame : m.withTree w = m.withTree v := by rw [hw]; rfl
  rw [hsame]
  exact treeBuild_of_exec hfreq htree

/-- Over the tree of `w` CODE_GEN makes the code table of `w`. -/
theorem CodedFrom.codeGen_eq (h : CodedFrom freq w) (m : State) :
    ∃ r, codeGen (m.withTree w) = .ok r ((m.withTree w).withCode w) := by
  obtain ⟨u, v, -, htree, hcode⟩ := h
  obtain ⟨r, hrun, hw⟩ := codeGen_of_built htree hcode
  have hsame : m.withTree w = m.withTree v := by rw [hw]; rfl
  rw [hsame]
  exact ⟨r, codeGen_withTree (w := v.withCode w) hrun⟩

theorem CodedFrom.total (h : CodedFrom freq w) :
    w.total.toNat = tableSum freq ∧ (w.tree = .valid ∨ w.tree = .empty ∧ tableSum freq = 0) := by
  obtain ⟨u, v, rfl, htree, hcode⟩ := h
  obtain ⟨r, -, hw⟩ := codeGen_of_built htree hcode
  have hsame : w.total = v.total ∧ w.tree = v.tree := by rw [hw]; exact ⟨rfl, rfl⟩
  rw [hsame.1, hsame.2]
  exact exec_treeBuild_total htree

/-- Exactly the counted symbols have a code. -/
theorem CodedFrom.codeOf_ne_nil_iff (h : CodedFrom freq w) (b : Byte) : w.codeOf b ≠ [] ↔ tableGet freq b ≠ 0#32 := by
  obtain ⟨u, v, rfl, htree, hcode⟩ := h
  obtain ⟨-, hcodes, -⟩ := codesLeadToTheirLeaves u v w htree hcode
  exact (hcodes b).1

/-- A code leads to its symbol's leaf. -/
theorem CodedFrom.decodesTo_codeOf (h : CodedFrom freq w) {b : Byte} (hb : w.codeOf b ≠ []) :
    w.decodesTo (w.codeOf b) = some b := by
  obtain ⟨u, v, rfl, htree, hcode⟩ := h
  obtain ⟨-, hcodes, -⟩ := codesLeadToTheirLeaves u v w htree hcode
  exact (hcodes b).2.1 hb

end

end Sys2Proof.Machine
end

section
/-! SUPPORT. DECODE (R204): what its loop leaves when the payload starts with the codes of the symbols counted, and the obligations
about whole files decoded. -/

namespace Sys2Proof.Machine

section
variable {s m t : State} {bits : List Bool} {msg : List Byte}

/-! ## Symbols decoded (R202) -/

/-- From `s` to `t` the symbols `msg` were decoded from exactly the reader's next `bits`: the fewest bytes that hold those bits were
fetched, the symbols stand in OUT from OUT_POS on and are counted, and nothing else changed. -/
structure Decoded (s : State) (bits : List Bool) (msg : List Byte) (t : State) : Prop where
  readerBits : t.readerBits = s.readerBits.drop bits.length
  inPos : t.inPos.toNat = s.inPos.toNat + (bits.length - s.brCnt + 7) / 8
  stored (i : Nat) (x : Byte) (hx : msg[i]? = some x) : t.outByte (s.outPos.toNat + i) = x
  kept (a : Nat) (ha : a < s.outPos.toNat ∨ s.outPos.toNat + msg.length ≤ a) : t.outByte a = s.outByte a
  frame : t = { s with
    inPos := t.inPos, brBuf := t.brBuf, brCnt := t.brCnt, outMem := t.outMem,
    outPos := s.outPos + BitVec.ofNat 32 msg.length, symCnt := s.symCnt + BitVec.ofNat 64 msg.length }

theorem Decoded.nil (s : State) : Decoded s [] [] s where
  readerBits := rfl
  inPos := by simp
  stored _ _ hx := by cases hx
  kept _ _ := rfl
  frame := by simp

/-- One symbol, then others. -/
theorem Decoded.cons {path : List Bool} {sym : Byte} (h1 : Decoded s path [sym] m) (h2 : Decoded m bits msg t)
    (hprefix : (path ++ bits).IsPrefix s.readerBits) (hroom : s.outPos.toNat < s.outCap.toNat) :
    Decoded s (path ++ bits) (sym :: msg) t := by
  have hframe := h1.frame
  have hlen : m.inLen = s.inLen := by rw [hframe]
  have hpos : m.outPos.toNat = s.outPos.toNat + 1 := by
    rw [hframe]
    exact toNat_outPos_succ hroom
  constructor
  case readerBits => rw [h2.readerBits, h1.readerBits, List.drop_drop, List.length_append]
  case inPos =>
    have hleft := congrArg List.length h1.readerBits
    have hfits := hprefix.length_le
    have hmid := h1.inPos
    rw [List.length_drop, length_readerBits, length_readerBits] at hleft
    rw [length_readerBits] at hfits
    unfold State.bitsLeft State.avail at hleft hfits
    rw [hlen] at hleft
    rw [List.length_append] at hfits ⊢
    rw [h2.inPos]
    omega
  case stored =>
    intro i x hx
    cases i with
    | zero =>
      have hbefore := h2.kept s.outPos.toNat (.inl (by omega))
      exact hbefore.trans (h1.stored 0 x hx)
    | succ i =>
      have hlater := h2.stored i x hx
      rwa [hpos, Nat.add_assoc, Nat.add_comm 1] at hlater
  case kept =>
    intro a ha
    rw [List.length_cons] at ha
    rw [h2.kept a (by omega), h1.kept a (by rw [List.length_singleton]; omega)]
  case frame =>
    have hout : s.outPos + BitVec.ofNat 32 (sym :: msg).length = s.outPos + BitVec.ofNat 32 1 + BitVec.ofNat 32 msg.length := by
      rw [BitVec.add_assoc, ← BitVec.ofNat_add, List.length_cons, Nat.add_comm]
    have hcnt : s.symCnt + BitVec.ofNat 64 (sym :: msg).length = s.symCnt + BitVec.ofNat 64 1 + BitVec.ofNat 64 msg.length := by
      rw [BitVec.add_assoc, ← BitVec.ofNat_add, List.length_cons, Nat.add_comm]
    have ht := h2.frame
    rw [hframe] at ht
    rw [hout, hcnt]
    exact ht

/-- Decoding keeps the tree, and with it what bits decode to. -/
theorem Decoded.decodesTo (h : Decoded s bits msg t) (path : List Bool) : t.decodesTo path = s.decodesTo path := by
  rw [h.frame]
  rfl

/-- DEC_SYM decodes the symbol that the reader's bits start with (R202). -/
theorem decSym_decoded {path : List Bool} {sym : Byte} (htree : s.tree = .valid) (hroom : s.outPos.toNat < s.outCap.toNat)
    (hsize : s.inLen.toNat ≤ s.inSize.toNat) (hprefix : path.IsPrefix s.readerBits) (hsym : s.decodesTo path = some sym) :
    ∃ r t, decSym s = .ok r t ∧ Decoded s path [sym] t := by
  obtain ⟨n, m, hreach, rfl, hbits, hpos, hframe⟩ := reachLeaf_spec hsize hprefix hsym
  have hroom' : m.outPos.toNat < m.outCap.toNat := by
    rw [hframe]
    exact hroom
  have hmem : m.outMem.write m.outPos.toNat (nodeAt m.arena n).sym = s.outMem.write s.outPos.toNat (nodeAt s.arena n).sym := by
    rw [hframe]
  have hepoch : m.epoch = s.epoch := by rw [hframe]
  refine ⟨_, _, (decSym_of_reachLeaf htree hroom hreach).trans (emitLeaf_ok hroom' n), hbits, hpos, fun i x hx => ?_,
    fun a ha => ?_, ?_⟩
  · obtain ⟨rfl, rfl⟩ : i = 0 ∧ (nodeAt s.arena n).sym = x := by
      cases i with
      | zero => exact ⟨rfl, Option.some.inj hx⟩
      | succ i => cases hx
    exact outByte_write_same hmem
  · exact outByte_write_other hmem hepoch (by rw [List.length_singleton] at ha; omega)
  · rw [hframe]
    rfl

/-! ## The loop of DECODE (R204) -/

theorem decodeLoop_end (fuel : Nat) (hend : s.total.toNat ≤ s.symCnt.toNat) : decodeLoop fuel s = .ok () s := by
  cases fuel with
  | zero => rfl
  | succ fuel => exact if_neg (BitVec.not_lt.2 hend)

/-- The loop decodes as many symbols as TOTAL asks for, when the reader's bits start with their codes. -/
theorem decodeLoop_decoded {fuel : Nat} (code : Byte → List Bool) (htree : s.tree = .valid)
    (hsize : s.inLen.toNat ≤ s.inSize.toNat) (htotal : s.total.toNat = s.symCnt.toNat + msg.length) (hfuel : msg.length ≤ fuel)
    (hroom : s.outPos.toNat + msg.length ≤ s.outCap.toNat) (hcode : ∀ b ∈ msg, s.decodesTo (code b) = some b)
    (hprefix : (msg.flatMap code).IsPrefix s.readerBits) :
    ∃ t, decodeLoop fuel s = .ok () t ∧ Decoded s (msg.flatMap code) msg t := by
  induction msg generalizing s fuel with
  | nil => exact ⟨s, decodeLoop_end fuel htotal.le, .nil s⟩
  | cons b msg ih =>
    rw [List.length_cons] at htotal hfuel hroom
    rw [List.flatMap_cons] at hprefix ⊢
    obtain ⟨fuel, rfl⟩ : ∃ k, fuel = k + 1 := ⟨fuel - 1, by omega⟩
    have hlt : s.symCnt < s.total := BitVec.lt_def.2 (by omega)
    have hroom1 : s.outPos.toNat < s.outCap.toNat := by omega
    obtain ⟨r, m, hstep, hm⟩ := decSym_decoded htree hroom1 hsize ((List.prefix_append _ _).trans hprefix)
      (hcode b List.mem_cons_self)
    have hframe := hm.frame
    have htree' : m.tree = .valid := by rw [hframe]; exact htree
    have hsize' : m.inLen.toNat ≤ m.inSize.toNat := by rw [hframe]; exact hsize
    have htotal' : m.total.toNat = m.symCnt.toNat + msg.length := by
      have hbound := s.total.isLt
      have hcnt : (s.symCnt + 1#64).toNat = s.symCnt.toNat + 1 := by
        rw [BitVec.toNat_add, BitVec.toNat_ofNat]
        omega
      rw [hframe]
      show s.total.toNat = (s.symCnt + 1#64).toNat + msg.length
      omega
    have hroom' : m.outPos.toNat + msg.length ≤ m.outCap.toNat := by
      rw [hframe]
      show (s.outPos + 1#32).toNat + msg.length ≤ s.outCap.toNat
      rw [toNat_outPos_succ hroom1]
      omega
    have hcode' : ∀ c ∈ msg, m.decodesTo (code c) = some c := fun c hc => by
      rw [hm.decodesTo]
      exact hcode c (List.mem_cons_of_mem b hc)
    have hrest : (msg.flatMap code).IsPrefix m.readerBits := by
      have hdrop := hprefix.drop (code b).length
      rwa [List.drop_left, ← hm.readerBits] at hdrop
    obtain ⟨t, hloop, ht⟩ := ih (fuel := fuel) htree' hsize' htotal' (by omega) hroom' hcode' hrest
    exact ⟨t, by rw [decodeLoop, if_pos hlt, hstep, Run.ok_andThen, hloop], hm.cons ht hprefix hroom1⟩

/-! ## The header read and the tree built (R204) -/

/-- DECODE after its FREQ_HDR_RD: everything at its start, the table of the header in FREQ, and IN_POS at the payload. -/
def State.headerRead (s : State) : State :=
  { s.startDecode with freq := headerTable s.inByte, inPos := 1024#32 }.invalidateDerived

theorem freqHdrRd_startDecode (hsize : s.inLen.toNat ≤ s.inSize.toNat) (hlen : 1024 ≤ s.inLen.toNat) :
    freqHdrRd s.startDecode = .ok () s.headerRead := by
  have htable : (headerTable fun k => s.inByte (0 + k)) = headerTable s.inByte := headerTable_congr fun a _ => by rw [Nat.zero_add]
  rw [freqHdrRd_ok (s := s.startDecode) hsize (by simpa using hlen), State.headerRead, ← htable]
  rfl

/-- The bits of the payload: those the reader has before it after the header. -/
theorem readerBits_payload (hpos : s.inPos = 1024#32) (hcnt : s.brCnt = 0) :
    s.readerBits = (List.range (s.inLen.toNat - 1024)).flatMap fun i => byteBits (s.inByte (1024 + i)) := by
  rw [State.readerBits, hcnt, State.inBytes, State.avail, hpos, List.range_zero, List.map_nil, List.nil_append, List.flatMap_map]
  rfl

/-- DECODE of a file whose payload starts with the codes of as many symbols as its header counts decodes those symbols, from the
machine with the header read and the tree of its counts built. -/
theorem decodeFile_decoded {w : State} (hsize : s.inLen.toNat ≤ s.inSize.toNat) (hlen : 1024 ≤ s.inLen.toNat)
    (hw : CodedFrom (headerTable s.inByte) w) (hmsg : msg.length = tableSum (headerTable s.inByte))
    (hroom : msg.length ≤ s.outCap.toNat) (hcoded : ∀ b ∈ msg, w.codeOf b ≠ [])
    (hprefix : (msg.flatMap w.codeOf).IsPrefix
      ((List.range (s.inLen.toNat - 1024)).flatMap fun i => byteBits (s.inByte (1024 + i)))) :
    ∃ t, decodeFile s = .ok (BitVec.ofNat 32 msg.length) t ∧
      Decoded (s.headerRead.withTree w) (msg.flatMap w.codeOf) msg t := by
  obtain ⟨r, hbuild⟩ := CodedFrom.treeBuild_eq (m := s.headerRead) hw
  obtain ⟨htotal, htree⟩ := hw.total
  have hstart : decodeFile s = if (s.headerRead.withTree w).tree = .empty then .ok 0#32 (s.headerRead.withTree w) else
      (decodeLoop ((s.headerRead.withTree w).total - (s.headerRead.withTree w).symCnt).toNat (s.headerRead.withTree w)).andThen
        fun _ t => .ok t.outPos t := by
    rw [decodeFile, freqHdrRd_startDecode hsize hlen, Run.ok_andThen, hbuild]
    rfl
  have hfuel : ((s.headerRead.withTree w).total - (s.headerRead.withTree w).symCnt).toNat = msg.length := by
    rw [hmsg, ← htotal]
    exact congrArg BitVec.toNat (BitVec.sub_zero w.total)
  rw [hstart, hfuel]
  obtain hvalid | ⟨hempty, hzero⟩ := htree
  · obtain ⟨t, hloop, ht⟩ := decodeLoop_decoded (s := s.headerRead.withTree w) (fuel := msg.length) w.codeOf hvalid hsize
      (by rw [hmsg, ← htotal]; exact (Nat.zero_add _).symm) (Nat.le_refl _) ((Nat.zero_add _).trans_le hroom)
      (fun b hb => hw.decodesTo_codeOf (hcoded b hb)) (by rw [readerBits_payload rfl rfl]; exact hprefix)
    have hpos : t.outPos = BitVec.ofNat 32 msg.length := by
      rw [ht.frame]
      exact BitVec.zero_add _
    refine ⟨t, ?_, ht⟩
    rw [if_neg (by rw [show (s.headerRead.withTree w).tree = _ from hvalid]; decide), hloop, Run.ok_andThen, hpos]
  · obtain rfl : msg = [] := List.eq_nil_of_length_eq_zero (hmsg.trans hzero)
    exact ⟨_, if_pos hempty, .nil _⟩

end

/-! ## The obligations about files decoded -/

/-- Settles O49: DECODE's loop decodes the symbols one by one, each from the bits of its code, over the tree of the header's
counts. -/
theorem decodeReadsTheCodesOfItsHeader : Obligations.DecodeReadsTheCodesOfItsHeader := by
  intro s v w msg hsize hlen htree hcode hmsg hroom hcoded hprefix
  have hfrom : CodedFrom (headerTable s.inByte) w := ⟨{ s with freq := headerTable s.inByte }, v, rfl, htree, hcode⟩
  obtain ⟨t, hrun, ht⟩ := decodeFile_decoded hsize hlen hfrom hmsg hroom hcoded hprefix
  obtain ⟨r, -, hw⟩ := codeGen_of_built htree hcode
  have hsame : s.headerRead.withTree w = s.headerRead.withTree v := by rw [hw]; rfl
  rw [hsame] at ht
  refine ⟨_, congrArg completeWith hrun, ht.inPos, fun i x hx => ?_, fun a ha => ht.kept a (.inr ?_), ?_⟩
  · have hstored := ht.stored i x hx
    rwa [show (s.headerRead.withTree v).outPos.toNat + i = i from Nat.zero_add i] at hstored
  · exact (Nat.zero_add _).trans_le ha
  · have hframe := ht.frame
    have hpos : (s.headerRead.withTree v).outPos = 0#32 := rfl
    have hcnt : (s.headerRead.withTree v).symCnt = 0#64 := rfl
    rw [hpos, hcnt, BitVec.zero_add, BitVec.zero_add] at hframe
    rw [State.finish, hframe]
    rfl

/-- The header of zeros counts nothing. -/
theorem headerTable_zero {byte : Nat → Byte} (h : ∀ a, a < 1024 → byte a = 0#8) :
    headerTable byte = Vector.replicate 256 0#32 := by
  apply table_ext
  intro b
  have hb := b.isLt
  rw [tableGet_headerTable, tableGet_replicate, h _ (by omega), h _ (by omega), h _ (by omega), h _ (by omega)]
  rfl

/-- Settles O51: the length check decides between the error and the header read; from counts of 0 the tree is empty, which ends
DECODE before its loop. -/
theorem decodeOfEmptyAndTruncatedHeaders : Obligations.DecodeOfEmptyAndTruncatedHeaders := by
  refine fun s hsize => ⟨fun hlen hzero => ?_, fun hshort => ?_⟩
  · have htable := headerTable_zero hzero
    have hnone : presentSymbols s.headerRead.freq = [] := by
      refine List.eq_nil_iff_forall_not_mem.2 fun b hb => mem_presentSymbols.1 hb ?_
      rw [show s.headerRead.freq = headerTable s.inByte from rfl, htable]
      exact tableGet_replicate _ _
    rw [exec, execDecode, decodeFile, freqHdrRd_startDecode hsize hlen, Run.ok_andThen, treeBuild_empty hnone, State.headerRead,
      htable]
    rfl
  · have herr : freqHdrRd s.startDecode = .err .hdrTrunc s.inLen s.startDecode := by
      rw [freqHdrRd_err (by simpa using hshort)]
      simp
    rw [exec, execDecode, decodeFile, herr]
    rfl

end Sys2Proof.Machine
end

section
/-! SUPPORT. ENCODE (R203): the counts of the input, what its loop sends, the byte BW_FINALIZE adds, and the file they make. -/

namespace Sys2Proof.Machine

/-! ## Bits as bytes, and the sums over the input -/

/-- Bit `j` of byte `i` of a stream, MSB first (R73, R74). -/
theorem streamByte_getLsbD (bits : List Bool) (i : Nat) {j : Nat} (hj : j < 8) :
    (streamByte bits i).getLsbD (7 - j) = bits.getD (8 * i + j) false := by
  rw [streamByte, byteOf_getLsbD _ (by omega), show 7 - (7 - j) = j by omega, List.getD_eq_getElem?_getD,
    List.getElem?_take_of_lt hj, List.getElem?_drop, List.getD_eq_getElem?_getD]

/-- The last byte of a stream that ends inside it (R55, R73). -/
theorem streamByte_last (bits : List Bool) : streamByte bits (bits.length / 8) = byteOf (bits.drop (8 * (bits.length / 8))) := by
  rw [streamByte, List.take_of_length_le (by rw [List.length_drop]; omega)]

/-- The table `freq` counts the bytes of `input`. -/
def Counts (input : List Byte) (freq : Vector Word 256) : Prop := ∀ b, (tableGet freq b).toNat = input.count b

/-- A sum over the table, weighted by the counts, is the sum over the counted bytes. -/
theorem Counts.sum_map {input : List Byte} {freq : Vector Word 256} (h : Counts input freq) (f : Byte → Nat) :
    (allBytes.map fun b => (tableGet freq b).toNat * f b).sum = (input.map f).sum := by
  have hall : input.toFinset ⊆ allBytes.toFinset := fun b _ => List.mem_toFinset.2 (mem_allBytes b)
  calc (allBytes.map fun b => (tableGet freq b).toNat * f b).sum
      = ∑ b ∈ allBytes.toFinset, (tableGet freq b).toNat * f b := (List.sum_toFinset _ nodup_allBytes).symm
    _ = ∑ b ∈ allBytes.toFinset, input.count b • f b := Finset.sum_congr rfl fun b _ => by rw [h b, smul_eq_mul]
    _ = ∑ b ∈ input.toFinset, input.count b • f b := by
      refine (Finset.sum_subset hall fun b _ hb => ?_).symm
      rw [List.count_eq_zero_of_not_mem fun hmem => hb (List.mem_toFinset.2 hmem), zero_smul]
    _ = (input.map f).sum := (Finset.sum_list_map_count input f).symm

/-- The counts sum to the length of what is counted. -/
theorem Counts.tableSum_eq {input : List Byte} {freq : Vector Word 256} (h : Counts input freq) : tableSum freq = input.length := by
  have hsum := h.sum_map fun _ => 1
  simp only [Nat.mul_one, List.map_const', List.sum_replicate, smul_eq_mul] at hsum
  exact hsum

theorem Counts.ne_zero {input : List Byte} {freq : Vector Word 256} (h : Counts input freq) {b : Byte} (hb : b ∈ input) :
    tableGet freq b ≠ 0#32 := by
  intro hzero
  have hcount := List.count_pos_iff.2 hb
  rw [← h b, hzero] at hcount
  cases hcount

/-- Fewer than 2^32 bytes have a table of counts. -/
theorem exists_counts {input : List Byte} (hlen : input.length < 2 ^ 32) : ∃ freq, Counts input freq := by
  refine ⟨Vector.ofFn fun i => BitVec.ofNat 32 (input.count (BitVec.ofNat 8 i)), fun b => ?_⟩
  have hcount := (List.count_le_length (a := b) (l := input)).trans_lt hlen
  simpa [tableGet] using hcount

theorem length_input (s : State) : s.input.length = s.inLen.toNat := by simp [State.input]

section
variable {s m t : State} {bits : List Bool} {bs : List Byte}

/-! ## The loop of ENCODE (R203) -/

/-- From `s` to `t` the codes of the bytes `bs`, read from IN_POS on, were sent and counted. -/
structure EmittedAll (s : State) (bs : List Byte) (t : State) : Prop where
  sent : Sent s t (bs.flatMap s.codeOf)
  inPos : t.inPos.toNat = s.inPos.toNat + bs.length
  frame : t = { s with
    outMem := t.outMem, outPos := t.outPos, bwBuf := t.bwBuf, bwCnt := t.bwCnt, inPos := t.inPos,
    symCnt := s.symCnt + BitVec.ofNat 64 bs.length }

theorem Emitted.codeOf {b : Byte} {pos : Word} (h : Emitted s b pos m) : m.codeOf = s.codeOf := by
  rw [h.frame]
  rfl

/-- One code, then others. -/
theorem Emitted.cons {b : Byte} {pos : Word} (h1 : Emitted s b pos m) (h2 : EmittedAll m bs t)
    (hpos : pos.toNat = s.inPos.toNat + 1) : EmittedAll s (b :: bs) t where
  sent := by
    have hrest := h2.sent
    rw [h1.codeOf] at hrest
    exact h1.sent.trans hrest
  inPos := by
    have hmid : m.inPos = pos := by rw [h1.frame]
    rw [h2.inPos, hmid, hpos, List.length_cons]
    omega
  frame := by
    have hcnt : s.symCnt + BitVec.ofNat 64 (b :: bs).length = s.symCnt + 1#64 + BitVec.ofNat 64 bs.length := by
      rw [BitVec.add_assoc, ← BitVec.ofNat_add, List.length_cons, Nat.add_comm]
    have ht := h2.frame
    rw [h1.frame] at ht
    rw [hcnt]
    exact ht

/-- OUT_POS moves past the bytes the bits complete. -/
theorem Sent.outPos_eq (h : Sent s m bits) : m.outPos.toNat = s.outPos.toNat + s.bytesCompleted bits.length := by
  obtain ⟨hpos, -⟩ := h
  rwa [List.length_append, length_pendingBits] at hpos

/-- Where OUT_POS comes to stand does not depend on how a stream is cut. -/
theorem Sent.bytesCompleted (h : Sent s m bits) (n : Nat) :
    m.outPos.toNat + m.bytesCompleted n = s.outPos.toNat + s.bytesCompleted (bits.length + n) := by
  have hpos := h.outPos_eq
  obtain ⟨-, hcnt, -⟩ := h
  rw [List.length_append, length_pendingBits] at hcnt
  unfold State.bytesCompleted at hpos ⊢
  rw [hpos, hcnt]
  omega

theorem encodeLoop_end (fuel : Nat) (hend : s.inBytes = []) : encodeLoop fuel s = .ok () s := by
  cases fuel with
  | zero => rfl
  | succ fuel =>
    refine if_neg (BitVec.not_lt.2 ?_)
    have hleft := congrArg List.length hend
    rw [length_inBytes, State.avail] at hleft
    exact Nat.le_of_sub_eq_zero hleft

/-- A pass of the loop while a byte is left. -/
theorem encodeLoop_succ (hlt : s.inPos.toNat < s.inLen.toNat) (fuel : Nat) :
    encodeLoop (fuel + 1) s = (encNext s).andThen fun _ m => encodeLoop fuel m := if_pos (BitVec.lt_def.2 hlt)

/-- EVERYTHING the loop does when the bytes left have codes: with room for the bytes the codes complete it sends them all, and else
it ends in ERR_SINK_FULL. -/
theorem encodeLoop_spec {fuel : Nat} (hbits : s.BitsOk) (hsize : s.inLen.toNat ≤ s.inSize.toNat) (hlut : s.lutValid = true)
    (hin : s.inBytes = bs) (hcoded : ∀ b ∈ bs, tableGet s.lutLen b ≠ 0#8) (hfuel : bs.length ≤ fuel)
    (hpos : s.outPos.toNat ≤ s.outCap.toNat) :
    (s.outPos.toNat + s.bytesCompleted (bs.flatMap s.codeOf).length ≤ s.outCap.toNat →
      ∃ t, encodeLoop fuel s = .ok () t ∧ EmittedAll s bs t) ∧
    (s.outCap.toNat < s.outPos.toNat + s.bytesCompleted (bs.flatMap s.codeOf).length →
      ∃ info t, encodeLoop fuel s = .err .sinkFull info t) := by
  induction bs generalizing s fuel with
  | nil =>
    have hnone : s.bytesCompleted ([].flatMap s.codeOf).length = 0 := Nat.div_eq_of_lt (Nat.lt_succ_of_le hbits.1)
    rw [hnone]
    refine ⟨fun _ => ⟨s, encodeLoop_end fuel hin, Sent.nil hbits, rfl, by simp⟩, fun hfull => absurd hfull (by omega)⟩
  | cons b bs ih =>
    obtain ⟨hlt, rfl, hrest⟩ := inBytes_eq_cons hin
    obtain ⟨fuel, rfl⟩ : ∃ k, fuel = k + 1 := ⟨fuel - 1, by rw [List.length_cons] at hfuel; omega⟩
    have hlen := hcoded _ List.mem_cons_self
    rw [List.flatMap_cons, List.length_append, encodeLoop_succ hlt]
    by_cases hfirst : s.outPos.toNat + s.bytesCompleted (tableGet s.lutLen (s.inByte s.inPos.toNat)).toNat ≤ s.outCap.toNat
    · obtain ⟨m, hnext, hm⟩ := encNext_emitted hbits hlt hsize hlut hlen hfirst
      have hroom := hm.sent.bytesCompleted (bs.flatMap s.codeOf).length
      have hfits := hm.sent.outPos_eq
      rw [State.length_codeOf] at hfits
      have hframe := hm.frame
      have hcap : m.outCap = s.outCap := by rw [hframe]
      obtain ⟨hok, herr⟩ := ih (s := m) (fuel := fuel) hm.bitsOk (by rw [hframe]; exact hsize) (by rw [hframe]; exact hlut)
        (by rw [hframe]; exact hrest) (by rw [hframe]; exact fun c hc => hcoded c (List.mem_cons_of_mem _ hc))
        (Nat.le_of_succ_le_succ hfuel) (by rw [hcap, hfits]; exact hfirst)
      rw [hm.codeOf, hroom, hcap] at hok herr
      rw [hnext, Run.ok_andThen]
      refine ⟨fun h => ?_, herr⟩
      obtain ⟨t, hloop, ht⟩ := hok h
      exact ⟨t, hloop, hm.cons ht (toNat_inPos_succ hlt)⟩
    · have hmore : s.bytesCompleted (tableGet s.lutLen (s.inByte s.inPos.toNat)).toNat ≤
          s.bytesCompleted ((s.codeOf (s.inByte s.inPos.toNat)).length + (bs.flatMap s.codeOf).length) := by
        rw [State.length_codeOf]
        exact Nat.div_le_div_right (by omega)
      refine ⟨fun h => absurd h (by omega), fun _ => ?_⟩
      have hfull : s.room < s.bytesCompleted (tableGet s.lutLen (s.inByte s.inPos.toNat)).toNat := by
        unfold State.room
        omega
      rw [encNext_sinkFull hlt hsize hlut hlen hfull]
      exact ⟨_, s, rfl⟩

/-! ## The stream's last byte (R184) -/

/-- From `s` to `t` the bits were written to OUT as whole bytes from OUT_POS on, the last filled up with 0. -/
structure Flushed (s : State) (bits : List Bool) (t : State) : Prop where
  outPos : t.outPos.toNat = s.outPos.toNat + (bits.length + 7) / 8
  stored (i : Nat) (hi : i < (bits.length + 7) / 8) : t.outByte (s.outPos.toNat + i) = streamByte bits i
  kept (a : Nat) (ha : a < s.outPos.toNat ∨ t.outPos.toNat ≤ a) : t.outByte a = s.outByte a

/-- EVERYTHING BW_FINALIZE does after a stream that began with an empty BitWriter: with room for the last byte it completes the
stream's bytes, and else it raises ERR_SINK_FULL. -/
theorem bwFinalize_flushed (hempty : s.bwCnt = 0) (hcap : m.outCap = s.outCap) (hsent : Sent s m bits) :
    (s.outPos.toNat + (bits.length + 7) / 8 ≤ s.outCap.toNat →
      ∃ r t, bwFinalize m = .ok r t ∧ Flushed s bits t ∧
        t = { m with outMem := t.outMem, outPos := t.outPos, bwBuf := 0#8, bwCnt := 0 }) ∧
    (s.outCap.toNat < s.outPos.toNat + (bits.length + 7) / 8 → s.outPos.toNat + bits.length / 8 ≤ s.outCap.toNat →
      bwFinalize m = .err .sinkFull 1#32 m) := by
  have hpending : s.pendingBits = [] := List.eq_nil_of_length_eq_zero ((length_pendingBits s).trans hempty)
  obtain ⟨hpos, hcnt, hbuf, hbytes, hkept⟩ := hsent
  rw [hpending, List.nil_append] at hpos hcnt hbuf hbytes hkept
  by_cases hzero : m.bwCnt = 0
  · have hbytes0 : (bits.length + 7) / 8 = bits.length / 8 := by omega
    have hbuf0 : m.bwBuf = 0#8 := by
      rw [hbuf, List.drop_eq_nil_of_le (by omega)]
      rfl
    rw [hbytes0]
    refine ⟨fun _ => ⟨_, m, bwFinalize_none_pending hzero, ⟨?_, ?_, fun a ha => hkept a (by omega)⟩, ?_⟩,
      fun h1 h2 => absurd h1 (by omega)⟩
    · rw [hpos, hbytes0]
    · rw [hbytes0]
      exact hbytes
    · rw [← hbuf0, ← hzero]
  · have hbytes1 : (bits.length + 7) / 8 = bits.length / 8 + 1 := by omega
    rw [hbytes1]
    refine ⟨fun hroom => ?_, fun h1 h2 => bwFinalize_sinkFull hzero (by rw [hcap]; omega)⟩
    have hlt : m.outPos.toNat < m.outCap.toNat := by rw [hcap]; omega
    have hsucc := toNat_outPos_succ hlt
    refine ⟨_, _, bwFinalize_flush hzero hlt, ⟨?_, fun i hi => ?_, fun a ha => ?_⟩, rfl⟩
    · rw [hbytes1]
      exact hsucc.trans (by omega)
    · rw [hbytes1] at hi
      obtain hi | rfl := Nat.lt_succ_iff_lt_or_eq.1 hi
      · exact Eq.trans (outByte_write_other (s := m) rfl rfl (by omega)) (hbytes i hi)
      · rw [← hpos, streamByte_last, ← hbuf]
        exact outByte_write_same (s := m) rfl
    · have ha' : a < s.outPos.toNat ∨ m.outPos.toNat + 1 ≤ a := hsucc ▸ ha
      exact Eq.trans (outByte_write_other (s := m) rfl rfl (by omega)) (hkept a (by omega))

end

end Sys2Proof.Machine
end

section
/-! SUPPORT. The file ENCODE writes (R203, R205): when it succeeds, and what it then leaves, as a function of the input and of the
tables of its counts. -/

namespace Sys2Proof.Machine

section
variable {s t w : State} {freq : Vector Word 256}

/-! ## ENCODE up to its loop -/

/-- ENCODE after its FREQ_SCAN: everything at its start, the counts in FREQ, and IN_POS at the end of the input. -/
def State.scanned (s : State) (freq : Vector Word 256) : State :=
  { s.startEncode with freq := freq, inPos := s.inLen }.invalidateDerived

/-- ENCODE after its FREQ_HDR_WR. -/
def State.headerWritten (s : State) (freq : Vector Word 256) : State :=
  { s.scanned freq with outMem := s.outMem.writeBlock 0 (headerBytes freq), outPos := 1024#32 }

/-- ENCODE before its loop: the header stands in OUT, the tables are those of `w`, and IN_POS is back at the start. -/
def State.tabled (s : State) (freq : Vector Word 256) (w : State) : State :=
  { s with
    inPos := 0#32, outPos := 1024#32, symCnt := 0#64, freq := freq, heap := [], arena := w.arena, tree := w.tree, root := w.root,
    nLeaf := w.nLeaf, total := w.total, lutLen := w.lutLen, lutCode := w.lutCode, lutValid := true, bwBuf := 0#8, bwCnt := 0,
    outMem := s.outMem.writeBlock 0 (headerBytes freq) }

theorem State.tabled_eq (s w : State) (freq : Vector Word 256) :
    s.tabled freq w = { ((s.headerWritten freq).withTree w).withCode w with inPos := 0#32 } := by
  simp only [State.tabled, State.withCode, State.withTree, State.headerWritten, State.scanned, State.startEncode,
    State.invalidateDerived]

/-- From the start of ENCODE the bytes left are the whole input. -/
theorem inBytes_from_start (hpos : s.inPos = 0#32) : s.inBytes = s.input := by
  rw [State.inBytes, State.avail, hpos]
  exact List.map_congr_left fun k _ => congrArg s.inByte (Nat.zero_add k)

/-- The scan of ENCODE counts the input into a cleared table: no counter overflows. -/
theorem freqScan_startEncode (hsize : s.inLen.toNat ≤ s.inSize.toNat) (hfreq : Counts s.input freq) :
    ((freqClear s.startEncode).andThen fun _ m => freqScan m) = .ok () (s.scanned freq) := by
  have hlen := s.inLen.isLt
  have hin : ({ s.startEncode with freq := Vector.replicate 256 0#32 }.invalidateDerived).inBytes = s.input :=
    inBytes_from_start rfl
  have hzero : ∀ b, (tableGet (Vector.replicate 256 0#32) b).toNat = 0 := fun b => by rw [tableGet_replicate]; rfl
  obtain ⟨t, hrun, ht⟩ := freqScan_scanned
    (s := { s.startEncode with freq := Vector.replicate 256 0#32 }.invalidateDerived) hsize fun b => by
      have hcount := List.count_le_length (a := b) (l := s.input)
      rw [length_input] at hcount
      rw [hin]
      exact ((congrArg (· + _) (hzero b)).trans (Nat.zero_add _)).trans_lt (hcount.trans_lt hlen)
  rw [hin] at ht
  have htable : t.freq = freq := table_ext fun b => BitVec.eq_of_toNat_eq <| by
    rw [ht.count b, hfreq b]
    exact (congrArg (· + _) (hzero b)).trans (Nat.zero_add _)
  have hpos : t.inPos = s.inLen := BitVec.eq_of_toNat_eq <| by
    rw [ht.inPos_eq, length_input]
    exact Nat.zero_add _
  have hframe := ht.frame
  rw [htable, hpos] at hframe
  exact hrun.trans (congrArg (Run.ok ()) hframe)

/-- Without the room for a header ENCODE ends in ERR_SINK_FULL after its scan. -/
theorem encodeFile_noHeader (hsize : s.inLen.toNat ≤ s.inSize.toNat) (hfreq : Counts s.input freq)
    (hfull : s.outCap.toNat < 1024) : encodeFile s = .err .sinkFull 1024#32 (s.scanned freq) := by
  rw [encodeFile, ← Run.andThen_assoc, freqScan_startEncode hsize hfreq, Run.ok_andThen,
    freqHdrWr_err (s := s.scanned freq) (hfull.trans_le (Nat.le_add_left _ _)), Run.err_andThen]

/-- With it, the loop and BW_FINALIZE are left, over the tables of the counts. -/
theorem encodeFile_tabled (hsize : s.inLen.toNat ≤ s.inSize.toNat) (hfreq : Counts s.input freq) (hw : CodedFrom freq w)
    (hroom : 1024 ≤ s.outCap.toNat) : encodeFile s =
      (encodeLoop s.inLen.toNat (s.tabled freq w)).andThen fun _ m => (bwFinalize m).effect.andThen fun _ m => .ok m.outPos m := by
  have hheader : freqHdrWr (s.scanned freq) = .ok () (s.headerWritten freq) :=
    freqHdrWr_ok (s := s.scanned freq) ((Nat.zero_add _).trans_le hroom)
  obtain ⟨r, hbuild⟩ := CodedFrom.treeBuild_eq (m := s.headerWritten freq) hw
  obtain ⟨r', hcode⟩ := hw.codeGen_eq (s.headerWritten freq)
  have hlen : (((s.headerWritten freq).withTree w).withCode w).inLen = s.inLen :=
    (congrArg State.inLen (State.tabled_eq s w freq)).symm.trans (by rw [State.tabled])
  rw [encodeFile, ← Run.andThen_assoc, freqScan_startEncode hsize hfreq, Run.ok_andThen, hheader, Run.ok_andThen, hbuild,
    Run.effect, Run.ok_andThen, Run.ok_andThen, hcode, Run.effect, Run.ok_andThen, Run.ok_andThen, ← hlen,
    State.tabled_eq]

/-! ## The file -/

/-- The payload's bits: the codes of the input's bytes in order (R73). -/
def State.payload (s w : State) : List Bool := s.input.flatMap w.codeOf

/-- From `s` ENCODE comes to `t`: OUT holds the header of the counts and the payload, filled up with 0 to whole bytes; the tables
are those of `w`, and the cursors and SYMCNT stand at the ends (R203, R205). -/
structure FileWritten (s : State) (freq : Vector Word 256) (w t : State) : Prop where
  outPos : t.outPos.toNat = 1024 + ((s.payload w).length + 7) / 8
  header (a : Nat) (ha : a < 1024) : (headerBytes freq)[a]? = some (t.outByte a)
  stored (i : Nat) (hi : i < ((s.payload w).length + 7) / 8) : t.outByte (1024 + i) = streamByte (s.payload w) i
  kept (a : Nat) (ha : t.outPos.toNat ≤ a) : t.outByte a = s.outByte a
  frame : t = { s with
    inPos := s.inLen, outPos := t.outPos, symCnt := BitVec.ofNat 64 s.inLen.toNat, freq := freq, heap := [], arena := w.arena,
    tree := w.tree, root := w.root, nLeaf := w.nLeaf, total := w.total, lutLen := w.lutLen, lutCode := w.lutCode, lutValid := true,
    bwBuf := 0#8, bwCnt := 0, outMem := t.outMem }

/-- The payload flushed after the header makes the file. -/
theorem Flushed.fileWritten {m : State} (hloop : EmittedAll (s.tabled freq w) s.input m)
    (h : Flushed (s.tabled freq w) (s.payload w) t)
    (hframe : t = { m with outMem := t.outMem, outPos := t.outPos, bwBuf := 0#8, bwCnt := 0 }) : FileWritten s freq w t := by
  have hstart : (s.tabled freq w).outPos.toNat = 1024 := by rw [State.tabled]; rfl
  have hmem : (s.tabled freq w).outMem = s.outMem.writeBlock 0 (headerBytes freq) := by rw [State.tabled]
  have hepoch : (s.tabled freq w).epoch = s.epoch := by rw [State.tabled]
  obtain ⟨hpos, hstored, hkept⟩ := h
  rw [hstart] at hpos hstored hkept
  refine ⟨hpos, fun a ha => ?_, hstored, fun a ha => ?_, ?_⟩
  · have hget := List.getElem?_eq_getElem (ha.trans_eq (length_headerBytes freq).symm)
    have hbyte := outByte_writeBlock_inside hmem hget
    rw [Nat.zero_add] at hbyte
    rw [hget, hkept a (.inl ha), hbyte]
  · rw [hkept a (.inr ha)]
    exact outByte_writeBlock_outside hmem hepoch (.inr (by rw [length_headerBytes]; omega))
  · have hend : m.inPos = s.inLen := BitVec.eq_of_toNat_eq <| by
      rw [hloop.inPos, length_input, State.tabled]
      exact Nat.zero_add _
    have hm := hloop.frame
    rw [hend, length_input, State.tabled, BitVec.zero_add] at hm
    rw [hm] at hframe
    exact hframe

/-- Over the tables of the counts the loop of ENCODE sends the payload when OUT has room for the bytes it completes. -/
theorem encodeLoop_tabled (hbits : s.BitsOk) (hsize : s.inLen.toNat ≤ s.inSize.toNat) (hfreq : Counts s.input freq)
    (hw : CodedFrom freq w) (hroom : 1024 ≤ s.outCap.toNat) :
    (1024 + (s.payload w).length / 8 ≤ s.outCap.toNat →
      ∃ m, encodeLoop s.inLen.toNat (s.tabled freq w) = .ok () m ∧ EmittedAll (s.tabled freq w) s.input m) ∧
    (s.outCap.toNat < 1024 + (s.payload w).length / 8 →
      ∃ info m, encodeLoop s.inLen.toNat (s.tabled freq w) = .err .sinkFull info m) := by
  have hstart : (s.tabled freq w).BitsOk ∧ (s.tabled freq w).inBytes = s.input ∧ (s.tabled freq w).outPos.toNat = 1024 ∧
      (s.tabled freq w).bytesCompleted (s.payload w).length = (s.payload w).length / 8 ∧ (s.tabled freq w).codeOf = w.codeOf := by
    rw [State.tabled]
    exact ⟨⟨Nat.zero_le _, hbits.2.1, fun _ _ => BitVec.getLsbD_zero⟩, inBytes_from_start rfl, rfl,
      congrArg (· / 8) (Nat.zero_add _), rfl⟩
  obtain ⟨hbits0, hin, hpos, hbytes, hcode⟩ := hstart
  have hcoded : ∀ b ∈ s.input, tableGet (s.tabled freq w).lutLen b ≠ 0#8 := fun b hb hzero => by
    refine (hw.codeOf_ne_nil_iff b).2 (hfreq.ne_zero hb) (List.eq_nil_of_length_eq_zero ?_)
    rw [← hcode, State.length_codeOf, hzero]
    rfl
  have hloop := encodeLoop_spec (fuel := s.inLen.toNat) hbits0 hsize rfl hin hcoded (length_input s).le (by rw [hpos]; exact hroom)
  rw [hcode, hpos] at hloop
  rw [← hbytes]
  exact hloop

/-- EVERYTHING ENCODE does (R203): with room for the header and the payload's bytes it writes the file, and else it ends in
ERR_SINK_FULL. -/
theorem encodeFile_spec (hbits : s.BitsOk) (hsize : s.inLen.toNat ≤ s.inSize.toNat) (hfreq : Counts s.input freq)
    (hw : CodedFrom freq w) :
    (1024 + ((s.payload w).length + 7) / 8 ≤ s.outCap.toNat →
      ∃ t, encodeFile s = .ok t.outPos t ∧ FileWritten s freq w t) ∧
    (s.outCap.toNat < 1024 + ((s.payload w).length + 7) / 8 → ∃ info t, encodeFile s = .err .sinkFull info t) := by
  by_cases hheader : s.outCap.toNat < 1024
  · exact ⟨fun h => absurd h (by omega), fun _ => ⟨_, _, encodeFile_noHeader hsize hfreq hheader⟩⟩
  have hroom := Nat.le_of_not_lt hheader
  rw [encodeFile_tabled hsize hfreq hw hroom]
  obtain ⟨hsends, hstops⟩ := encodeLoop_tabled hbits hsize hfreq hw hroom
  by_cases hpayload : 1024 + (s.payload w).length / 8 ≤ s.outCap.toNat
  · obtain ⟨m, hrun, hm⟩ := hsends hpayload
    have hcap : m.outCap = (s.tabled freq w).outCap := by rw [hm.frame]
    have hsent : Sent (s.tabled freq w) m (s.payload w) := hm.sent
    obtain ⟨hflush, hfull⟩ := bwFinalize_flushed rfl hcap hsent
    rw [hrun, Run.ok_andThen]
    refine ⟨fun h => ?_, fun h => ?_⟩
    · obtain ⟨r, t, hfin, ht, hframe⟩ := hflush h
      exact ⟨t, by rw [hfin]; rfl, ht.fileWritten hm hframe⟩
    · rw [hfull h hpayload]
      exact ⟨_, _, rfl⟩
  · obtain ⟨info, m, hrun⟩ := hstops (Nat.lt_of_not_le hpayload)
    rw [hrun]
    exact ⟨fun h => absurd h (by omega), fun _ => ⟨info, m, rfl⟩⟩

end

end Sys2Proof.Machine
end

section
/-! SUPPORT. The obligations about files encoded (R203, R205, R207) and the round trip (R206, R208). -/

namespace Sys2Proof.Machine

section
variable {s s' t t' v w : State} {freq : Vector Word 256} {bits : List Bool}

/-! ## The payload's length (R174, R205) -/

theorem length_payload (s w : State) : (s.payload w).length = (s.input.map fun b => (tableGet w.lutLen b).toNat).sum := by
  rw [State.payload, List.length_flatMap]
  exact congrArg List.sum (List.map_congr_left fun b _ => State.length_codeOf w b)

/-- B of R205 is the number of the payload's bits. -/
theorem payloadBits_eq (hfreq : Counts s.input freq) (htable : t.freq = freq) (hlen : t.lutLen = w.lutLen) :
    t.payloadBits = (s.payload w).length := by
  rw [State.payloadBits, htable, hlen, length_payload]
  exact hfreq.sum_map _

/-- 32 bytes hold any code, so 32 bytes for each byte of the input hold the payload (R46). -/
theorem payload_fits (s w : State) : ((s.payload w).length + 7) / 8 ≤ 32 * s.inLen.toNat := by
  have hle : (s.payload w).length ≤ s.input.length * 255 := by
    rw [length_payload]
    exact sum_map_le s.input fun b => Nat.le_of_lt_succ (tableGet w.lutLen b).isLt
  rw [length_input] at hle
  omega

/-! ## ENCODE completed -/

/-- The tables of the counts of the input exist: from a sound machine TREE_BUILD and CODE_GEN complete. -/
theorem exists_tables (h : s.Inv) : ∃ freq v w, Counts s.input freq ∧ exec .treeBuild { s with freq := freq } = .next v ∧
    exec .codeGen v = .next w := by
  have hsound := State.sound_true_iff.2 h
  obtain ⟨freq, hfreq⟩ := exists_counts (input := s.input) (by rw [length_input]; exact s.inLen.isLt)
  obtain ⟨r, m, hrun, -⟩ := treeBuild_frame { s with freq := freq }
  have htree := exec_treeBuild_of_ok hrun
  have hstart : ({ s with freq := freq }).Sound True := { hsound with }
  have hv := exec_sound hstart htree
  have hbuilt : ({ m with result := r }.finish).tree ≠ .none := by
    obtain ⟨-, hv | ⟨hv, -⟩⟩ := exec_treeBuild_total htree <;> rw [hv] <;> decide
  obtain ⟨codes, hcode⟩ := exec_codeGen_recorded hv.shapes hv.tree hbuilt
  exact ⟨freq, _, _, hfreq, htree, hcode⟩

/-- An ENCODE that ends without an error had the room for its file, and wrote it. -/
theorem exec_encode_written (h : s.Inv) (hfreq : Counts s.input freq) (hw : CodedFrom freq w) (hrun : exec .encode s = .next t)
    (ht : t.err = false) : 1024 + ((s.payload w).length + 7) / 8 ≤ s.outCap.toNat ∧
      ∃ m, FileWritten s freq w m ∧ t = { m with result := m.outPos }.finish := by
  have hsound := State.sound_true_iff.2 h
  obtain ⟨hwrites, hstops⟩ := encodeFile_spec hsound.bits hsound.cursors.1 hfreq hw
  by_cases hroom : 1024 + ((s.payload w).length + 7) / 8 ≤ s.outCap.toNat
  · obtain ⟨m, hfile, hm⟩ := hwrites hroom
    exact ⟨hroom, m, hm, Host.Outcome.next.inj (hrun.symm.trans (congrArg completeWith hfile))⟩
  · obtain ⟨info, m, hfile⟩ := hstops (Nat.lt_of_not_le hroom)
    obtain rfl := Host.Outcome.next.inj (hrun.symm.trans (congrArg completeWith hfile))
    cases ht

/-! ## What the file holds -/

/-- Files of the same counts and payload hold the same bytes. -/
theorem FileWritten.outByte_eq (h : FileWritten s freq w t) (h' : FileWritten s' freq w t') (hp : s'.payload w = s.payload w)
    {a : Nat} (ha : a < t.outPos.toNat) : t'.outByte a = t.outByte a := by
  by_cases hheader : a < 1024
  · exact Option.some.inj ((h'.header a hheader).symm.trans (h.header a hheader))
  · have hpos := h.outPos
    have hi : a - 1024 < ((s.payload w).length + 7) / 8 := by omega
    have hstored := h.stored _ hi
    have hstored' := h'.stored (a - 1024) (hp.symm ▸ hi)
    rw [show 1024 + (a - 1024) = a by omega] at hstored hstored'
    rw [hstored, hstored', hp]

/-- The payload's bits stand in the file (R73). -/
theorem FileWritten.payloadBit_eq (h : FileWritten s freq w t) {k : Nat} (hk : k < (s.payload w).length) :
    payloadBit t.outByte k = (s.payload w).getD k false := by
  rw [payloadBit, h.stored (k / 8) (by omega), streamByte_getLsbD _ _ (Nat.mod_lt k (by omega)), Nat.div_add_mod]

/-- The bits of consecutive bytes, one by one. -/
theorem flatMap_byteBits_eq (byte : Nat → Byte) (n : Nat) :
    ((List.range n).flatMap fun i => byteBits (byte i)) = (List.range (8 * n)).map fun k => (byte (k / 8)).getLsbD (7 - k % 8) := by
  induction n with
  | zero => rfl
  | succ n ih =>
    rw [List.range_succ, List.flatMap_append, ih, List.flatMap_singleton, Nat.mul_succ, List.range_add, List.map_append,
      List.map_map]
    congr 1
    refine List.map_congr_left fun j hj => ?_
    have hlt := List.mem_range.1 hj
    rw [Function.comp_apply, show (8 * n + j) / 8 = n by omega, show (8 * n + j) % 8 = j by omega]

/-- A stream whose bits stand in the payload is where the payload begins. -/
theorem prefix_payload {byteAt : Nat → Byte} {n : Nat} (hlen : bits.length ≤ 8 * n)
    (hbit : ∀ k, k < bits.length → payloadBit byteAt k = bits.getD k false) :
    bits.IsPrefix ((List.range n).flatMap fun i => byteBits (byteAt (1024 + i))) := by
  rw [flatMap_byteBits_eq fun i => byteAt (1024 + i), List.prefix_iff_eq_take]
  refine List.ext_getElem (by simpa using hlen) fun k hk _ => ?_
  rw [List.getElem_take, List.getElem_map, List.getElem_range, ← List.getD_eq_getElem _ false hk, ← hbit k hk]
  rfl

/-- The input is a function of IN_LEN and of the bytes below it. -/
theorem input_congr (hlen : s.inLen = s'.inLen) (hin : ∀ a, a < s.inLen.toNat → s.inByte a = s'.inByte a) :
    s'.input = s.input := by
  rw [State.input, State.input, ← hlen]
  exact List.map_congr_left fun a ha => (hin a (List.mem_range.1 ha)).symm

end

/-! ## The obligations about files encoded -/

/-- Settles O47: the file is written when OUT has the room for it; without it ENCODE ends in ERR_SINK_FULL. -/
theorem encodeWritesTheFile : Obligations.EncodeWritesTheFile := by
  intro s hinv herr
  obtain ⟨freq, v, w, hfreq, htree, hcode⟩ := exists_tables hinv
  have hw : CodedFrom freq w := ⟨{ s with freq := freq }, v, rfl, htree, hcode⟩
  have hsound := State.sound_true_iff.2 hinv
  obtain ⟨hwrites, hstops⟩ := encodeFile_spec hsound.bits hsound.cursors.1 hfreq hw
  by_cases hroom : 1024 + ((s.payload w).length + 7) / 8 ≤ s.outCap.toNat
  · obtain ⟨m, hfile, hm⟩ := hwrites hroom
    have hrun : exec .encode s = .next ({ m with result := m.outPos }.finish) := congrArg completeWith hfile
    have hnoErr : m.err = false := by rw [hm.frame]; exact herr
    have htable : m.freq = freq := by rw [hm.frame]
    have hcodes : m.codeOf = w.codeOf := by rw [hm.frame]; rfl
    have hbits : ({ m with result := m.outPos }.finish).payloadBits = (s.payload w).length :=
      payloadBits_eq (w := w) hfreq htable (by rw [hm.frame]; rfl)
    have hpayload : s.input.flatMap ({ m with result := m.outPos }.finish).codeOf = s.payload w := by
      rw [State.payload, ← hcodes]
      rfl
    obtain ⟨r, -, hw'⟩ := codeGen_of_built htree hcode
    refine ⟨_, hrun, fun _ => hnoErr, fun he => absurd (hnoErr.symm.trans he) (by decide), fun _ => ?_⟩
    rw [hbits, hpayload]
    refine ⟨fun b => ?_, ?_, hm.outPos, fun b k hk => ?_, hm.stored, rfl, hm.kept, ⟨v, w, ?_, hcode, ?_⟩, ?_⟩
    · exact (congrArg (fun f => (tableGet f b).toNat) htable).trans (hfreq b)
    · exact (congrArg tableSum htable).trans (hfreq.tableSum_eq.trans (length_input s))
    · have hb := b.isLt
      have hbyte := (hm.header _ (by omega)).symm.trans (headerBytes_getElem? freq b hk)
      rw [← htable] at hbyte
      exact Option.some.inj hbyte
    · rw [← htree, ← htable]
      rfl
    · rw [hm.frame, hw']
      exact ⟨rfl, rfl, rfl, rfl, rfl, rfl, rfl⟩
    · rw [State.finish, hm.frame]
  · obtain ⟨info, m, hfile⟩ := hstops (Nat.lt_of_not_le hroom)
    have hrun : exec .encode s = .next (m.takeError .sinkFull info) := congrArg completeWith hfile
    have hresult := (resultIsWrittenOnlyOnNamedSuccess .encode s _ hrun).2 herr rfl
    refine ⟨_, hrun, fun hcap => absurd hroom (not_not.2 ?_), fun _ => ⟨rfl, hresult⟩, nofun⟩
    have hfits := payload_fits s w
    omega

/-- Settles O48: the tables, the payload and the room it needs are functions of the input, so the second run writes the same
file. -/
theorem encodeIsDeterministic : Obligations.EncodeIsDeterministic := by
  intro s s' t hinv hinv' herr herr' hlen hcap hin hrun ht
  obtain ⟨freq, v, w, hfreq, htree, hcode⟩ := exists_tables hinv
  have hw : CodedFrom freq w := ⟨{ s with freq := freq }, v, rfl, htree, hcode⟩
  obtain ⟨hroom, m, hm, rfl⟩ := exec_encode_written hinv hfreq hw hrun ht
  have hinput := input_congr hlen hin
  have hpayload : s'.payload w = s.payload w := congrArg (List.flatMap w.codeOf) hinput
  have hsound' := State.sound_true_iff.2 hinv'
  obtain ⟨hwrites', -⟩ := encodeFile_spec hsound'.bits hsound'.cursors.1 (hinput ▸ hfreq) hw
  obtain ⟨m', hfile', hm'⟩ := hwrites' (by rw [hpayload, ← hcap]; exact hroom)
  have hpos : m'.outPos = m.outPos := BitVec.eq_of_toNat_eq <| by rw [hm'.outPos, hm.outPos, hpayload]
  refine ⟨_, congrArg completeWith hfile', fun a ha => hm.outByte_eq hm' hpayload ha, ?_⟩
  rw [hm'.frame, hm.frame, hpos, hlen]
  rfl

/-- Settles O50: the header reads back as the counts, whose tables are ENCODE's own, and the payload starts with the codes of the
input. -/
theorem decodeInvertsEncode : Obligations.DecodeInvertsEncode := by
  intro s t u hinv herr hrun ht hu hu_err hlen hcap hheader hpayload
  obtain ⟨freq, v, w, hfreq, htree, hcode⟩ := exists_tables hinv
  have hw : CodedFrom freq w := ⟨{ s with freq := freq }, v, rfl, htree, hcode⟩
  obtain ⟨-, m, hm, rfl⟩ := exec_encode_written hinv hfreq hw hrun ht
  have hbits : ({ m with result := m.outPos }.finish).payloadBits = (s.payload w).length :=
    payloadBits_eq (w := w) hfreq (by rw [hm.frame]; rfl) (by rw [hm.frame]; rfl)
  rw [hbits] at hlen hpayload ⊢
  have htable : headerTable u.inByte = freq := (headerTable_congr hheader).trans (headerTable_headerBytes hm.header)
  have hprefix : (s.payload w).IsPrefix ((List.range (u.inLen.toNat - 1024)).flatMap fun i => byteBits (u.inByte (1024 + i))) :=
    prefix_payload (by omega) fun k hk => (hpayload k hk).trans (hm.payloadBit_eq hk)
  obtain ⟨n, hfile, hn⟩ := decodeFile_decoded (msg := s.input) (State.sound_true_iff.2 hu).cursors.1 (by omega) (htable ▸ hw)
    (by rw [htable, hfreq.tableSum_eq]) (by rw [length_input]; exact hcap)
    (fun b hb => (hw.codeOf_ne_nil_iff b).2 (hfreq.ne_zero hb)) hprefix
  have hframe := hn.frame
  have hlt := s.inLen.isLt
  have hout : n.outPos = BitVec.ofNat 32 s.input.length := by
    rw [hframe]
    exact BitVec.zero_add _
  have hcnt : n.symCnt = BitVec.ofNat 64 s.input.length := by
    rw [hframe]
    exact BitVec.zero_add _
  have hnum : (BitVec.ofNat 32 s.input.length).toNat = s.inLen.toNat := by
    rw [length_input, BitVec.ofNat_toNat, BitVec.setWidth_eq]
  refine ⟨_, congrArg completeWith hfile, ?_, hnum, (congrArg BitVec.toNat hout).trans hnum, ?_, hn.inPos, fun a ha => ?_⟩
  · show n.err = false
    rw [hframe]
    exact hu_err
  · refine (congrArg BitVec.toNat hcnt).trans ?_
    rw [length_input, BitVec.toNat_ofNat]
    omega
  · have hbyte : s.input[a]? = some (s.inByte a) := by simp [State.input, ha]
    have hstored := hn.stored a _ hbyte
    rwa [show (u.headerRead.withTree w).outPos.toNat + a = a from Nat.zero_add a] at hstored

end Sys2Proof.Machine
end

section
/-! SUPPORT. No step of a command faults from a state within the bounds of R60 (log 9 to 11): each OUT write comes after its room
check, each IN read lies below IN_LEN, each primitive is called in its condition, and the walk ends (R233, R236, R274). -/

namespace Sys2Proof.Machine

/-! ## Runs that do not stop the machine -/

/-- The run ends in the HCC: it succeeds or raises an error, and does not stop the machine. -/
def Run.NoFault {α : Type} (r : Run α) : Prop := ∀ f, r ≠ .fault f

section
variable {α β : Type}

theorem Run.ok_noFault (a : α) (t : State) : (Run.ok a t).NoFault := nofun

theorem Run.err_noFault (k : ErrKind) (info : Word) (t : State) : (Run.err k info t : Run α).NoFault := nofun

theorem Run.NoFault.of_eq_ok {r : Run α} {a : α} {t : State} (h : r = .ok a t) : r.NoFault := h ▸ Run.ok_noFault a t

/-- A sequence does not fault when its first part does not and its second does not wherever the first succeeds. -/
theorem Run.NoFault.andThen_of_ok {r : Run α} {f : α → State → Run β} (h : r.NoFault)
    (hf : ∀ a t, r = .ok a t → (f a t).NoFault) : (r.andThen f).NoFault := fun e he => by
  obtain hr | ⟨a, t, hr, hft⟩ := Run.andThen_eq_fault.1 he
  · exact h e hr
  · exact hf a t hr e hft

/-- The second part takes over what holds wherever the first ends. -/
theorem Run.NoFault.andThen {r : Run α} {f : α → State → Run β} {p : State → Prop} (h : r.NoFault) (hp : r.Ends p)
    (hf : ∀ a t, p t → (f a t).NoFault) : (r.andThen f).NoFault :=
  h.andThen_of_ok fun a t hr => hf a t (hp.of_ok hr)

theorem Run.NoFault.effect {r : Run α} (h : r.NoFault) : r.effect.NoFault := fun e he => h e (Run.effect_eq_fault.1 he)

theorem Run.NoFault.nodeResult {r : Run NodeIdx} (h : r.NoFault) : (nodeResult r).NoFault :=
  h.andThen_of_ok fun _ _ _ => Run.ok_noFault _ _

end

/-- A run that does not fault completes its command (R236). -/
theorem complete_completes {r : Run Unit} (h : r.NoFault) : Completes (complete r) := by
  cases r with
  | ok u t => exact ⟨_, rfl⟩
  | err k info t => exact ⟨_, rfl⟩
  | fault f => exact absurd rfl (h f)

theorem completeWith_completes {r : Run Word} (h : r.NoFault) : Completes (completeWith r) := by
  cases r with
  | ok v t => exact ⟨_, rfl⟩
  | err k info t => exact ⟨_, rfl⟩
  | fault f => exact absurd rfl (h f)

/-- Only a run that does not fault completes its command. -/
theorem Completes.noFault {r : Run Word} (h : Completes (completeWith r)) : r.NoFault := by
  rintro f rfl
  obtain ⟨t, ht⟩ := h
  cases ht

section
variable {ordered : Prop} {s t : State}

/-! ## Checks, reads and writes -/

theorem checkRoom_noFault (k : Nat) (s : State) : (checkRoom k s).NoFault := checkRoom_ne_fault k s

theorem checkNode_noFault (i : NodeIdx) (s : State) : (checkNode i s).NoFault := by
  unfold checkNode
  split
  · exact Run.err_noFault _ _ _
  · exact Run.ok_noFault _ _

theorem checkArena_noFault (s : State) : (checkArena s).NoFault := by
  unfold checkArena
  split
  · exact Run.err_noFault _ _ _
  · exact Run.ok_noFault _ _

theorem checkCode_noFault (b : Byte) (s : State) : (checkCode b s).NoFault := by
  unfold checkCode
  split
  · exact Run.err_noFault _ _ _
  · split
    · exact Run.err_noFault _ _ _
    · exact checkRoom_noFault _ s

/-- Below IN_LEN there is a byte of IN to read (R71). -/
theorem memReadIn_noFault (hsize : s.inLen.toNat ≤ s.inSize.toNat) (hlt : s.inPos.toNat < s.inLen.toNat) :
    (memReadIn s).NoFault :=
  .of_eq_ok (memReadIn_eq_ok.2 ⟨hlt.trans_le hsize, rfl, rfl⟩)

theorem memWriteOut_noFault (hroom : s.outPos.toNat < s.outCap.toNat) (b : Byte) : (memWriteOut b s).NoFault :=
  .of_eq_ok (memWriteOut_ok hroom b)

/-! ## Bits -/

/-- The room that a room check finds is there for the bytes the bits complete (R183, R199). -/
theorem State.Sound.putBits_noFault (h : s.Sound ordered) {bits : List Bool} (hroom : s.bytesCompleted bits.length ≤ s.room) :
    (putBits bits s).NoFault := by
  have hpos := h.cursors.2
  unfold State.bytesCompleted State.room at hroom
  obtain ⟨t, ht⟩ := putBits_ok (bits := bits) h.bits (by omega)
  exact .of_eq_ok ht

/-- A room check for one byte that passes leaves a byte of OUT to write (R75). -/
theorem outPos_lt_of_checkRoom {u : Unit} (h : checkRoom 1 s = .ok u t) : t = s ∧ s.outPos.toNat < s.outCap.toNat := by
  obtain ⟨hroom, ht⟩ := checkRoom_eq_ok.1 h
  unfold State.room at hroom
  exact ⟨ht, by omega⟩

theorem bwFinalize_noFault (s : State) : (bwFinalize s).NoFault := by
  unfold bwFinalize
  split
  · exact Run.ok_noFault _ _
  · refine (checkRoom_noFault 1 s).andThen_of_ok fun _ m hm => ?_
    obtain ⟨rfl, hlt⟩ := outPos_lt_of_checkRoom hm
    exact (memWriteOut_noFault hlt _).andThen_of_ok fun _ _ _ => Run.ok_noFault _ _

theorem getBit_noFault (hsize : s.inLen.toNat ≤ s.inSize.toNat) : (getBit s).NoFault := by
  obtain ⟨-, hrun⟩ | ⟨b, rest, t, -, hrun, -⟩ := getBit_readerBits hsize
  · exact .of_eq_ok hrun
  · exact .of_eq_ok hrun

/-! ## Frequency table -/

/-- The scan reads below IN_LEN only (R126). -/
theorem scanLoop_noFault (fuel : Nat) (hsize : s.inLen.toNat ≤ s.inSize.toNat) : (scanLoop fuel s).NoFault := by
  induction fuel generalizing s with
  | zero => exact Run.ok_noFault _ _
  | succ fuel ih =>
    unfold scanLoop
    split
    · rename_i hlt
      have hbyte : (scanByte s).NoFault := (memReadIn_noFault hsize hlt).andThen_of_ok fun b m _ => by
        split
        · exact Run.err_noFault _ _ _
        · exact Run.ok_noFault _ _
      refine hbyte.andThen (scanByte_ends s) fun _ m hm => ih ?_
      rw [hm]
      exact hsize
    · exact Run.ok_noFault _ _

theorem State.Sound.freqScan_noFault (h : s.Sound ordered) : (freqScan s).NoFault :=
  scanLoop_noFault s.avail (s := s.invalidateDerived) h.cursors.1

theorem freqHdrWr_noFault (s : State) : (freqHdrWr s).NoFault :=
  (checkRoom_noFault _ s).andThen_of_ok fun _ _ _ => Run.ok_noFault _ _

/-- A header before IN_LEN is a header before IN_SIZE (R128). -/
theorem State.Sound.freqHdrRd_noFault (h : s.Sound ordered) : (freqHdrRd s).NoFault := by
  by_cases hleft : s.inPos.toNat + 1024 ≤ s.inLen.toNat
  · exact .of_eq_ok (freqHdrRd_ok h.cursors.1 hleft)
  · rw [freqHdrRd_err (Nat.lt_of_not_le hleft)]
    exact Run.err_noFault _ _ _

/-! ## Arena, heap, tree and code table -/

/-- ARENA_CNT is at most 511, so an arena that is not full has room (R60, R142). -/
theorem State.Sound.arena_room_of_checkArena (h : s.Sound ordered) {u : Unit} (hm : checkArena s = .ok u t) :
    t = s ∧ s.arena.length < 511 := by
  obtain ⟨hne, ht⟩ := checkArena_eq_ok.1 hm
  obtain ⟨-, hle, -⟩ := h.counts
  exact ⟨ht, Nat.lt_of_le_of_ne hle hne⟩

theorem State.Sound.execNodeLeaf_completes (h : s.Sound ordered) (sym : Byte) : Completes (execNodeLeaf sym s) := by
  refine completeWith_completes ((checkArena_noFault s).andThen_of_ok fun _ m hm => ?_)
  obtain ⟨rfl, hroom⟩ := h.arena_room_of_checkArena hm
  exact (Run.NoFault.of_eq_ok (newLeaf_eq_ok.2 ⟨hroom, rfl, rfl⟩)).nodeResult

theorem State.Sound.execNodeJoin_completes (h : s.Sound ordered) (a b : NodeIdx) : Completes (execNodeJoin a b s) := by
  refine completeWith_completes ((checkNode_noFault a s).andThen_of_ok fun _ m hm => ?_)
  obtain ⟨-, rfl⟩ := checkNode_eq_ok.1 hm
  refine (checkNode_noFault b m).andThen_of_ok fun _ m' hm => ?_
  obtain ⟨-, rfl⟩ := checkNode_eq_ok.1 hm
  refine (checkArena_noFault m').andThen_of_ok fun _ m hm => ?_
  obtain ⟨rfl, hroom⟩ := h.arena_room_of_checkArena hm
  split
  · exact Run.err_noFault _ _ _
  · rename_i hsum
    exact (Run.NoFault.of_eq_ok (newJoin_eq_ok.2 ⟨⟨hroom, Nat.lt_of_not_le hsum⟩, rfl, rfl⟩)).nodeResult

theorem State.Sound.execHeapInsert_completes (h : s.Sound ordered) (i : NodeIdx) : Completes (execHeapInsert i s) := by
  refine complete_completes ((checkNode_noFault i s).andThen_of_ok fun _ m hm => ?_)
  obtain ⟨hi, rfl⟩ := checkNode_eq_ok.1 hm
  split
  · exact Run.err_noFault _ _ _
  · rename_i hne
    exact .of_eq_ok (heapInsert_eq_ok (u := ()).2 ⟨⟨Nat.lt_of_le_of_ne h.counts.1 hne, hi⟩, rfl⟩)

theorem execHeapExtract_completes (s : State) : Completes (execHeapExtract s) := by
  refine completeWith_completes ?_
  split
  · exact Run.err_noFault _ _ _
  · rename_i hne
    exact (Run.NoFault.of_eq_ok (heapExtract_eq_ok.2 ⟨Nat.pos_of_ne_zero hne, rfl, rfl⟩)).nodeResult

theorem treeBuild_noFault (s : State) : (treeBuild s).NoFault := by
  obtain ⟨v, t, hrun, -⟩ := treeBuild_frame s
  exact .of_eq_ok hrun

/-- Children stand below their parent, so the walk of CODE_GEN ends (R52, R170). -/
theorem State.Sound.codeGen_noFault (h : s.Sound ordered) : (codeGen s).NoFault := by
  refine Completes.noFault ?_
  rw [← exec_codeGen]
  by_cases hnone : s.tree = .none
  · exact ⟨_, exec_codeGen_of_none hnone⟩
  · obtain ⟨codes, hrun⟩ := exec_codeGen_recorded h.shapes h.tree hnone
    exact ⟨_, hrun⟩

/-! ## Symbol coder -/

/-- The code check that passes leaves room for the bytes the symbol's code completes (R200). -/
theorem bytesCompleted_le_room_of_checkCode {b : Byte} {u : Unit} (h : checkCode b s = .ok u t) :
    t = s ∧ s.bytesCompleted (tableGet s.lutLen b).toNat ≤ s.room := by
  unfold checkCode at h
  split at h
  · cases h
  · split at h
    · cases h
    · obtain ⟨hroom, ht⟩ := checkRoom_eq_ok.1 h
      exact ⟨ht, hroom⟩

theorem State.Sound.emitSymbol_noFault (h : s.Sound ordered) {b : Byte}
    (hroom : s.bytesCompleted (tableGet s.lutLen b).toNat ≤ s.room) : (emitSymbol b s).NoFault :=
  have hput : (emitCode b s).NoFault := h.putBits_noFault (by rwa [length_codeBitsOf])
  hput.andThen_of_ok fun _ _ _ => Run.ok_noFault _ _

theorem State.Sound.execEncSym_completes (h : s.Sound ordered) (sym : Byte) : Completes (execEncSym sym s) := by
  refine completeWith_completes ((checkCode_noFault sym s).andThen_of_ok fun _ m hm => ?_)
  obtain ⟨rfl, hroom⟩ := bytesCompleted_le_room_of_checkCode hm
  exact h.emitSymbol_noFault hroom

theorem State.Sound.encNext_noFault (h : s.Sound ordered) : (encNext s).NoFault := by
  unfold encNext
  split
  · exact Run.err_noFault _ _ _
  · rename_i hlt
    refine (memReadIn_noFault h.cursors.1 (BitVec.not_le.1 hlt)).andThen_of_ok fun b m hm => ?_
    obtain ⟨-, -, rfl⟩ := memReadIn_eq_ok.1 hm
    refine (checkCode_noFault b m).andThen_of_ok fun _ m' hm => ?_
    obtain ⟨rfl, hroom⟩ := bytesCompleted_le_room_of_checkCode hm
    exact (h.setInPos _).emitSymbol_noFault hroom

theorem State.Sound.encodeLoop_noFault (fuel : Nat) (h : s.Sound ordered) : (encodeLoop fuel s).NoFault := by
  induction fuel generalizing s with
  | zero => exact Run.ok_noFault _ _
  | succ fuel ih =>
    unfold encodeLoop
    split
    · exact h.encNext_noFault.andThen (encNext_sound h) fun _ _ hm => ih hm
    · exact Run.ok_noFault _ _

theorem State.Sound.descend_noFault (fuel : Nat) (n : NodeIdx) (h : s.Sound ordered) : (descend fuel n s).NoFault := by
  induction fuel generalizing n s with
  | zero =>
    unfold descend
    split <;> exact Run.ok_noFault _ _
  | succ fuel ih =>
    unfold descend
    split
    · exact Run.ok_noFault _ _
    · refine (getBit_noFault h.cursors.1).andThen (getBit_sound h) fun r m hm => ?_
      cases r with
      | none => exact Run.ok_noFault _ _
      | some c => exact ih _ hm

theorem State.Sound.reachLeaf_noFault (h : s.Sound ordered) : (reachLeaf s).NoFault := by
  unfold reachLeaf
  split
  · exact (getBit_noFault h.cursors.1).andThen_of_ok fun _ _ _ => Run.ok_noFault _ _
  · exact h.descend_noFault _ _

/-- Reaching a leaf, wherever it ends, changes only IN_POS and the BitReader. -/
theorem reachLeaf_ends (s : State) :
    (reachLeaf s).Ends fun t => t = { s with inPos := t.inPos, brBuf := t.brBuf, brCnt := t.brCnt } := by
  unfold reachLeaf
  split
  · exact (getBit_ends s).andThen fun _ _ hm => hm
  · exact descend_ends _ _ s

/-- The room for the symbol is checked before its leaf is looked for, which writes no OUT (R202). -/
theorem State.Sound.decSym_noFault (h : s.Sound ordered) : (decSym s).NoFault := by
  unfold decSym
  split
  · exact Run.err_noFault _ _ _
  · refine (checkRoom_noFault 1 s).andThen_of_ok fun _ m hm => ?_
    obtain ⟨rfl, hlt⟩ := outPos_lt_of_checkRoom hm
    refine h.reachLeaf_noFault.andThen (reachLeaf_ends m) fun leaf t ht => ?_
    cases leaf with
    | none => exact Run.err_noFault _ _ _
    | some n =>
      have hroom : t.outPos.toNat < t.outCap.toNat := by
        rw [ht]
        exact hlt
      exact (memWriteOut_noFault hroom _).andThen_of_ok fun _ _ _ => Run.ok_noFault _ _

theorem State.Sound.decodeLoop_noFault (fuel : Nat) (h : s.Sound ordered) : (decodeLoop fuel s).NoFault := by
  induction fuel generalizing s with
  | zero => exact Run.ok_noFault _ _
  | succ fuel ih =>
    unfold decodeLoop
    split
    · exact h.decSym_noFault.andThen (decSym_sound h) fun _ _ hm => ih hm
    · exact Run.ok_noFault _ _

/-! ## Whole files -/

theorem State.Sound.encodeFile_noFault (h : s.Sound ordered) : (encodeFile s).NoFault :=
  (Run.ok_noFault () _).andThen (freqClear_sound h.startEncode) fun _ _ h1 =>
    h1.freqScan_noFault.andThen (freqScan_sound h1) fun _ m h2 =>
    (freqHdrWr_noFault m).andThen (freqHdrWr_sound h2) fun _ m h3 =>
    (treeBuild_noFault m).effect.andThen (Run.effect_ends.2 (treeBuild_sound h3)) fun _ _ h4 =>
    h4.codeGen_noFault.effect.andThen (Run.effect_ends.2 (codeGen_sound h4)) fun _ _ h5 =>
    ((h5.setInPos _).encodeLoop_noFault _).andThen_of_ok fun _ m _ =>
    (bwFinalize_noFault m).effect.andThen_of_ok fun _ _ _ => Run.ok_noFault _ _

theorem State.Sound.decodeFile_noFault (h : s.Sound ordered) : (decodeFile s).NoFault := by
  refine h.startDecode.freqHdrRd_noFault.andThen (freqHdrRd_sound h.startDecode) fun _ m h1 =>
    (treeBuild_noFault m).effect.andThen (Run.effect_ends.2 (treeBuild_sound h1)) fun _ m h2 => ?_
  split
  · exact Run.ok_noFault _ _
  · exact (h2.decodeLoop_noFault _).andThen_of_ok fun _ _ _ => Run.ok_noFault _ _

/-! ## Every command -/

/-- Every command completes from a state within the bounds (R60, R236). -/
theorem State.Sound.exec_completes (h : s.Sound ordered) (i : Instr) : Completes (exec i s) := by
  cases i with
  | nop | softReset | clrErr | freqClear | arenaClear | heapClear | bwReset | brReset => exact ⟨_, rfl⟩
  | freqScan => exact complete_completes h.freqScan_noFault
  | freqHdrWr => exact complete_completes (freqHdrWr_noFault s)
  | freqHdrRd => exact complete_completes h.freqHdrRd_noFault
  | nodeLeaf sym => exact h.execNodeLeaf_completes sym
  | nodeJoin a b => exact h.execNodeJoin_completes a b
  | heapInsert i => exact h.execHeapInsert_completes i
  | heapExtract => exact execHeapExtract_completes s
  | treeBuild => exact completeWith_completes (treeBuild_noFault s)
  | codeGen => exact completeWith_completes h.codeGen_noFault
  | bwPut n val =>
    refine complete_completes ((checkRoom_noFault _ s).andThen_of_ok fun _ m hm => ?_)
    obtain ⟨hroom, rfl⟩ := checkRoom_eq_ok.1 hm
    exact h.putBits_noFault (by simpa [putBitsOf] using hroom)
  | bwFinalize => exact completeWith_completes (bwFinalize_noFault s)
  | brGet => exact completeWith_completes ((getBit_noFault h.cursors.1).andThen_of_ok fun _ _ _ => Run.ok_noFault _ _)
  | encSym sym => exact h.execEncSym_completes sym
  | encNext => exact completeWith_completes h.encNext_noFault
  | decSym => exact completeWith_completes h.decSym_noFault
  | encode => exact completeWith_completes h.encodeFile_noFault
  | decode => exact completeWith_completes h.decodeFile_noFault

end

/-- Settles O57: an idle turn changes nothing, an illegal word takes an error, and a legal command completes, with PENDING and
DONE as every command leaves them. -/
theorem pendingCommandAlwaysCompletes : Obligations.PendingCommandAlwaysCompletes := by
  intro s hbounded
  cases hp : s.pending with
  | none => exact ⟨s, sequencerTurn_idle hp, hp, fun hne => absurd rfl hne⟩
  | some w =>
    cases hd : Sys2Proof.decode w with
    | none => exact ⟨_, sequencerTurn_illegal hp hd, rfl, fun _ => rfl⟩
    | some i =>
      obtain ⟨t, ht⟩ := (State.sound_false_iff.2 hbounded).exec_completes i
      obtain ⟨-, -, -, -, -, hpending, hdone, -⟩ := commandsKeepInputAndParameters i s t ht
      exact ⟨t, (sequencerTurn_legal hp hd).trans ht, hpending, fun _ => hdone⟩

end Sys2Proof.Machine
end

section
/-! SUPPORT. Acceptance of a command word (R235): the three arms of a host write to CMD. -/

namespace Sys2Proof.Machine

section
variable {s : State} {w : Word}

/-- The opcodes that acceptance passes while ERR = 1. -/
theorem acceptedInError_iff {opc : BitVec 8} : acceptedInError opc = true ↔ opc ∈ [0x00#8, 0x01#8, 0x02#8] := by
  simp [acceptedInError, or_assoc]

theorem present_busy {p : Word} (hp : s.pending = some p) : present w s = { s with ovr := true } := by
  rw [present, State.busy, hp]
  rfl

theorem present_rejected (hp : s.pending = none) (herr : s.err = true) (hopc : opcodeOf w ∉ [0x00#8, 0x01#8, 0x02#8]) :
    present w s = { s with rej := true } := by
  have hnot : acceptedInError (opcodeOf w) = false := Bool.eq_false_iff.2 fun h => hopc (acceptedInError_iff.1 h)
  rw [present, State.busy, hp, herr, hnot]
  rfl

theorem present_accepted (hp : s.pending = none) (h : s.err = false ∨ opcodeOf w ∈ [0x00#8, 0x01#8, 0x02#8]) :
    present w s = { s with done := false, pending := some w } := by
  have hpass : (s.err && !acceptedInError (opcodeOf w)) = false := by
    obtain herr | hopc := h
    · rw [herr, Bool.false_and]
    · rw [acceptedInError_iff.2 hopc, Bool.not_true, Bool.and_false]
  rw [present, State.busy, hp, hpass]
  rfl

end

/-- Settles O7: the write reaches CMD, where BUSY, ERR and the opcode choose the arm; an illegal pending word then takes
ERR_ILLEGAL_CMD. -/
theorem cmdWriteIsAcceptedDroppedOrRejected : Obligations.CmdWriteIsAcceptedDroppedOrRejected := by
  intro s w rest hev
  have hstep : step s = .next (present w { s with events := rest }) := step_regWrite hev (by decide) (by decide)
  rw [hstep]
  refine ⟨fun p hp => ?_, fun hp herr hopc => ?_, fun hp haccepted => ⟨?_, fun hillegal => ?_⟩⟩
  · exact congrArg _ (present_busy (s := { s with events := rest }) hp)
  · exact congrArg _ (present_rejected (s := { s with events := rest }) hp herr hopc)
  · exact congrArg _ (present_accepted (s := { s with events := rest }) hp haccepted)
  · rw [sequencerTurn_illegal rfl hillegal, hp]
    rfl

end Sys2Proof.Machine
end

section
/-! SUPPORT. Host accesses while BUSY = 1 (R265, R266): what a read gives, and which writes are dropped, taken or ignored. -/

namespace Sys2Proof.Machine

/-! ## Offsets of the map (R23) -/

/-- The offsets below 0x0400 are those of the named registers, and of reserved ones above them. -/
theorem regAt_named {off : Nat} (h : off < 0x0400) : regAt off = namedRegs.getD (off / 4) .reserved := by
  rw [regAt, if_pos h]

/-- No register of a window keeps its value readable while BUSY = 1 (R266). -/
theorem steady_regAt_window {off : Nat} (h : 0x0400 ≤ off ∧ off < 0x4FF0) : (regAt off).steady = false := by
  rw [regAt, if_neg (by omega)]
  split
  · rfl
  · split
    · rfl
    · split
      · rfl
      · split
        · rfl
        · rw [if_pos h.2]
          rfl

/-- The named registers that R266 does not list, by their place in the map. -/
theorem steady_namedRegs : ∀ i < 21, i ∉ [0, 2, 3, 9, 10] → (namedRegs.getD i .reserved).steady = false := by decide

/-- The named registers that a write does not change (R23, R265), by their place in the map. -/
theorem hostWrite_namedRegs_readOnly {i : Nat} (hi : i < 21) (hro : i ∈ [0, 4, 5] ∨ 9 ≤ i) (v : Word) (s : State) :
    hostWrite (namedRegs.getD i .reserved) v s = s := by
  obtain hlisted | hhigh := hro
  · simp only [List.mem_cons, List.not_mem_nil, or_false] at hlisted
    obtain rfl | rfl | rfl := hlisted <;> rfl
  · interval_cases i <;> rfl

/-! ## Reads (R266) -/

theorem hostRead_steady {r : Reg} (h : r.steady = true) (s : State) : hostRead r s = { s with hostData := s.readReg r } := by
  rw [hostRead, h, Bool.not_true, Bool.and_false]
  rfl

theorem hostRead_busy {r : Reg} (h : r.steady = false) {s : State} (hp : s.pending ≠ none) :
    hostRead r s = { s with hostData := Config.busyRead s.freeCnt, freeCnt := s.freeCnt + 1 } := by
  rw [hostRead, h, busy_of_pending hp]
  rfl

/-- A host read reaches its register (R76), whether or not the machine is idle. -/
theorem step_regRead_hostRead {s : State} {off : Nat} {rest : List Event} (hev : s.events = .host (.regRead 4 off) :: rest)
    (hoff : off < 0x5000) (halign : off % 4 = 0) : step s = .next (hostRead (regAt off) { s with events := rest }) := by
  rw [step_cons hev, takeEvent_regRead, busAccess_ok _ _ hoff halign]

/-- Settles O11: a read reaches its register, and R266 goes by whether that register is one of the steady ones. -/
theorem busyReadsAreUnspecified : Obligations.BusyReadsAreUnspecified := by
  intro s w off rest hp hev halign
  have steady : ∀ {o : Nat} (r : Reg), regAt o = r ∧ o < 0x5000 ∧ r.steady = true → off = o →
      step s = .next { s with events := rest, hostData := s.readReg r } := by
    rintro o r ⟨rfl, hoff, hsteady⟩ rfl
    rw [step_regRead_hostRead hev hoff halign, hostRead_steady hsteady]
    rfl
  have hpending : s.pending ≠ none := by simp [hp]
  refine ⟨steady .id (by decide), steady .status (by decide), steady .ctrl (by decide), steady .inSize (by decide),
    steady .outCap (by decide), fun hoff => ?_⟩
  have hunsteady : (regAt off).steady = false := by
    by_cases hnamed : off < 0x0400
    · rw [regAt_named hnamed]
      refine steady_namedRegs _ (by omega) ?_
      simp only [List.mem_cons, List.not_mem_nil, or_false]
      omega
    · exact steady_regAt_window (by omega)
  rw [step_regRead_hostRead hev (by omega) halign]
  exact congrArg _ (hostRead_busy hunsteady (s := { s with events := rest }) hpending)

/-! ## Writes (R265) -/

/-- A guarded write of a busy machine is dropped (R265). -/
theorem guarded_busy {s : State} (hp : s.pending ≠ none) (taken : State) : guarded s taken = { s with ovr := true } := by
  rw [guarded, if_pos (busy_of_pending hp)]

/-- While BUSY = 1 a write at the offset of a guarded register sets OVR only (R265). -/
theorem hostWrite_guarded_busy {off : Nat}
    (h : off = 0x0004 ∨ off = 0x0018 ∨ off = 0x001C ∨ off = 0x0020 ∨ (0x0400 ≤ off ∧ off < 0x0800)) (v : Word) {s : State}
    (hp : s.pending ≠ none) : hostWrite (regAt off) v s = { s with ovr := true } := by
  rcases h with rfl | rfl | rfl | rfl | ⟨hlow, hhigh⟩
  · obtain ⟨w, hw⟩ := Option.ne_none_iff_exists'.1 hp
    exact present_busy hw
  · exact guarded_busy hp _
  · exact guarded_busy hp _
  · exact guarded_busy hp _
  · rw [regAt, if_neg (by omega), if_pos hhigh]
    exact guarded_busy hp _

/-- A write of STATUS clears DONE where bit 1 of the value is 1, and changes nothing else (R27). -/
theorem hostWrite_status (v : Word) (s : State) : hostWrite .status v s = { s with done := s.done && !v.getLsbD 1 } := by
  rw [hostWrite]
  split
  · rename_i h
    rw [h, Bool.not_true, Bool.and_false]
  · rename_i h
    rw [Bool.eq_false_iff.2 h, Bool.not_false, Bool.and_true]

/-- A write at a read-only or reserved offset changes nothing (R48, R265). -/
theorem hostWrite_ignored {off : Nat} (halign : off % 4 = 0)
    (h : off = 0x0000 ∨ off = 0x0010 ∨ off = 0x0014 ∨ (0x0024 ≤ off ∧ off < 0x0400) ∨ 0x0800 ≤ off) (v : Word) (s : State) :
    hostWrite (regAt off) v s = s := by
  by_cases hwindow : 0x0800 ≤ off
  · exact hostWrite_readOnly hwindow v s
  · by_cases hnamed : off < 0x0054
    · rw [regAt_named (by omega)]
      refine hostWrite_namedRegs_readOnly (by omega) ?_ v s
      simp only [List.mem_cons, List.not_mem_nil, or_false]
      omega
    · rw [regAt_reserved halign (by omega)]
      rfl

/-- Settles O8: a write reaches its register, whose class (guarded, STATUS, CTRL, read-only or reserved) says what it does. -/
theorem guardedWritesAreDroppedWhileBusy : Obligations.GuardedWritesAreDroppedWhileBusy := by
  intro s off v rest hev halign hoff
  rw [step_regWrite hev hoff halign]
  refine ⟨fun hp h => ?_, ?_, ?_, fun h => ?_⟩
  · exact congrArg _ (hostWrite_guarded_busy h v (s := { s with events := rest }) hp)
  · rintro rfl
    exact congrArg _ (hostWrite_status v { s with events := rest })
  · rintro rfl
    rfl
  · exact congrArg _ (hostWrite_ignored halign h v { s with events := rest })

end Sys2Proof.Machine
end
